-- ==== Sys2Proof/Word.lean ====
section
/-! DEFINITION. The machine's words: a 256-bit general-register value (rules R7, R20), a byte
(R70), a 16-bit address (R21) and a 32-bit command word (R100). -/

namespace Sys2Proof

/-- A 256-bit value of a general register (R20). -/
abbrev Word := BitVec 256

/-- A byte of `MEM` (R70). -/
abbrev Byte := BitVec 8

/-- A byte address of `MEM`, or an element count, in an address register (R21, R70). -/
abbrev Addr := BitVec 16

/-- A command word (R100). -/
abbrev CmdWord := BitVec 32

end Sys2Proof
end

