-- ==== Sys2Proof/Config.lean ====
section
/-! DEFINITION. What an implementation fixes (rules R7, R9, R52): the fixed parameters as
definitions, the open parameters `P2ROM` and `Nonce` as constants without a body, so that no proof
can rest on a value of theirs. -/

namespace Sys2Proof.Config

/-- `MEMSIZE`, the bytes of the local memory (R7, R70). -/
def memSize : Nat := 65536

/-- `R`, the Montgomery radix (R7). -/
def radix : Nat := 2 ^ 256

/-- `KRATE`, the Keccak-256 rate in bytes (R7, R240). -/
def kRate : Nat := 136

/-- `SIGN_MAX_RETRY` (R7, R285). -/
def signMaxRetry : Nat := 255

/-- The S-box degree `D`, one of 3, 5, 7, 11 (R300). -/
inductive SboxDegree
  | three
  | five
  | seven
  | eleven
deriving DecidableEq, Repr, Inhabited

/-- A Poseidon2 instance (R300), held so that its constraints are met by construction: `P` is an odd
prime below `2^256`, `2 ≤ T ≤ 16`, `RF` is even and at least 2, and every table entry lies in
`[0, P)`. The rule's fields are read by `P2Rom.P`, `P2Rom.T`, `P2Rom.D`, `P2Rom.RF`, `P2Rom.RP`,
`P2Rom.matExt`, `P2Rom.diagM1` and `P2Rom.rc`. -/
structure P2Rom where
  prime : Nat.Primes
  tMinus2 : Fin 15
  degree : SboxDegree
  rfHalfMinus1 : Nat
  rp : Nat
  rawMatExt : Nat → Nat → Nat
  rawDiagM1 : Nat → Nat
  rawRc : Nat → Nat → Nat
deriving Inhabited

/-- `P2ROM.P`: the field the instance is defined over, any odd prime below `2^256`; a prime that is
not one gives way to 3 (R300). -/
def P2Rom.P (r : P2Rom) : Nat :=
  if 3 ≤ r.prime.val ∧ r.prime.val < 2 ^ 256 then r.prime.val else 3

/-- `P2ROM.T`: the state width t (R300). -/
def P2Rom.T (r : P2Rom) : Nat := r.tMinus2.val + 2

/-- `P2ROM.D`: the S-box degree d (R300). -/
def P2Rom.D (r : P2Rom) : Nat :=
  match r.degree with
  | .three => 3
  | .five => 5
  | .seven => 7
  | .eleven => 11

/-- `P2ROM.RF`: the number of full rounds (R300). -/
def P2Rom.RF (r : P2Rom) : Nat := 2 * (r.rfHalfMinus1 + 1)

/-- `P2ROM.RP`: the number of partial rounds (R300). -/
def P2Rom.RP (r : P2Rom) : Nat := r.rp

/-- `P2ROM.MAT_EXT[i][j]` (R300). -/
def P2Rom.matExt (r : P2Rom) (i j : Nat) : Nat := r.rawMatExt i j % r.P

/-- `P2ROM.DIAG_M_1[i]` (R300). -/
def P2Rom.diagM1 (r : P2Rom) (i : Nat) : Nat := r.rawDiagM1 i % r.P

/-- `P2ROM.RC[round][i]` (R300). -/
def P2Rom.rc (r : P2Rom) (round i : Nat) : Nat := r.rawRc round i % r.P

/-- `P2ROM`, the Poseidon2 instance of the engine's parameter ROM: an open parameter (R9, R52,
R300). FREE VALUE (log entry 3). -/
opaque p2rom : P2Rom

/-- Which instance of the open parameter `Nonce` the engine has (R9, R282): `none` is the default
instance of rule R342, `some g` any other, from which `Machine.nonce` makes a function that meets
the contract of rule R282. The arguments are `n sk h ctr`. FREE VALUE (log entry 4). -/
opaque nonceInstance : Option (Nat → Nat → Nat → Nat → Nat)

/-- What the default nonce function gives where its sequence of candidates has no element with the
index asked for, so that rule R342 defines no value (log entry 5). The arguments are `n sk h ctr`.
FREE VALUE. -/
opaque nonceMissing : Nat → Nat → Nat → Nat → Nat

end Sys2Proof.Config
end

