-- ==== Sys2Proof/Syntax.lean ====
section
/-! DEFINITION. The commands: one constructor of `Instr` per row of the opcode map (rule R105).
Operands stand in the order of the *Operands* line of the command's rule (R110). Register numbers,
context bits, control-register numbers and constant selectors are already decoded, so that the
machine never sees a raw field. -/

namespace Sys2Proof

/-- A general register number, `x0` to `x15` (R20, R102). -/
abbrev XReg := Fin 16

/-- An address register number, `a0` to `a7` (R21, R102). -/
abbrev AReg := Fin 8

/-- A point register number, `pt0` to `pt7` (R22, R102). -/
abbrev PReg := Fin 8

/-- The context bit f: 0 selects the base field `F[0]`, 1 the scalar field `F[1]` (R30, R102). -/
inductive Ctx
  | base
  | scalar
deriving DecidableEq, Repr, Inhabited

/-- The control registers of rule R55, with the context bit of those that have one. -/
inductive CtlReg
  | p (f : Ctx)
  | r1 (f : Ctx)
  | r2 (f : Ctx)
  | inv (f : Ctx)
  | s (f : Ctx)
  | gen (f : Ctx)
  | root2 (f : Ctx)
  | valid (f : Ctx)
  | model
  | ca
  | cb
  | gx
  | gy
  | cofactor
  | cofactorInv
  | errval
  | kActive
  | kPos
  | p2T
  | p2D
  | p2RF
  | p2RP
  | p2P
  | psIdx
  | psSqueezed
  | psSqidx
  | psState (i : Fin 16)
deriving DecidableEq, Repr

/-- The constant selector of `FCONST` (R106 item 2, R185). -/
inductive FConst
  | zero
  | one
  | gen
deriving DecidableEq, Repr

/-- The 56 commands of rule R105. -/
inductive Instr
  | nop
  | li (ad : AReg) (imm : BitVec 16)
  | mov (xd xs : XReg)
  | setmod (f : Ctx) (xs : XReg)
  | cfgw (c : CtlReg) (xs : XReg)
  | cfgr (xd : XReg) (c : CtlReg)
  | ldle (xd : XReg) (aa al : AReg)
  | ldbe (xd : XReg) (aa al : AReg)
  | stle (aa : AReg) (xs : XReg)
  | stbe (aa : AReg) (xs : XReg)
  | fldmod (f : Ctx) (xd : XReg) (aa al : AReg)
  | uadd (xd xs1 xs2 : XReg)
  | usub (xd xs1 xs2 : XReg)
  | umul (xdlo xdhi xs1 xs2 : XReg)
  | ushl1 (xd xs : XReg)
  | ushr1 (xd xs : XReg)
  | ucmp (xs1 xs2 : XReg)
  | ubit (xs : XReg) (i : BitVec 8)
  | unumbits (xd xs : XReg)
  | utest (xs : XReg)
  | ffrom (f : Ctx) (xd xs : XReg)
  | finto (f : Ctx) (xd xs : XReg)
  | fadd (f : Ctx) (xd xs1 xs2 : XReg)
  | fsub (f : Ctx) (xd xs1 xs2 : XReg)
  | fneg (f : Ctx) (xd xs : XReg)
  | fmul (f : Ctx) (xd xs1 xs2 : XReg)
  | fsqr (f : Ctx) (xd xs : XReg)
  | fdbl (f : Ctx) (xd xs : XReg)
  | fpow (f : Ctx) (xd xs1 xs2 : XReg)
  | finv (f : Ctx) (xd xs : XReg)
  | fsqrt (f : Ctx) (xd xs : XReg)
  | fconst (f : Ctx) (xd : XReg) (k : FConst)
  | pset (pd : PReg) (xsx xsy : XReg)
  | pinf (pd : PReg)
  | pgen (pd : PReg)
  | pget (xdx xdy : XReg) (ps : PReg)
  | pmov (pd ps : PReg)
  | padd (pd ps1 ps2 : PReg)
  | pdbl (pd ps : PReg)
  | pneg (pd ps : PReg)
  | peq (ps1 ps2 : PReg)
  | pmul (pd ps : PReg) (xs : XReg)
  | pisid (ps : PReg)
  | kinit
  | kupdate (aa al : AReg)
  | kfinal (aa : AReg)
  | hpair (ad aa ab : AReg)
  | mverify
  | mverifym
  | esign (xdr xds xdv xsk xh : XReg)
  | everify (xh xr xs : XReg) (pq : PReg)
  | erecover (xd xh xv xr xs : XReg)
  | p2init
  | p2absorb (xs : XReg)
  | p2squeeze (xd : XReg)
  | p2perm
deriving DecidableEq, Repr

end Sys2Proof
end

