-- ==== Sys2Proof/WellFormed.lean ====
section
/-! DEFINITION. The constraints of rule R106 that the types of `Syntax.lean` do not already carry.
A command word that breaks one is an illegal command (rule R107). -/

namespace Sys2Proof

/-- The register exists in this engine: `PS.STATE[i]` only for `i < P2ROM.T` (R55). -/
def CtlReg.present : CtlReg → Bool
  | .psState i => i.val < Config.p2rom.T
  | _ => true

/-- The register is marked RW in rule R55. -/
def CtlReg.writable : CtlReg → Bool
  | .gen _ => true
  | .root2 _ => true
  | .model => true
  | .ca => true
  | .cb => true
  | .gx => true
  | .gy => true
  | .cofactor => true
  | .cofactorInv => true
  | .psState _ => true
  | _ => false

/-- The extra encoding constraints (R106). -/
def Instr.wf : Instr → Bool
  | .cfgw c _ => c.present && c.writable
  | .cfgr _ c => c.present
  | .umul xdlo xdhi _ _ => xdlo != xdhi
  | .pget xdx xdy _ => xdx != xdy
  | .esign xdr xds xdv _ _ => xdr != xds && xdr != xdv && xds != xdv
  | _ => true

end Sys2Proof
end

