-- ==== Sys2Proof/Decode.lean ====
section
/-! DEFINITION. The command encoding (rules R100 to R112): a total decoder of 32-bit words that
rejects by name, and the encoder of rule R112. -/

namespace Sys2Proof

/-- Why a word is an illegal command (R107). Whichever holds, the engine's outcome is the same
fault `IllegalCommand`; the name serves the reader only (log entry 8). -/
inductive DecodeError
  /-- The opcode is not in the table of rule R105. -/
  | reservedOpcode
  /-- A field that must be zero is not (R101, R102). -/
  | nonzeroField
  /-- An address- or point-register field is above 7 (R102). -/
  | registerField
  /-- The number is no control register of rule R55, or has a context bit it must not have (R106). -/
  | controlNumber
  /-- The selector of `FCONST` is above 2 (R106). -/
  | constantSelector
  /-- One of the other constraints of rule R106 is broken. -/
  | constraint
deriving DecidableEq, Repr

/-- `w[hi:lo]`, the integer made of bits hi down to lo of a command word (R10). -/
def field (w : CmdWord) (hi lo : Nat) : Nat := w.toNat / 2 ^ lo % 2 ^ (hi + 1 - lo)

/-- The general-register index in bits `lo + 3` to `lo` (R102). -/
def xField (w : CmdWord) (lo : Nat) : XReg := Fin.ofNat 16 (field w (lo + 3) lo)

/-- The context bit (R102). -/
def ctxField (w : CmdWord) : Ctx := if field w 8 8 = 1 then .scalar else .base

/-- An address- or point-register index in bits `lo + 3` to `lo`: bit 3 must be 0 (R102). -/
def withSmallField (w : CmdWord) (lo : Nat) (k : Fin 8 → Except DecodeError Instr) :
    Except DecodeError Instr :=
  if field w (lo + 3) (lo + 3) = 0 then k (Fin.ofNat 8 (field w (lo + 2) lo))
  else .error .registerField

/-- Bits hi down to lo are used by the command, or zero. -/
def usedOrZero (w : CmdWord) (used : Bool) (hi lo : Nat) : Bool := used || field w hi lo == 0

/-- Format Z: all bits below the opcode are zero (R101). -/
def formatZ (w : CmdWord) (k : Except DecodeError Instr) : Except DecodeError Instr :=
  if usedOrZero w false 23 0 then k else .error .nonzeroField

/-- Format I: bits 19 to 16 are zero (R101). -/
def formatI (w : CmdWord) (k : Except DecodeError Instr) : Except DecodeError Instr :=
  if usedOrZero w false 19 16 then k else .error .nonzeroField

/-- Format R: every field that the command does not use is zero (R101, R102). -/
def formatR (w : CmdWord) (rd rs1 rs2 f : Bool) (k : Except DecodeError Instr) :
    Except DecodeError Instr :=
  if usedOrZero w rd 23 20 && usedOrZero w rs1 19 16 && usedOrZero w rs2 15 12 &&
    usedOrZero w false 11 9 && usedOrZero w f 8 8 && usedOrZero w false 7 0
  then k else .error .nonzeroField

/-- Format C: every field that the command does not use is zero (R101, R102). -/
def formatC (w : CmdWord) (rd rs1 f : Bool) (k : Except DecodeError Instr) :
    Except DecodeError Instr :=
  if usedOrZero w rd 23 20 && usedOrZero w rs1 19 16 && usedOrZero w false 15 12 &&
    usedOrZero w false 11 9 && usedOrZero w f 8 8
  then k else .error .nonzeroField

/-- Format Q: the last used field ends at bit `low`, and every bit below it is zero (R101). -/
def formatQ (w : CmdWord) (low : Nat) (k : Except DecodeError Instr) : Except DecodeError Instr :=
  if usedOrZero w false (low - 1) 0 then k else .error .nonzeroField

/-- The control register with number `c` and context bit f (R55): a context bit of 1 is legal only
for the numbers 0x00 to 0x07. -/
def ctlReg (f : Ctx) (c : Nat) : Option CtlReg :=
  match c with
  | 0x00 => some (.p f)
  | 0x01 => some (.r1 f)
  | 0x02 => some (.r2 f)
  | 0x03 => some (.inv f)
  | 0x04 => some (.s f)
  | 0x05 => some (.gen f)
  | 0x06 => some (.root2 f)
  | 0x07 => some (.valid f)
  | _ =>
    match f with
    | .scalar => none
    | .base =>
      match c with
      | 0x10 => some .model
      | 0x11 => some .ca
      | 0x12 => some .cb
      | 0x13 => some .gx
      | 0x14 => some .gy
      | 0x15 => some .cofactor
      | 0x16 => some .cofactorInv
      | 0x20 => some .errval
      | 0x28 => some .kActive
      | 0x29 => some .kPos
      | 0x30 => some .p2T
      | 0x31 => some .p2D
      | 0x32 => some .p2RF
      | 0x33 => some .p2RP
      | 0x34 => some .p2P
      | 0x38 => some .psIdx
      | 0x39 => some .psSqueezed
      | 0x3A => some .psSqidx
      | _ => if 0x40 ≤ c ∧ c < 0x50 then some (.psState (Fin.ofNat 16 (c - 0x40))) else none

/-- The control register that the word names (R55, R103). -/
def withCtlField (w : CmdWord) (k : CtlReg → Except DecodeError Instr) : Except DecodeError Instr :=
  match ctlReg (ctxField w) (field w 7 0) with
  | some c => k c
  | none => .error .controlNumber

/-- The constant that the word selects (R106 item 2, R185). -/
def withConstField (w : CmdWord) (k : FConst → Except DecodeError Instr) :
    Except DecodeError Instr :=
  match field w 7 0 with
  | 0 => k .zero
  | 1 => k .one
  | 2 => k .gen
  | _ => .error .constantSelector

/-- The command, if it meets the constraints of rule R106. -/
def checked (i : Instr) : Except DecodeError Instr := if i.wf then .ok i else .error .constraint

/-- The decoder (R105 to R107), one arm per row of the opcode map. -/
def decode (w : CmdWord) : Except DecodeError Instr :=
  let x := xField w
  let a := withSmallField w
  let f := ctxField w
  match field w 31 24 with
  | 0x00 => formatZ w (.ok .nop)
  | 0x01 => formatI w (a 20 fun ad => .ok (.li ad (BitVec.ofNat 16 (field w 15 0))))
  | 0x02 => formatR w true true false false (.ok (.mov (x 20) (x 16)))
  | 0x03 => formatR w false true false true (.ok (.setmod f (x 16)))
  | 0x04 => formatC w false true true (withCtlField w fun c => checked (.cfgw c (x 16)))
  | 0x05 => formatC w true false true (withCtlField w fun c => checked (.cfgr (x 20) c))
  | 0x10 => formatR w true true true false (a 16 fun aa => a 12 fun al => .ok (.ldle (x 20) aa al))
  | 0x11 => formatR w true true true false (a 16 fun aa => a 12 fun al => .ok (.ldbe (x 20) aa al))
  | 0x12 => formatR w false true true false (a 16 fun aa => .ok (.stle aa (x 12)))
  | 0x13 => formatR w false true true false (a 16 fun aa => .ok (.stbe aa (x 12)))
  | 0x14 => formatR w true true true true (a 16 fun aa => a 12 fun al => .ok (.fldmod f (x 20) aa al))
  | 0x20 => formatR w true true true false (.ok (.uadd (x 20) (x 16) (x 12)))
  | 0x21 => formatR w true true true false (.ok (.usub (x 20) (x 16) (x 12)))
  | 0x22 => formatQ w 8 (checked (.umul (x 20) (x 16) (x 12) (x 8)))
  | 0x23 => formatR w true true false false (.ok (.ushl1 (x 20) (x 16)))
  | 0x24 => formatR w true true false false (.ok (.ushr1 (x 20) (x 16)))
  | 0x25 => formatR w false true true false (.ok (.ucmp (x 16) (x 12)))
  | 0x26 => formatC w false true false (.ok (.ubit (x 16) (BitVec.ofNat 8 (field w 7 0))))
  | 0x27 => formatR w true true false false (.ok (.unumbits (x 20) (x 16)))
  | 0x28 => formatR w false true false false (.ok (.utest (x 16)))
  | 0x30 => formatR w true true false true (.ok (.ffrom f (x 20) (x 16)))
  | 0x31 => formatR w true true false true (.ok (.finto f (x 20) (x 16)))
  | 0x32 => formatR w true true true true (.ok (.fadd f (x 20) (x 16) (x 12)))
  | 0x33 => formatR w true true true true (.ok (.fsub f (x 20) (x 16) (x 12)))
  | 0x34 => formatR w true true false true (.ok (.fneg f (x 20) (x 16)))
  | 0x35 => formatR w true true true true (.ok (.fmul f (x 20) (x 16) (x 12)))
  | 0x36 => formatR w true true false true (.ok (.fsqr f (x 20) (x 16)))
  | 0x37 => formatR w true true false true (.ok (.fdbl f (x 20) (x 16)))
  | 0x38 => formatR w true true true true (.ok (.fpow f (x 20) (x 16) (x 12)))
  | 0x39 => formatR w true true false true (.ok (.finv f (x 20) (x 16)))
  | 0x3A => formatR w true true false true (.ok (.fsqrt f (x 20) (x 16)))
  | 0x3B => formatC w true false true (withConstField w fun k => .ok (.fconst f (x 20) k))
  | 0x40 => formatR w true true true false (a 20 fun pd => .ok (.pset pd (x 16) (x 12)))
  | 0x41 => formatR w true false false false (a 20 fun pd => .ok (.pinf pd))
  | 0x42 => formatR w true false false false (a 20 fun pd => .ok (.pgen pd))
  | 0x43 => formatQ w 12 (a 12 fun ps => checked (.pget (x 20) (x 16) ps))
  | 0x44 => formatR w true true false false (a 20 fun pd => a 16 fun ps => .ok (.pmov pd ps))
  | 0x45 => formatR w true true true false
      (a 20 fun pd => a 16 fun ps1 => a 12 fun ps2 => .ok (.padd pd ps1 ps2))
  | 0x46 => formatR w true true false false (a 20 fun pd => a 16 fun ps => .ok (.pdbl pd ps))
  | 0x47 => formatR w true true false false (a 20 fun pd => a 16 fun ps => .ok (.pneg pd ps))
  | 0x48 => formatR w false true true false (a 16 fun ps1 => a 12 fun ps2 => .ok (.peq ps1 ps2))
  | 0x49 => formatR w true true true false (a 20 fun pd => a 16 fun ps => .ok (.pmul pd ps (x 12)))
  | 0x4A => formatR w false true false false (a 16 fun ps => .ok (.pisid ps))
  | 0x50 => formatZ w (.ok .kinit)
  | 0x51 => formatR w false true true false (a 16 fun aa => a 12 fun al => .ok (.kupdate aa al))
  | 0x52 => formatR w false true false false (a 16 fun aa => .ok (.kfinal aa))
  | 0x58 => formatR w true true true false
      (a 20 fun ad => a 16 fun aa => a 12 fun ab => .ok (.hpair ad aa ab))
  | 0x59 => formatZ w (.ok .mverify)
  | 0x5A => formatZ w (.ok .mverifym)
  | 0x60 => formatQ w 4 (checked (.esign (x 20) (x 16) (x 12) (x 8) (x 4)))
  | 0x61 => formatQ w 8 (a 8 fun pq => .ok (.everify (x 20) (x 16) (x 12) pq))
  | 0x62 => formatQ w 4 (.ok (.erecover (x 20) (x 16) (x 12) (x 8) (x 4)))
  | 0x70 => formatZ w (.ok .p2init)
  | 0x71 => formatR w false true false false (.ok (.p2absorb (x 16)))
  | 0x72 => formatR w true false false false (.ok (.p2squeeze (x 20)))
  | 0x73 => formatZ w (.ok .p2perm)
  | _ => .error .reservedOpcode

/-- The instruction the decoder reads from an instruction whose `nbits` bits are `w`, numbered as
`spec/opcode_table.json` numbers them: one 32-bit word, every bit above `nbits` zero. -/
def decodeTableWord (nbits w : Nat) : Option Instr :=
  match decode (BitVec.ofNat 32 (w % 2 ^ nbits)) with
  | .ok i => some i
  | .error _ => none

/-- The context bit as a number (R102). -/
def ctxBit : Ctx → Nat
  | .base => 0
  | .scalar => 1

/-- The number of a control register (R55). -/
def ctlNumber : CtlReg → Nat
  | .p _ => 0x00
  | .r1 _ => 0x01
  | .r2 _ => 0x02
  | .inv _ => 0x03
  | .s _ => 0x04
  | .gen _ => 0x05
  | .root2 _ => 0x06
  | .valid _ => 0x07
  | .model => 0x10
  | .ca => 0x11
  | .cb => 0x12
  | .gx => 0x13
  | .gy => 0x14
  | .cofactor => 0x15
  | .cofactorInv => 0x16
  | .errval => 0x20
  | .kActive => 0x28
  | .kPos => 0x29
  | .p2T => 0x30
  | .p2D => 0x31
  | .p2RF => 0x32
  | .p2RP => 0x33
  | .p2P => 0x34
  | .psIdx => 0x38
  | .psSqueezed => 0x39
  | .psSqidx => 0x3A
  | .psState i => 0x40 + i.val

/-- The context bit with which a control register is named (R55). -/
def ctlCtx : CtlReg → Ctx
  | .p f => f
  | .r1 f => f
  | .r2 f => f
  | .inv f => f
  | .s f => f
  | .gen f => f
  | .root2 f => f
  | .valid f => f
  | _ => .base

/-- The selector of a constant (R185). -/
def constNumber : FConst → Nat
  | .zero => 0
  | .one => 1
  | .gen => 2

/-- Format I (R101, R112). -/
def encodeI (op rd imm : Nat) : CmdWord := BitVec.ofNat 32 (op * 2 ^ 24 + rd * 2 ^ 20 + imm)

/-- Formats R and Z (R101, R112): a field not used is 0. -/
def encodeR (op rd rs1 rs2 f : Nat) : CmdWord :=
  BitVec.ofNat 32 (op * 2 ^ 24 + rd * 2 ^ 20 + rs1 * 2 ^ 16 + rs2 * 2 ^ 12 + f * 2 ^ 8)

/-- Format C (R101, R112): a field not used is 0. -/
def encodeC (op rd rs1 f imm : Nat) : CmdWord :=
  BitVec.ofNat 32 (op * 2 ^ 24 + rd * 2 ^ 20 + rs1 * 2 ^ 16 + f * 2 ^ 8 + imm)

/-- Format Q (R101, R112): a field not used is 0. -/
def encodeQ (op q1 q2 q3 q4 q5 : Nat) : CmdWord :=
  BitVec.ofNat 32
    (op * 2 ^ 24 + q1 * 2 ^ 20 + q2 * 2 ^ 16 + q3 * 2 ^ 12 + q4 * 2 ^ 8 + q5 * 2 ^ 4)

/-- The encoder (R105, R112). -/
def encode : Instr → CmdWord
  | .nop => encodeR 0x00 0 0 0 0
  | .li ad imm => encodeI 0x01 ad imm.toNat
  | .mov xd xs => encodeR 0x02 xd xs 0 0
  | .setmod f xs => encodeR 0x03 0 xs 0 (ctxBit f)
  | .cfgw c xs => encodeC 0x04 0 xs (ctxBit (ctlCtx c)) (ctlNumber c)
  | .cfgr xd c => encodeC 0x05 xd 0 (ctxBit (ctlCtx c)) (ctlNumber c)
  | .ldle xd aa al => encodeR 0x10 xd aa al 0
  | .ldbe xd aa al => encodeR 0x11 xd aa al 0
  | .stle aa xs => encodeR 0x12 0 aa xs 0
  | .stbe aa xs => encodeR 0x13 0 aa xs 0
  | .fldmod f xd aa al => encodeR 0x14 xd aa al (ctxBit f)
  | .uadd xd xs1 xs2 => encodeR 0x20 xd xs1 xs2 0
  | .usub xd xs1 xs2 => encodeR 0x21 xd xs1 xs2 0
  | .umul xdlo xdhi xs1 xs2 => encodeQ 0x22 xdlo xdhi xs1 xs2 0
  | .ushl1 xd xs => encodeR 0x23 xd xs 0 0
  | .ushr1 xd xs => encodeR 0x24 xd xs 0 0
  | .ucmp xs1 xs2 => encodeR 0x25 0 xs1 xs2 0
  | .ubit xs i => encodeC 0x26 0 xs 0 i.toNat
  | .unumbits xd xs => encodeR 0x27 xd xs 0 0
  | .utest xs => encodeR 0x28 0 xs 0 0
  | .ffrom f xd xs => encodeR 0x30 xd xs 0 (ctxBit f)
  | .finto f xd xs => encodeR 0x31 xd xs 0 (ctxBit f)
  | .fadd f xd xs1 xs2 => encodeR 0x32 xd xs1 xs2 (ctxBit f)
  | .fsub f xd xs1 xs2 => encodeR 0x33 xd xs1 xs2 (ctxBit f)
  | .fneg f xd xs => encodeR 0x34 xd xs 0 (ctxBit f)
  | .fmul f xd xs1 xs2 => encodeR 0x35 xd xs1 xs2 (ctxBit f)
  | .fsqr f xd xs => encodeR 0x36 xd xs 0 (ctxBit f)
  | .fdbl f xd xs => encodeR 0x37 xd xs 0 (ctxBit f)
  | .fpow f xd xs1 xs2 => encodeR 0x38 xd xs1 xs2 (ctxBit f)
  | .finv f xd xs => encodeR 0x39 xd xs 0 (ctxBit f)
  | .fsqrt f xd xs => encodeR 0x3A xd xs 0 (ctxBit f)
  | .fconst f xd k => encodeC 0x3B xd 0 (ctxBit f) (constNumber k)
  | .pset pd xsx xsy => encodeR 0x40 pd xsx xsy 0
  | .pinf pd => encodeR 0x41 pd 0 0 0
  | .pgen pd => encodeR 0x42 pd 0 0 0
  | .pget xdx xdy ps => encodeQ 0x43 xdx xdy ps 0 0
  | .pmov pd ps => encodeR 0x44 pd ps 0 0
  | .padd pd ps1 ps2 => encodeR 0x45 pd ps1 ps2 0
  | .pdbl pd ps => encodeR 0x46 pd ps 0 0
  | .pneg pd ps => encodeR 0x47 pd ps 0 0
  | .peq ps1 ps2 => encodeR 0x48 0 ps1 ps2 0
  | .pmul pd ps xs => encodeR 0x49 pd ps xs 0
  | .pisid ps => encodeR 0x4A 0 ps 0 0
  | .kinit => encodeR 0x50 0 0 0 0
  | .kupdate aa al => encodeR 0x51 0 aa al 0
  | .kfinal aa => encodeR 0x52 0 aa 0 0
  | .hpair ad aa ab => encodeR 0x58 ad aa ab 0
  | .mverify => encodeR 0x59 0 0 0 0
  | .mverifym => encodeR 0x5A 0 0 0 0
  | .esign xdr xds xdv xsk xh => encodeQ 0x60 xdr xds xdv xsk xh
  | .everify xh xr xs pq => encodeQ 0x61 xh xr xs pq 0
  | .erecover xd xh xv xr xs => encodeQ 0x62 xd xh xv xr xs
  | .p2init => encodeR 0x70 0 0 0 0
  | .p2absorb xs => encodeR 0x71 0 xs 0 0
  | .p2squeeze xd => encodeR 0x72 xd 0 0 0
  | .p2perm => encodeR 0x73 0 0 0 0

end Sys2Proof
end

