-- ==== Sys2Proof/Machine/Bytes.lean ====
section
/-! DEFINITION. Byte strings and integers (rule R11). A byte string is the list of its bytes,
`B[0]` first. -/

namespace Sys2Proof.Machine

/-- `LE(B)`, the little-endian value of a byte string (R11). -/
def leNat : List Byte → Nat
  | [] => 0
  | b :: bs => b.toNat + 256 * leNat bs

/-- `BE(B)`, the big-endian value of a byte string (R11). -/
def beNat (bs : List Byte) : Nat := leNat bs.reverse

/-- `toLE(v, n)`, the n bytes with little-endian value v, for `v < 2^(8n)` (R11). -/
def toLE (v : Nat) : Nat → List Byte
  | 0 => []
  | n + 1 => BitVec.ofNat 8 (v % 256) :: toLE (v / 256) n

/-- `toBE(v, n)`, the n bytes with big-endian value v, for `v < 2^(8n)` (R11). -/
def toBE (v n : Nat) : List Byte := (toLE v n).reverse

/-- The n words of w bits that a row of a table writes one after the other, the first at the left: the
constants of rules R242 and R340 are held so. -/
def tableRow (w n row : Nat) : List (BitVec w) :=
  (List.range n).map fun i => BitVec.ofNat w (row >>> (w * (n - 1 - i)))

end Sys2Proof.Machine
end

