-- ==== Sys2Proof/Machine/State.lean ====
section
/-! DEFINITION. The state of the engine as plain data (rules R20 to R65), with the host's moves that
are still to come (R23, R60), and the machine right after reset (R65, R400, R401). -/

namespace Sys2Proof.Machine

/-- A point register value `(X, Y, INF)` (R22). -/
structure PointReg where
  X : Word
  Y : Word
  INF : Bool
deriving DecidableEq, Repr

/-- The fields of `ST` (R12, R24, R25): the sticky fault bit, the three result flags, and the
outcome code of the last completed command. -/
structure Status where
  FAULT : Bool
  C : Bool
  Z : Bool
  T : Bool
  ERR : BitVec 8
deriving DecidableEq, Repr

/-- A field context `F[f]` (R30). -/
structure FieldCtx where
  P : Word
  VALID : Bool
  R1 : Word
  R2 : Word
  INV : BitVec 64
  S : Word
  GEN : Word
  ROOT2 : Word
deriving DecidableEq, Repr

/-- `CRV.MODEL`, whose legal values are 0, 1 and 2 (R40, R41; log entry 9). -/
inductive CurveModel
  | weierstrass
  | edwards
  | montgomery
deriving DecidableEq, Repr

/-- The curve configuration `CRV` (R40). -/
structure Curve where
  MODEL : CurveModel
  CA : Word
  CB : Word
  GX : Word
  GY : Word
  COFACTOR : Word
  COFACTOR_INV : Word
deriving DecidableEq, Repr

/-- The Keccak hasher `K` (R50). `POS` is at most 135 by its type. -/
structure Hasher where
  ACTIVE : Bool
  S : Vector Byte 200
  POS : Fin 136
deriving DecidableEq, Repr

/-- The Poseidon2 sponge `PS` (R51). `STATE` has room for the largest width, 16; the slots from
`P2ROM.T` on do not exist in the engine and stay 0 (log entry 7). -/
structure Sponge where
  STATE : Vector Word 16
  IDX : Nat
  SQUEEZED : Bool
  SQIDX : Nat
deriving DecidableEq, Repr

/-- `MEM` (R70): the bytes that differ from what an unlisted address reads as
(`Memory.unlisted`), by strictly rising address (`Memory.wf`). -/
abbrev Memory := List Host.Cell

/-- A host move (R60). -/
inductive HostMove
  | issue (w : CmdWord)
  | readStatus
  | hostRead (addr : Addr)
  | hostWrite (addr : Addr) (b : Byte)
  | reset
deriving DecidableEq, Repr

/-- What the host gets from a move (R60, last column). -/
inductive HostReply
  | nothing
  | status (v : BitVec 32)
  | byte (b : Byte)
deriving DecidableEq, Repr

/-- The state. Every field but the last two is the engine's; `pending` and `reply` are the host's
side of its port: the moves it has yet to make (R23) and what the last one gave it (R60). -/
structure State where
  xreg : Vector Word 16
  areg : Vector Addr 8
  ptreg : Vector PointReg 8
  ST : Status
  ERRVAL : Word
  Fbase : FieldCtx
  Fscalar : FieldCtx
  CRV : Curve
  K : Hasher
  PS : Sponge
  MEM : Memory
  pending : List HostMove
  reply : HostReply
deriving DecidableEq, Repr

/-- The reasons for which the machine stops. It has none: "Nothing in this hardware is `stuck`"
(93_implementation_defined.md, Part 1). The two events that the spec calls faults (R362) are next
states with `ST.FAULT = 1` (log entry 6). -/
inductive Fault
deriving DecidableEq, Repr

/-- The reasons for which the model gives an instruction no meaning. -/
inductive Refusal
  /-- `exec` has no meaning for the instruction yet. No arm raises it. Safe. -/
  | notModelled (mnemonic : String)
deriving DecidableEq, Repr

/-- `(0, 0, INF = 1)` (R22, R65). -/
def PointReg.infinity : PointReg := { X := 0, Y := 0, INF := true }

/-- All flags and the outcome code 0 (R65). -/
def Status.clear : Status := { FAULT := false, C := false, Z := false, T := false, ERR := 0 }

/-- A context with no modulus configured (R65). -/
def FieldCtx.unconfigured : FieldCtx :=
  { P := 0, VALID := false, R1 := 0, R2 := 0, INV := 0, S := 0, GEN := 0, ROOT2 := 0 }

/-- The curve registers after reset (R65). -/
def Curve.clear : Curve :=
  { MODEL := .weierstrass, CA := 0, CB := 0, GX := 0, GY := 0, COFACTOR := 0, COFACTOR_INV := 0 }

/-- The hasher after reset and after `KFINAL` (R65, R246). -/
def Hasher.clear : Hasher := { ACTIVE := false, S := Vector.replicate 200 0, POS := 0 }

/-- The sponge after reset and after `P2INIT` (R65, R310). -/
def Sponge.clear : Sponge :=
  { STATE := Vector.replicate 16 0, IDX := 0, SQUEEZED := false, SQIDX := 0 }

/-- The machine after power-on when `MEM` holds `mem0` (R65, R400, R401: "any 65536 bytes"). -/
def State.powerOn (mem0 : Memory) : State :=
  { xreg := Vector.replicate 16 0
    areg := Vector.replicate 8 0
    ptreg := Vector.replicate 8 PointReg.infinity
    ST := Status.clear
    ERRVAL := 0
    Fbase := FieldCtx.unconfigured
    Fscalar := FieldCtx.unconfigured
    CRV := Curve.clear
    K := Hasher.clear
    PS := Sponge.clear
    MEM := mem0
    pending := []
    reply := .nothing }

/-- The machine right after reset (R65), with the one memory that lists nothing (log entry 1) and no
host move to come (log entry 2). -/
def State.reset : State := State.powerOn []

end Sys2Proof.Machine
end

