-- ==== Sys2Proof/Machine/Ops.lean ====
section
/-! DEFINITION. The state access primitives (rule R12), the outcomes of a command (rules R360 to
R363) and the reset that alone leaves a fault (rules R362, R375, R400). -/

namespace Sys2Proof.Machine

/-! ## Registers (R20, R21, R22) -/

/-- `x[i]` (R12). -/
def State.x (s : State) (i : XReg) : Word := s.xreg.get i

/-- `x[i] <- v` (R12): all 256 bits are written (R20). -/
def State.setX (s : State) (i : XReg) (v : Word) : State := { s with xreg := s.xreg.set i v }

/-- `x[i] <- v` for an integer v, which every rule guarantees to be below `2^256` (R12). -/
def State.setXNat (s : State) (i : XReg) (v : Nat) : State := s.setX i (BitVec.ofNat 256 v)

/-- `a[i]` (R12). -/
def State.a (s : State) (i : AReg) : Addr := s.areg.get i

/-- `a[i] <- v` (R12). -/
def State.setA (s : State) (i : AReg) (v : Addr) : State := { s with areg := s.areg.set i v }

/-- `pt[i]` (R12). -/
def State.pt (s : State) (i : PReg) : PointReg := s.ptreg.get i

/-- `pt[i] <- P` (R12). -/
def State.setPt (s : State) (i : PReg) (P : PointReg) : State :=
  { s with ptreg := s.ptreg.set i P }

/-! ## Field contexts and curve (R30, R40) -/

/-- `F[f]` (R12). -/
def State.F (s : State) : Ctx → FieldCtx
  | .base => s.Fbase
  | .scalar => s.Fscalar

/-- `F[f] <- c`. -/
def State.setF (s : State) (f : Ctx) (c : FieldCtx) : State :=
  match f with
  | .base => { s with Fbase := c }
  | .scalar => { s with Fscalar := c }

/-- `CRV <- c`. -/
def State.setCRV (s : State) (c : Curve) : State := { s with CRV := c }

/-- `K <- k` (R50). -/
def State.setK (s : State) (k : Hasher) : State := { s with K := k }

/-- `PS <- p` (R51). -/
def State.setPS (s : State) (p : Sponge) : State := { s with PS := p }

/-! ## Memory (R70 to R80) -/

/-- What an address that the list does not hold reads as. R401 leaves the contents of `MEM` after
power-on open: `State.powerOn` takes them as an argument, and `State.reset` is the power-on with
nothing listed. DESIGN CHOICE, unsafe (log entry 1). -/
def Memory.unlisted : Byte := 0

/-- The canonical form of a memory: strictly rising addresses below 65536, and no byte that an
unlisted address would read as. -/
abbrev Memory.wf (m : Memory) : Prop :=
  m.Pairwise (fun c d => c.1 < d.1) ∧ ∀ c ∈ m, c.1 < Config.memSize ∧ c.2 ≠ Memory.unlisted

/-- `MEM[a]` (R70). -/
def Memory.read : Memory → Nat → Byte
  | [], _ => Memory.unlisted
  | (k, c) :: m, a => if a = k then c else Memory.read m a

/-- The memory with the cell `(a, b)` in front, unless an unlisted address reads as `b`. -/
def Memory.cons (a : Nat) (b : Byte) (m : Memory) : Memory :=
  if b = Memory.unlisted then m else (a, b) :: m

/-- `MEM[a] <- b` (R70), keeping the canonical form. -/
def Memory.write : Memory → Nat → Byte → Memory
  | [], a, b => Memory.cons a b []
  | (k, c) :: m, a, b =>
    if a < k then Memory.cons a b ((k, c) :: m)
    else if a = k then Memory.cons a b m
    else (k, c) :: Memory.write m a b

/-- `MemRead(addr, n)` (R12). -/
def Memory.readBytes (m : Memory) (addr : Nat) : Nat → List Byte
  | 0 => []
  | n + 1 => m.read addr :: Memory.readBytes m (addr + 1) n

/-- `MemWrite(addr, n, B)` with n the length of B (R12). -/
def Memory.writeBytes (m : Memory) (addr : Nat) : List Byte → Memory
  | [] => m
  | b :: bs => Memory.writeBytes (m.write addr b) (addr + 1) bs

/-- `MEM[addr]` of a state. -/
def State.memRead (s : State) (addr n : Nat) : List Byte := s.MEM.readBytes addr n

/-- `MemWrite` on a state. -/
def State.memWrite (s : State) (addr : Nat) (bs : List Byte) : State :=
  { s with MEM := s.MEM.writeBytes addr bs }

/-- `InRange(addr, n)`, in unbounded integers (R74). -/
def inRange (addr n : Nat) : Bool := addr + n ≤ Config.memSize

/-! ## Outcomes of a command (R360 to R363) -/

/-- The ways in which a command can fail to complete (R363): the operation errors and the two
faults. `InvalidHex` (0x02) and `HashDomain` (0x07) are never raised (R364) and have no
constructor. -/
inductive Err
  | invalidLength
  | notInField
  | notOnCurve
  | invalidSignature
  | invalidSignatureS (s : Word)
  | noConfig
  | badConfigValue
  | spongeSequence
  | invalidScalar
  | arithDomain
  | nonceExhausted
  | illegalCommand
  | accessFault
deriving DecidableEq, Repr

/-- The outcome code (R363). -/
def errCode : Err → BitVec 8
  | .invalidLength => 0x01
  | .notInField => 0x03
  | .notOnCurve => 0x04
  | .invalidSignature => 0x05
  | .invalidSignatureS _ => 0x06
  | .noConfig => 0x10
  | .badConfigValue => 0x11
  | .spongeSequence => 0x12
  | .invalidScalar => 0x13
  | .arithDomain => 0x14
  | .nonceExhausted => 0x15
  | .illegalCommand => 0x80
  | .accessFault => 0x81

/-- The kinds that are faults (R362). -/
def errIsFault : Err → Bool
  | .illegalCommand => true
  | .accessFault => true
  | _ => false

/-- The outcome code of a command that completes (R360, R363). -/
def okCode : BitVec 8 := 0x00

/-- `ST.ERR <- code` (R12). -/
def State.setERR (s : State) (code : BitVec 8) : State := { s with ST := { s.ST with ERR := code } }

/-- `raise E`, the one place where an error or a fault is taken (R12, R361, R362, R374): `ST.ERR`
receives the code, a fault sets the sticky `ST.FAULT`, `InvalidSignatureS(s)` sets `ERRVAL`, and
nothing else changes. -/
def State.raise (s : State) (e : Err) : State :=
  { s with
    ST := { s.ST with ERR := errCode e, FAULT := if errIsFault e then true else s.ST.FAULT }
    ERRVAL := match e with
      | .invalidSignatureS v => v
      | _ => s.ERRVAL }

/-- `Reset()` (R65, R400, R401): every state element takes its reset value but `MEM`, which keeps
its bytes. It is the only way out of a fault (R362, R375). The host's moves to come are not the
engine's and stay. -/
def State.hostReset (s : State) : State :=
  { State.powerOn s.MEM with pending := s.pending }

/-- The outcome of a step of this machine. -/
abbrev Outcome := Host.Outcome State Fault Refusal

/-- How a command ends: with the effect its rule gives and `ST.ERR <- 0` (R360), or with the error
or fault of its first failing check and no other effect (R361, R362). -/
def conclude (s : State) (r : Except Err State) : Outcome :=
  .next (match r with
    | .ok t => t.setERR okCode
    | .error e => s.raise e)

/-- One check of a command (R14): the rest is done only if it holds. -/
@[always_inline, inline] def check {α : Type} (c : Bool) (e : Err) (k : Except Err α) : Except Err α :=
  if c then k else .error e

/-- A result used by the rest of a command, whose error ends the command. -/
def andThen {α β : Type} (r : Except Err α) (k : α → Except Err β) : Except Err β :=
  match r with
  | .ok v => k v
  | .error e => .error e

end Sys2Proof.Machine
end

