-- ==== Sys2Proof/Machine/Flags.lean ====
section
/-! DEFINITION. The three result flags and the `STATUS` register (rules R24, R25, R61). -/

namespace Sys2Proof.Machine

/-- `C <- v` (R24). -/
def State.setC (s : State) (v : Bool) : State := { s with ST := { s.ST with C := v } }

/-- `Z <- v` (R24). -/
def State.setZ (s : State) (v : Bool) : State := { s with ST := { s.ST with Z := v } }

/-- `T <- v` (R24). -/
def State.setT (s : State) (v : Bool) : State := { s with ST := { s.ST with T := v } }

/-- The carry out of a 256-bit addition (R151). -/
def carryOut (a b : Word) : Bool := 2 ^ 256 ≤ a.toNat + b.toNat

/-- The borrow out of a subtraction or comparison (R152, R156). -/
def borrowOut (a b : Word) : Bool := a.toNat < b.toNat

/-- Bit i of a value (R10), false where there is no such bit. -/
def bitOf (a : Word) (i : Nat) : Bool := a.toNat.testBit i

/-- A Boolean as the number 0 or 1. -/
def boolNat (b : Bool) : Nat := if b then 1 else 0

/-- The 32-bit value of `STATUS` between commands (R25): `BUSY` reads 0 there (R61), and the
reserved bits read 0. -/
def State.status (s : State) : BitVec 32 :=
  BitVec.ofNat 32
    (boolNat s.ST.FAULT * 2 + boolNat s.ST.C * 4 + boolNat s.ST.Z * 8 + boolNat s.ST.T * 16 +
      s.ST.ERR.toNat * 256)

end Sys2Proof.Machine
end

