-- ==== Sys2Proof/Machine/ModArith.lean ====
section
/-! DEFINITION. Arithmetic modulo p on unbounded integers: inverses, powers, square roots, the
Montgomery form and its product (rules R13, R30, R133, R171, R181 to R184). -/

namespace Sys2Proof.Machine

/-! ## Inverses -/

/-- The coefficient that the extended Euclidean algorithm finds for its second argument, with the
remainders `r0, r1` and their coefficients `t0, t1`; the first argument bounds the divisions. -/
def euclidCoeff : Nat → Nat → Nat → Int → Int → Int
  | 0, _, _, t0, _ => t0
  | n + 1, r0, r1, t0, t1 =>
    if r1 = 0 then t0 else euclidCoeff n r1 (r0 % r1) t1 (t0 - ((r0 / r1 : Nat) : Int) * t1)

/-- The integer w in `[0, m)` with `a · w ≡ 1 (mod m)`, where `gcd(a, m) = 1` and `1 < m` (R182,
R201). -/
def invMod (a m : Nat) : Nat := (euclidCoeff (m + 1) m (a % m) 0 1 % (m : Int)).toNat

/-- a has an inverse modulo m: the guard `gcd(a, m) = 1` of R182, R201, R285 to R287. -/
def invertible (a m : Nat) : Bool := Nat.gcd (a % m) m = 1

/-! ## The Montgomery form (R13, R171) -/

/-- `Rinv_f` (R13). -/
def rinv (p : Nat) : Nat := invMod Config.radix p

/-- `val_f(a)`, the logical value of the representative a (R13). -/
def valOf (p a : Nat) : Nat := a * rinv p % p

/-- `rep_f(v)`, the representative of the logical value v (R13). -/
def repOf (p v : Nat) : Nat := v * Config.radix % p

/-- `MontMul_f(a, b)`, the closed form, which is the definition (R171). -/
def montMul (p a b : Nat) : Nat := a * b * rinv p % p

/-- One turn of the loop of `MontMulLimbs_f`: makes limb i of t zero (R171). -/
def montLimbStep (p inv t i : Nat) : Nat :=
  t + t / 2 ^ (64 * i) % 2 ^ 64 * inv % 2 ^ 64 * p * 2 ^ (64 * i)

/-- `MontMulLimbs_f(a, b)`, the limb-by-limb algorithm (R171). No command needs it: the closed form
gives the same value. -/
def montMulLimbs (p inv a b : Nat) : Nat :=
  let t := [0, 1, 2, 3].foldl (montLimbStep p inv) (a * b) / 2 ^ 256
  if p ≤ t then t - p else t

/-! ## Derived constants (R30, R133) -/

/-- The largest s with `2^s` dividing n, for `0 < n < 2^bound`. -/
def twoAdicity : Nat → Nat → Nat
  | 0, _ => 0
  | bound + 1, n => if n % 2 = 0 then 1 + twoAdicity bound (n / 2) else 0

/-- `(−p⁻¹) mod 2^64`, for an odd p (R30, R31). -/
def negInv64 (p : Nat) : Nat := (2 ^ 64 - invMod p (2 ^ 64)) % 2 ^ 64

/-- The context that `SETMOD` makes of a modulus it accepts (R133). -/
def configuredCtx (p : Word) : FieldCtx :=
  { P := p
    VALID := true
    R1 := BitVec.ofNat 256 (2 ^ 256 % p.toNat)
    R2 := BitVec.ofNat 256 (2 ^ 512 % p.toNat)
    INV := BitVec.ofNat 64 (negInv64 p.toNat)
    S := BitVec.ofNat 256 (twoAdicity 256 (p.toNat - 1))
    GEN := 0
    ROOT2 := 0 }

/-! ## Powers -/

/-- `num_bits(k)` (R158). -/
def numBits (k : Nat) : Nat := if k = 0 then 0 else Nat.log2 k + 1

/-- The bits `num_bits(k) − 1` down to 0 of k, most significant first (R158, R335). -/
def bitsBE (k : Nat) : List Bool := (List.range (numBits k)).reverse.map k.testBit

/-- Square-and-multiply along a list of exponent bits (R181). -/
def squareMultiply (mul : Nat → Nat → Nat) (a : Nat) : Nat → List Bool → Nat
  | acc, [] => acc
  | acc, b :: bs =>
    squareMultiply mul a (if b then mul (mul acc acc) a else mul acc acc) bs

/-- `v^e mod p` on logical values. -/
def powMod (p v e : Nat) : Nat := squareMultiply (fun a b => a * b % p) v (1 % p) (bitsBE e)

/-- The power of a representative, by the loop of rule R181. -/
def montPow (F : FieldCtx) (a e : Nat) : Nat :=
  squareMultiply (montMul F.P.toNat) a F.R1.toNat (bitsBE e)

/-! ## Modular adder and subtractor (R176 to R179) -/

/-- `s − p if s ≥ p else s` with `s = a + b` (R176, R179). -/
def addMod (p a b : Nat) : Nat := if p ≤ a + b then a + b - p else a + b

/-- `a − b if a ≥ b else a − b + p` (R177). -/
def subMod (p a b : Nat) : Nat := if b ≤ a then a - b else a + p - b

/-- `0 if a = 0 else p − a` (R178). -/
def negMod (p a : Nat) : Nat := if a = 0 then 0 else p - a

/-! ## Square roots (R183, R184) -/

/-- `z^(2^n) mod p`. -/
def squareTimes (p : Nat) : Nat → Nat → Nat
  | 0, z => z
  | n + 1, z => squareTimes p n (z * z % p)

/-- The least j in `k … k + bound − 1` with `c^(2^(j − k + 1)) = 1`, for the k of R184's loop. -/
def leastSquaring (p : Nat) : Nat → Nat → Nat → Option Nat
  | 0, _, _ => none
  | bound + 1, k, c => if c * c % p = 1 then some k else leastSquaring p bound (k + 1) (c * c % p)

/-- The loop of `TS_f(v)` with its variables `m, z, b, x`; the first argument bounds the turns, of
which there are at most S, because m decreases (R184; log entry 12). -/
def tonelliLoop (p v : Nat) : Nat → Nat → Nat → Nat → Nat → Option Nat
  | 0, _, _, _, _ => none
  | turns + 1, m, z, b, x =>
    if b = 1 then (if x * x % p = v then some x else none)
    else
      match leastSquaring p (m - 1) 1 b with
      | none => none
      | some k =>
        let w := squareTimes p (m - k - 1) z
        let z' := w * w % p
        tonelliLoop p v turns k z' (b * z' % p) (x * w % p)

/-- `TS_f(v)`, the Tonelli-Shanks procedure (R184). -/
def tonelliShanks (F : FieldCtx) (v : Nat) : Option Nat :=
  if v = 0 then some 0
  else
    let p := F.P.toNat
    let s := F.S.toNat
    let q := (p - 1) / 2 ^ s
    let w := powMod p v ((q - 1) / 2)
    let x := v * w % p
    tonelliLoop p v (s + 1) s (valOf p F.ROOT2.toNat) (x * w % p) x

/-- The square root of a logical value, by the procedure of rule R183. -/
def sqrtMod (F : FieldCtx) (v : Nat) : Option Nat :=
  let p := F.P.toNat
  if p % 4 = 3 then
    let c := powMod p v ((p + 1) / 4)
    if c * c % p = v then some c else none
  else tonelliShanks F v

/-- The square root needs `ROOT2` only when `p mod 4 = 1` (R183, R286). -/
def rootReady (F : FieldCtx) : Bool := F.P.toNat % 4 != 1 || F.ROOT2 != 0

end Sys2Proof.Machine
end

