-- ==== Sys2Proof/Machine/BigInt.lean ====
section
/-! DEFINITION. The big-integer commands (rules R150 to R159). -/

namespace Sys2Proof.Machine

/-- `UADD xd, xs1, xs2` (R151). -/
def execUadd (xd xs1 xs2 : XReg) (s : State) : Outcome :=
  let a := s.x xs1
  let b := s.x xs2
  conclude s (.ok ((s.setXNat xd ((a.toNat + b.toNat) % 2 ^ 256)).setC (carryOut a b)))

/-- `USUB xd, xs1, xs2` (R152). -/
def execUsub (xd xs1 xs2 : XReg) (s : State) : Outcome :=
  let a := s.x xs1
  let b := s.x xs2
  conclude s (.ok ((s.setXNat xd ((a.toNat + 2 ^ 256 - b.toNat) % 2 ^ 256)).setC (borrowOut a b)))

/-- `UMUL xdlo, xdhi, xs1, xs2` (R153). Two equal destinations make the word an illegal command
(R106, R107). -/
def execUmul (xdlo xdhi xs1 xs2 : XReg) (s : State) : Outcome :=
  let t := (s.x xs1).toNat * (s.x xs2).toNat
  conclude s
    (check (xdlo != xdhi) .illegalCommand
      (.ok ((s.setXNat xdlo (t % 2 ^ 256)).setXNat xdhi (t / 2 ^ 256))))

/-- `USHL1 xd, xs` (R154). -/
def execUshl1 (xd xs : XReg) (s : State) : Outcome :=
  let a := s.x xs
  conclude s (.ok ((s.setXNat xd (2 * a.toNat % 2 ^ 256)).setC (bitOf a 255)))

/-- `USHR1 xd, xs` (R155). -/
def execUshr1 (xd xs : XReg) (s : State) : Outcome :=
  let a := s.x xs
  conclude s (.ok ((s.setXNat xd (a.toNat / 2)).setC (bitOf a 0)))

/-- `UCMP xs1, xs2` (R156). -/
def execUcmp (xs1 xs2 : XReg) (s : State) : Outcome :=
  let a := s.x xs1
  let b := s.x xs2
  conclude s (.ok ((s.setZ (a == b)).setC (borrowOut a b)))

/-- `UBIT xs, i` (R157). -/
def execUbit (xs : XReg) (i : BitVec 8) (s : State) : Outcome :=
  conclude s (.ok (s.setT (bitOf (s.x xs) i.toNat)))

/-- `UNUMBITS xd, xs` (R158). -/
def execUnumbits (xd xs : XReg) (s : State) : Outcome :=
  let a := s.x xs
  conclude s (.ok ((s.setXNat xd (numBits a.toNat)).setZ (a == 0)))

/-- `UTEST xs` (R159). -/
def execUtest (xs : XReg) (s : State) : Outcome := conclude s (.ok (s.setZ (s.x xs == 0)))

end Sys2Proof.Machine
end

