-- ==== Sys2Proof/Machine/CurveArith.lean ====
section
/-! DEFINITION. Affine points and the group laws of the three curve models (rules R41 to R45, R200
to R206), on logical values in the field of context 0. -/

namespace Sys2Proof.Machine

/-- A mathematical point: `O`, the point at infinity, or a pair of logical values (R45). -/
inductive AffPoint
  | O
  | mk (x y : Nat)
deriving DecidableEq, Repr

/-- What the group laws need of the configuration: `CRV.MODEL`, `F[0].P`, `A = val_0(CA)` and
`B = val_0(CB)`; `B` is the coefficient D of rule R203 for the twisted Edwards model (R41). -/
structure CurveParams where
  model : CurveModel
  p : Nat
  A : Nat
  B : Nat
deriving DecidableEq, Repr

/-- The configured curve (R41). -/
def State.curve (s : State) : CurveParams :=
  { model := s.CRV.MODEL
    p := s.Fbase.P.toNat
    A := valOf s.Fbase.P.toNat s.CRV.CA.toNat
    B := valOf s.Fbase.P.toNat s.CRV.CB.toNat }

/-- The equation of the configured model holds for a pair of logical values (R41). -/
def onCurve (c : CurveParams) (x y : Nat) : Bool :=
  match c.model with
  | .weierstrass => y ^ 2 % c.p = (x ^ 3 + c.A * x + c.B) % c.p
  | .edwards => (c.A * x ^ 2 + y ^ 2) % c.p = (1 + c.B * x ^ 2 * y ^ 2) % c.p
  | .montgomery => c.B * y ^ 2 % c.p = (x ^ 3 + c.A * x ^ 2 + x) % c.p

/-- `CurveOK()` (R43). -/
def State.curveOK (s : State) : Bool :=
  s.Fbase.VALID && s.CRV.CA.toNat < s.Fbase.P.toNat && s.CRV.CB.toNat < s.Fbase.P.toNat

/-- `Identity` (R42, R205). -/
def identity (c : CurveParams) : AffPoint :=
  match c.model with
  | .weierstrass => .O
  | .edwards => .mk 0 1
  | .montgomery => .O

/-- `Aff(P)` (R45). -/
def affOf (p : Nat) (P : PointReg) : AffPoint :=
  if P.INF then .O else .mk (valOf p P.X.toNat) (valOf p P.Y.toNat)

/-- `Enc(Q)` (R45). -/
def encPoint (p : Nat) : AffPoint → PointReg
  | .O => { X := 0, Y := 0, INF := true }
  | .mk x y =>
    { X := BitVec.ofNat 256 (repOf p x), Y := BitVec.ofNat 256 (repOf p y), INF := false }

/-- The remainder of an integer in `[0, p)` (R10). -/
def residue (p : Nat) (z : Int) : Nat := (z % (p : Int)).toNat

/-- `Div(u, v)` (R201). -/
def divMod (p : Nat) (u v : Int) : Except Err Nat :=
  check (invertible (residue p v) p) .arithDomain
    (.ok (residue p (u * (invMod (residue p v) p : Int))))

/-- The third point on the chord or tangent with slope `lam` through `(x1, y1)` and a point with
first coordinate `x2` (R202, R204). -/
def thirdPoint (c : CurveParams) (x1 y1 x2 : Nat) (lam : Nat) : AffPoint :=
  let x3 := match c.model with
    | .montgomery =>
      residue c.p ((c.B : Int) * (lam : Int) ^ 2 - (c.A : Int) - (x1 : Int) - (x2 : Int))
    | _ => residue c.p ((lam : Int) ^ 2 - (x1 : Int) - (x2 : Int))
  .mk x3 (residue c.p ((lam : Int) * ((x1 : Int) - (x3 : Int)) - (y1 : Int)))

/-- `Dbl0` (R202). -/
def dblWeierstrass (c : CurveParams) : AffPoint → Except Err AffPoint
  | .O => .ok .O
  | .mk x y =>
    if y = 0 then .ok .O
    else andThen (divMod c.p (3 * (x : Int) ^ 2 + c.A) (2 * (y : Int))) fun lam =>
      .ok (thirdPoint c x y x lam)

/-- `Dbl2` (R204). -/
def dblMontgomery (c : CurveParams) : AffPoint → Except Err AffPoint
  | .O => .ok .O
  | .mk x y =>
    if y = 0 then .ok .O
    else
      andThen (divMod c.p (3 * (x : Int) ^ 2 + 2 * c.A * x + 1) (2 * (c.B : Int) * y)) fun lam =>
        .ok (thirdPoint c x y x lam)

/-- The chord rule that `Add0` and `Add2` share, with its special cases; `dbl` is the doubling of
the model (R202, R204). -/
def addChord (c : CurveParams) (dbl : AffPoint → Except Err AffPoint) (P1 P2 : AffPoint) :
    Except Err AffPoint :=
  match P1, P2 with
  | .O, P2 => .ok P2
  | P1, .O => .ok P1
  | .mk x1 y1, .mk x2 y2 =>
    if x1 = x2 then (if y1 = y2 ∧ y1 ≠ 0 then dbl (.mk x1 y1) else .ok .O)
    else andThen (divMod c.p ((y2 : Int) - y1) ((x2 : Int) - x1)) fun lam =>
      .ok (thirdPoint c x1 y1 x2 lam)

/-- `Add1` (R203). A twisted Edwards curve has no point at infinity: `PointCheck` has turned it
away (R44), and the outcome given to it here is that check's. DEDUCED, safe (log entry 11). -/
def addEdwards (c : CurveParams) (P1 P2 : AffPoint) : Except Err AffPoint :=
  match P1, P2 with
  | .mk x1 y1, .mk x2 y2 =>
    let k := c.B * x1 * x2 * y1 * y2 % c.p
    andThen (divMod c.p (x1 * y2 + y1 * x2) (1 + (k : Int))) fun x3 =>
      andThen (divMod c.p ((y1 : Int) * y2 - c.A * x1 * x2) (1 - (k : Int))) fun y3 =>
        .ok (.mk x3 y3)
  | _, _ => .error .notOnCurve

/-- `Neg` (R202 to R205). -/
def negPoint (c : CurveParams) : AffPoint → AffPoint
  | .O => .O
  | .mk x y =>
    match c.model with
    | .weierstrass => .mk x ((c.p - y) % c.p)
    | .edwards => .mk ((c.p - x) % c.p) y
    | .montgomery => .mk x ((c.p - y) % c.p)

/-- `Add` (R205). -/
def addPoint (c : CurveParams) (P1 P2 : AffPoint) : Except Err AffPoint :=
  match c.model with
  | .weierstrass => addChord c (dblWeierstrass c) P1 P2
  | .edwards => addEdwards c P1 P2
  | .montgomery => addChord c (dblMontgomery c) P1 P2

/-- `Dbl` (R205). -/
def dblPoint (c : CurveParams) (P : AffPoint) : Except Err AffPoint :=
  match c.model with
  | .weierstrass => dblWeierstrass c P
  | .edwards => addEdwards c P P
  | .montgomery => dblMontgomery c P

/-- Double-and-add along a list of scalar bits (R206). -/
def doubleAdd (c : CurveParams) (P : AffPoint) : AffPoint → List Bool → Except Err AffPoint
  | acc, [] => .ok acc
  | acc, b :: bs =>
    andThen (dblPoint c acc) fun d =>
      if b then andThen (addPoint c d P) fun e => doubleAdd c P e bs
      else doubleAdd c P d bs

/-- `Mul(k, P)` (R206). -/
def mulPoint (c : CurveParams) (k : Nat) (P : AffPoint) : Except Err AffPoint :=
  doubleAdd c P (identity c) (bitsBE k)

end Sys2Proof.Machine
end

