-- ==== Sys2Proof/Machine/KeccakSponge.lean ====
section
/-! DEFINITION. The Keccak-256 function: permutation, absorbing and finishing (rules R240 to R243),
and the pair hash built on it (rule R258). -/

namespace Sys2Proof.Machine

/-- The 25 lanes of a state, lane `A[x][y]` at position `x + 5·y` (R241). -/
abbrev Lanes := List (BitVec 64)

/-- `A[x][y]`, indices modulo 5 (R241, R242). -/
def lane (A : Lanes) (x y : Nat) : BitVec 64 := A.getD (x % 5 + 5 * (y % 5)) 0

/-- The lanes given by a function of the coordinates. -/
def makeLanes (f : Nat → Nat → BitVec 64) : Lanes :=
  (List.range 25).map fun i => f (i % 5) (i / 5)

/-- The lanes of the state bytes (R241). -/
def lanesOf (S : Vector Byte 200) : Lanes :=
  (List.range 25).map fun i => BitVec.ofNat 64 (leNat ((S.toList.drop (8 * i)).take 8))

/-- The state bytes of the lanes (R241). -/
def bytesOf (A : Lanes) : Vector Byte 200 :=
  Vector.ofFn fun i => BitVec.ofNat 8 ((A.getD (i.val / 8) 0).toNat / 2 ^ (8 * (i.val % 8)))

/-- The rows x = 0 … 4 of the table of offsets, the five offsets of a row in two decimal digits each
(R242). -/
def rotationRows : List Nat := [0036034118, 0144104502, 6206431561, 2855252156, 2720390814]

/-- `ROT[x][y]`, for x and y below 5 (R242). -/
def rotationOffset (x y : Nat) : Nat := rotationRows.getD x 0 / 100 ^ (4 - y) % 100

/-- `RC[0 … 23]`, row by row of the table (R242). -/
def roundConstants : List (BitVec 64) :=
  tableRow 64 3 0x00000000000000010000000000008082800000000000808A ++
  tableRow 64 3 0x8000000080008000000000000000808B0000000080000001 ++
  tableRow 64 3 0x80000000800080818000000000008009000000000000008A ++
  tableRow 64 3 0x00000000000000880000000080008009000000008000000A ++
  tableRow 64 3 0x000000008000808B800000000000008B8000000000008089 ++
  tableRow 64 3 0x800000000000800380000000000080028000000000000080 ++
  tableRow 64 3 0x000000000000800A800000008000000A8000000080008081 ++
  tableRow 64 3 0x800000000000808000000000800000018000000080008008

/-- `C[x]` of step θ (R242). -/
def keccakColumn (A : Lanes) (x : Nat) : BitVec 64 :=
  lane A x 0 ^^^ lane A x 1 ^^^ lane A x 2 ^^^ lane A x 3 ^^^ lane A x 4

/-- Step θ (R242). -/
def keccakTheta (A : Lanes) : Lanes :=
  let C := (List.range 5).map (keccakColumn A)
  let D := (List.range 5).map fun x =>
    C.getD ((x + 4) % 5) 0 ^^^ (C.getD ((x + 1) % 5) 0).rotateLeft 1
  makeLanes fun x y => lane A x y ^^^ D.getD x 0

/-- Steps ρ and π (R242). The rule sends lane `(u, v)` to `(v, 2·u + 3·v)`; so lane `(x, y)` of the
result comes from `u = x + 3·y`, `v = x` (modulo 5). -/
def keccakRhoPi (A : Lanes) : Lanes :=
  makeLanes fun x y =>
    (lane A (x + 3 * y) x).rotateLeft (rotationOffset ((x + 3 * y) % 5) x)

/-- Step χ (R242). -/
def keccakChi (B : Lanes) : Lanes :=
  makeLanes fun x y => lane B x y ^^^ (~~~(lane B (x + 1) y) &&& lane B (x + 2) y)

/-- Step ι (R242). -/
def keccakIota (rc : BitVec 64) (A : Lanes) : Lanes := A.set 0 (lane A 0 0 ^^^ rc)

/-- One round (R242). -/
def keccakRound (A : Lanes) (rc : BitVec 64) : Lanes :=
  keccakIota rc (keccakChi (keccakRhoPi (keccakTheta A)))

/-- `KeccakF(S)` (R242). -/
def keccakF (S : Vector Byte 200) : Vector Byte 200 :=
  bytesOf (roundConstants.foldl keccakRound (lanesOf S))

/-- The absorption of one byte (R243): a block is permuted as soon as it is complete. -/
def absorbByte (h : Hasher) (b : Byte) : Hasher :=
  let S := h.S.set h.POS.val (h.S[h.POS.val] ^^^ b)
  if hp : h.POS.val + 1 < 136 then { h with S := S, POS := ⟨h.POS.val + 1, hp⟩ }
  else { h with S := keccakF S, POS := 0 }

/-- `Absorb((S, POS), B)` (R243). -/
def absorb (h : Hasher) (bs : List Byte) : Hasher := bs.foldl absorbByte h

/-- `Finish((S, POS))` (R243). -/
def finish (h : Hasher) : List Byte :=
  let S := h.S.set h.POS.val (h.S[h.POS.val] ^^^ 0x01)
  let S := S.set 135 (S[135] ^^^ 0x80)
  (keccakF S).toList.take 32

/-- A hasher with the all-zero state (R240, R244, R246). -/
def emptyHasher (active : Bool) : Hasher :=
  { ACTIVE := active, S := Vector.replicate 200 0, POS := 0 }

/-- `Keccak256(B)`, by a private hasher (R240, R56). -/
def keccak256 (bs : List Byte) : List Byte := finish (absorb (emptyHasher true) bs)

/-- `HashPair(u, v)` (R258). -/
def hashPair (u v : List Byte) : List Byte :=
  if beNat u ≤ beNat v then keccak256 (u ++ v) else keccak256 (v ++ u)

end Sys2Proof.Machine
end

