-- ==== Sys2Proof/Machine/Nonce.lean ====
section
/-! DEFINITION. The nonce function of `ESIGN` (rule R282) and its default instance: SHA-256,
HMAC-SHA-256 and the RFC 6979 candidates (rules R340 to R342). -/

namespace Sys2Proof.Machine

/-! ## SHA-256 (R340) -/

/-- `pad(M)` (R340): z is the least number of zero bytes that fills the last 64-byte block. -/
def shaPad (m : List Byte) : List Byte :=
  m ++ [0x80] ++ List.replicate ((119 - m.length % 64) % 64) 0 ++ toBE (8 * m.length) 8

/-- `K[0 … 63]`, row by row of the table (R340). -/
def shaK : List (BitVec 32) :=
  tableRow 32 8 0x428a2f9871374491b5c0fbcfe9b5dba53956c25b59f111f1923f82a4ab1c5ed5 ++
  tableRow 32 8 0xd807aa9812835b01243185be550c7dc372be5d7480deb1fe9bdc06a7c19bf174 ++
  tableRow 32 8 0xe49b69c1efbe47860fc19dc6240ca1cc2de92c6f4a7484aa5cb0a9dc76f988da ++
  tableRow 32 8 0x983e5152a831c66db00327c8bf597fc7c6e00bf3d5a7914706ca635114292967 ++
  tableRow 32 8 0x27b70a852e1b21384d2c6dfc53380d13650a7354766a0abb81c2c92e92722c85 ++
  tableRow 32 8 0xa2bfe8a1a81a664bc24b8b70c76c51a3d192e819d6990624f40e3585106aa070 ++
  tableRow 32 8 0x19a4c1161e376c082748774c34b0bcb5391c0cb34ed8aa4a5b9cca4f682e6ff3 ++
  tableRow 32 8 0x748f82ee78a5636f84c878148cc7020890befffaa4506cebbef9a3f7c67178f2

/-- The eight working words of SHA-256 (R340). -/
structure ShaWords where
  a : BitVec 32
  b : BitVec 32
  c : BitVec 32
  d : BitVec 32
  e : BitVec 32
  f : BitVec 32
  g : BitVec 32
  h : BitVec 32
deriving DecidableEq, Repr

/-- `H0` (R340). -/
def shaH0 : ShaWords :=
  ⟨0x6a09e667, 0xbb67ae85, 0x3c6ef372, 0xa54ff53a, 0x510e527f, 0x9b05688c, 0x1f83d9ab, 0x5be0cd19⟩

/-- The message schedule `W[0 … 63]` of a block (R340). -/
def shaSchedule (block : List Byte) : List (BitVec 32) :=
  let first := (List.range 16).map fun t =>
    BitVec.ofNat 32 (beNat ((block.drop (4 * t)).take 4))
  (List.range 48).foldl (fun W t =>
    let w15 := W.getD (t + 1) 0
    let w2 := W.getD (t + 14) 0
    let s0 := w15.rotateRight 7 ^^^ w15.rotateRight 18 ^^^ (w15 >>> 3)
    let s1 := w2.rotateRight 17 ^^^ w2.rotateRight 19 ^^^ (w2 >>> 10)
    W ++ [W.getD t 0 + s0 + W.getD (t + 9) 0 + s1]) first

/-- One turn of the compression loop (R340). -/
def shaRound (s : ShaWords) (k w : BitVec 32) : ShaWords :=
  let S1 := s.e.rotateRight 6 ^^^ s.e.rotateRight 11 ^^^ s.e.rotateRight 25
  let ch := (s.e &&& s.f) ^^^ (~~~s.e &&& s.g)
  let T1 := s.h + S1 + ch + k + w
  let S0 := s.a.rotateRight 2 ^^^ s.a.rotateRight 13 ^^^ s.a.rotateRight 22
  let maj := (s.a &&& s.b) ^^^ (s.a &&& s.c) ^^^ (s.b &&& s.c)
  ⟨T1 + (S0 + maj), s.a, s.b, s.c, s.d + T1, s.e, s.f, s.g⟩

/-- One block (R340). -/
def shaBlock (H : ShaWords) (block : List Byte) : ShaWords :=
  let s := (shaK.zip (shaSchedule block)).foldl (fun s kw => shaRound s kw.1 kw.2) H
  ⟨H.a + s.a, H.b + s.b, H.c + s.c, H.d + s.d, H.e + s.e, H.f + s.f, H.g + s.g, H.h + s.h⟩

/-- The blocks of a padded message, in order. -/
def shaBlocks (m : List Byte) : List (List Byte) :=
  (List.range (m.length / 64)).map fun i => (m.drop (64 * i)).take 64

/-- `SHA256(M)` (R340). -/
def sha256 (m : List Byte) : List Byte :=
  let H := (shaBlocks (shaPad m)).foldl shaBlock shaH0
  [H.a, H.b, H.c, H.d, H.e, H.f, H.g, H.h].flatMap fun w => toBE w.toNat 4

/-! ## HMAC (R341) -/

/-- `HMAC(Kk, M)` (R341). -/
def hmac (key m : List Byte) : List Byte :=
  let k0 := if 64 < key.length then sha256 key else key
  let k0 := k0 ++ List.replicate (64 - k0.length) 0
  sha256 (k0.map (· ^^^ 0x5c) ++ sha256 (k0.map (· ^^^ 0x36) ++ m))

/-! ## The default instance (R342) -/

/-- `bits2int(Bs)` (R342). -/
def bits2int (qlen : Nat) (bs : List Byte) : Nat :=
  if qlen < 8 * bs.length then beNat bs / 2 ^ (8 * bs.length - qlen) else beNat bs

/-- `int2octets(x)` (R342). -/
def int2octets (qlen x : Nat) : List Byte := toBE x ((qlen + 7) / 8)

/-- `bits2octets(Bs)` (R342). -/
def bits2octets (n qlen : Nat) (bs : List Byte) : List Byte :=
  let z := bits2int qlen bs
  int2octets qlen (if n ≤ z then z - n else z)

/-- The inner loop of `Candidates`, which gathers at least `qlen` bits: the bytes and the last V.
Every turn adds 32 bytes, so `qlen` turns are enough (R342). -/
def nonceGather (key : List Byte) (qlen : Nat) : Nat → List Byte → List Byte → List Byte × List Byte
  | 0, tb, V => (tb, V)
  | turns + 1, tb, V =>
    if 8 * tb.length < qlen then
      let V := hmac key V
      nonceGather key qlen turns (tb ++ V) V
    else (tb, V)

/-- `Kk` and V before the first turn of `Candidates(sk, h)` (R342). -/
def candidateStart (n sk h : Nat) : List Byte × List Byte :=
  let qlen := numBits n
  let seed := int2octets qlen sk ++ bits2octets n qlen (toBE h 32)
  let V := List.replicate 32 (0x01 : Byte)
  let key := hmac (List.replicate 32 0x00) (V ++ [0x00] ++ seed)
  let V := hmac key V
  let key := hmac key (V ++ [0x01] ++ seed)
  (key, hmac key V)

/-- The element with index `ctr` of `Candidates`, from a key and a V; the first argument bounds the
turns (R342). -/
def nonceSearch (n qlen : Nat) : Nat → List Byte → List Byte → Nat → Option Nat
  | 0, _, _, _ => none
  | bound + 1, key, V, ctr =>
    let (tb, V) := nonceGather key qlen qlen [] V
    let k := bits2int qlen tb
    if 1 ≤ k ∧ k ≤ n - 1 ∧ ctr = 0 then some k
    else
      let key' := hmac key (V ++ [0x00])
      nonceSearch n qlen bound key' (hmac key' V) (if 1 ≤ k ∧ k ≤ n - 1 then ctr - 1 else ctr)

/-- How many values `Kk` and V have together, which are 32 bytes each (R342). -/
def nonceStates : Nat := 2 ^ 256 * 2 ^ 256

/-- A number of turns after which the element with index `ctr` has come if it ever comes: `Kk` and V
repeat after `nonceStates` turns, so each `nonceStates` turns bring one more element or none comes
ever after. DEDUCED (log entry 5). -/
def nonceBound (ctr : Nat) : Nat := nonceStates + nonceStates * ctr

/-- The element with index `ctr` of `Candidates(sk, h)`, if there is one (R342). -/
def rfc6979 (n sk h ctr : Nat) : Option Nat :=
  nonceSearch n (numBits n) (nonceBound ctr) (candidateStart n sk h).1 (candidateStart n sk h).2 ctr

/-- A number brought into `[1, n − 1]`, the range that the contract of `Nonce` gives (R282). -/
def intoNonceRange (n k : Nat) : Nat := 1 + k % (n - 1)

/-- `Nonce(sk, h, ctr)` for the group order n, of a given instance (R282): `none` is the default
instance (R342; where its sequence has no such element, log entry 5), `some g` another, which
meets the contract (log entry 4). -/
def nonceBy (inst : Option (Nat → Nat → Nat → Nat → Nat)) (n sk h ctr : Nat) : Nat :=
  match inst with
  | some g => intoNonceRange n (g n sk h ctr)
  | none =>
    match rfc6979 n sk h ctr with
    | some k => k
    | none => intoNonceRange n (Config.nonceMissing n sk h ctr)

/-- `Nonce(sk, h, ctr)` for the group order n (R9, R282): that of the engine's instance. -/
def nonce (n sk h ctr : Nat) : Nat := nonceBy Config.nonceInstance n sk h ctr

end Sys2Proof.Machine
end

