-- ==== Sys2Proof/Machine/EcdsaArith.lean ====
section
/-! DEFINITION. The computations of the ECDSA commands (rules R281 to R287), with the nonce function
as an argument. -/

namespace Sys2Proof.Machine

/-- `HALF = (n − 1) / 2` (R281). -/
def halfOrder (n : Nat) : Nat := (n - 1) / 2

/-- `SigCheck(r, s)` (R281). -/
@[always_inline, inline] def sigCheck {α : Type} (n : Nat) (r s : Word) (k : Except Err α) : Except Err α :=
  check (!(r.toNat == 0 || decide (n ≤ r.toNat))) .invalidSignature
    (check (!(s.toNat == 0 || decide (n ≤ s.toNat))) .invalidSignature
      (check (s.toNat ≤ halfOrder n) (.invalidSignatureS s) k))

/-- `Parity(v)` (R283). -/
def withParity {α : Type} (v : Word) (k : Nat → Except Err α) : Except Err α :=
  if v.toNat = 0 ∨ v.toNat = 27 then k 0
  else if v.toNat = 1 ∨ v.toNat = 28 then k 1
  else .error .invalidSignature

/-- `AddressOf(Q)` for `Q = (x, y)` (R284). -/
def addressOf (x y : Nat) : Nat := beNat ((keccak256 (toBE x 32 ++ toBE y 32)).drop 12)

/-- What one nonce k gives `ESIGN`: the signature `(r, s, v)`, or nothing when the nonce is
rejected (R285, steps 2 to 5). -/
def signWith (c : CurveParams) (G : AffPoint) (n sk e k : Nat) :
    Except Err (Option (Nat × Nat × Nat)) :=
  andThen (mulPoint c k G) fun Rp =>
    match Rp with
    | .O => .ok none
    | .mk Rx Ry =>
      let r := Rx % n
      if r = 0 then .ok none
      else if invertible k n then
        let s := invMod (k % n) n * (e + r * sk) % n
        if s = 0 then .ok none
        else if halfOrder n < s then .ok (some (r, n - s, 1 - Ry % 2))
        else .ok (some (r, s, Ry % 2))
      else .ok none

/-- The loop of `ESIGN` from counter `ctr` on, over at most the given number of candidates (R285).
`nonceAt ctr` is `Nonce(sk, h, ctr)`. -/
def signLoop (c : CurveParams) (G : AffPoint) (n sk e : Nat) (nonceAt : Nat → Nat) :
    Nat → Nat → Except Err (Nat × Nat × Nat)
  | 0, _ => .error .nonceExhausted
  | tries + 1, ctr =>
    andThen (signWith c G n sk e (nonceAt ctr)) fun sig =>
      match sig with
      | some rsv => .ok rsv
      | none => signLoop c G n sk e nonceAt tries (ctr + 1)

/-- The signature of `ESIGN` (R285): `e = h mod n`, at most `SIGN_MAX_RETRY + 1` candidates. -/
def signature (c : CurveParams) (G : AffPoint) (n sk h : Nat) : Except Err (Nat × Nat × Nat) :=
  signLoop c G n sk (h % n) (nonce n sk h) (Config.signMaxRetry + 1) 0

/-- Steps 2 and 3 of `ERECOVER` after `SigCheck` and `Parity`: the address of the recovered key
(R286). `root` is the square root of rule R183 in context 0. -/
def recoverAddress (c : CurveParams) (G : AffPoint) (n : Nat) (root : Nat → Option Nat)
    (h r s par : Nat) : Except Err Nat :=
  check (r < c.p) .invalidSignature
    (match root ((r ^ 3 + c.A * r + c.B) % c.p) with
    | none => .error .invalidSignature
    | some y0 =>
      let y := if y0 % 2 ≠ par then (c.p - y0) % c.p else y0
      check (y % 2 = par) .invalidSignature
        (check (invertible r n) .invalidSignature
          (andThen (mulPoint c s (.mk r y)) fun sR =>
            andThen (mulPoint c (h % n) G) fun eG =>
              andThen (addPoint c sR (negPoint c eG)) fun D =>
                andThen (mulPoint c (invMod (r % n) n) D) fun Q =>
                  match Q with
                  | .O => .error .invalidSignature
                  | .mk x y => .ok (addressOf x y))))

/-- The decision of `EVERIFY` after `SigCheck` (R287). -/
def verifies (c : CurveParams) (G : AffPoint) (n h r s : Nat) (Q : AffPoint) : Except Err Bool :=
  match Q with
  | .O => .ok false
  | .mk _ _ =>
    if invertible s n then
      let w := invMod (s % n) n
      andThen (mulPoint c (h % n * w % n) G) fun U1 =>
        andThen (mulPoint c (r * w % n) Q) fun U2 =>
          andThen (addPoint c U1 U2) fun X =>
            match X with
            | .O => .ok false
            | .mk x _ => .ok (decide (x % n = r))
    else .ok false

end Sys2Proof.Machine
end

