-- ==== Sys2Proof/Machine/Operands.lean ====
section
/-! DEFINITION. The operand forms and the checks made on them (rules R44, R74, R78, R170, R200,
R280, R372). -/

namespace Sys2Proof.Machine

/-! ## Memory operands (R74, R78) -/

/-- The effective address `EA = a[aa]`, or the count `n = a[al]` (R78). -/
def State.ea (s : State) (i : AReg) : Nat := (s.a i).toNat

/-- The check of a memory operand range (R74). -/
@[always_inline, inline] def withRange {α : Type} (addr n : Nat) (k : Except Err α) : Except Err α :=
  check (inRange addr n) .accessFault k

/-! ## Field operands (R170) -/

/-- `FieldOK(f)`, else `NoConfig` (R32, R170 (1)). -/
def withField {α : Type} (s : State) (f : Ctx) (k : FieldCtx → Except Err α) : Except Err α :=
  check (s.F f).VALID .noConfig (k (s.F f))

/-- A value used as a field element: below the modulus, else `NotInField` (R170 (2)). -/
def withElement {α : Type} (F : FieldCtx) (v : Word) (k : Nat → Except Err α) : Except Err α :=
  check (v.toNat < F.P.toNat) .notInField (k v.toNat)

/-! ## Point operands (R44, R200) -/

/-- `CurveOK()`, else `NoConfig` (R200 (1)). -/
def withCurve {α : Type} (s : State) (k : CurveParams → Except Err α) : Except Err α :=
  check s.curveOK .noConfig (k s.curve)

/-- `PointCheck(P)` and then `Aff(P)` (R44, R45, R200 (2)). -/
def withPoint {α : Type} (c : CurveParams) (P : PointReg) (k : AffPoint → Except Err α) :
    Except Err α :=
  if P.INF then check (c.model != .edwards) .notOnCurve (k (affOf c.p P))
  else
    check (P.X.toNat < c.p && P.Y.toNat < c.p) .notInField
      (check (onCurve c (valOf c.p P.X.toNat) (valOf c.p P.Y.toNat)) .notOnCurve
        (k (affOf c.p P)))

/-- The configured generator as a point register value (R212, R280). -/
def State.generator (s : State) : PointReg := { X := s.CRV.GX, Y := s.CRV.GY, INF := false }

/-! ## ECDSA operands (R280) -/

/-- The common checks of the ECDSA commands (R280), with the curve, the generator G and the group
order n. -/
def withEcdsa {α : Type} (s : State) (k : CurveParams → AffPoint → Nat → Except Err α) :
    Except Err α :=
  check (s.Fbase.VALID && s.Fscalar.VALID) .noConfig
    (check (s.CRV.MODEL == .weierstrass) .noConfig
      (withCurve s fun c =>
        withPoint c s.generator fun G => k c G s.Fscalar.P.toNat))

/-! ## Poseidon2 operands (R301) -/

/-- `P2OK()` (R301). -/
def State.p2OK (s : State) : Bool := s.Fbase.VALID && s.Fbase.P.toNat == Config.p2rom.P

/-- `P2OK()`, else `NoConfig` (R301). -/
@[always_inline, inline] def withSponge {α : Type} (s : State) (k : Except Err α) : Except Err α :=
  check s.p2OK .noConfig k

end Sys2Proof.Machine
end

