-- ==== Sys2Proof/Machine/Ecdsa.lean ====
section
/-! DEFINITION. The ECDSA commands (rules R280 to R287). -/

namespace Sys2Proof.Machine

/-- `ESIGN xdr, xds, xdv, xsk, xh` (R285). Equal destinations make the word an illegal command (R106,
R107). -/
def execEsign (xdr xds xdv xsk xh : XReg) (s : State) : Outcome :=
  conclude s (check (xdr != xds && xdr != xdv && xds != xdv) .illegalCommand
    (withEcdsa s fun c G n =>
      let sk := (s.x xsk).toNat
      check (1 ≤ sk && sk ≤ n - 1) .invalidScalar
        (andThen (signature c G n sk (s.x xh).toNat) fun rsv =>
          .ok (((s.setXNat xdr rsv.1).setXNat xds rsv.2.1).setXNat xdv rsv.2.2))))

/-- `EVERIFY xh, xr, xs, pq` (R287). -/
def execEverify (xh xr xs : XReg) (pq : PReg) (s : State) : Outcome :=
  conclude s (withEcdsa s fun c G n =>
    withPoint c (s.pt pq) fun Q =>
      sigCheck n (s.x xr) (s.x xs)
        (andThen (verifies c G n (s.x xh).toNat (s.x xr).toNat (s.x xs).toNat Q) fun t =>
          .ok (s.setT t)))

/-- `ERECOVER xd, xh, xv, xr, xs` (R286). -/
def execErecover (xd xh xv xr xs : XReg) (s : State) : Outcome :=
  conclude s (withEcdsa s fun c G n =>
    check (rootReady s.Fbase) .noConfig
      (sigCheck n (s.x xr) (s.x xs)
        (withParity (s.x xv) fun par =>
          andThen
            (recoverAddress c G n (sqrtMod s.Fbase) (s.x xh).toNat (s.x xr).toNat (s.x xs).toNat par)
            fun addr => .ok (s.setXNat xd addr))))

end Sys2Proof.Machine
end

