-- ==== Sys2Proof/Machine/Field.lean ====
section
/-! DEFINITION. The prime-field commands (rules R170 to R186). -/

namespace Sys2Proof.Machine

/-- A command with one field operand whose result is a field element (R170). -/
def fieldUnary (f : Ctx) (xd xs : XReg) (s : State) (op : FieldCtx → Nat → Nat) : Outcome :=
  conclude s (withField s f fun F => withElement F (s.x xs) fun a => .ok (s.setXNat xd (op F a)))

/-- A command with two field operands whose result is a field element (R170). -/
def fieldBinary (f : Ctx) (xd xs1 xs2 : XReg) (s : State) (op : FieldCtx → Nat → Nat → Nat) :
    Outcome :=
  conclude s (withField s f fun F =>
    withElement F (s.x xs1) fun a => withElement F (s.x xs2) fun b => .ok (s.setXNat xd (op F a b)))

/-- A command whose result may not exist: T tells, and without a result the destination keeps its
value (R182, R183). -/
def State.optionResult (s : State) (xd : XReg) (r : Option Nat) : State :=
  match r with
  | some v => (s.setXNat xd v).setT true
  | none => s.setT false

/-- `FFROM xd, xs` (R172). -/
def execFfrom (f : Ctx) (xd xs : XReg) (s : State) : Outcome :=
  fieldUnary f xd xs s fun F v => repOf F.P.toNat v

/-- `FINTO xd, xs` (R173). -/
def execFinto (f : Ctx) (xd xs : XReg) (s : State) : Outcome :=
  fieldUnary f xd xs s fun F a => valOf F.P.toNat a

/-- `FMUL xd, xs1, xs2` (R175). -/
def execFmul (f : Ctx) (xd xs1 xs2 : XReg) (s : State) : Outcome :=
  fieldBinary f xd xs1 xs2 s fun F a b => montMul F.P.toNat a b

/-- `FADD xd, xs1, xs2` (R176). -/
def execFadd (f : Ctx) (xd xs1 xs2 : XReg) (s : State) : Outcome :=
  fieldBinary f xd xs1 xs2 s fun F a b => addMod F.P.toNat a b

/-- `FSUB xd, xs1, xs2` (R177). -/
def execFsub (f : Ctx) (xd xs1 xs2 : XReg) (s : State) : Outcome :=
  fieldBinary f xd xs1 xs2 s fun F a b => subMod F.P.toNat a b

/-- `FNEG xd, xs` (R178). -/
def execFneg (f : Ctx) (xd xs : XReg) (s : State) : Outcome :=
  fieldUnary f xd xs s fun F a => negMod F.P.toNat a

/-- `FDBL xd, xs` (R179). -/
def execFdbl (f : Ctx) (xd xs : XReg) (s : State) : Outcome :=
  fieldUnary f xd xs s fun F a => addMod F.P.toNat a a

/-- `FSQR xd, xs` (R180). -/
def execFsqr (f : Ctx) (xd xs : XReg) (s : State) : Outcome :=
  fieldUnary f xd xs s fun F a => montMul F.P.toNat a a

/-- `FPOW xd, xs1, xs2` (R181): the exponent is a raw integer. -/
def execFpow (f : Ctx) (xd xs1 xs2 : XReg) (s : State) : Outcome :=
  fieldUnary f xd xs1 s fun F a => montPow F a (s.x xs2).toNat

/-- The inverse of a representative, where there is one (R182). -/
def inverseRep (F : FieldCtx) (a : Nat) : Option Nat :=
  let p := F.P.toNat
  if a = 0 ∨ invertible a p = false then none
  else some (repOf p (invMod (valOf p a) p))

/-- `FINV xd, xs` (R182). -/
def execFinv (f : Ctx) (xd xs : XReg) (s : State) : Outcome :=
  conclude s (withField s f fun F =>
    withElement F (s.x xs) fun a => .ok (s.optionResult xd (inverseRep F a)))

/-- `FSQRT xd, xs` (R183): `ROOT2` is tested after the operand. -/
def execFsqrt (f : Ctx) (xd xs : XReg) (s : State) : Outcome :=
  conclude s (withField s f fun F =>
    withElement F (s.x xs) fun a =>
      check (rootReady F) .noConfig
        (.ok (s.optionResult xd
          ((sqrtMod F (valOf F.P.toNat a)).map (repOf F.P.toNat)))))

/-- The constant of a selector (R185). -/
def constantValue (F : FieldCtx) : FConst → Word
  | .zero => 0
  | .one => F.R1
  | .gen => F.GEN

/-- `FCONST xd, k` (R185). -/
def execFconst (f : Ctx) (xd : XReg) (k : FConst) (s : State) : Outcome :=
  conclude s (withField s f fun F => .ok (s.setX xd (constantValue F k)))

/-- `FLDMOD xd, aa, al` (R186). -/
def execFldmod (f : Ctx) (xd : XReg) (aa al : AReg) (s : State) : Outcome :=
  conclude s (withRange (s.ea aa) (s.ea al)
    (withField s f fun F =>
      let p := F.P.toNat
      .ok (s.setXNat xd (repOf p (leNat (s.memRead (s.ea aa) (s.ea al)) % p)))))

end Sys2Proof.Machine
end

