-- ==== Sys2Proof/Machine/Keccak.lean ====
section
/-! DEFINITION. The Keccak-256 commands (rules R244 to R246). -/

namespace Sys2Proof.Machine

/-- `KINIT` (R244). -/
def execKinit (s : State) : Outcome := conclude s (.ok (s.setK (emptyHasher true)))

/-- `KUPDATE aa, al` (R245). -/
def execKupdate (aa al : AReg) (s : State) : Outcome :=
  conclude s (withRange (s.ea aa) (s.ea al)
    (check s.K.ACTIVE .spongeSequence
      (.ok (s.setK (absorb s.K (s.memRead (s.ea aa) (s.ea al)))))))

/-- `KFINAL aa` (R246). -/
def execKfinal (aa : AReg) (s : State) : Outcome :=
  conclude s (withRange (s.ea aa) 32
    (check s.K.ACTIVE .spongeSequence
      (.ok ((s.memWrite (s.ea aa) (finish s.K)).setK (emptyHasher false)))))

end Sys2Proof.Machine
end

