-- ==== Sys2Proof/Machine/MerkleTree.lean ====
section
/-! DEFINITION. Merkle proofs over nodes of 32 bytes (rules R258 to R264). -/

namespace Sys2Proof.Machine

/-- A node, a 32-byte string (R258). -/
abbrev Node := List Byte

/-- The array of k nodes at address EA (R78). -/
def State.nodes (s : State) (ea k : Nat) : List Node :=
  (List.range k).map fun i => s.memRead (ea + 32 * i) 32

/-- The flags in the f bytes at address EA: true where the byte is not zero (R261, R264). -/
def State.proofFlags (s : State) (ea f : Nat) : List Bool :=
  (s.memRead ea f).map fun b => b != 0

/-- The root that a leaf and a single proof lead to (R262). -/
def proofRoot (leaf : Node) (proof : List Node) : Node := proof.foldl hashPair leaf

/-- `PopLH()`: the next leaf, or when the leaves are used up the next hash; with what remains of
both (R263). -/
def popLH (leaves hashes : List Node) : Option (Node × List Node × List Node) :=
  match leaves, hashes with
  | v :: ls, hs => some (v, ls, hs)
  | [], v :: hs => some (v, [], hs)
  | [], [] => none

/-- The loop of `MultiVerify` over the flags that are left, with the leaves, hashes and proof nodes
not yet popped and the last hash appended: the last hash at the end, or nothing when a pop finds
nothing (R263). -/
def multiLoop : List Bool → List Node → List Node → List Node → Option Node → Option Node
  | [], _, _, _, last => last
  | fl :: fls, leaves, hashes, proof, _ =>
    match popLH leaves hashes with
    | none => none
    | some (a, leaves, hashes) =>
      if fl then
        match popLH leaves hashes with
        | none => none
        | some (b, leaves, hashes) =>
          multiLoop fls leaves (hashes ++ [hashPair a b]) proof (some (hashPair a b))
      else
        match proof with
        | [] => none
        | b :: proof => multiLoop fls leaves (hashes ++ [hashPair a b]) proof (some (hashPair a b))

/-- `MultiVerify(proof, flags, root, leaves)` (R263). -/
def multiVerify (proof : List Node) (flags : List Bool) (root : Node) (leaves : List Node) : Bool :=
  if flags.length + 1 ≠ leaves.length + proof.length then false
  else
    match leaves with
    | [] => false
    | leaf :: _ =>
      if flags = [] then leaf == root
      else multiLoop flags leaves [] proof none == some root

end Sys2Proof.Machine
end

