-- ==== Sys2Proof/Machine/Merkle.lean ====
section
/-! DEFINITION. The Merkle verifier commands (rules R258 to R264). -/

namespace Sys2Proof.Machine

/-- `HPAIR ad, aa, ab` (R260). -/
def execHpair (ad aa ab : AReg) (s : State) : Outcome :=
  conclude s (withRange (s.ea aa) 32 (withRange (s.ea ab) 32 (withRange (s.ea ad) 32
    (.ok (s.memWrite (s.ea ad)
      (hashPair (s.memRead (s.ea aa) 32) (s.memRead (s.ea ab) 32)))))))

/-- `MVERIFY` (R261, R262): the operands are in `a0, a1, a4, a5`. -/
def execMverify (s : State) : Outcome :=
  conclude s (withRange (s.ea 0) (32 * s.ea 1) (withRange (s.ea 4) 32 (withRange (s.ea 5) 32
    (.ok (s.setT
      (proofRoot (s.memRead (s.ea 5) 32) (s.nodes (s.ea 0) (s.ea 1)) ==
        s.memRead (s.ea 4) 32))))))

/-- `MVERIFYM` (R261, R264): the operands are in `a0` to `a6`. -/
def execMverifym (s : State) : Outcome :=
  conclude s (withRange (s.ea 0) (32 * s.ea 1) (withRange (s.ea 2) (s.ea 3)
    (withRange (s.ea 4) 32 (withRange (s.ea 5) (32 * s.ea 6)
      (.ok (s.setT
        (multiVerify (s.nodes (s.ea 0) (s.ea 1)) (s.proofFlags (s.ea 2) (s.ea 3))
          (s.memRead (s.ea 4) 32) (s.nodes (s.ea 5) (s.ea 6)))))))))

end Sys2Proof.Machine
end

