-- ==== Sys2Proof/Machine/Points.lean ====
section
/-! DEFINITION. The elliptic-curve commands (rules R200 to R220). -/

namespace Sys2Proof.Machine

/-- A command with one point operand and a point result (R200). -/
def pointUnary (pd ps : PReg) (s : State) (op : CurveParams → AffPoint → Except Err AffPoint) :
    Outcome :=
  conclude s (withCurve s fun c => withPoint c (s.pt ps) fun P =>
    andThen (op c P) fun Q => .ok (s.setPt pd (encPoint c.p Q)))

/-- `PSET pd, xsx, xsy` (R210). -/
def execPset (pd : PReg) (xsx xsy : XReg) (s : State) : Outcome :=
  let P : PointReg := { X := s.x xsx, Y := s.x xsy, INF := false }
  conclude s (withCurve s fun c => withPoint c P fun _ => .ok (s.setPt pd P))

/-- `PINF pd` (R211). -/
def execPinf (pd : PReg) (s : State) : Outcome :=
  conclude s (withCurve s fun c =>
    .ok (s.setPt pd (match c.model with
      | .weierstrass => { X := 0, Y := 0, INF := true }
      | .edwards => { X := 0, Y := s.Fbase.R1, INF := false }
      | .montgomery => { X := 0, Y := 0, INF := true })))

/-- `PGEN pd` (R212). -/
def execPgen (pd : PReg) (s : State) : Outcome :=
  conclude s (withCurve s fun c =>
    withPoint c s.generator fun _ => .ok (s.setPt pd s.generator))

/-- `PGET xdx, xdy, ps` (R213): of infinity it delivers the stored coordinates, which the engine
keeps 0. DEDUCED, safe (log entry 11). Two equal destinations make the word an illegal command (R106,
R107; log entry 8). -/
def execPget (xdx xdy : XReg) (ps : PReg) (s : State) : Outcome :=
  let P := s.pt ps
  conclude s (check (xdx != xdy) .illegalCommand
    (withCurve s fun c => withPoint c P fun _ =>
      .ok (((s.setX xdx P.X).setX xdy P.Y).setT !P.INF)))

/-- `PMOV pd, ps` (R214): no check, bit for bit. -/
def execPmov (pd ps : PReg) (s : State) : Outcome := conclude s (.ok (s.setPt pd (s.pt ps)))

/-- `PADD pd, ps1, ps2` (R215). -/
def execPadd (pd ps1 ps2 : PReg) (s : State) : Outcome :=
  conclude s (withCurve s fun c =>
    withPoint c (s.pt ps1) fun P1 => withPoint c (s.pt ps2) fun P2 =>
      andThen (addPoint c P1 P2) fun Q => .ok (s.setPt pd (encPoint c.p Q)))

/-- `PDBL pd, ps` (R216). -/
def execPdbl (pd ps : PReg) (s : State) : Outcome := pointUnary pd ps s dblPoint

/-- `PNEG pd, ps` (R217). -/
def execPneg (pd ps : PReg) (s : State) : Outcome :=
  pointUnary pd ps s fun c P => .ok (negPoint c P)

/-- `PEQ ps1, ps2` (R218). -/
def execPeq (ps1 ps2 : PReg) (s : State) : Outcome :=
  conclude s (withCurve s fun c =>
    withPoint c (s.pt ps1) fun P1 => withPoint c (s.pt ps2) fun P2 =>
      .ok (s.setT (decide (P1 = P2))))

/-- `PISID ps` (R219). -/
def execPisid (ps : PReg) (s : State) : Outcome :=
  conclude s (withCurve s fun c =>
    withPoint c (s.pt ps) fun P => .ok (s.setT (decide (P = identity c))))

/-- `PMUL pd, ps, xs` (R220): the scalar is a raw integer. -/
def execPmul (pd ps : PReg) (xs : XReg) (s : State) : Outcome :=
  pointUnary pd ps s fun c P => mulPoint c (s.x xs).toNat P

end Sys2Proof.Machine
end

