-- ==== Sys2Proof/Machine/PoseidonSponge.lean ====
section
/-! DEFINITION. The Poseidon2 permutation and sponge (rules R302 to R304, R311 to R313), for a given
instance and the modulus p of context 0. -/

namespace Sys2Proof.Machine

open Sys2Proof.Config (P2Rom)

/-- `ExtLayer(s)` on logical values (R302). -/
def extLayer (rom : P2Rom) (p : Nat) (s : List Nat) : List Nat :=
  (List.range rom.T).map fun i =>
    ((List.range rom.T).map fun j => rom.matExt i j * s.getD j 0).sum % p

/-- `IntLayer(s)` on logical values (R302). -/
def intLayer (rom : P2Rom) (p : Nat) (s : List Nat) : List Nat :=
  (List.range rom.T).map fun i => (s.sum + rom.diagM1 i * s.getD i 0) % p

/-- A full round with round counter r (R303). -/
def fullRound (rom : P2Rom) (p : Nat) (s : List Nat) (r : Nat) : List Nat :=
  extLayer rom p
    ((List.range rom.T).map fun i => (s.getD i 0 ^ rom.D + rom.rc r i) % p)

/-- A partial round with round counter r (R303). -/
def partialRound (rom : P2Rom) (p : Nat) (s : List Nat) (r : Nat) : List Nat :=
  intLayer rom p (s.set 0 ((s.getD 0 0 ^ rom.D + rom.rc r 0) % p))

/-- `Permute(s)` on a vector of T logical values (R303): the rounds 0 to `RF/2 − 1` are full, the
next `RP` partial, the last `RF/2` full. -/
def permute (rom : P2Rom) (p : Nat) (s : List Nat) : List Nat :=
  let half := rom.RF / 2
  let s := (List.range half).foldl (fullRound rom p) s
  let s := ((List.range rom.RP).map (half + ·)).foldl (partialRound rom p) s
  ((List.range half).map (half + rom.RP + ·)).foldl (fullRound rom p) s

/-- `PS.STATE[i]`, 0 where there is no such slot (log entry 7). -/
def slot (st : Vector Word 16) (i : Nat) : Word := if h : i < 16 then st[i] else 0

/-- `PS.STATE[i] <- v`, nothing where there is no such slot (log entry 7). -/
def setSlot (st : Vector Word 16) (i : Nat) (v : Word) : Vector Word 16 :=
  if h : i < 16 then st.set i v else st

/-- `rep_0(Permute(val_0(PS.STATE)))`, element by element; the slots from T on stay (R311). -/
def permuteState (rom : P2Rom) (p : Nat) (st : Vector Word 16) : Vector Word 16 :=
  let out := permute rom p ((List.range rom.T).map fun i => valOf p (slot st i).toNat)
  Vector.ofFn fun i =>
    if i.val < rom.T then BitVec.ofNat 256 (repOf p (out.getD i.val 0)) else slot st i.val

/-- The effect of `P2ABSORB` on the sponge (R304, R311): the element overwrites the next rate
position, and a full rate is permuted at once. -/
def spongeAbsorb (rom : P2Rom) (p : Nat) (ps : Sponge) (v : Word) : Sponge :=
  let st := setSlot ps.STATE (1 + ps.IDX) v
  if ps.IDX + 1 = rom.T - 1 then { ps with STATE := permuteState rom p st, IDX := 0 }
  else { ps with STATE := st, IDX := ps.IDX + 1 }

/-- The sponge at the moment when `P2SQUEEZE` reads a rate position (R312). -/
def spongeReady (rom : P2Rom) (p : Nat) (ps : Sponge) : Sponge :=
  if ps.SQUEEZED then
    if ps.SQIDX = rom.T - 1 then { ps with STATE := permuteState rom p ps.STATE, SQIDX := 0 }
    else ps
  else if ps.IDX ≠ 0 then
    { STATE := permuteState rom p ps.STATE, IDX := 0, SQUEEZED := true, SQIDX := 0 }
  else { ps with SQUEEZED := true, SQIDX := 0 }

/-- The element that `P2SQUEEZE` delivers (R312). -/
def squeezedElement (rom : P2Rom) (p : Nat) (ps : Sponge) : Word :=
  let q := spongeReady rom p ps
  slot q.STATE (1 + q.SQIDX)

/-- The effect of `P2SQUEEZE` on the sponge (R312). -/
def spongeSqueeze (rom : P2Rom) (p : Nat) (ps : Sponge) : Sponge :=
  let q := spongeReady rom p ps
  { q with SQIDX := q.SQIDX + 1 }

end Sys2Proof.Machine
end

