-- ==== Sys2Proof/Machine/Poseidon2.lean ====
section
/-! DEFINITION. The Poseidon2 commands (rules R310 to R313). -/

namespace Sys2Proof.Machine

/-- `P2INIT` (R310): the slots `0 … T − 1` become 0. -/
def execP2init (s : State) : Outcome :=
  conclude s (withSponge s
    (.ok (s.setPS
      { STATE := Vector.ofFn fun i => if i.val < Config.p2rom.T then 0 else slot s.PS.STATE i.val
        IDX := 0
        SQUEEZED := false
        SQIDX := 0 })))

/-- `P2ABSORB xs` (R311). -/
def execP2absorb (xs : XReg) (s : State) : Outcome :=
  conclude s (withSponge s (withElement s.Fbase (s.x xs) fun _ =>
    check (!s.PS.SQUEEZED) .spongeSequence
      (.ok (s.setPS (spongeAbsorb Config.p2rom s.Fbase.P.toNat s.PS (s.x xs))))))

/-- `P2SQUEEZE xd` (R312). -/
def execP2squeeze (xd : XReg) (s : State) : Outcome :=
  let p := s.Fbase.P.toNat
  conclude s (withSponge s
    (.ok ((s.setX xd (squeezedElement Config.p2rom p s.PS)).setPS
      (spongeSqueeze Config.p2rom p s.PS))))

/-- `P2PERM` (R313). -/
def execP2perm (s : State) : Outcome :=
  conclude s (withSponge s
    (.ok (s.setPS
      { s.PS with STATE := permuteState Config.p2rom s.Fbase.P.toNat s.PS.STATE })))

end Sys2Proof.Machine
end

