-- ==== Sys2Proof/Machine/ControlRegs.lean ====
section
/-! DEFINITION. Reading and writing the control registers (rule R55). -/

namespace Sys2Proof.Machine

/-- The number that `CRV.MODEL` reads as (R40). -/
def modelNumber : CurveModel → Nat
  | .weierstrass => 0
  | .edwards => 1
  | .montgomery => 2

/-- The model with a given number, where it is legal (R40, R55). -/
def modelOf (v : Word) : Option CurveModel :=
  if v.toNat = 0 then some .weierstrass
  else if v.toNat = 1 then some .edwards
  else if v.toNat = 2 then some .montgomery
  else none

/-- The value of a control register, before it is zero-extended (R55, R135). -/
def State.ctlValue (s : State) : CtlReg → Nat
  | .p f => (s.F f).P.toNat
  | .r1 f => (s.F f).R1.toNat
  | .r2 f => (s.F f).R2.toNat
  | .inv f => (s.F f).INV.toNat
  | .s f => (s.F f).S.toNat
  | .gen f => (s.F f).GEN.toNat
  | .root2 f => (s.F f).ROOT2.toNat
  | .valid f => boolNat (s.F f).VALID
  | .model => modelNumber s.CRV.MODEL
  | .ca => s.CRV.CA.toNat
  | .cb => s.CRV.CB.toNat
  | .gx => s.CRV.GX.toNat
  | .gy => s.CRV.GY.toNat
  | .cofactor => s.CRV.COFACTOR.toNat
  | .cofactorInv => s.CRV.COFACTOR_INV.toNat
  | .errval => s.ERRVAL.toNat
  | .kActive => boolNat s.K.ACTIVE
  | .kPos => s.K.POS.val
  | .p2T => Config.p2rom.T
  | .p2D => Config.p2rom.D
  | .p2RF => Config.p2rom.RF
  | .p2RP => Config.p2rom.RP
  | .p2P => Config.p2rom.P
  | .psIdx => s.PS.IDX
  | .psSqueezed => boolNat s.PS.SQUEEZED
  | .psSqidx => s.PS.SQIDX
  | .psState i => (slot s.PS.STATE i.val).toNat

/-- `zext_256(reg(c, f))` (R55, R135). -/
def State.readCtl (s : State) (c : CtlReg) : Word := BitVec.ofNat 256 (s.ctlValue c)

/-- The checks of a register that holds an element of `F[f]` (R55: `FieldOK(f)` else `NoConfig`,
then `v < F[f].P` else `NotInField`). -/
def withElementOf (s : State) (f : Ctx) (v : Word) (k : Except Err State) : Except Err State :=
  withField s f fun F => withElement F v fun _ => k

/-- `reg(c, f) <- v` with the checks of rule R55. A register that is not marked RW, or that this
engine does not have, makes the word an illegal command (R106, R107). -/
def State.writeCtl (s : State) (c : CtlReg) (v : Word) : Except Err State :=
  match c with
  | .gen f => withElementOf s f v (.ok (s.setF f { s.F f with GEN := v }))
  | .root2 f => withElementOf s f v (.ok (s.setF f { s.F f with ROOT2 := v }))
  | .model =>
    match modelOf v with
    | some m => .ok (s.setCRV { s.CRV with MODEL := m })
    | none => .error .badConfigValue
  | .ca => withElementOf s .base v (.ok (s.setCRV { s.CRV with CA := v }))
  | .cb => withElementOf s .base v (.ok (s.setCRV { s.CRV with CB := v }))
  | .gx => withElementOf s .base v (.ok (s.setCRV { s.CRV with GX := v }))
  | .gy => withElementOf s .base v (.ok (s.setCRV { s.CRV with GY := v }))
  | .cofactor => .ok (s.setCRV { s.CRV with COFACTOR := v })
  | .cofactorInv => .ok (s.setCRV { s.CRV with COFACTOR_INV := v })
  | .psState i =>
    check (CtlReg.psState i).present .illegalCommand
      (withSponge s
        (withElement s.Fbase v fun _ =>
          .ok (s.setPS { s.PS with STATE := setSlot s.PS.STATE i.val v })))
  | _ => .error .illegalCommand

end Sys2Proof.Machine
end

