-- ==== Sys2Proof/Machine/System.lean ====
section
/-! DEFINITION. The system, configuration, move and memory commands (rules R130 to R139). -/

namespace Sys2Proof.Machine

/-- `NOP` (R130). -/
def execNop (s : State) : Outcome := conclude s (.ok s)

/-- `LI ad, imm16` (R131). -/
def execLi (ad : AReg) (imm : BitVec 16) (s : State) : Outcome := conclude s (.ok (s.setA ad imm))

/-- `MOV xd, xs` (R132). -/
def execMov (xd xs : XReg) (s : State) : Outcome := conclude s (.ok (s.setX xd (s.x xs)))

/-- `SETMOD xs` in context f (R133). -/
def execSetmod (f : Ctx) (xs : XReg) (s : State) : Outcome :=
  let p := s.x xs
  conclude s
    (check (p.toNat % 2 = 1 && 3 ≤ p.toNat) .badConfigValue (.ok (s.setF f (configuredCtx p))))

/-- `CFGW c, xs` (R134). -/
def execCfgw (c : CtlReg) (xs : XReg) (s : State) : Outcome := conclude s (s.writeCtl c (s.x xs))

/-- `CFGR xd, c` (R135). A register that this engine does not have makes the word an illegal command
(R106, R107). -/
def execCfgr (xd : XReg) (c : CtlReg) (s : State) : Outcome :=
  conclude s (check c.present .illegalCommand (.ok (s.setX xd (s.readCtl c))))

/-- The checks of `LDLE` and `LDBE` and the 32 bytes they load (R136). -/
def withLoad (s : State) (aa al : AReg) (k : List Byte → Except Err State) : Except Err State :=
  withRange (s.ea aa) (s.ea al)
    (check (s.ea al = 32) .invalidLength (k (s.memRead (s.ea aa) 32)))

/-- `LDLE xd, aa, al` (R136). -/
def execLdle (xd : XReg) (aa al : AReg) (s : State) : Outcome :=
  conclude s (withLoad s aa al fun bs => .ok (s.setXNat xd (leNat bs)))

/-- `LDBE xd, aa, al` (R137). -/
def execLdbe (xd : XReg) (aa al : AReg) (s : State) : Outcome :=
  conclude s (withLoad s aa al fun bs => .ok (s.setXNat xd (beNat bs)))

/-- `STLE aa, xs` (R138). -/
def execStle (aa : AReg) (xs : XReg) (s : State) : Outcome :=
  conclude s (withRange (s.ea aa) 32 (.ok (s.memWrite (s.ea aa) (toLE (s.x xs).toNat 32))))

/-- `STBE aa, xs` (R139). -/
def execStbe (aa : AReg) (xs : XReg) (s : State) : Outcome :=
  conclude s (withRange (s.ea aa) 32 (.ok (s.memWrite (s.ea aa) (toBE (s.x xs).toNat 32))))

end Sys2Proof.Machine
end

