-- ==== Sys2Proof/Machine/Dispatch.lean ====
section
/-! DEFINITION. The meaning of each command: one arm per row of the opcode map (rule R105). -/

namespace Sys2Proof.Machine

def exec (i : Instr) (s : State) : Host.Outcome State Fault Refusal :=
  match i with
  | .nop => Sys2Proof.Machine.execNop s
  | .li ad imm => Sys2Proof.Machine.execLi ad imm s
  | .mov xd xs => Sys2Proof.Machine.execMov xd xs s
  | .setmod f xs => Sys2Proof.Machine.execSetmod f xs s
  | .cfgw c xs => Sys2Proof.Machine.execCfgw c xs s
  | .cfgr xd c => Sys2Proof.Machine.execCfgr xd c s
  | .ldle xd aa al => Sys2Proof.Machine.execLdle xd aa al s
  | .ldbe xd aa al => Sys2Proof.Machine.execLdbe xd aa al s
  | .stle aa xs => Sys2Proof.Machine.execStle aa xs s
  | .stbe aa xs => Sys2Proof.Machine.execStbe aa xs s
  | .fldmod f xd aa al => Sys2Proof.Machine.execFldmod f xd aa al s
  | .uadd xd xs1 xs2 => Sys2Proof.Machine.execUadd xd xs1 xs2 s
  | .usub xd xs1 xs2 => Sys2Proof.Machine.execUsub xd xs1 xs2 s
  | .umul xdlo xdhi xs1 xs2 => Sys2Proof.Machine.execUmul xdlo xdhi xs1 xs2 s
  | .ushl1 xd xs => Sys2Proof.Machine.execUshl1 xd xs s
  | .ushr1 xd xs => Sys2Proof.Machine.execUshr1 xd xs s
  | .ucmp xs1 xs2 => Sys2Proof.Machine.execUcmp xs1 xs2 s
  | .ubit xs n => Sys2Proof.Machine.execUbit xs n s
  | .unumbits xd xs => Sys2Proof.Machine.execUnumbits xd xs s
  | .utest xs => Sys2Proof.Machine.execUtest xs s
  | .ffrom f xd xs => Sys2Proof.Machine.execFfrom f xd xs s
  | .finto f xd xs => Sys2Proof.Machine.execFinto f xd xs s
  | .fadd f xd xs1 xs2 => Sys2Proof.Machine.execFadd f xd xs1 xs2 s
  | .fsub f xd xs1 xs2 => Sys2Proof.Machine.execFsub f xd xs1 xs2 s
  | .fneg f xd xs => Sys2Proof.Machine.execFneg f xd xs s
  | .fmul f xd xs1 xs2 => Sys2Proof.Machine.execFmul f xd xs1 xs2 s
  | .fsqr f xd xs => Sys2Proof.Machine.execFsqr f xd xs s
  | .fdbl f xd xs => Sys2Proof.Machine.execFdbl f xd xs s
  | .fpow f xd xs1 xs2 => Sys2Proof.Machine.execFpow f xd xs1 xs2 s
  | .finv f xd xs => Sys2Proof.Machine.execFinv f xd xs s
  | .fsqrt f xd xs => Sys2Proof.Machine.execFsqrt f xd xs s
  | .fconst f xd k => Sys2Proof.Machine.execFconst f xd k s
  | .pset pd xsx xsy => Sys2Proof.Machine.execPset pd xsx xsy s
  | .pinf pd => Sys2Proof.Machine.execPinf pd s
  | .pgen pd => Sys2Proof.Machine.execPgen pd s
  | .pget xdx xdy ps => Sys2Proof.Machine.execPget xdx xdy ps s
  | .pmov pd ps => Sys2Proof.Machine.execPmov pd ps s
  | .padd pd ps1 ps2 => Sys2Proof.Machine.execPadd pd ps1 ps2 s
  | .pdbl pd ps => Sys2Proof.Machine.execPdbl pd ps s
  | .pneg pd ps => Sys2Proof.Machine.execPneg pd ps s
  | .peq ps1 ps2 => Sys2Proof.Machine.execPeq ps1 ps2 s
  | .pmul pd ps xs => Sys2Proof.Machine.execPmul pd ps xs s
  | .pisid ps => Sys2Proof.Machine.execPisid ps s
  | .kinit => Sys2Proof.Machine.execKinit s
  | .kupdate aa al => Sys2Proof.Machine.execKupdate aa al s
  | .kfinal aa => Sys2Proof.Machine.execKfinal aa s
  | .hpair ad aa ab => Sys2Proof.Machine.execHpair ad aa ab s
  | .mverify => Sys2Proof.Machine.execMverify s
  | .mverifym => Sys2Proof.Machine.execMverifym s
  | .esign xdr xds xdv xsk xh => Sys2Proof.Machine.execEsign xdr xds xdv xsk xh s
  | .everify xh xr xs pq => Sys2Proof.Machine.execEverify xh xr xs pq s
  | .erecover xd xh xv xr xs => Sys2Proof.Machine.execErecover xd xh xv xr xs s
  | .p2init => Sys2Proof.Machine.execP2init s
  | .p2absorb xs => Sys2Proof.Machine.execP2absorb xs s
  | .p2squeeze xd => Sys2Proof.Machine.execP2squeeze xd s
  | .p2perm => Sys2Proof.Machine.execP2perm s

end Sys2Proof.Machine
end

