-- ==== Sys2Proof/Machine/Issue.lean ====
section
/-! DEFINITION. The host interface (rules R60, R109): taking the host's next move, issuing a command
word, and the other four moves. -/

namespace Sys2Proof.Machine

/-- The host's next move, with the state in which it is made: the move is no longer to come, and the
host has got nothing from it yet. -/
def State.takeMove (s : State) : Option (HostMove × State) :=
  match s.pending with
  | [] => none
  | m :: ms => some (m, { s with pending := ms, reply := .nothing })

/-- `Issue(w)` (R60, R109): ignored when `ST.FAULT = 1`; a word that does not decode raises
`IllegalCommand`; a word that does is executed. -/
def issue (w : CmdWord) (s : State) : Outcome :=
  if s.ST.FAULT then .next s
  else
    match decode w with
    | .ok i => exec i s
    | .error _ => .next (s.raise .illegalCommand)

/-- The five host moves (R60). `ReadStatus`, `HostRead`, `HostWrite` and `Reset` may be made when
`ST.FAULT = 1` too (R362). -/
def makeMove (m : HostMove) (s : State) : Outcome :=
  match m with
  | .issue w => issue w s
  | .readStatus => .next { s with reply := .status s.status }
  | .hostRead addr => .next { s with reply := .byte (s.MEM.read addr.toNat) }
  | .hostWrite addr b => .next { s with MEM := s.MEM.write addr.toNat b }
  | .reset => .next s.hostReset

/-- One move of the host, or nothing while it makes none: the engine is then idle and keeps its
state (R382). DEDUCED, safe (log entry 6). -/
def advance (s : State) : Outcome :=
  match s.takeMove with
  | none => .next s
  | some (m, t) => makeMove m t

/-- The host issues the word w next, before the moves it already has to make. -/
def State.issueNext (s : State) (w : CmdWord) : State :=
  { s with pending := .issue w :: s.pending }

end Sys2Proof.Machine
end

