-- ==== Sys2Proof/Machine/Step.lean ====
section
/-! DEFINITION. One step of the machine: one move of the host, of which `Issue(w)` is one command of
the engine (rules R17, R18, R60). -/

namespace Sys2Proof.Machine

/-- One step (R17). -/
def step (s : State) : Host.Outcome State Fault Refusal := advance s

/-- The state in which the host's next move is `Issue(w)` (log entry 2). A command is one 32-bit word
(R100), so only the low 32 of the bits stand for it. -/
def State.withFetchWord (s : State) (nbits w : Nat) : State :=
  s.issueNext (BitVec.ofNat 32 (w % 2 ^ nbits))

end Sys2Proof.Machine
end

