-- ==== Sys2Proof/Safety.lean ====
section
/-! DEFINITION. What the claims speak of: the parts of the state and which of them an event leaves
alone, and the invariants of the machine (rules R22, R24, R30 to R32, R50, R51, R301, R361 to R363). -/

namespace Sys2Proof.Machine

/-! ## Frames -/

/-- One part of the state that an event may change or leave alone. Each byte of `MEM` is a part of
its own, and so is every register and every flag. -/
inductive Part
  | x (i : XReg)
  | a (i : AReg)
  | pt (i : PReg)
  | fault
  | C
  | Z
  | T
  | err
  | errval
  | field (f : Ctx)
  | curve
  | hasher
  | sponge
  | byte (addr : Nat)
  | pending
  | reply
deriving DecidableEq, Repr

/-- The part is the same in both states. -/
def Part.same (s t : State) : Part → Prop
  | .x i => t.x i = s.x i
  | .a i => t.a i = s.a i
  | .pt i => t.pt i = s.pt i
  | .fault => t.ST.FAULT = s.ST.FAULT
  | .C => t.ST.C = s.ST.C
  | .Z => t.ST.Z = s.ST.Z
  | .T => t.ST.T = s.ST.T
  | .err => t.ST.ERR = s.ST.ERR
  | .errval => t.ERRVAL = s.ERRVAL
  | .field f => t.F f = s.F f
  | .curve => t.CRV = s.CRV
  | .hasher => t.K = s.K
  | .sponge => t.PS = s.PS
  | .byte addr => t.MEM.read addr = s.MEM.read addr
  | .pending => t.pending = s.pending
  | .reply => t.reply = s.reply

/-- Every part outside the list is the same in both states. -/
def Keeps (s t : State) (changed : List Part) : Prop := ∀ q, q ∉ changed → q.same s t

/-- The n bytes of `MEM` from an address on. -/
def bytesFrom (addr n : Nat) : List Part := (List.range n).map fun i => .byte (addr + i)

/-- From state s a command has completed in state t (R360): the outcome code is 0, and of the other
parts only the listed ones may have changed. -/
def Completed (s t : State) (changed : List Part) : Prop :=
  t.ST.ERR = okCode ∧ Keeps s t (.err :: changed)

/-! ## Invariants -/

/-- `(X, Y, INF = 1)` occurs with `X = Y = 0` only (R22). -/
def PointReg.wf (P : PointReg) : Prop := P.INF = true → P.X = 0 ∧ P.Y = 0

/-- A context that `SETMOD` has configured: an odd modulus of at least 3, the derived constants of
rule R30 for it, and two field elements. -/
structure FieldCtx.Configured (F : FieldCtx) : Prop where
  odd : F.P.toNat % 2 = 1
  three_le : 3 ≤ F.P.toNat
  r1 : F.R1.toNat = 2 ^ 256 % F.P.toNat
  r2 : F.R2.toNat = 2 ^ 512 % F.P.toNat
  inv : F.INV.toNat * F.P.toNat % 2 ^ 64 = 2 ^ 64 - 1
  two_pow_dvd : 2 ^ F.S.toNat ∣ F.P.toNat - 1
  two_pow_max : ¬ 2 ^ (F.S.toNat + 1) ∣ F.P.toNat - 1
  gen : F.GEN.toNat < F.P.toNat
  root2 : F.ROOT2.toNat < F.P.toNat

/-- A context is configured, or holds its reset value (R30, R31, R55, R65). -/
def FieldCtx.wf (F : FieldCtx) : Prop :=
  if F.VALID then F.Configured else F = FieldCtx.unconfigured

/-- Outside `KINIT` … `KFINAL` the hasher is zero (R50, R246). -/
def Hasher.wf (K : Hasher) : Prop :=
  K.ACTIVE = false → K.S = Vector.replicate 200 0 ∧ K.POS = 0

/-- The indices of the sponge lie in their ranges (R51, R304, R312), and the slots hold elements of
the instance's field, the slots that the engine does not have 0 (R301). -/
structure Sponge.wf (PS : Sponge) : Prop where
  idx_le : PS.IDX + 2 ≤ Config.p2rom.T
  squeezed_pos : PS.SQUEEZED = true → 1 ≤ PS.SQIDX ∧ PS.IDX = 0
  sqidx_le : PS.SQIDX + 1 ≤ Config.p2rom.T
  absorbing : PS.SQUEEZED = false → PS.SQIDX = 0
  element : ∀ i, i < Config.p2rom.T → (slot PS.STATE i).toNat < Config.p2rom.P
  absent : ∀ i, Config.p2rom.T ≤ i → slot PS.STATE i = 0

/-- The outcome codes that a command can leave (R363, R364). -/
def producedCodes : List (BitVec 8) :=
  [0x00, 0x01, 0x03, 0x04, 0x05, 0x06, 0x10, 0x11, 0x12, 0x13, 0x14, 0x15, 0x80, 0x81]

/-- `ST.ERR` holds a code of rule R363 that is produced, and `ST.FAULT` is set exactly with the code
of a fault (R361, R362). -/
def Status.wf (st : Status) : Prop :=
  st.ERR ∈ producedCodes ∧ (st.FAULT = true ↔ st.ERR = 0x80 ∨ st.ERR = 0x81)

/-- The move that the host makes next, if it makes one. -/
def State.nextMove (s : State) : Option HostMove := s.pending.head?

/-! ## Outcomes -/

/-- The command word with number n is the command i. -/
def Encodes (n : Nat) (i : Instr) : Prop := decode (BitVec.ofNat 32 n) = .ok i

/-- The command ends with the error or fault e and no other effect (R361, R362). -/
def Raises (i : Instr) (s : State) (e : Err) : Prop := exec i s = .next (s.raise e)

/-- The common checks of a field command with context f and the field operands `srcs` (R170). -/
def FieldChecks (i : Instr) (s : State) (f : Ctx) (srcs : List XReg) : Prop :=
  ((s.F f).VALID = false → Raises i s .noConfig) ∧
    ((s.F f).VALID = true → (∃ r ∈ srcs, (s.F f).P.toNat ≤ (s.x r).toNat) →
      Raises i s .notInField)

/-- The context is valid and configured as rule R30 says. -/
def Ready (s : State) (f : Ctx) : Prop := (s.F f).VALID = true ∧ (s.F f).Configured

/-- The register holds an element of `F[f]` (R13). -/
def Holds (s : State) (f : Ctx) (r : XReg) : Prop := (s.x r).toNat < (s.F f).P.toNat

/-! ## Points -/

/-- `PointCheck(P)` passes (R44). -/
def PointPasses (c : CurveParams) (P : PointReg) : Prop :=
  (P.INF = true ∧ c.model ≠ .edwards) ∨
    (P.INF = false ∧ P.X.toNat < c.p ∧ P.Y.toNat < c.p ∧
      onCurve c (valOf c.p P.X.toNat) (valOf c.p P.Y.toNat) = true)

/-- `PointCheck(P)` raises e (R44). -/
def PointFails (c : CurveParams) (P : PointReg) (e : Err) : Prop :=
  (P.INF = true ∧ c.model = .edwards ∧ e = .notOnCurve) ∨
    (P.INF = false ∧ (c.p ≤ P.X.toNat ∨ c.p ≤ P.Y.toNat) ∧ e = .notInField) ∨
    (P.INF = false ∧ P.X.toNat < c.p ∧ P.Y.toNat < c.p ∧
      onCurve c (valOf c.p P.X.toNat) (valOf c.p P.Y.toNat) = false ∧ e = .notOnCurve)

/-- The common checks of a curve command with the source point registers `srcs`: the curve first,
then each source in its order (R200). -/
def PointChecks (i : Instr) (s : State) (srcs : List PReg) : Prop :=
  (s.curveOK = false → Raises i s .noConfig) ∧
    ∀ before q after e, srcs = before ++ q :: after → s.curveOK = true →
      (∀ r ∈ before, PointPasses s.curve (s.pt r)) → PointFails s.curve (s.pt q) e → Raises i s e

/-- The checks of a curve command with the source point registers `srcs` all pass (R200). -/
def PointsReady (s : State) (srcs : List PReg) : Prop :=
  s.curveOK = true ∧ ∀ r ∈ srcs, PointPasses s.curve (s.pt r)

/-- The third point `(x3, y3)` of a chord or tangent with slope lam through `(x1, y1)` and a point
with first coordinate x2: R202 for `b = 1`, `a = 0`, R204 for `b = B`, `a = A`. -/
def OnLine (p : Nat) (b a lam x1 y1 x2 x3 y3 : Int) : Prop :=
  x3 ≡ b * lam ^ 2 - a - x1 - x2 [ZMOD p] ∧ y3 ≡ lam * (x1 - x3) - y1 [ZMOD p]

/-- `Q = Add(P1, P2)`, by the equations of rules R202 to R205 in place of their divisions; with
`P1 = P2` it is `Q = Dbl(P1)`. -/
def IsSum (c : CurveParams) : AffPoint → AffPoint → AffPoint → Prop
  | .mk x1 y1, .mk x2 y2, Q =>
    match c.model with
    | .edwards => ∃ x3 y3 k : Nat, Q = .mk x3 y3 ∧ x3 < c.p ∧ y3 < c.p ∧
        k = c.B * x1 * x2 * y1 * y2 % c.p ∧
        (x3 : Int) * (1 + k) ≡ x1 * y2 + y1 * x2 [ZMOD c.p] ∧
        (y3 : Int) * (1 - k) ≡ y1 * y2 - c.A * x1 * x2 [ZMOD c.p]
    | .weierstrass =>
      if x1 = x2 ∧ (y1 ≠ y2 ∨ y1 = 0) then Q = .O
      else ∃ lam x3 y3 : Nat, Q = .mk x3 y3 ∧ x3 < c.p ∧ y3 < c.p ∧
        (if x1 = x2 then (lam : Int) * (2 * y1) ≡ 3 * x1 ^ 2 + c.A [ZMOD c.p]
          else (lam : Int) * (x2 - x1) ≡ y2 - y1 [ZMOD c.p]) ∧
        OnLine c.p 1 0 lam x1 y1 x2 x3 y3
    | .montgomery =>
      if x1 = x2 ∧ (y1 ≠ y2 ∨ y1 = 0) then Q = .O
      else ∃ lam x3 y3 : Nat, Q = .mk x3 y3 ∧ x3 < c.p ∧ y3 < c.p ∧
        (if x1 = x2 then (lam : Int) * (2 * c.B * y1) ≡ 3 * x1 ^ 2 + 2 * c.A * x1 + 1 [ZMOD c.p]
          else (lam : Int) * (x2 - x1) ≡ y2 - y1 [ZMOD c.p]) ∧
        OnLine c.p c.B c.A lam x1 y1 x2 x3 y3
  | .O, P2, Q => Q = P2
  | P1, .O, Q => Q = P1

/-- Every division that `Add(P1, P2)` makes has a divisor prime to p (R201 to R204). -/
def SumDefined (c : CurveParams) : AffPoint → AffPoint → Prop
  | .mk x1 y1, .mk x2 y2 =>
    match c.model with
    | .edwards =>
      IsCoprime (1 + (c.B * x1 * x2 * y1 * y2 : Int)) c.p ∧
        IsCoprime (1 - (c.B * x1 * x2 * y1 * y2 : Int)) c.p
    | .weierstrass =>
      if x1 = x2 then y1 = y2 → y1 ≠ 0 → IsCoprime (2 * y1 : Int) c.p
      else IsCoprime ((x2 : Int) - x1) c.p
    | .montgomery =>
      if x1 = x2 then y1 = y2 → y1 ≠ 0 → IsCoprime (2 * c.B * y1 : Int) c.p
      else IsCoprime ((x2 : Int) - x1) c.p
  | _, _ => True

/-! ## ECDSA -/

/-- The common checks of the ECDSA commands pass (R280). -/
def EcdsaReady (s : State) : Prop :=
  s.Fbase.VALID = true ∧ s.Fscalar.VALID = true ∧ s.CRV.MODEL = .weierstrass ∧
    s.curveOK = true ∧ PointPasses s.curve s.generator

/-- The common checks of the ECDSA commands, in their order (R280). -/
def EcdsaChecks (i : Instr) (s : State) : Prop :=
  (s.Fbase.VALID = false ∨ s.Fscalar.VALID = false ∨ s.CRV.MODEL ≠ .weierstrass ∨
      s.curveOK = false → Raises i s .noConfig) ∧
    ∀ e, s.Fbase.VALID = true → s.Fscalar.VALID = true → s.CRV.MODEL = .weierstrass →
      s.curveOK = true → PointFails s.curve s.generator e → Raises i s e

/-- `SigCheck(r, s)` raises e for the group order n (R281). -/
def SigFails (n : Nat) (r s : Word) (e : Err) : Prop :=
  if r.toNat = 0 ∨ n ≤ r.toNat then e = .invalidSignature
  else if s.toNat = 0 ∨ n ≤ s.toNat then e = .invalidSignature
  else (n - 1) / 2 < s.toNat ∧ e = .invalidSignatureS s

/-- `SigCheck(r, s)` passes for the group order n (R281). -/
def SigPasses (n : Nat) (r s : Word) : Prop :=
  1 ≤ r.toNat ∧ r.toNat < n ∧ 1 ≤ s.toNat ∧ s.toNat < n ∧ s.toNat ≤ (n - 1) / 2

/-- `ESIGN` rejects the nonce k (R285, steps 2 and 3). -/
def NonceRejected (c : CurveParams) (G : AffPoint) (n sk e k : Nat) : Prop :=
  mulPoint c k G = .ok .O ∨
    ∃ Rx Ry, mulPoint c k G = .ok (.mk Rx Ry) ∧
      (Rx % n = 0 ∨ Nat.gcd k n ≠ 1 ∨ (e + Rx % n * sk) % n = 0)

/-- The nonce k gives `ESIGN` the signature `(r, s, v)` (R285, steps 2 to 5). -/
def NonceGives (c : CurveParams) (G : AffPoint) (n sk e k r s v : Nat) : Prop :=
  ∃ Rx Ry s0, mulPoint c k G = .ok (.mk Rx Ry) ∧ r = Rx % n ∧ r ≠ 0 ∧ Nat.gcd k n = 1 ∧
    s0 < n ∧ s0 ≠ 0 ∧ k * s0 % n = (e + r * sk) % n ∧
    if (n - 1) / 2 < s0 then s = n - s0 ∧ v = 1 - Ry % 2 else s = s0 ∧ v = Ry % 2

/-- `U1 + U2` with `U1 = Mul(u1, G)` and `U2 = Mul(u2, Q)` (R287). -/
def sumOfMultiples (c : CurveParams) (u1 : Nat) (G : AffPoint) (u2 : Nat) (Q : AffPoint) :
    Except Err AffPoint :=
  andThen (mulPoint c u1 G) fun U1 => andThen (mulPoint c u2 Q) fun U2 => addPoint c U1 U2

/-- `Mul(rinv, Add(Mul(s, Rp), Neg(Mul(e, G))))` (R286). -/
def recoveredKey (c : CurveParams) (G : AffPoint) (rinv s e : Nat) (Rp : AffPoint) :
    Except Err AffPoint :=
  andThen (mulPoint c s Rp) fun sR => andThen (mulPoint c e G) fun eG =>
    andThen (addPoint c sR (negPoint c eG)) fun D => mulPoint c rinv D

/-- The configured generator as a mathematical point (R280). -/
def State.G (s : State) : AffPoint := affOf s.curve.p s.generator

/-! ## Poseidon2 -/

/-- `val_0(PS.STATE)`, element by element (R311). -/
def logicalState (p : Nat) (st : Vector Word 16) : List Nat :=
  (List.range Config.p2rom.T).map fun i => valOf p (slot st i).toNat

/-- The slots 0 to T − 1 of the sponge hold `rep_0(v)`, element by element (R311). -/
def HoldsState (p : Nat) (st : Vector Word 16) (v : List Nat) : Prop :=
  ∀ i, i < Config.p2rom.T → (slot st i).toNat = repOf p (v.getD i 0)

/-! ## Control registers -/

/-- `CFGW` accepts v for the register (R55). -/
def Accepts (s : State) (v : Word) : CtlReg → Prop
  | .gen f | .root2 f => (s.F f).VALID = true ∧ v.toNat < (s.F f).P.toNat
  | .model => v.toNat ≤ 2
  | .ca | .cb | .gx | .gy => s.Fbase.VALID = true ∧ v.toNat < s.Fbase.P.toNat
  | .cofactor | .cofactorInv => True
  | .psState _ => s.p2OK = true ∧ v.toNat < s.Fbase.P.toNat
  | _ => False

/-- `CFGW` of v to the register raises e (R55). -/
def Refuses (s : State) (v : Word) (e : Err) : CtlReg → Prop
  | .gen f | .root2 f =>
    if (s.F f).VALID = true then (s.F f).P.toNat ≤ v.toNat ∧ e = .notInField else e = .noConfig
  | .model => 2 < v.toNat ∧ e = .badConfigValue
  | .ca | .cb | .gx | .gy =>
    if s.Fbase.VALID = true then s.Fbase.P.toNat ≤ v.toNat ∧ e = .notInField else e = .noConfig
  | .psState _ =>
    if s.p2OK = true then s.Fbase.P.toNat ≤ v.toNat ∧ e = .notInField else e = .noConfig
  | _ => False

/-- The part of the state that the register belongs to. -/
def ctlPart : CtlReg → Part
  | .gen f | .root2 f => .field f
  | .psState _ => .sponge
  | _ => .curve

/-- `CFGR` of the register with number n and context bit f completes and delivers v, in every general
register that it can name (R55, R105, R135). -/
def ReadsAs (s : State) (f : Ctx) (n v : Nat) : Prop :=
  ∀ xd : XReg, ∃ c t, Encodes (0x05 * 2 ^ 24 + xd.val * 2 ^ 20 + ctxBit f * 2 ^ 8 + n) (.cfgr xd c) ∧
    exec (.cfgr xd c) s = .next t ∧ Completed s t [.x xd] ∧ t.x xd = BitVec.ofNat 256 v

/-! ## The sequence of candidates of the default nonce function, turn by turn (R342) -/

/-- `Kk` and V before turn i of `Candidates(sk, h)`. -/
def candidateState (n sk h : Nat) : Nat → List Byte × List Byte
  | 0 => candidateStart n sk h
  | i + 1 =>
    let key := (candidateState n sk h i).1
    let V := (nonceGather key (numBits n) (numBits n) [] (candidateState n sk h i).2).2
    (hmac key (V ++ [0x00]), hmac (hmac key (V ++ [0x00])) V)

/-- The k of turn i. -/
def candidateAt (n sk h i : Nat) : Nat :=
  bits2int (numBits n) (nonceGather (candidateState n sk h i).1 (numBits n) (numBits n) []
    (candidateState n sk h i).2).1

/-- Turn i emits its k. -/
def Emits (n sk h i : Nat) : Prop := 1 ≤ candidateAt n sk h i ∧ candidateAt n sk h i ≤ n - 1

/-- How many of the turns before turn i emit their k. -/
def emittedBefore (n sk h : Nat) : Nat → Nat
  | 0 => 0
  | i + 1 => emittedBefore n sk h i +
      if 1 ≤ candidateAt n sk h i ∧ candidateAt n sk h i ≤ n - 1 then 1 else 0

/-! ## The columns and the tables of Keccak-f as rule R242 prints them -/

/-- The exclusive or of the five lanes with the first index x. -/
def columnXor (A : Lanes) (x : Nat) : BitVec 64 :=
  ((List.range 5).map (lane A x)).foldl (· ^^^ ·) 0

/-- `ROT[x][y]`, row x of the table. -/
def rotTable : Nat → List Nat
  | 0 => [0, 36, 3, 41, 18]
  | 1 => [1, 44, 10, 45, 2]
  | 2 => [62, 6, 43, 15, 61]
  | 3 => [28, 55, 25, 21, 56]
  | 4 => [27, 20, 39, 8, 14]
  | _ => []

/-- The rows of the table of `RC`, the three constants of a row written one after the other. -/
def rcRows : List Nat :=
  [0x00000000000000010000000000008082800000000000808A,
   0x8000000080008000000000000000808B0000000080000001,
   0x80000000800080818000000000008009000000000000008A,
   0x00000000000000880000000080008009000000008000000A,
   0x000000008000808B800000000000008B8000000000008089,
   0x800000000000800380000000000080028000000000000080,
   0x000000000000800A800000008000000A8000000080008081,
   0x800000000000808000000000800000018000000080008008]

/-- `RC[ir]`: the constant number `ir mod 3` of row `ir / 3`. -/
def rcTable (ir : Nat) : BitVec 64 :=
  BitVec.ofNat 64 (rcRows.getD (ir / 3) 0 >>> (64 * (2 - ir % 3)))

/-! ## Tables of the specification over all commands -/

/-- A reserved opcode (R107). -/
def ReservedOpcode (op : Nat) : Prop :=
  (0x06 ≤ op ∧ op ≤ 0x0F) ∨ (0x15 ≤ op ∧ op ≤ 0x1F) ∨ (0x29 ≤ op ∧ op ≤ 0x2F) ∨
    (0x3C ≤ op ∧ op ≤ 0x3F) ∨ (0x4B ≤ op ∧ op ≤ 0x4F) ∨ (0x53 ≤ op ∧ op ≤ 0x57) ∨
    (0x5B ≤ op ∧ op ≤ 0x5F) ∨ (0x63 ≤ op ∧ op ≤ 0x6F) ∨ (0x74 ≤ op ∧ op ≤ 0xFF)

/-- The codes other than 0 that a well-formed command can leave in `ST.ERR` (R365). -/
def errorCodes : Instr → List (BitVec 8)
  | .nop | .li .. | .mov .. | .cfgr .. | .pmov .. => []
  | .uadd .. | .usub .. | .umul .. | .ushl1 .. | .ushr1 .. | .ucmp .. | .ubit .. | .unumbits ..
  | .utest .. => []
  | .setmod .. => [0x11]
  | .cfgw .. => [0x10, 0x03, 0x11]
  | .ldle .. | .ldbe .. => [0x01, 0x81]
  | .stle .. | .stbe .. => [0x81]
  | .fldmod .. => [0x10, 0x81]
  | .ffrom .. | .finto .. | .fadd .. | .fsub .. | .fneg .. | .fdbl .. | .fmul .. | .fsqr ..
  | .fpow .. | .finv .. | .fsqrt .. => [0x10, 0x03]
  | .fconst .. => [0x10]
  | .pinf .. => [0x10]
  | .pset .. | .pgen .. | .pget .. | .pneg .. | .peq .. | .pisid .. => [0x10, 0x03, 0x04]
  | .padd .. | .pdbl .. | .pmul .. => [0x10, 0x03, 0x04, 0x14]
  | .kinit => []
  | .kupdate .. | .kfinal .. => [0x12, 0x81]
  | .hpair .. | .mverify | .mverifym => [0x81]
  | .esign .. => [0x10, 0x03, 0x04, 0x13, 0x14, 0x15]
  | .everify .. | .erecover .. => [0x10, 0x03, 0x04, 0x05, 0x06, 0x14]
  | .p2init | .p2squeeze .. | .p2perm => [0x10]
  | .p2absorb .. => [0x10, 0x03, 0x12]

/-- The commands that write flag C (R24). -/
def writesC : Instr → Bool
  | .uadd .. | .usub .. | .ushl1 .. | .ushr1 .. | .ucmp .. => true
  | _ => false

/-- The commands that write flag Z (R24). -/
def writesZ : Instr → Bool
  | .ucmp .. | .utest .. | .unumbits .. => true
  | _ => false

/-- The commands that write flag T (R24). -/
def writesT : Instr → Bool
  | .ubit .. | .finv .. | .fsqrt .. | .pget .. | .peq .. | .pisid .. | .mverify | .mverifym
  | .everify .. => true
  | _ => false

/-- The commands that write an address register (R21). -/
def writesAddress : Instr → Bool
  | .li .. => true
  | _ => false

/-- The commands that write a point register (R22). -/
def writesPoint : Instr → Bool
  | .pset .. | .pinf .. | .pgen .. | .pmov .. | .padd .. | .pdbl .. | .pneg .. | .pmul .. => true
  | _ => false

/-- The commands that write `MEM` (R71). -/
def writesMemory : Instr → Bool
  | .stle .. | .stbe .. | .kfinal .. | .hpair .. => true
  | _ => false

/-- The commands that write `K` (R50). -/
def writesHasher : Instr → Bool
  | .kinit | .kupdate .. | .kfinal .. => true
  | _ => false

/-- The commands that write a field context (R30, R31, R55). -/
def writesContext : Instr → Bool
  | .setmod .. | .cfgw .. => true
  | _ => false

/-- The commands that write `CRV` (R40, R55). -/
def writesCurve : Instr → Bool
  | .cfgw .. => true
  | _ => false

/-- The commands that write `PS` (R301). -/
def writesSponge : Instr → Bool
  | .cfgw .. | .p2init | .p2absorb .. | .p2squeeze .. | .p2perm => true
  | _ => false

/-! ## The multi-proof loop as rule R263 writes it -/

/-- `PopLH()` on the positions lp in the leaves and hp in the hashes (R263). -/
def popAt (leaves hashes : List Node) (lp hp : Nat) : Option (Node × Nat × Nat) :=
  match leaves[lp]? with
  | some v => some (v, lp + 1, hp)
  | none =>
    match hashes[hp]? with
    | some v => some (v, lp, hp + 1)
    | none => none

/-- The loop of `MultiVerify` over the flags that are left, with the positions lp, hp and pp (R263);
the result is the list of all hashes. -/
def multiAt (proof leaves : List Node) : List Bool → List Node → Nat → Nat → Nat → Option (List Node)
  | [], hashes, _, _, _ => some hashes
  | fl :: fls, hashes, lp, hp, pp =>
    match popAt leaves hashes lp hp with
    | none => none
    | some (a, lp, hp) =>
      if fl then
        match popAt leaves hashes lp hp with
        | none => none
        | some (b, lp, hp) => multiAt proof leaves fls (hashes ++ [hashPair a b]) lp hp pp
      else
        match proof[pp]? with
        | none => none
        | some b => multiAt proof leaves fls (hashes ++ [hashPair a b]) lp hp (pp + 1)

end Sys2Proof.Machine
end

