-- ==== Sys2Proof/Certificates/Slice0/Obligations.lean ====
section
/-! DEFINITION. The statements for the provers. Each cites the rules of the specification that it
formalises; words are written as the sum of their fields at the bit places of rule R101. -/

open Sys2Proof Sys2Proof.Machine

/-! ## Host moves and decoding -/

/-- R60, R109: when the host's next move is `Issue(w)`, the engine has no fault and w decodes to i,
the step is exactly i on the state in which the move is made; while the host makes no move, the
engine keeps its state: the model's reading of rule R382 (log entries 2 and 6). -/
def Obligations.StepRunsDecodedCommand : Prop :=
  (∀ (s : State) (w : CmdWord) (ms : List HostMove) (i : Instr),
    s.pending = .issue w :: ms → s.ST.FAULT = false → decode w = .ok i →
      step s = exec i { s with pending := ms, reply := .nothing }) ∧
  ∀ s : State, s.pending = [] → step s = .next s

/-- R107: a word with a reserved opcode, and any word that is not the encoding of a well-formed
command, raises `IllegalCommand` and changes nothing else; no two words are the same command. -/
def Obligations.IllegalWordsRaiseIllegalCommand : Prop :=
  (∀ (s : State) (w : CmdWord) (ms : List HostMove),
    s.pending = .issue w :: ms → s.ST.FAULT = false →
    (ReservedOpcode (w.toNat / 2 ^ 24) ∨ ∀ i : Instr, i.wf = true → encode i ≠ w) →
      ∃ t, step s = .next t ∧ t.ST.FAULT = true ∧ t.ST.ERR = 0x80 ∧ t.pending = ms ∧
        t.reply = .nothing ∧ Keeps s t [.fault, .err, .pending, .reply]) ∧
  ∀ (v w : CmdWord) (i : Instr), decode v = .ok i → decode w = .ok i → v = w

/-- Decoding the encoding of a well-formed command gives the command back (R105, R112). -/
def Obligations.DecodeOfEncode : Prop := ∀ i : Instr, i.wf = true → decode (encode i) = .ok i

/-- A word that decodes is exactly the encoding of its command, bit for bit, and the command is
well-formed (R101, R102, R106): every field that must be zero is zero. -/
def Obligations.DecodedWordIsTheEncoding : Prop :=
  ∀ (w : CmdWord) (i : Instr), decode w = .ok i → i.wf = true ∧ encode i = w

/-- A few words written out in the specification (rules R130 to R313) decode to their commands. -/
def Obligations.SampleWordsDecode : Prop :=
  decode 0x00000000 = .ok .nop ∧ decode 0x01100020 = .ok (.li 1 32) ∧
  decode 0x04020010 = .ok (.cfgw .model 2) ∧ decode 0x10401000 = .ok (.ldle 4 0 1) ∧
  decode 0x22230100 = .ok (.umul 2 3 0 1) ∧ decode 0x26000001 = .ok (.ubit 0 1) ∧
  decode 0x35312100 = .ok (.fmul .scalar 3 1 2) ∧ decode 0x43341000 = .ok (.pget 3 4 1) ∧
  decode 0x51001000 = .ok (.kupdate 0 1) ∧ decode 0x58201000 = .ok (.hpair 2 0 1) ∧
  decode 0x60456120 = .ok (.esign 4 5 6 1 2) ∧ decode 0x71010000 = .ok (.p2absorb 1)

/-- R25, R60, R80: the fields of `STATUS` are at their bits, the reserved bits and `BUSY` read 0;
`ReadStatus` and `HostRead` deliver `STATUS` and a byte, `HostWrite` writes a byte, and none of them
changes anything else of the engine. -/
def Obligations.HostReadsAndWrites : Prop :=
  ((∀ s : State, s.status.getLsbD 0 = false ∧ s.status.getLsbD 1 = s.ST.FAULT ∧
    s.status.getLsbD 2 = s.ST.C ∧ s.status.getLsbD 3 = s.ST.Z ∧ s.status.getLsbD 4 = s.ST.T ∧
    (∀ k, 5 ≤ k → k ≤ 7 → s.status.getLsbD k = false) ∧
    (∀ k, 8 ≤ k → k ≤ 15 → s.status.getLsbD k = s.ST.ERR.getLsbD (k - 8)) ∧
    ∀ k, 16 ≤ k → s.status.getLsbD k = false) ∧
  ∀ (s : State) (ms : List HostMove), s.pending = .readStatus :: ms →
    ∃ t, step s = .next t ∧ t.reply = .status s.status ∧ t.pending = ms ∧
      Keeps s t [.pending, .reply]) ∧
  (∀ (s : State) (addr : Addr) (b : Byte) (ms : List HostMove), Memory.wf s.MEM →
    s.pending = .hostWrite addr b :: ms →
    ∃ t, step s = .next t ∧ t.MEM.read addr.toNat = b ∧ t.pending = ms ∧
      Keeps s t [.byte addr.toNat, .pending, .reply]) ∧
  ∀ (s : State) (addr : Addr) (ms : List HostMove), s.pending = .hostRead addr :: ms →
    ∃ t, step s = .next t ∧ t.reply = .byte (s.MEM.read addr.toNat) ∧ t.pending = ms ∧
      Keeps s t [.pending, .reply]

/-- R65, R400, R401: power-on, and the move `Reset()` in any state, leave every element of the engine at
its reset value but `MEM`: it holds any bytes after power-on and its own after `Reset()`. That
`State.reset` lists no byte of `MEM` is the model's choice (log entry 1), and it is not used here. -/
def Obligations.ResetRule : Prop :=
  (∀ mem0 : Memory, ∀ s : State, s = State.powerOn mem0 →
    (∀ i, s.x i = 0) ∧ (∀ i, s.a i = 0) ∧ (∀ i, s.pt i = ⟨0, 0, true⟩) ∧
    s.ST = ⟨false, false, false, false, 0⟩ ∧ s.ERRVAL = 0 ∧
    (∀ f, s.F f = ⟨0, false, 0, 0, 0, 0, 0, 0⟩) ∧ s.CRV = ⟨.weierstrass, 0, 0, 0, 0, 0, 0⟩ ∧
    s.K.ACTIVE = false ∧ (∀ k : Fin 200, s.K.S[k] = 0) ∧ s.K.POS.val = 0 ∧
    (∀ k, slot s.PS.STATE k = 0) ∧ s.PS.IDX = 0 ∧ s.PS.SQUEEZED = false ∧ s.PS.SQIDX = 0 ∧
    s.MEM = mem0) ∧
  ∀ (s : State) (ms : List HostMove), s.pending = .reset :: ms →
    step s = .next { State.powerOn s.MEM with pending := ms }

/-! ## How a command ends -/

/-- R360: a command that completes changes neither `ST.FAULT` nor `ERRVAL`. -/
def Obligations.SuccessEffect : Prop :=
  ∀ (i : Instr) (s t : State), exec i s = .next t → t.ST.ERR = 0x00 →
    t.ST.FAULT = s.ST.FAULT ∧ t.ERRVAL = s.ERRVAL

/-- R361: an operation error changes `ST.ERR` alone, and `ERRVAL` when it is `InvalidSignatureS(s)`:
it then receives the signature component s. -/
def Obligations.OperationErrorEffect : Prop :=
  ∀ (i : Instr) (s t : State), exec i s = .next t →
    t.ST.ERR ≠ 0x00 → t.ST.ERR ≠ 0x80 → t.ST.ERR ≠ 0x81 →
      Keeps s t [.err, .errval] ∧ (t.ST.ERR ≠ 0x06 → t.ERRVAL = s.ERRVAL) ∧
        (t.ST.ERR = 0x06 → ∃ xs, t.ERRVAL = s.x xs ∧
          ((∃ xh xr pq, i = .everify xh xr xs pq) ∨ ∃ xd xh xv xr, i = .erecover xd xh xv xr xs))

/-- R362: a fault changes `ST.ERR` and `ST.FAULT` alone; while `ST.FAULT = 1` an `Issue(w)` changes
nothing of the engine, whatever w is, and no host move but `Reset` clears it. -/
def Obligations.FaultEffect : Prop :=
  (∀ (i : Instr) (s t : State), exec i s = .next t → t.ST.ERR = 0x80 ∨ t.ST.ERR = 0x81 →
    t.ST.FAULT = true ∧ Keeps s t [.err, .fault]) ∧
  (∀ (s : State) (w : CmdWord) (ms : List HostMove), s.pending = .issue w :: ms →
    s.ST.FAULT = true → ∃ t, step s = .next t ∧ t.pending = ms ∧ t.reply = .nothing ∧
      Keeps s t [.pending, .reply]) ∧
  ∀ s t : State, step s = .next t → s.ST.FAULT = true → s.nextMove ≠ some .reset →
    t.ST.FAULT = true

/-- R365: every command ends, in every state, and a well-formed one with 0 or a code that the table
lists for it; an ill-formed term, which no word decodes to, raises `IllegalCommand`: the model's choice
(log entry 8). -/
def Obligations.ErrorTable : Prop :=
  ∀ (i : Instr) (s : State),
    (i.wf = true → ∃ t, exec i s = .next t ∧ (t.ST.ERR = 0x00 ∨ t.ST.ERR ∈ errorCodes i)) ∧
    (i.wf = false → Raises i s .illegalCommand)

/-- R24: C, Z and T are written only by the commands that the table of the rule lists, and by none that
ends in an operation error or a fault; and "No command reads a flag": changing the flags beforehand
changes nothing else afterwards, and no flag that the command writes. -/
def Obligations.FlagRule : Prop :=
  (∀ (i : Instr) (s t : State), exec i s = .next t →
    (t.ST.C ≠ s.ST.C → writesC i = true ∧ t.ST.ERR = 0x00) ∧
    (t.ST.Z ≠ s.ST.Z → writesZ i = true ∧ t.ST.ERR = 0x00) ∧
    (t.ST.T ≠ s.ST.T → writesT i = true ∧ t.ST.ERR = 0x00)) ∧
  ∀ (i : Instr) (s s' t t' : State), Keeps s s' [.C, .Z, .T] → s'.MEM = s.MEM →
    exec i s = .next t → exec i s' = .next t' →
      Keeps t t' [.C, .Z, .T] ∧
        (t.ST.ERR = 0x00 → (writesC i = true → t'.ST.C = t.ST.C) ∧
          (writesZ i = true → t'.ST.Z = t.ST.Z) ∧ (writesT i = true → t'.ST.T = t.ST.T))

/-- R21, R22, R23, R30, R40, R50, R71, R301: which commands write the address registers, the point
registers, `MEM`, `K`, the field contexts, `CRV` and `PS`; no command touches the host's moves. -/
def Obligations.StateWriters : Prop :=
  ∀ (i : Instr) (s t : State), exec i s = .next t →
    (writesAddress i = false → ∀ r, t.a r = s.a r) ∧
    (writesPoint i = false → ∀ r, t.pt r = s.pt r) ∧
    (writesMemory i = false → ∀ addr, t.MEM.read addr = s.MEM.read addr) ∧
    (writesHasher i = false → t.K = s.K) ∧
    (writesContext i = false → ∀ f, t.F f = s.F f) ∧
    (writesCurve i = false → t.CRV = s.CRV) ∧
    (writesSponge i = false → t.PS = s.PS) ∧ t.pending = s.pending ∧ t.reply = s.reply

/-! ## Invariants -/

/-- Every step keeps the canonical form of `MEM` (rising addresses below 65536, log entry 1). -/
def Obligations.MemoryFormKept : Prop :=
  ∀ s t : State, Memory.wf s.MEM → step s = .next t → Memory.wf t.MEM

/-- R22, R50, R246, R362, R363: every step keeps `X = Y = 0` in every point register with `INF = 1`, an
inactive hasher zero, a produced code in `ST.ERR` and `ST.FAULT` set exactly with a fault's code. -/
def Obligations.RegisterFormsKept : Prop :=
  (∀ s t : State, (∀ r, (s.pt r).wf) → step s = .next t → ∀ r, (t.pt r).wf) ∧
  (∀ s t : State, s.K.wf → step s = .next t → t.K.wf) ∧
  ∀ s t : State, s.ST.wf → step s = .next t → t.ST.wf

/-- R31: every step keeps each context either unconfigured or configured, with the derived
constants agreeing with its modulus and `GEN`, `ROOT2` below it. -/
def Obligations.ContextFormKept : Prop :=
  ∀ s t : State, (∀ f, (s.F f).wf) → step s = .next t → ∀ f, (t.F f).wf

/-- R51, R301, R304: every step keeps the indices of the sponge in their ranges and its elements in
the instance's field. -/
def Obligations.SpongeFormKept : Prop :=
  ∀ s t : State, s.PS.wf → step s = .next t → t.PS.wf

/-- The invariants hold after power-on, whatever `MEM` holds in canonical form. -/
def Obligations.PowerOnMeetsInvariants : Prop :=
  ∀ mem0 : Memory, Memory.wf mem0 → ∀ s : State, s = State.powerOn mem0 →
    Memory.wf s.MEM ∧ (∀ r, (s.pt r).wf) ∧ (∀ f, (s.F f).wf) ∧ s.K.wf ∧ s.PS.wf ∧ s.ST.wf

/-! ## System, configuration, move and memory commands -/

/-- R130 to R132: `NOP`, `LI` and `MOV` always complete. -/
def Obligations.NopLiMov : Prop :=
  (∀ s : State, Encodes 0 .nop ∧ ∃ t, exec .nop s = .next t ∧ Completed s t []) ∧
  (∀ (ad : AReg) (imm : BitVec 16) (s : State),
    Encodes (0x01 * 2 ^ 24 + ad.val * 2 ^ 20 + imm.toNat) (.li ad imm) ∧
    ∃ t, exec (.li ad imm) s = .next t ∧ t.a ad = imm ∧ Completed s t [.a ad]) ∧
  ∀ (xd xs : XReg) (s : State),
    Encodes (0x02 * 2 ^ 24 + xd.val * 2 ^ 20 + xs.val * 2 ^ 16) (.mov xd xs) ∧
    ∃ t, exec (.mov xd xs) s = .next t ∧ t.x xd = s.x xs ∧ Completed s t [.x xd]

/-- R133: `SETMOD` of an odd modulus of at least 3 configures the context with its derived constants
and clears `GEN` and `ROOT2`; any other value raises `BadConfigValue`. -/
def Obligations.SetmodRule : Prop :=
  ∀ (f : Ctx) (xs : XReg) (s : State),
    Encodes (0x03 * 2 ^ 24 + xs.val * 2 ^ 16 + ctxBit f * 2 ^ 8) (.setmod f xs) ∧
    ((s.x xs).toNat % 2 = 1 → 3 ≤ (s.x xs).toNat →
      ∃ t, exec (.setmod f xs) s = .next t ∧ (t.F f).P = s.x xs ∧ (t.F f).VALID = true ∧
        (t.F f).Configured ∧ (t.F f).GEN = 0 ∧ (t.F f).ROOT2 = 0 ∧ Completed s t [.field f]) ∧
    ((s.x xs).toNat % 2 = 0 ∨ (s.x xs).toNat < 3 → Raises (.setmod f xs) s .badConfigValue)

/-- R134, R55: `CFGW` gives a writable register the value, if its check accepts the value, and
leaves every other control register; otherwise the check's error is raised. -/
def Obligations.CfgwRule : Prop :=
  ∀ (c : CtlReg) (xs : XReg) (s : State), c.present = true → c.writable = true →
    Encodes (0x04 * 2 ^ 24 + xs.val * 2 ^ 16 + ctxBit (ctlCtx c) * 2 ^ 8 + ctlNumber c)
      (.cfgw c xs) ∧
    (Accepts s (s.x xs) c →
      ∃ t, exec (.cfgw c xs) s = .next t ∧ t.ctlValue c = (s.x xs).toNat ∧
        (∀ d, d ≠ c → t.ctlValue d = s.ctlValue d) ∧ Completed s t [ctlPart c]) ∧
    ∀ e, Refuses s (s.x xs) e c → Raises (.cfgw c xs) s e

/-- R55, R135: `CFGR` copies a control register, zero-extended, and always completes; which part of
the state each number reads, the read-only ones among them. -/
def Obligations.CfgrRule : Prop :=
  (∀ (xd : XReg) (c : CtlReg) (s : State), c.present = true →
    Encodes (0x05 * 2 ^ 24 + xd.val * 2 ^ 20 + ctxBit (ctlCtx c) * 2 ^ 8 + ctlNumber c)
      (.cfgr xd c) ∧
    ∃ t, exec (.cfgr xd c) s = .next t ∧ Completed s t [.x xd] ∧
      t.x xd = BitVec.ofNat 256 (s.ctlValue c)) ∧
  ∀ s : State,
    (∀ f : Ctx, ReadsAs s f 0x00 (s.F f).P.toNat ∧ ReadsAs s f 0x01 (s.F f).R1.toNat ∧
      ReadsAs s f 0x02 (s.F f).R2.toNat ∧ ReadsAs s f 0x03 (s.F f).INV.toNat ∧
      ReadsAs s f 0x04 (s.F f).S.toNat ∧ ReadsAs s f 0x05 (s.F f).GEN.toNat ∧
      ReadsAs s f 0x06 (s.F f).ROOT2.toNat ∧
      ReadsAs s f 0x07 (if (s.F f).VALID = true then 1 else 0)) ∧
    (s.CRV.MODEL = .weierstrass → ReadsAs s .base 0x10 0) ∧
    (s.CRV.MODEL = .edwards → ReadsAs s .base 0x10 1) ∧
    (s.CRV.MODEL = .montgomery → ReadsAs s .base 0x10 2) ∧
    ReadsAs s .base 0x11 s.CRV.CA.toNat ∧ ReadsAs s .base 0x12 s.CRV.CB.toNat ∧
    ReadsAs s .base 0x13 s.CRV.GX.toNat ∧ ReadsAs s .base 0x14 s.CRV.GY.toNat ∧
    ReadsAs s .base 0x15 s.CRV.COFACTOR.toNat ∧ ReadsAs s .base 0x16 s.CRV.COFACTOR_INV.toNat ∧
    ReadsAs s .base 0x20 s.ERRVAL.toNat ∧
    ReadsAs s .base 0x28 (if s.K.ACTIVE = true then 1 else 0) ∧ ReadsAs s .base 0x29 s.K.POS.val ∧
    ReadsAs s .base 0x30 Config.p2rom.T ∧ ReadsAs s .base 0x31 Config.p2rom.D ∧
    ReadsAs s .base 0x32 Config.p2rom.RF ∧ ReadsAs s .base 0x33 Config.p2rom.RP ∧
    ReadsAs s .base 0x34 Config.p2rom.P ∧ ReadsAs s .base 0x38 s.PS.IDX ∧
    ReadsAs s .base 0x39 (if s.PS.SQUEEZED = true then 1 else 0) ∧
    ReadsAs s .base 0x3A s.PS.SQIDX ∧
    ∀ i, i < Config.p2rom.T → ReadsAs s .base (0x40 + i) (slot s.PS.STATE i).toNat

/-- R136, R137: `LDLE` and `LDBE` load 32 bytes, the byte at the lowest address being the least or
the most significant; a range outside `MEM` faults before a wrong length is an error. -/
def Obligations.LoadRules : Prop :=
  ∀ (xd : XReg) (aa al : AReg) (s : State),
    Encodes (0x10 * 2 ^ 24 + xd.val * 2 ^ 20 + aa.val * 2 ^ 16 + al.val * 2 ^ 12) (.ldle xd aa al) ∧
    Encodes (0x11 * 2 ^ 24 + xd.val * 2 ^ 20 + aa.val * 2 ^ 16 + al.val * 2 ^ 12) (.ldbe xd aa al) ∧
    (65536 < s.ea aa + s.ea al →
      Raises (.ldle xd aa al) s .accessFault ∧ Raises (.ldbe xd aa al) s .accessFault) ∧
    (s.ea aa + s.ea al ≤ 65536 → s.ea al ≠ 32 →
      Raises (.ldle xd aa al) s .invalidLength ∧ Raises (.ldbe xd aa al) s .invalidLength) ∧
    (s.ea aa + s.ea al ≤ 65536 → s.ea al = 32 →
      (∃ t, exec (.ldle xd aa al) s = .next t ∧ Completed s t [.x xd] ∧
        ∀ k, k < 32 → (t.x xd).toNat / 256 ^ k % 256 = (s.MEM.read (s.ea aa + k)).toNat) ∧
      ∃ t, exec (.ldbe xd aa al) s = .next t ∧ Completed s t [.x xd] ∧
        ∀ k, k < 32 → (t.x xd).toNat / 256 ^ (31 - k) % 256 = (s.MEM.read (s.ea aa + k)).toNat)

/-- R138, R139: `STLE` and `STBE` store 32 bytes in either order and leave every other byte. -/
def Obligations.StoreRules : Prop :=
  ∀ (aa : AReg) (xs : XReg) (s : State),
    Encodes (0x12 * 2 ^ 24 + aa.val * 2 ^ 16 + xs.val * 2 ^ 12) (.stle aa xs) ∧
    Encodes (0x13 * 2 ^ 24 + aa.val * 2 ^ 16 + xs.val * 2 ^ 12) (.stbe aa xs) ∧
    (65536 < s.ea aa + 32 →
      Raises (.stle aa xs) s .accessFault ∧ Raises (.stbe aa xs) s .accessFault) ∧
    (Memory.wf s.MEM → s.ea aa + 32 ≤ 65536 →
      (∃ t, exec (.stle aa xs) s = .next t ∧ Completed s t (bytesFrom (s.ea aa) 32) ∧
        ∀ k, k < 32 → (t.MEM.read (s.ea aa + k)).toNat = (s.x xs).toNat / 256 ^ k % 256) ∧
      ∃ t, exec (.stbe aa xs) s = .next t ∧ Completed s t (bytesFrom (s.ea aa) 32) ∧
        ∀ k, k < 32 → (t.MEM.read (s.ea aa + k)).toNat = (s.x xs).toNat / 256 ^ (31 - k) % 256)

/-! ## Big-integer commands -/

/-- R151, R152: `UADD` and `USUB` work modulo `2^256`; C is the carry or the borrow. -/
def Obligations.AddSubtractIntegers : Prop :=
  (∀ (xd xs1 xs2 : XReg) (s : State),
    Encodes (0x20 * 2 ^ 24 + xd.val * 2 ^ 20 + xs1.val * 2 ^ 16 + xs2.val * 2 ^ 12)
      (.uadd xd xs1 xs2) ∧
    ∃ t, exec (.uadd xd xs1 xs2) s = .next t ∧ Completed s t [.x xd, .C] ∧
      (t.x xd).toNat + 2 ^ 256 * boolNat t.ST.C = (s.x xs1).toNat + (s.x xs2).toNat) ∧
  ∀ (xd xs1 xs2 : XReg) (s : State),
    Encodes (0x21 * 2 ^ 24 + xd.val * 2 ^ 20 + xs1.val * 2 ^ 16 + xs2.val * 2 ^ 12)
      (.usub xd xs1 xs2) ∧
    ∃ t, exec (.usub xd xs1 xs2) s = .next t ∧ Completed s t [.x xd, .C] ∧
      (t.x xd).toNat + (s.x xs2).toNat = (s.x xs1).toNat + 2 ^ 256 * boolNat t.ST.C

/-- R153: `UMUL` delivers the full product in two different registers; with equal destinations the
word is illegal. -/
def Obligations.UmulRule : Prop :=
  ∀ (xdlo xdhi xs1 xs2 : XReg) (s : State),
    (xdlo ≠ xdhi →
      Encodes (0x22 * 2 ^ 24 + xdlo.val * 2 ^ 20 + xdhi.val * 2 ^ 16 + xs1.val * 2 ^ 12 +
        xs2.val * 2 ^ 8) (.umul xdlo xdhi xs1 xs2) ∧
      ∃ t, exec (.umul xdlo xdhi xs1 xs2) s = .next t ∧ Completed s t [.x xdlo, .x xdhi] ∧
        (t.x xdlo).toNat + 2 ^ 256 * (t.x xdhi).toNat = (s.x xs1).toNat * (s.x xs2).toNat) ∧
    (xdlo = xdhi → ∀ i, ¬ Encodes (0x22 * 2 ^ 24 + xdlo.val * 2 ^ 20 + xdhi.val * 2 ^ 16 +
      xs1.val * 2 ^ 12 + xs2.val * 2 ^ 8) i)

/-- R154, R155: the two shifts by one; C is the bit shifted out. -/
def Obligations.ShiftRules : Prop :=
  ∀ (xd xs : XReg) (s : State),
    Encodes (0x23 * 2 ^ 24 + xd.val * 2 ^ 20 + xs.val * 2 ^ 16) (.ushl1 xd xs) ∧
    Encodes (0x24 * 2 ^ 24 + xd.val * 2 ^ 20 + xs.val * 2 ^ 16) (.ushr1 xd xs) ∧
    (∃ t, exec (.ushl1 xd xs) s = .next t ∧ Completed s t [.x xd, .C] ∧
      (t.x xd).toNat + 2 ^ 256 * boolNat t.ST.C = 2 * (s.x xs).toNat) ∧
    ∃ t, exec (.ushr1 xd xs) s = .next t ∧ Completed s t [.x xd, .C] ∧
      2 * (t.x xd).toNat + boolNat t.ST.C = (s.x xs).toNat

/-- R156 to R159: the commands that compare and test; `UNUMBITS` of 0 is 0, and of a larger number a the
k with `2^(k−1) ≤ a < 2^k`. -/
def Obligations.CompareAndTestIntegers : Prop :=
  ((∀ (xs1 xs2 : XReg) (s : State),
    Encodes (0x25 * 2 ^ 24 + xs1.val * 2 ^ 16 + xs2.val * 2 ^ 12) (.ucmp xs1 xs2) ∧
    ∃ t, exec (.ucmp xs1 xs2) s = .next t ∧ Completed s t [.Z, .C] ∧
      (t.ST.Z = true ↔ s.x xs1 = s.x xs2) ∧
      (t.ST.C = true ↔ (s.x xs1).toNat < (s.x xs2).toNat)) ∧
  (∀ (xs : XReg) (i : BitVec 8) (s : State),
    Encodes (0x26 * 2 ^ 24 + xs.val * 2 ^ 16 + i.toNat) (.ubit xs i) ∧
    ∃ t, exec (.ubit xs i) s = .next t ∧ Completed s t [.T] ∧
      (t.ST.T = true ↔ (s.x xs).toNat / 2 ^ i.toNat % 2 = 1)) ∧
  ∀ (xs : XReg) (s : State),
    Encodes (0x28 * 2 ^ 24 + xs.val * 2 ^ 16) (.utest xs) ∧
    ∃ t, exec (.utest xs) s = .next t ∧ Completed s t [.Z] ∧
      (t.ST.Z = true ↔ (s.x xs).toNat = 0)) ∧
  ∀ (xd xs : XReg) (s : State),
    Encodes (0x27 * 2 ^ 24 + xd.val * 2 ^ 20 + xs.val * 2 ^ 16) (.unumbits xd xs) ∧
    ∃ t, exec (.unumbits xd xs) s = .next t ∧ Completed s t [.x xd, .Z] ∧
      (t.ST.Z = true ↔ (s.x xs).toNat = 0) ∧
      (if (s.x xs).toNat = 0 then (t.x xd).toNat = 0
        else 1 ≤ (t.x xd).toNat ∧ 2 ^ ((t.x xd).toNat - 1) ≤ (s.x xs).toNat ∧
          (s.x xs).toNat < 2 ^ (t.x xd).toNat)

/-! ## Prime-field commands -/

/-- R172, R173: `FFROM` gives the representative of a number below p, and `FINTO` the number of a
representative: the r below p with `r · 2^256 ≡ a`; each undoes the other. -/
def Obligations.ConversionRules : Prop :=
  (∀ (f : Ctx) (xd xs : XReg) (s : State),
    Encodes (0x30 * 2 ^ 24 + xd.val * 2 ^ 20 + xs.val * 2 ^ 16 + ctxBit f * 2 ^ 8) (.ffrom f xd xs) ∧
    Encodes (0x31 * 2 ^ 24 + xd.val * 2 ^ 20 + xs.val * 2 ^ 16 + ctxBit f * 2 ^ 8) (.finto f xd xs) ∧
    FieldChecks (.ffrom f xd xs) s f [xs] ∧ FieldChecks (.finto f xd xs) s f [xs] ∧
    (Ready s f → Holds s f xs →
      (∃ t, exec (.ffrom f xd xs) s = .next t ∧ Completed s t [.x xd] ∧ Holds t f xd ∧
        (t.x xd).toNat = (s.x xs).toNat * 2 ^ 256 % (s.F f).P.toNat) ∧
      ∃ t, exec (.finto f xd xs) s = .next t ∧ Completed s t [.x xd] ∧ Holds t f xd ∧
        (t.x xd).toNat * 2 ^ 256 % (s.F f).P.toNat = (s.x xs).toNat)) ∧
  ∀ (f : Ctx) (xd xe xs : XReg) (s : State), Ready s f → Holds s f xs →
    (∃ t u, exec (.ffrom f xd xs) s = .next t ∧ exec (.finto f xe xd) t = .next u ∧
      u.x xe = s.x xs) ∧
    ∃ t u, exec (.finto f xd xs) s = .next t ∧ exec (.ffrom f xe xd) t = .next u ∧ u.x xe = s.x xs

/-- R175, R180: `FMUL` and `FSQR` give the r below p with `r · 2^256 ≡ a · b`. -/
def Obligations.MultiplyRules : Prop :=
  ∀ (f : Ctx) (xd xs1 xs2 : XReg) (s : State),
    Encodes (0x35 * 2 ^ 24 + xd.val * 2 ^ 20 + xs1.val * 2 ^ 16 + xs2.val * 2 ^ 12 + ctxBit f * 2 ^ 8)
      (.fmul f xd xs1 xs2) ∧
    Encodes (0x36 * 2 ^ 24 + xd.val * 2 ^ 20 + xs1.val * 2 ^ 16 + ctxBit f * 2 ^ 8)
      (.fsqr f xd xs1) ∧
    FieldChecks (.fmul f xd xs1 xs2) s f [xs1, xs2] ∧ FieldChecks (.fsqr f xd xs1) s f [xs1] ∧
    (Ready s f → Holds s f xs1 → Holds s f xs2 →
      ∃ t, exec (.fmul f xd xs1 xs2) s = .next t ∧ Completed s t [.x xd] ∧ Holds t f xd ∧
        (t.x xd).toNat * 2 ^ 256 % (s.F f).P.toNat =
          (s.x xs1).toNat * (s.x xs2).toNat % (s.F f).P.toNat) ∧
    (Ready s f → Holds s f xs1 →
      ∃ t, exec (.fsqr f xd xs1) s = .next t ∧ Completed s t [.x xd] ∧ Holds t f xd ∧
        (t.x xd).toNat * 2 ^ 256 % (s.F f).P.toNat =
          (s.x xs1).toNat * (s.x xs1).toNat % (s.F f).P.toNat)

/-- R176 to R179: the modular adder and subtractor. -/
def Obligations.AddSubtractRules : Prop :=
  ∀ (f : Ctx) (xd xs1 xs2 : XReg) (s : State),
    Encodes (0x32 * 2 ^ 24 + xd.val * 2 ^ 20 + xs1.val * 2 ^ 16 + xs2.val * 2 ^ 12 + ctxBit f * 2 ^ 8)
      (.fadd f xd xs1 xs2) ∧
    Encodes (0x33 * 2 ^ 24 + xd.val * 2 ^ 20 + xs1.val * 2 ^ 16 + xs2.val * 2 ^ 12 + ctxBit f * 2 ^ 8)
      (.fsub f xd xs1 xs2) ∧
    Encodes (0x34 * 2 ^ 24 + xd.val * 2 ^ 20 + xs1.val * 2 ^ 16 + ctxBit f * 2 ^ 8)
      (.fneg f xd xs1) ∧
    Encodes (0x37 * 2 ^ 24 + xd.val * 2 ^ 20 + xs1.val * 2 ^ 16 + ctxBit f * 2 ^ 8)
      (.fdbl f xd xs1) ∧
    FieldChecks (.fadd f xd xs1 xs2) s f [xs1, xs2] ∧
    FieldChecks (.fsub f xd xs1 xs2) s f [xs1, xs2] ∧
    FieldChecks (.fneg f xd xs1) s f [xs1] ∧ FieldChecks (.fdbl f xd xs1) s f [xs1] ∧
    (Ready s f → Holds s f xs1 → Holds s f xs2 →
      (∃ t, exec (.fadd f xd xs1 xs2) s = .next t ∧ Completed s t [.x xd] ∧
        (t.x xd).toNat = ((s.x xs1).toNat + (s.x xs2).toNat) % (s.F f).P.toNat) ∧
      ∃ t, exec (.fsub f xd xs1 xs2) s = .next t ∧ Completed s t [.x xd] ∧ Holds t f xd ∧
        ((t.x xd).toNat + (s.x xs2).toNat) % (s.F f).P.toNat = (s.x xs1).toNat) ∧
    (Ready s f → Holds s f xs1 →
      (∃ t, exec (.fneg f xd xs1) s = .next t ∧ Completed s t [.x xd] ∧ Holds t f xd ∧
        ((t.x xd).toNat + (s.x xs1).toNat) % (s.F f).P.toNat = 0) ∧
      ∃ t, exec (.fdbl f xd xs1) s = .next t ∧ Completed s t [.x xd] ∧
        (t.x xd).toNat = 2 * (s.x xs1).toNat % (s.F f).P.toNat)

/-- R181: the result of `FPOW` is `rep_f(val_f(a)^e mod p)`, as the specification infers from its
loop, for every exponent up to `2^256 − 1`, which is not compared with p. -/
def Obligations.FpowRule : Prop :=
  ∀ (f : Ctx) (xd xs1 xs2 : XReg) (s : State),
    Encodes (0x38 * 2 ^ 24 + xd.val * 2 ^ 20 + xs1.val * 2 ^ 16 + xs2.val * 2 ^ 12 + ctxBit f * 2 ^ 8)
      (.fpow f xd xs1 xs2) ∧
    FieldChecks (.fpow f xd xs1 xs2) s f [xs1] ∧
    (Ready s f → Holds s f xs1 →
      ∃ t, exec (.fpow f xd xs1 xs2) s = .next t ∧ Completed s t [.x xd] ∧
        (t.x xd).toNat = repOf (s.F f).P.toNat
          (valOf (s.F f).P.toNat (s.x xs1).toNat ^ (s.x xs2).toNat % (s.F f).P.toNat))

/-- R182: `FINV` of a representative prime to p gives the representative of the inverse and T = 1;
of any other, 0 among them, T = 0 and the destination stays. -/
def Obligations.FinvRule : Prop :=
  ∀ (f : Ctx) (xd xs : XReg) (s : State),
    Encodes (0x39 * 2 ^ 24 + xd.val * 2 ^ 20 + xs.val * 2 ^ 16 + ctxBit f * 2 ^ 8) (.finv f xd xs) ∧
    FieldChecks (.finv f xd xs) s f [xs] ∧
    (Ready s f → Holds s f xs → Nat.gcd (s.x xs).toNat (s.F f).P.toNat = 1 →
      ∃ t, exec (.finv f xd xs) s = .next t ∧ Completed s t [.x xd, .T] ∧ t.ST.T = true ∧
        Holds t f xd ∧
        valOf (s.F f).P.toNat (s.x xs).toNat * valOf (s.F f).P.toNat (t.x xd).toNat %
          (s.F f).P.toNat = 1) ∧
    (Ready s f → Holds s f xs → Nat.gcd (s.x xs).toNat (s.F f).P.toNat ≠ 1 →
      ∃ t, exec (.finv f xd xs) s = .next t ∧ Completed s t [.T] ∧ t.ST.T = false)

/-- R183: `FSQRT` completes with a true root and T = 1, or with T = 0 and the destination as before;
for `p ≡ 3 (mod 4)` the root is `v^((p+1)/4) mod p` if that is a root, which for a prime p it is exactly
of the squares; for `p ≡ 1 (mod 4)` it is what `TS_f(v)` finds, or `NoConfig` with `ROOT2 = 0`. -/
def Obligations.FsqrtRule : Prop :=
  ∀ (f : Ctx) (xd xs : XReg) (s : State),
    Encodes (0x3A * 2 ^ 24 + xd.val * 2 ^ 20 + xs.val * 2 ^ 16 + ctxBit f * 2 ^ 8) (.fsqrt f xd xs) ∧
    FieldChecks (.fsqrt f xd xs) s f [xs] ∧
    ∀ p v, p = (s.F f).P.toNat → v = valOf p (s.x xs).toNat → Ready s f → Holds s f xs →
      (p % 4 = 1 → (s.F f).ROOT2 = 0 → Raises (.fsqrt f xd xs) s .noConfig) ∧
      (p % 4 = 3 ∨ (s.F f).ROOT2 ≠ 0 →
        ∃ t, exec (.fsqrt f xd xs) s = .next t ∧ Completed s t [.x xd, .T] ∧
          (t.ST.T = false → t.x xd = s.x xd) ∧
          (t.ST.T = true → Holds t f xd ∧ valOf p (t.x xd).toNat ^ 2 % p = v) ∧
          (p % 4 = 3 → (t.ST.T = true ↔ (v ^ ((p + 1) / 4)) ^ 2 % p = v) ∧
            (t.ST.T = true → (t.x xd).toNat = repOf p (v ^ ((p + 1) / 4) % p)) ∧
            (p.Prime → (t.ST.T = true ↔ IsSquare (v : ZMod p)))) ∧
          (p % 4 = 1 → (t.ST.T = true ↔ tonelliShanks (s.F f) v ≠ none) ∧
            ∀ c, tonelliShanks (s.F f) v = some c → (t.x xd).toNat = repOf p c))

/-- R184: with a prime `p ≡ 1 (mod 4)` and a `ROOT2` of multiplicative order exactly `2^S`, the
Tonelli-Shanks procedure finds a root of every quadratic residue and of nothing else. -/
def Obligations.TonelliShanksComplete : Prop :=
  ∀ (F : FieldCtx) (v : Nat), F.Configured → F.P.toNat.Prime → F.P.toNat % 4 = 1 →
    orderOf (valOf F.P.toNat F.ROOT2.toNat : ZMod F.P.toNat) = 2 ^ F.S.toNat → v < F.P.toNat →
      (IsSquare (v : ZMod F.P.toNat) →
        ∃ x, tonelliShanks F v = some x ∧ x < F.P.toNat ∧ x * x % F.P.toNat = v) ∧
      (¬ IsSquare (v : ZMod F.P.toNat) → tonelliShanks F v = none)

/-- R185, R186: `FCONST` gives one of three constants; `FLDMOD` reduces any number of little-endian bytes
modulo p. -/
def Obligations.ConstantAndReductionRules : Prop :=
  (∀ (f : Ctx) (xd : XReg) (s : State),
    (∀ k : FConst,
      Encodes (0x3B * 2 ^ 24 + xd.val * 2 ^ 20 + ctxBit f * 2 ^ 8 + constNumber k) (.fconst f xd k) ∧
      FieldChecks (.fconst f xd k) s f []) ∧
    ((s.F f).VALID = true →
      (∃ t, exec (.fconst f xd .zero) s = .next t ∧ t.x xd = 0 ∧ Completed s t [.x xd]) ∧
      (∃ t, exec (.fconst f xd .one) s = .next t ∧ t.x xd = (s.F f).R1 ∧ Completed s t [.x xd]) ∧
      ∃ t, exec (.fconst f xd .gen) s = .next t ∧ t.x xd = (s.F f).GEN ∧ Completed s t [.x xd])) ∧
  ∀ (f : Ctx) (xd : XReg) (aa al : AReg) (s : State),
    Encodes (0x14 * 2 ^ 24 + xd.val * 2 ^ 20 + aa.val * 2 ^ 16 + al.val * 2 ^ 12 + ctxBit f * 2 ^ 8)
      (.fldmod f xd aa al) ∧
    (65536 < s.ea aa + s.ea al → Raises (.fldmod f xd aa al) s .accessFault) ∧
    (s.ea aa + s.ea al ≤ 65536 → (s.F f).VALID = false → Raises (.fldmod f xd aa al) s .noConfig) ∧
    (s.ea aa + s.ea al ≤ 65536 → Ready s f →
      ∃ t, exec (.fldmod f xd aa al) s = .next t ∧ Completed s t [.x xd] ∧ Holds t f xd ∧
        (t.x xd).toNat =
          (∑ k ∈ Finset.range (s.ea al), (s.MEM.read (s.ea aa + k)).toNat * 256 ^ k) * 2 ^ 256 %
            (s.F f).P.toNat)

/-- R171: the limb-by-limb algorithm computes the Montgomery product, for every odd modulus below
`2^256` and the constant `INV` that belongs to it. -/
def Obligations.LimbLoopIsMontgomeryProduct : Prop :=
  ∀ p inv a b : Nat, p % 2 = 1 → 3 ≤ p → p < 2 ^ 256 → inv < 2 ^ 64 →
    inv * p % 2 ^ 64 = 2 ^ 64 - 1 → a < p → b < p → montMulLimbs p inv a b = montMul p a b

/-! ## Elliptic-curve commands -/

/-- R210 to R212, R214: the commands that load or copy a point register. -/
def Obligations.PointLoadRules : Prop :=
  (∀ (pd : PReg) (xsx xsy : XReg) (s : State),
    Encodes (0x40 * 2 ^ 24 + pd.val * 2 ^ 20 + xsx.val * 2 ^ 16 + xsy.val * 2 ^ 12)
      (.pset pd xsx xsy) ∧
    (s.curveOK = false → Raises (.pset pd xsx xsy) s .noConfig) ∧
    (∀ e, s.curveOK = true → PointFails s.curve ⟨s.x xsx, s.x xsy, false⟩ e →
      Raises (.pset pd xsx xsy) s e) ∧
    (s.curveOK = true → PointPasses s.curve ⟨s.x xsx, s.x xsy, false⟩ →
      ∃ t, exec (.pset pd xsx xsy) s = .next t ∧ t.pt pd = ⟨s.x xsx, s.x xsy, false⟩ ∧
        Completed s t [.pt pd])) ∧
  (∀ (pd : PReg) (s : State),
    Encodes (0x41 * 2 ^ 24 + pd.val * 2 ^ 20) (.pinf pd) ∧
    (s.curveOK = false → Raises (.pinf pd) s .noConfig) ∧
    (s.curveOK = true → ∃ t, exec (.pinf pd) s = .next t ∧ Completed s t [.pt pd] ∧
      t.pt pd = if s.CRV.MODEL = .edwards then ⟨0, s.Fbase.R1, false⟩ else ⟨0, 0, true⟩)) ∧
  (∀ (pd : PReg) (s : State),
    Encodes (0x42 * 2 ^ 24 + pd.val * 2 ^ 20) (.pgen pd) ∧
    (s.curveOK = false → Raises (.pgen pd) s .noConfig) ∧
    (∀ e, s.curveOK = true → PointFails s.curve ⟨s.CRV.GX, s.CRV.GY, false⟩ e →
      Raises (.pgen pd) s e) ∧
    (s.curveOK = true → PointPasses s.curve ⟨s.CRV.GX, s.CRV.GY, false⟩ →
      ∃ t, exec (.pgen pd) s = .next t ∧ t.pt pd = ⟨s.CRV.GX, s.CRV.GY, false⟩ ∧
        Completed s t [.pt pd])) ∧
  ∀ (pd ps : PReg) (s : State),
    Encodes (0x44 * 2 ^ 24 + pd.val * 2 ^ 20 + ps.val * 2 ^ 16) (.pmov pd ps) ∧
    ∃ t, exec (.pmov pd ps) s = .next t ∧ t.pt pd = s.pt ps ∧ Completed s t [.pt pd]

/-- R213, R218, R219: the commands that read points into registers and flags. `PGET` of a register
in the form of rule R22 delivers 0, 0 for infinity. -/
def Obligations.PointQueryRules : Prop :=
  (∀ (xdx xdy : XReg) (ps : PReg) (s : State), xdx ≠ xdy →
    Encodes (0x43 * 2 ^ 24 + xdx.val * 2 ^ 20 + xdy.val * 2 ^ 16 + ps.val * 2 ^ 12)
      (.pget xdx xdy ps) ∧
    PointChecks (.pget xdx xdy ps) s [ps] ∧
    (PointsReady s [ps] → (s.pt ps).wf →
      ∃ t, exec (.pget xdx xdy ps) s = .next t ∧ Completed s t [.x xdx, .x xdy, .T] ∧
        t.x xdx = (s.pt ps).X ∧ t.x xdy = (s.pt ps).Y ∧ (t.ST.T = true ↔ (s.pt ps).INF = false) ∧
        ((s.pt ps).INF = true → t.x xdx = 0 ∧ t.x xdy = 0))) ∧
  (∀ (ps1 ps2 : PReg) (s : State),
    Encodes (0x48 * 2 ^ 24 + ps1.val * 2 ^ 16 + ps2.val * 2 ^ 12) (.peq ps1 ps2) ∧
    PointChecks (.peq ps1 ps2) s [ps1, ps2] ∧
    (PointsReady s [ps1, ps2] → Ready s .base →
      ∃ t, exec (.peq ps1 ps2) s = .next t ∧ Completed s t [.T] ∧
        (t.ST.T = true ↔ ((s.pt ps1).INF = true ∧ (s.pt ps2).INF = true) ∨
          ((s.pt ps1).INF = false ∧ (s.pt ps2).INF = false ∧ (s.pt ps1).X = (s.pt ps2).X ∧
            (s.pt ps1).Y = (s.pt ps2).Y)))) ∧
  ∀ (ps : PReg) (s : State),
    Encodes (0x4A * 2 ^ 24 + ps.val * 2 ^ 16) (.pisid ps) ∧
    PointChecks (.pisid ps) s [ps] ∧
    (PointsReady s [ps] → Ready s .base →
      ∃ t, exec (.pisid ps) s = .next t ∧ Completed s t [.T] ∧
        (t.ST.T = true ↔ if s.CRV.MODEL = .edwards
          then (s.pt ps).X = 0 ∧ (s.pt ps).Y = s.Fbase.R1 else (s.pt ps).INF = true))

/-- R215, R216, R202 to R205: `PADD` and `PDBL` store the sum given by the group law of the
configured model, and raise `ArithDomain` exactly when a division of the law does not exist. -/
def Obligations.PointAdditionRules : Prop :=
  (∀ (pd ps1 ps2 : PReg) (s : State),
    Encodes (0x45 * 2 ^ 24 + pd.val * 2 ^ 20 + ps1.val * 2 ^ 16 + ps2.val * 2 ^ 12)
      (.padd pd ps1 ps2) ∧
    PointChecks (.padd pd ps1 ps2) s [ps1, ps2] ∧
    ∀ P1 P2, P1 = affOf s.curve.p (s.pt ps1) → P2 = affOf s.curve.p (s.pt ps2) →
      PointsReady s [ps1, ps2] → Ready s .base →
      (SumDefined s.curve P1 P2 →
        ∃ t Q, exec (.padd pd ps1 ps2) s = .next t ∧ Completed s t [.pt pd] ∧
          IsSum s.curve P1 P2 Q ∧ t.pt pd = encPoint s.curve.p Q) ∧
      (¬ SumDefined s.curve P1 P2 → Raises (.padd pd ps1 ps2) s .arithDomain)) ∧
  ∀ (pd ps : PReg) (s : State),
    Encodes (0x46 * 2 ^ 24 + pd.val * 2 ^ 20 + ps.val * 2 ^ 16) (.pdbl pd ps) ∧
    PointChecks (.pdbl pd ps) s [ps] ∧
    ∀ P, P = affOf s.curve.p (s.pt ps) → PointsReady s [ps] → Ready s .base →
      (SumDefined s.curve P P →
        ∃ t Q, exec (.pdbl pd ps) s = .next t ∧ Completed s t [.pt pd] ∧
          IsSum s.curve P P Q ∧ t.pt pd = encPoint s.curve.p Q) ∧
      (¬ SumDefined s.curve P P → Raises (.pdbl pd ps) s .arithDomain)

/-- R217: `PNEG` negates y, or x on a twisted Edwards curve; 0 stays 0 and infinity infinity. -/
def Obligations.PnegRule : Prop :=
  ∀ (pd ps : PReg) (s : State),
    Encodes (0x47 * 2 ^ 24 + pd.val * 2 ^ 20 + ps.val * 2 ^ 16) (.pneg pd ps) ∧
    PointChecks (.pneg pd ps) s [ps] ∧
    (PointsReady s [ps] → Ready s .base →
      ∃ t, exec (.pneg pd ps) s = .next t ∧ Completed s t [.pt pd] ∧
        (t.pt pd).INF = (s.pt ps).INF ∧
        ((s.pt ps).INF = false → s.CRV.MODEL = .edwards →
          (t.pt pd).Y = (s.pt ps).Y ∧ (t.pt pd).X.toNat < s.curve.p ∧
            ((t.pt pd).X.toNat + (s.pt ps).X.toNat) % s.curve.p = 0) ∧
        ((s.pt ps).INF = false → s.CRV.MODEL ≠ .edwards →
          (t.pt pd).X = (s.pt ps).X ∧ (t.pt pd).Y.toNat < s.curve.p ∧
            ((t.pt pd).Y.toNat + (s.pt ps).Y.toNat) % s.curve.p = 0) ∧
        ((s.pt ps).INF = true → t.pt pd = ⟨0, 0, true⟩))

/-- R206, R220: the scalar multiple is the double-and-add recurrence over the bits of the scalar, an error
of any step being the error of the whole; `PMUL` stores it, or raises that error. -/
def Obligations.ScalarMultipleRules : Prop :=
  (∀ (c : CurveParams) (P : AffPoint),
    mulPoint c 0 P = .ok (identity c) ∧
    (∀ k, 1 ≤ k → mulPoint c (2 * k) P = andThen (mulPoint c k P) (dblPoint c)) ∧
    ∀ k, mulPoint c (2 * k + 1) P =
      andThen (mulPoint c k P) fun Q => andThen (dblPoint c Q) fun D => addPoint c D P) ∧
  ∀ (pd ps : PReg) (xs : XReg) (s : State),
    Encodes (0x49 * 2 ^ 24 + pd.val * 2 ^ 20 + ps.val * 2 ^ 16 + xs.val * 2 ^ 12) (.pmul pd ps xs) ∧
    PointChecks (.pmul pd ps xs) s [ps] ∧
    (PointsReady s [ps] →
      (∀ Q, mulPoint s.curve (s.x xs).toNat (affOf s.curve.p (s.pt ps)) = .ok Q →
        ∃ t, exec (.pmul pd ps xs) s = .next t ∧ t.pt pd = encPoint s.curve.p Q ∧
          Completed s t [.pt pd]) ∧
      ∀ e, mulPoint s.curve (s.x xs).toNat (affOf s.curve.p (s.pt ps)) = .error e →
        Raises (.pmul pd ps xs) s e)

/-- R201: with a prime modulus no command raises `ArithDomain` on a short Weierstrass curve. -/
def Obligations.NoArithDomainOnPrimeWeierstrass : Prop :=
  ∀ (i : Instr) (s t : State), Ready s .base → s.Fbase.P.toNat.Prime →
    s.CRV.MODEL = .weierstrass → exec i s = .next t → t.ST.ERR ≠ 0x14

/-- R200, "every produced point satisfies the curve equation": whatever the model, every point that a
command writes passes `PointCheck` afterwards, but a copy that `PMOV` makes without looking at it. The
specification infers it from the group laws, for a prime modulus; it holds for every modulus that
`SETMOD` accepts, because a missing division is an error. -/
def Obligations.StoredPointsAreOnTheCurve : Prop :=
  ∀ (i : Instr) (s t : State) (q : PReg), Ready s .base → (∀ pd ps, i ≠ .pmov pd ps) →
    exec i s = .next t → t.pt q ≠ s.pt q → PointPasses t.curve (t.pt q)

/-! ## Keccak-256 commands -/

/-- R244 to R246: the three commands of the hasher. -/
def Obligations.KeccakCommandRules : Prop :=
  (∀ s : State, Encodes 0x50000000 .kinit ∧ ∃ t, exec .kinit s = .next t ∧
    Completed s t [.hasher] ∧ t.K.ACTIVE = true ∧ t.K.S = Vector.replicate 200 0 ∧ t.K.POS = 0) ∧
  (∀ (aa al : AReg) (s : State),
    Encodes (0x51 * 2 ^ 24 + aa.val * 2 ^ 16 + al.val * 2 ^ 12) (.kupdate aa al) ∧
    (65536 < s.ea aa + s.ea al → Raises (.kupdate aa al) s .accessFault) ∧
    (s.ea aa + s.ea al ≤ 65536 → s.K.ACTIVE = false → Raises (.kupdate aa al) s .spongeSequence) ∧
    (s.ea aa + s.ea al ≤ 65536 → s.K.ACTIVE = true →
      ∃ t, exec (.kupdate aa al) s = .next t ∧ Completed s t [.hasher] ∧ t.K.ACTIVE = true ∧
        t.K = ((List.range (s.ea al)).map fun k => s.MEM.read (s.ea aa + k)).foldl absorbByte s.K)) ∧
  ∀ (aa : AReg) (s : State),
    Encodes (0x52 * 2 ^ 24 + aa.val * 2 ^ 16) (.kfinal aa) ∧
    (65536 < s.ea aa + 32 → Raises (.kfinal aa) s .accessFault) ∧
    (s.ea aa + 32 ≤ 65536 → s.K.ACTIVE = false → Raises (.kfinal aa) s .spongeSequence) ∧
    (Memory.wf s.MEM → s.ea aa + 32 ≤ 65536 → s.K.ACTIVE = true →
      ∃ t, exec (.kfinal aa) s = .next t ∧
        Completed s t (.hasher :: bytesFrom (s.ea aa) 32) ∧ t.K = Hasher.clear ∧
        ∀ k, k < 32 → some (t.MEM.read (s.ea aa + k)) = (finish s.K)[k]?)

/-- R243: absorbing two adjacent ranges by two `KUPDATE`s is absorbing the whole by one (the
specification's inference); one absorbed byte is combined at the position, and a full block is
permuted at once. Finishing combines the domain byte at the position and 0x80 at byte 135, permutes and
gives the first 32 bytes; `Keccak256` starts from the zero state. -/
def Obligations.AbsorbingRules : Prop :=
  (∀ (a1 l1 a2 l2 l : AReg) (s t u v : State),
    s.ea a2 = s.ea a1 + s.ea l1 → s.ea l = s.ea l1 + s.ea l2 → s.ea a1 + s.ea l ≤ 65536 →
    s.K.ACTIVE = true → exec (.kupdate a1 l1) s = .next t → exec (.kupdate a2 l2) t = .next u →
    exec (.kupdate a1 l) s = .next v → u = v) ∧
  (∀ (h : Hasher) (b : Byte),
    (h.POS.val < 135 → (absorbByte h b).POS.val = h.POS.val + 1 ∧
      ∀ k : Fin 200, (absorbByte h b).S[k] = if k.val = h.POS.val then h.S[k] ^^^ b else h.S[k]) ∧
    (h.POS.val = 135 → (absorbByte h b).POS.val = 0 ∧
      ∃ S : Vector Byte 200, (absorbByte h b).S = keccakF S ∧
        ∀ k : Fin 200, S[k] = if k.val = 135 then h.S[k] ^^^ b else h.S[k]) ∧
    (absorbByte h b).ACTIVE = h.ACTIVE) ∧
  (∀ (h : Hasher) (S : Vector Byte 200),
    (∀ k : Fin 200, S[k] = h.S[k] ^^^ (if k.val = h.POS.val then 0x01 else 0) ^^^
      (if k.val = 135 then 0x80 else 0)) →
    finish h = (keccakF S).toList.take 32) ∧
  ∀ (h : Hasher) (bs : List Byte), h.S = Vector.replicate 200 0 → h.POS = 0 →
    keccak256 bs = finish (bs.foldl absorbByte h)

/-- R241, R242: the layout of the lanes, the five steps of a round, lane by lane, with the lane indices
and rotation offsets of the rule, and the permutation: 24 rounds, each of them θ, ρπ, χ and ι in this
order, with the round constants of the rule. -/
def Obligations.KeccakRoundSteps : Prop :=
  (∀ (S : Vector Byte 200) (x y : Nat), x < 5 → y < 5 →
    (lane (lanesOf S) x y).toNat =
      ∑ k ∈ Finset.range 8, (S.toList.getD (8 * (x + 5 * y) + k) 0).toNat * 256 ^ k) ∧
  (∀ A : Lanes, A.length = 25 → lanesOf (bytesOf A) = A) ∧
  (∀ (A : Lanes) (x y : Nat), A.length = 25 → x < 5 → y < 5 →
    lane (keccakTheta A) x y = lane A x y ^^^
      (columnXor A (x + 4) ^^^ (columnXor A (x + 1)).rotateLeft 1) ∧
    lane (keccakRhoPi A) y (2 * x + 3 * y) = (lane A x y).rotateLeft ((rotTable x).getD y 0) ∧
    lane (keccakChi A) x y = lane A x y ^^^ (~~~lane A (x + 1) y &&& lane A (x + 2) y) ∧
    ∀ rc, lane (keccakIota rc A) x y = if x = 0 ∧ y = 0 then lane A 0 0 ^^^ rc else lane A x y) ∧
  ∀ (S : Vector Byte 200) (trace : Nat → Lanes), trace 0 = lanesOf S →
    (∀ ir, ir < 24 → trace (ir + 1) =
      keccakIota (rcTable ir) (keccakChi (keccakRhoPi (keccakTheta (trace ir))))) →
    keccakF S = bytesOf (trace 24)

/-! ## Merkle commands -/

/-- R258, R260: the pair hash is `Keccak256` of the two nodes, that with the smaller big-endian value
first, and so does not depend on their order (the specification's inference); `HPAIR` writes it, and
reads both nodes before it writes. -/
def Obligations.PairHashRules : Prop :=
  (∀ u v : Node, u.length = 32 → v.length = 32 →
    (beNat u ≤ beNat v → hashPair u v = keccak256 (u ++ v)) ∧
    (beNat v < beNat u → hashPair u v = keccak256 (v ++ u)) ∧ hashPair u v = hashPair v u) ∧
  ∀ (ad aa ab : AReg) (s : State),
    Encodes (0x58 * 2 ^ 24 + ad.val * 2 ^ 20 + aa.val * 2 ^ 16 + ab.val * 2 ^ 12) (.hpair ad aa ab) ∧
    (65536 < s.ea aa + 32 ∨ 65536 < s.ea ab + 32 ∨ 65536 < s.ea ad + 32 →
      Raises (.hpair ad aa ab) s .accessFault) ∧
    (Memory.wf s.MEM → s.ea aa + 32 ≤ 65536 → s.ea ab + 32 ≤ 65536 → s.ea ad + 32 ≤ 65536 →
      ∃ t, exec (.hpair ad aa ab) s = .next t ∧ Completed s t (bytesFrom (s.ea ad) 32) ∧
        ∀ k, k < 32 → some (t.MEM.read (s.ea ad + k)) =
          (hashPair (s.memRead (s.ea aa) 32) (s.memRead (s.ea ab) 32))[k]?)

/-- R262: `MVERIFY` hashes the leaf with the siblings in order and compares with the root; an empty
proof accepts exactly when the leaf is the root. -/
def Obligations.MverifyRule : Prop :=
  ∀ s : State, Encodes 0x59000000 .mverify ∧
    (65536 < s.ea 0 + 32 * s.ea 1 ∨ 65536 < s.ea 4 + 32 ∨ 65536 < s.ea 5 + 32 →
      Raises .mverify s .accessFault) ∧
    (s.ea 0 + 32 * s.ea 1 ≤ 65536 → s.ea 4 + 32 ≤ 65536 → s.ea 5 + 32 ≤ 65536 →
      ∃ t, exec .mverify s = .next t ∧ Completed s t [.T] ∧
        (t.ST.T = true ↔
          (List.range (s.ea 1)).foldl (fun h i => hashPair h (s.memRead (s.ea 0 + 32 * i) 32))
            (s.memRead (s.ea 5) 32) = s.memRead (s.ea 4) 32) ∧
        (s.ea 1 = 0 → (t.ST.T = true ↔ s.memRead (s.ea 5) 32 = s.memRead (s.ea 4) 32)))

/-- R264: `MVERIFYM` decides the multi-proof of rule R263 on the arrays that `a0` to `a6` name; a
wrong number of flags, or no leaf, gives T = 0. -/
def Obligations.MverifymRule : Prop :=
  ∀ s : State, Encodes 0x5A000000 .mverifym ∧
    (65536 < s.ea 0 + 32 * s.ea 1 ∨ 65536 < s.ea 2 + s.ea 3 ∨ 65536 < s.ea 4 + 32 ∨
      65536 < s.ea 5 + 32 * s.ea 6 → Raises .mverifym s .accessFault) ∧
    (s.ea 0 + 32 * s.ea 1 ≤ 65536 → s.ea 2 + s.ea 3 ≤ 65536 → s.ea 4 + 32 ≤ 65536 →
      s.ea 5 + 32 * s.ea 6 ≤ 65536 →
      ∃ t, exec .mverifym s = .next t ∧ Completed s t [.T] ∧
        (t.ST.T = true ↔
          multiVerify ((List.range (s.ea 1)).map fun i => s.memRead (s.ea 0 + 32 * i) 32)
            ((List.range (s.ea 3)).map fun i => decide (s.MEM.read (s.ea 2 + i) ≠ 0))
            (s.memRead (s.ea 4) 32)
            ((List.range (s.ea 6)).map fun i => s.memRead (s.ea 5 + 32 * i) 32) = true) ∧
        (s.ea 3 + 1 ≠ s.ea 6 + s.ea 1 → t.ST.T = false) ∧ (s.ea 6 = 0 → t.ST.T = false))

/-- R263: the multi-proof procedure agrees with the loop over positions in the leaves, the hashes
and the proof as the rule writes it. -/
def Obligations.MultiVerifyFollowsTheRule : Prop :=
  ∀ (proof leaves : List Node) (flags : List Bool) (root : Node),
    multiVerify proof flags root leaves = true ↔
      flags.length + 1 = leaves.length + proof.length ∧ leaves ≠ [] ∧
        if flags = [] then leaves.head? = some root
        else ∃ hashes, multiAt proof leaves flags [] 0 0 0 = some hashes ∧
          hashes[flags.length - 1]? = some root

/-! ## ECDSA commands -/

/-- R282: the nonce lies in `[1, n − 1]`, for every instance of the open parameter (log entries 4 and
5 say how the model holds it). -/
def Obligations.NonceContract : Prop :=
  ∀ (inst : Option (Nat → Nat → Nat → Nat → Nat)) (n sk h ctr : Nat),
    2 ≤ n → 1 ≤ sk → sk ≤ n - 1 → h < 2 ^ 256 →
    (1 ≤ nonceBy inst n sk h ctr ∧ nonceBy inst n sk h ctr ≤ n - 1) ∧
      1 ≤ nonce n sk h ctr ∧ nonce n sk h ctr ≤ n - 1

/-- R342: the default nonce is the candidate that is emitted with index `ctr`, after however many
turns; the search finds nothing only where no turn emits an element with that index. -/
def Obligations.DefaultNonceRule : Prop :=
  ∀ n sk h ctr : Nat,
    (∀ i, Emits n sk h i → emittedBefore n sk h i = ctr →
      rfc6979 n sk h ctr = some (candidateAt n sk h i) ∧
        nonceBy none n sk h ctr = candidateAt n sk h i) ∧
    ((∀ i, Emits n sk h i → emittedBefore n sk h i ≠ ctr) → rfc6979 n sk h ctr = none)

/-- R285: `ESIGN` delivers the signature of the first nonce that is not rejected, always with
`1 ≤ r < n`, `1 ≤ s ≤ HALF` and v 0 or 1; a key out of range raises `InvalidScalar`, 256 rejected
nonces `NonceExhausted`, and a missing division of the scalar multiple its error. -/
def Obligations.EsignRule : Prop :=
  ∀ (xdr xds xdv xsk xh : XReg) (s : State), xdr ≠ xds → xdr ≠ xdv → xds ≠ xdv →
    Encodes (0x60 * 2 ^ 24 + xdr.val * 2 ^ 20 + xds.val * 2 ^ 16 + xdv.val * 2 ^ 12 +
      xsk.val * 2 ^ 8 + xh.val * 2 ^ 4) (.esign xdr xds xdv xsk xh) ∧
    EcdsaChecks (.esign xdr xds xdv xsk xh) s ∧
    ∀ n sk h, n = s.Fscalar.P.toNat → sk = (s.x xsk).toNat → h = (s.x xh).toNat → EcdsaReady s →
      Ready s .scalar →
      (sk = 0 ∨ n ≤ sk → Raises (.esign xdr xds xdv xsk xh) s .invalidScalar) ∧
      (1 ≤ sk → sk < n →
        (∀ ctr r sg v, ctr ≤ 255 →
          (∀ j, j < ctr → NonceRejected s.curve s.G n sk (h % n) (nonce n sk h j)) →
          NonceGives s.curve s.G n sk (h % n) (nonce n sk h ctr) r sg v →
          ∃ t, exec (.esign xdr xds xdv xsk xh) s = .next t ∧
            Completed s t [.x xdr, .x xds, .x xdv] ∧ (t.x xdr).toNat = r ∧
            (t.x xds).toNat = sg ∧ (t.x xdv).toNat = v ∧ 1 ≤ r ∧ r < n ∧ 1 ≤ sg ∧
            sg ≤ (n - 1) / 2 ∧ v ≤ 1) ∧
        (∀ ctr e, ctr ≤ 255 →
          (∀ j, j < ctr → NonceRejected s.curve s.G n sk (h % n) (nonce n sk h j)) →
          mulPoint s.curve (nonce n sk h ctr) s.G = .error e →
          Raises (.esign xdr xds xdv xsk xh) s e) ∧
        ((∀ j, j ≤ 255 → NonceRejected s.curve s.G n sk (h % n) (nonce n sk h j)) →
          Raises (.esign xdr xds xdv xsk xh) s .nonceExhausted))

/-- R287: `EVERIFY` decides the signature against the key: its checks in their order, T = 0 for the
key at infinity and for an s without inverse, else the comparison of the sum's x with r. -/
def Obligations.EverifyRule : Prop :=
  ∀ (xh xr xs : XReg) (pq : PReg) (s : State),
    Encodes (0x61 * 2 ^ 24 + xh.val * 2 ^ 20 + xr.val * 2 ^ 16 + xs.val * 2 ^ 12 + pq.val * 2 ^ 8)
      (.everify xh xr xs pq) ∧
    EcdsaChecks (.everify xh xr xs pq) s ∧
    (∀ e, EcdsaReady s → PointFails s.curve (s.pt pq) e → Raises (.everify xh xr xs pq) s e) ∧
    ∀ n Q, n = s.Fscalar.P.toNat → Q = affOf s.curve.p (s.pt pq) → EcdsaReady s →
      Ready s .scalar → PointPasses s.curve (s.pt pq) →
      (∀ e, SigFails n (s.x xr) (s.x xs) e → Raises (.everify xh xr xs pq) s e) ∧
      (SigPasses n (s.x xr) (s.x xs) →
        (Q = .O ∨ Nat.gcd (s.x xs).toNat n ≠ 1 →
          ∃ t, exec (.everify xh xr xs pq) s = .next t ∧ Completed s t [.T] ∧ t.ST.T = false) ∧
        ∀ w X, Q ≠ .O → (s.x xs).toNat * w % n = 1 →
          X = sumOfMultiples s.curve ((s.x xh).toNat % n * w % n) s.G ((s.x xr).toNat * w % n) Q →
          (∀ Y, X = .ok Y → ∃ t, exec (.everify xh xr xs pq) s = .next t ∧ Completed s t [.T] ∧
            (t.ST.T = true ↔ ∃ x y, Y = .mk x y ∧ x % n = (s.x xr).toNat)) ∧
          ∀ e, X = .error e → Raises (.everify xh xr xs pq) s e)

/-- R286: `ERECOVER` delivers the address of the recovered key: its checks in their order, the root
of the parity asked for, and the key `rinv · (s · R − e · G)`. -/
def Obligations.ErecoverRule : Prop :=
  ∀ (xd xh xv xr xs : XReg) (s : State),
    Encodes (0x62 * 2 ^ 24 + xd.val * 2 ^ 20 + xh.val * 2 ^ 16 + xv.val * 2 ^ 12 + xr.val * 2 ^ 8 +
      xs.val * 2 ^ 4) (.erecover xd xh xv xr xs) ∧
    EcdsaChecks (.erecover xd xh xv xr xs) s ∧
    ∀ i n p r, i = .erecover xd xh xv xr xs → n = s.Fscalar.P.toNat → p = s.Fbase.P.toNat →
      r = (s.x xr).toNat → EcdsaReady s → Ready s .base → Ready s .scalar →
      (p % 4 = 1 → s.Fbase.ROOT2 = 0 → Raises i s .noConfig) ∧
      (p % 4 = 3 ∨ s.Fbase.ROOT2 ≠ 0 →
        (∀ e, SigFails n (s.x xr) (s.x xs) e → Raises i s e) ∧
        (SigPasses n (s.x xr) (s.x xs) →
          ((s.x xv).toNat ∉ [0, 1, 27, 28] → Raises i s .invalidSignature) ∧
          ∀ par, ((s.x xv).toNat = 0 ∨ (s.x xv).toNat = 27) ∧ par = 0 ∨
              ((s.x xv).toNat = 1 ∨ (s.x xv).toNat = 28) ∧ par = 1 →
            (p ≤ r → Raises i s .invalidSignature) ∧
            (r < p →
              (sqrtMod s.Fbase ((r ^ 3 + s.curve.A * r + s.curve.B) % p) = none →
                Raises i s .invalidSignature) ∧
              ∀ y0 y, sqrtMod s.Fbase ((r ^ 3 + s.curve.A * r + s.curve.B) % p) = some y0 →
                y = (if y0 % 2 = par then y0 else (p - y0) % p) →
                (y % 2 ≠ par ∨ Nat.gcd r n ≠ 1 → Raises i s .invalidSignature) ∧
                ∀ rinv K, y % 2 = par → rinv < n → r * rinv % n = 1 →
                  K = recoveredKey s.curve s.G rinv (s.x xs).toNat ((s.x xh).toNat % n) (.mk r y) →
                  (K = .ok .O → Raises i s .invalidSignature) ∧
                  (∀ e, K = .error e → Raises i s e) ∧
                  ∀ qx qy, K = .ok (.mk qx qy) →
                    ∃ t, exec i s = .next t ∧ Completed s t [.x xd] ∧
                      (t.x xd).toNat = beNat ((keccak256 (toBE qx 32 ++ toBE qy 32)).drop 12))))

/-! ## Poseidon2 commands -/

/-- R310, R313: `P2INIT` clears the sponge, `P2PERM` permutes its state; both need `P2OK()`. -/
def Obligations.SpongeInitAndPermute : Prop :=
  ∀ s : State, Encodes 0x70000000 .p2init ∧ Encodes 0x73000000 .p2perm ∧
    (s.p2OK = false → Raises .p2init s .noConfig ∧ Raises .p2perm s .noConfig) ∧
    (s.p2OK = true →
      (∃ t, exec .p2init s = .next t ∧ Completed s t [.sponge] ∧ t.PS.IDX = 0 ∧
        t.PS.SQUEEZED = false ∧ t.PS.SQIDX = 0 ∧
        ∀ i, i < Config.p2rom.T → slot t.PS.STATE i = 0) ∧
      ∃ t, exec .p2perm s = .next t ∧ Completed s t [.sponge] ∧ t.PS.IDX = s.PS.IDX ∧
        t.PS.SQUEEZED = s.PS.SQUEEZED ∧ t.PS.SQIDX = s.PS.SQIDX ∧
        HoldsState s.Fbase.P.toNat t.PS.STATE
          (permute Config.p2rom s.Fbase.P.toNat (logicalState s.Fbase.P.toNat s.PS.STATE)))

/-- R311: `P2ABSORB` overwrites the next rate position, and permutes as soon as the rate is full. -/
def Obligations.AbsorbRule : Prop :=
  ∀ (xs : XReg) (s : State), Encodes (0x71 * 2 ^ 24 + xs.val * 2 ^ 16) (.p2absorb xs) ∧
    (s.p2OK = false → Raises (.p2absorb xs) s .noConfig) ∧
    (s.p2OK = true → ¬ Holds s .base xs → Raises (.p2absorb xs) s .notInField) ∧
    (s.p2OK = true → Holds s .base xs → s.PS.SQUEEZED = true →
      Raises (.p2absorb xs) s .spongeSequence) ∧
    (s.p2OK = true → Holds s .base xs → s.PS.SQUEEZED = false → s.PS.wf →
      ∃ t st, exec (.p2absorb xs) s = .next t ∧ Completed s t [.sponge] ∧
        (∀ i, slot st i = if i = 1 + s.PS.IDX then s.x xs else slot s.PS.STATE i) ∧
        t.PS.SQUEEZED = false ∧ t.PS.SQIDX = s.PS.SQIDX ∧
        if s.PS.IDX + 2 = Config.p2rom.T then t.PS.IDX = 0 ∧
          HoldsState s.Fbase.P.toNat t.PS.STATE
            (permute Config.p2rom s.Fbase.P.toNat (logicalState s.Fbase.P.toNat st))
        else t.PS.IDX = s.PS.IDX + 1 ∧ t.PS.STATE = st)

/-- R312: `P2SQUEEZE` delivers the rate positions in ascending order; the first squeeze permutes if
elements are buffered, a later one when all positions have been read. -/
def Obligations.SqueezeRule : Prop :=
  ∀ (xd : XReg) (s : State), Encodes (0x72 * 2 ^ 24 + xd.val * 2 ^ 20) (.p2squeeze xd) ∧
    (s.p2OK = false → Raises (.p2squeeze xd) s .noConfig) ∧
    (s.p2OK = true → s.PS.wf → ∀ full,
      full = (if s.PS.SQUEEZED = true then decide (s.PS.SQIDX + 1 = Config.p2rom.T)
        else decide (s.PS.IDX ≠ 0)) →
      ∃ t, exec (.p2squeeze xd) s = .next t ∧ Completed s t [.x xd, .sponge] ∧
        t.PS.SQUEEZED = true ∧ t.PS.IDX = 0 ∧
        t.PS.SQIDX = (if full = true ∨ s.PS.SQUEEZED = false then 1 else s.PS.SQIDX + 1) ∧
        t.x xd = slot t.PS.STATE t.PS.SQIDX ∧
        (full = false → t.PS.STATE = s.PS.STATE) ∧
        (full = true → HoldsState s.Fbase.P.toNat t.PS.STATE
          (permute Config.p2rom s.Fbase.P.toNat (logicalState s.Fbase.P.toNat s.PS.STATE))))

/-- R302, R303: the rounds element by element, and their order: `RF/2` full, `RP` partial, `RF/2`
full, the round counter running through all three phases. -/
def Obligations.PermutationRounds : Prop :=
  ∀ (rom : Config.P2Rom) (p : Nat) (s : List Nat), s.length = rom.T →
    (∀ r i, i < rom.T → (fullRound rom p s r).getD i 0 =
      (∑ j ∈ Finset.range rom.T, rom.matExt i j * (s.getD j 0 ^ rom.D + rom.rc r j)) % p) ∧
    (∀ r i, i < rom.T → (partialRound rom p s r).getD i 0 =
      ((s.getD 0 0 ^ rom.D + rom.rc r 0) + (∑ j ∈ Finset.Ico 1 rom.T, s.getD j 0) +
        rom.diagM1 i * (if i = 0 then s.getD 0 0 ^ rom.D + rom.rc r 0 else s.getD i 0)) % p) ∧
    ∀ trace : Nat → List Nat, trace 0 = s →
      (∀ r, r < rom.RF + rom.RP → trace (r + 1) =
        if rom.RF / 2 ≤ r ∧ r < rom.RF / 2 + rom.RP then partialRound rom p (trace r) r
        else fullRound rom p (trace r) r) →
      permute rom p s = trace (rom.RF + rom.RP)
end

