-- ==== Sys2Proof/Laws/Bytes.lean ====
section
/-! SUPPORT. The laws of byte strings and integers (rule R11). -/

namespace Sys2Proof.Machine

@[simp] theorem leNat_nil : leNat [] = 0 := rfl

@[simp] theorem leNat_cons (b : Byte) (bs : List Byte) :
    leNat (b :: bs) = b.toNat + 256 * leNat bs := rfl

@[simp] theorem length_toLE (v n : Nat) : (toLE v n).length = n := by
  induction n generalizing v with
  | zero => rfl
  | succ n ih => simp [toLE, ih]

@[simp] theorem length_toBE (v n : Nat) : (toBE v n).length = n := by simp [toBE]

/-- A little-endian value fits in its bytes. -/
theorem leNat_lt (bs : List Byte) : leNat bs < 256 ^ bs.length := by
  induction bs with
  | nil => simp
  | cons b bs ih =>
    have hb : b.toNat < 256 := b.isLt
    rw [leNat_cons, List.length_cons, Nat.pow_succ]
    omega

theorem beNat_lt (bs : List Byte) : beNat bs < 256 ^ bs.length := by
  have h := leNat_lt bs.reverse
  rwa [List.length_reverse] at h

/-- `LE(toLE(v, n)) = v` for `v < 2^(8n)` (R11). -/
theorem leNat_toLE (n : Nat) : ∀ v, v < 256 ^ n → leNat (toLE v n) = v := by
  induction n with
  | zero => intro v hv; simp [toLE] at *; omega
  | succ n ih =>
    intro v hv
    have hv' : v / 256 < 256 ^ n := by
      rw [Nat.pow_succ] at hv
      exact Nat.div_lt_of_lt_mul (by omega)
    rw [toLE, leNat_cons, ih _ hv', BitVec.toNat_ofNat]
    omega

/-- `BE(toBE(v, n)) = v` for `v < 2^(8n)` (R11). -/
theorem beNat_toBE (n v : Nat) (hv : v < 256 ^ n) : beNat (toBE v n) = v := by
  rw [beNat, toBE, List.reverse_reverse, leNat_toLE n v hv]

/-- Byte k of a little-endian value (R11). -/
theorem leNat_digit (bs : List Byte) {k : Nat} (hk : k < bs.length) :
    leNat bs / 256 ^ k % 256 = bs[k].toNat := by
  induction bs generalizing k with
  | nil => simp at hk
  | cons b bs ih =>
    have hb : b.toNat < 256 := b.isLt
    cases k with
    | zero => simp only [leNat_cons, Nat.pow_zero, Nat.div_one, List.getElem_cons_zero]; omega
    | succ k =>
      rw [leNat_cons, Nat.pow_succ, Nat.mul_comm (256 ^ k), ← Nat.div_div_eq_div_mul,
        show (b.toNat + 256 * leNat bs) / 256 = leNat bs by omega]
      simpa using ih (by simpa using hk)

/-- Byte k of `toLE(v, n)` (R11). -/
theorem getElem_toLE (n : Nat) : ∀ (v k : Nat) (hk : k < (toLE v n).length),
    ((toLE v n)[k]).toNat = v / 256 ^ k % 256 := by
  induction n with
  | zero => intro v k hk; simp at hk
  | succ n ih =>
    intro v k hk
    cases k with
    | zero => simp [toLE]
    | succ k =>
      have hk' : k < (toLE (v / 256) n).length := by simpa using hk
      have := ih (v / 256) k hk'
      rw [Nat.div_div_eq_div_mul, Nat.mul_comm, ← Nat.pow_succ] at this
      simpa [toLE] using this

/-- Byte k of `toBE(v, n)` (R11). -/
theorem getElem_toBE (n v k : Nat) (hk : k < (toBE v n).length) :
    ((toBE v n)[k]).toNat = v / 256 ^ (n - 1 - k) % 256 := by
  have hk' : k < n := by simpa using hk
  have h : (toBE v n)[k] = (toLE v n)[n - 1 - k]'(by simp; omega) := by
    simp only [toBE, List.getElem_reverse, length_toLE]
  rw [h, getElem_toLE]

/-- Byte strings of one length with one little-endian value are equal (R11). -/
theorem leNat_inj : ∀ (u v : List Byte), u.length = v.length → leNat u = leNat v → u = v := by
  intro u
  induction u with
  | nil => intro v h _; exact (List.length_eq_zero_iff.1 h.symm).symm
  | cons a u ih =>
    intro v h he
    cases v with
    | nil => simp at h
    | cons b v =>
      have ha : a.toNat < 256 := a.isLt
      have hb : b.toNat < 256 := b.isLt
      simp only [leNat_cons] at he
      have h1 : a.toNat = b.toNat := by omega
      have h2 : leNat u = leNat v := by omega
      rw [BitVec.eq_of_toNat_eq h1, ih v (by simpa using h) h2]

/-- Byte strings of one length with one big-endian value are equal (R11). -/
theorem beNat_inj (u v : List Byte) (h : u.length = v.length) (he : beNat u = beNat v) : u = v := by
  have := leNat_inj u.reverse v.reverse (by simpa using h) he
  simpa using this

/-- The little-endian value as the sum of rule R11. -/
theorem leNat_map_range (f : Nat → Byte) (n : Nat) :
    leNat ((List.range n).map f) = ∑ k ∈ Finset.range n, (f k).toNat * 256 ^ k := by
  induction n generalizing f with
  | zero => simp
  | succ n ih =>
    rw [List.range_succ_eq_map, List.map_cons, List.map_map, leNat_cons, ih,
      Finset.sum_range_succ', Finset.mul_sum]
    simp only [Function.comp, Nat.pow_zero, Nat.mul_one]
    rw [Nat.add_comm]
    congr 1
    apply Finset.sum_congr rfl
    intro k _
    rw [Nat.succ_eq_add_one]
    ring

end Sys2Proof.Machine
end

