-- ==== Sys2Proof/Laws/ModArith.lean ====
section
/-! SUPPORT. The laws of the arithmetic modulo p: inverses, the Montgomery form, powers
(rules R13, R171, R181, R182, R201). -/

namespace Sys2Proof.Machine

/-! ## Inverses -/

/-- The extended Euclidean algorithm: the coefficient it finds makes a congruent to the greatest
common divisor. -/
theorem euclidCoeff_spec (m a : Int) : ∀ (fuel r0 r1 : Nat) (t0 t1 : Int), r1 < fuel →
    a * t0 ≡ r0 [ZMOD m] → a * t1 ≡ r1 [ZMOD m] →
    a * euclidCoeff fuel r0 r1 t0 t1 ≡ (Nat.gcd r0 r1 : Nat) [ZMOD m] := by
  intro fuel
  induction fuel with
  | zero => intro r0 r1 t0 t1 h; omega
  | succ n ih =>
    intro r0 r1 t0 t1 h h0 h1
    unfold euclidCoeff
    split
    · rename_i hr
      subst hr
      simpa using h0
    · rename_i hr
      have hlt : r0 % r1 < r1 := Nat.mod_lt _ (Nat.pos_of_ne_zero hr)
      rw [Nat.gcd_comm r0 r1, Nat.gcd_rec r1 r0, Nat.gcd_comm]
      refine ih r1 (r0 % r1) t1 _ (by omega) h1 ?_
      have hdiv : ((r0 % r1 : Nat) : Int) = r0 - (r0 / r1 : Nat) * r1 := by
        have := Nat.div_add_mod r0 r1
        push_cast
        have h2 : ((r1 * (r0 / r1) + r0 % r1 : Nat) : Int) = r0 := by exact_mod_cast this
        push_cast at h2
        linarith
      rw [hdiv, mul_sub]
      refine h0.sub ?_
      have := h1.mul_left ((r0 / r1 : Nat) : Int)
      rw [mul_left_comm]
      exact this

/-- `invMod a m` is an inverse of a, where one exists (R182, R201). -/
theorem invMod_spec {a m : Nat} (hm : 1 < m) (h : Nat.gcd a m = 1) : a * invMod a m % m = 1 := by
  have hpos : 0 < m := by omega
  have hlt : a % m < m := Nat.mod_lt _ hpos
  have key := euclidCoeff_spec m a (m + 1) m (a % m) 0 1 (by omega)
    (by simp [Int.ModEq]) (by simp [Int.ModEq])
  rw [Nat.gcd_comm m (a % m), ← Nat.gcd_rec m a, Nat.gcd_comm m a, h] at key
  have hmod : ((invMod a m : Nat) : Int) = euclidCoeff (m + 1) m (a % m) 0 1 % m := by
    unfold invMod
    exact Int.toNat_of_nonneg (Int.emod_nonneg _ (by omega))
  have key2 : (a : Int) * (invMod a m : Nat) ≡ 1 [ZMOD m] := by
    rw [hmod]
    exact (Int.ModEq.mul_left _ (Int.mod_modEq _ _)).trans key
  have : ((a * invMod a m : Nat) : Int) ≡ ((1 : Nat) : Int) [ZMOD m] := by push_cast; exact key2
  have h3 := (Int.natCast_modEq_iff.1 this)
  rw [Nat.ModEq, Nat.mod_eq_of_lt hm] at h3
  exact h3

theorem invMod_lt (a : Nat) {m : Nat} (hm : 0 < m) : invMod a m < m := by
  have h1 : (0 : Int) ≤ euclidCoeff (m + 1) m (a % m) 0 1 % m := Int.emod_nonneg _ (by omega)
  have h2 : euclidCoeff (m + 1) m (a % m) 0 1 % m < m := Int.emod_lt_of_pos _ (by omega)
  unfold invMod
  omega

/-- The only number below m with `a · w ≡ 1` is `invMod a m`. -/
theorem invMod_unique {a m w : Nat} (hm : 1 < m) (hw : w < m) (h : a * w % m = 1) :
    invMod a m = w := by
  have hc : Nat.Coprime a m := by
    refine Nat.Coprime.symm (Nat.coprime_of_mul_modEq_one w ?_).symm
    exact h.trans (Nat.mod_eq_of_lt hm).symm
  have h1 := invMod_spec hm hc
  have h2 : a * invMod a m ≡ a * w [MOD m] := h1.trans h.symm
  have h3 := Nat.ModEq.cancel_left_of_coprime (by rwa [Nat.gcd_comm]) h2
  rwa [Nat.ModEq, Nat.mod_eq_of_lt (invMod_lt a (by omega)), Nat.mod_eq_of_lt hw] at h3

@[simp] theorem invMod_mod (a m : Nat) : invMod (a % m) m = invMod a m := by
  simp [invMod]

theorem invertible_iff (a m : Nat) : invertible a m = true ↔ Nat.gcd a m = 1 := by
  rw [invertible, decide_eq_true_iff, Nat.gcd_comm (a % m) m, Nat.gcd_comm a m, Nat.gcd_rec m a,
    Nat.gcd_comm]

theorem invertible_eq_false_iff (a m : Nat) : invertible a m = false ↔ Nat.gcd a m ≠ 1 := by
  rw [← Bool.not_eq_true, invertible_iff]

/-! ## The Montgomery form -/

theorem radix_coprime {p : Nat} (hp : p % 2 = 1) : Nat.gcd Config.radix p = 1 := by
  exact Nat.Coprime.pow_left 256 (Nat.coprime_two_left.2 (Nat.odd_iff.2 hp))

/-- `Rinv_f` is the inverse of the radix (R13). -/
theorem rinv_spec {p : Nat} (hp : p % 2 = 1) (h1 : 1 < p) : Config.radix * rinv p % p = 1 :=
  invMod_spec h1 (radix_coprime hp)

theorem valOf_lt {p : Nat} (h : 0 < p) (a : Nat) : valOf p a < p := Nat.mod_lt _ h

theorem repOf_lt {p : Nat} (h : 0 < p) (v : Nat) : repOf p v < p := Nat.mod_lt _ h

theorem montMul_lt {p : Nat} (h : 0 < p) (a b : Nat) : montMul p a b < p := Nat.mod_lt _ h

/-- The logical value is the v with `v · R ≡ a` (R13). -/
theorem valOf_mul_radix {p : Nat} (hp : p % 2 = 1) (h1 : 1 < p) (a : Nat) :
    valOf p a * Config.radix % p = a % p := by
  have h := rinv_spec hp h1
  rw [valOf, Nat.mod_mul_mod, Nat.mul_assoc, Nat.mul_comm (rinv p), Nat.mul_mod, h, Nat.mul_one,
    Nat.mod_mod]

/-- `rep_f` undoes `val_f` on `[0, p)` (R13). -/
theorem repOf_valOf {p a : Nat} (hp : p % 2 = 1) (h1 : 1 < p) (ha : a < p) :
    repOf p (valOf p a) = a := by
  rw [repOf, valOf_mul_radix hp h1, Nat.mod_eq_of_lt ha]

/-- `val_f` undoes `rep_f` on `[0, p)` (R13). -/
theorem valOf_repOf {p v : Nat} (hp : p % 2 = 1) (h1 : 1 < p) (hv : v < p) :
    valOf p (repOf p v) = v := by
  rw [valOf, repOf, Nat.mod_mul_mod, Nat.mul_assoc, Nat.mul_mod, rinv_spec hp h1, Nat.mul_one,
    Nat.mod_mod, Nat.mod_eq_of_lt hv]

/-- Representatives below p with one logical value are equal (R13). -/
theorem valOf_inj {p a b : Nat} (hp : p % 2 = 1) (h1 : 1 < p) (ha : a < p) (hb : b < p)
    (h : valOf p a = valOf p b) : a = b := by
  rw [← repOf_valOf hp h1 ha, ← repOf_valOf hp h1 hb, h]

@[simp] theorem valOf_zero (p : Nat) : valOf p 0 = 0 := by simp [valOf]

@[simp] theorem repOf_zero (p : Nat) : repOf p 0 = 0 := by simp [repOf]

/-- The Montgomery product is the r with `r · R ≡ a · b` (R171). -/
theorem montMul_mul_radix {p : Nat} (hp : p % 2 = 1) (h1 : 1 < p) (a b : Nat) :
    montMul p a b * Config.radix % p = a * b % p := valOf_mul_radix hp h1 (a * b)

/-- The Montgomery product in logical values (R171). -/
theorem valOf_montMul {p : Nat} (a b : Nat) :
    valOf p (montMul p a b) = valOf p a * valOf p b % p := by
  rw [valOf, montMul, valOf, valOf, Nat.mod_mul_mod, ← Nat.mul_mod]
  congr 1
  ring

/-- A number prime to p has a logical value prime to p, and conversely (R13). -/
theorem gcd_valOf {p : Nat} (hp : p % 2 = 1) (h1 : 1 < p) (a : Nat) :
    Nat.gcd (valOf p a) p = 1 ↔ Nat.gcd a p = 1 := by
  have hr : Nat.Coprime (rinv p) p := by
    have h := rinv_spec hp h1
    refine (Nat.coprime_of_mul_modEq_one Config.radix ?_)
    rw [Nat.ModEq, Nat.mul_comm, h, Nat.mod_eq_of_lt h1]
  rw [valOf, ← Nat.gcd_rec, Nat.gcd_comm, Nat.Coprime.gcd_mul_right_cancel a hr]

/-! ## Bits and powers -/

@[simp] theorem numBits_zero : numBits 0 = 0 := rfl

/-- `num_bits(k)` is the number of binary digits (R158). -/
theorem numBits_eq_size (k : Nat) : numBits k = Nat.size k := by
  unfold numBits
  split
  · rename_i h; simp [h]
  · rename_i h
    apply le_antisymm
    · rw [Nat.succ_le_iff, Nat.lt_size]
      exact Nat.log2_self_le h
    · rw [Nat.size_le]
      exact Nat.lt_log2_self

theorem numBits_pos {k : Nat} (h : k ≠ 0) : 2 ^ (numBits k - 1) ≤ k ∧ k < 2 ^ numBits k := by
  unfold numBits
  rw [if_neg h, Nat.add_sub_cancel]
  exact ⟨Nat.log2_self_le h, Nat.lt_log2_self⟩

@[simp] theorem bitsBE_zero : bitsBE 0 = [] := rfl

/-- The bits of `2·k + b`: those of k, then b. -/
theorem bitsBE_bit (k : Nat) (b : Bool) (h : k ≠ 0 ∨ b = true) :
    bitsBE (2 * k + b.toNat) = bitsBE k ++ [b] := by
  have hb : b.toNat ≤ 1 := Bool.toNat_le b
  have hs : numBits (2 * k + b.toNat) = numBits k + 1 := by
    have : 2 * k + b.toNat = Nat.bit b k := by cases b <;> simp [Nat.bit]
    rw [numBits_eq_size, numBits_eq_size, this, Nat.size_bit]
    rw [← this]
    rcases h with h | h
    · omega
    · subst h; simp
  unfold bitsBE
  rw [hs, List.range_succ_eq_map, List.reverse_cons, List.map_append, ← List.map_reverse,
    List.map_map]
  congr 1
  · apply List.map_congr_left
    intro i _
    simp only [Function.comp, Nat.succ_eq_add_one, Nat.testBit_add_one]
    congr 1
    omega
  · simp only [List.map_cons, List.map_nil, Nat.testBit_zero, List.cons.injEq, and_true]
    cases b <;> simp

theorem squareMultiply_append (mul : Nat → Nat → Nat) (a acc : Nat) (l : List Bool) (b : Bool) :
    squareMultiply mul a acc (l ++ [b]) =
      let r := squareMultiply mul a acc l
      if b then mul (mul r r) a else mul r r := by
  induction l generalizing acc with
  | nil => rfl
  | cons c l ih => exact ih _

/-- Induction along the binary digits of a number, the leading one first. -/
theorem bits_induction {P : Nat → Prop} (zero : P 0)
    (bit : ∀ k b, k ≠ 0 ∨ b = true → P k → P (2 * k + b.toNat)) (n : Nat) : P n := by
  induction n using Nat.strong_induction_on with
  | _ n ih =>
    by_cases hn : n = 0
    · rw [hn]; exact zero
    · rcases Nat.mod_two_eq_zero_or_one n with h | h
      · have := bit (n / 2) false (.inl (by omega)) (ih (n / 2) (by omega))
        rwa [Bool.toNat_false, Nat.add_zero, show 2 * (n / 2) = n by omega] at this
      · have := bit (n / 2) true (.inr rfl) (ih (n / 2) (by omega))
        rwa [Bool.toNat_true, show 2 * (n / 2) + 1 = n by omega] at this

/-- Square-and-multiply computes a power (R181): `f` reads the accumulator as an element of a
monoid in which `mul` is the product. -/
theorem squareMultiply_bitsBE {M : Type*} [Monoid M] (f : Nat → M) (mul : Nat → Nat → Nat)
    (hmul : ∀ x y, f (mul x y) = f x * f y) (a one : Nat) (hone : f one = 1) (e : Nat) :
    f (squareMultiply mul a one (bitsBE e)) = f a ^ e := by
  induction e using bits_induction with
  | zero => simp [squareMultiply, hone]
  | bit k b h ih =>
    rw [bitsBE_bit k b h, squareMultiply_append, two_mul, pow_add, pow_add, ← ih]
    cases b <;> simp [hmul]

/-- What every product of a square-and-multiply and its start have in common, its result has. -/
theorem squareMultiply_induction {P : Nat → Prop} {mul : Nat → Nat → Nat}
    (hmul : ∀ x y, P (mul x y)) (a : Nat) :
    ∀ (l : List Bool) (acc : Nat), P acc → P (squareMultiply mul a acc l)
  | [], _, h => h
  | b :: l, acc, _ => by
    refine squareMultiply_induction hmul a l _ ?_
    cases b <;> exact hmul _ _

theorem powMod_lt {p : Nat} (hp : 1 < p) (v e : Nat) : powMod p v e < p :=
  squareMultiply_induction (P := (· < p)) (fun _ _ => Nat.mod_lt _ (by omega)) v _ _
    (Nat.mod_lt _ (by omega))

/-- `v^e mod p` is the power (R181, R183). -/
theorem powMod_eq {p : Nat} (hp : 1 < p) (v e : Nat) : powMod p v e = v ^ e % p := by
  have h : ((powMod p v e : Nat) : ZMod p) = ((v ^ e : Nat) : ZMod p) := by
    have := squareMultiply_bitsBE (fun x : Nat => (x : ZMod p)) (fun a b => a * b % p)
      (by intro x y; simp) v (1 % p) (by simp) e
    simpa [powMod] using this
  have h2 := (ZMod.natCast_eq_natCast_iff _ _ _).1 h
  rw [← Nat.mod_eq_of_lt (powMod_lt hp v e)]
  exact h2

/-- The power of a representative by the loop of rule R181, in logical values: the result is below p
and its logical value is the power. -/
theorem valOf_montPow {F : FieldCtx} (hp : F.P.toNat % 2 = 1) (h1 : 1 < F.P.toNat)
    (hr1 : F.R1.toNat = 2 ^ 256 % F.P.toNat) (a e : Nat) :
    montPow F a e < F.P.toNat ∧
      valOf F.P.toNat (montPow F a e) = valOf F.P.toNat a ^ e % F.P.toNat := by
  have hlt : montPow F a e < F.P.toNat :=
    squareMultiply_induction (P := (· < F.P.toNat)) (fun _ _ => Nat.mod_lt _ (by omega)) a _ _
      (by rw [hr1]; exact Nat.mod_lt _ (by omega))
  refine ⟨hlt, ?_⟩
  have h := squareMultiply_bitsBE (fun x : Nat => (valOf F.P.toNat x : ZMod F.P.toNat))
    (montMul F.P.toNat) (by intro x y; rw [valOf_montMul]; simp) a F.R1.toNat
    (by
      have h2 : valOf F.P.toNat F.R1.toNat = 1 := by
        rw [hr1, show 2 ^ 256 % F.P.toNat = repOf F.P.toNat 1 by simp [repOf, Config.radix],
          valOf_repOf hp h1 h1]
      rw [h2]; simp) e
  have h2 : ((valOf F.P.toNat (montPow F a e) : Nat) : ZMod F.P.toNat) =
      ((valOf F.P.toNat a ^ e : Nat) : ZMod F.P.toNat) := by
    simpa [montPow] using h
  have h3 := (ZMod.natCast_eq_natCast_iff _ _ _).1 h2
  rw [← Nat.mod_eq_of_lt (valOf_lt (p := F.P.toNat) (by omega) (montPow F a e))]
  exact h3

/-! ## Derived constants -/

/-- `(−p⁻¹) mod 2^64` (R30). -/
theorem negInv64_spec {p : Nat} (hp : p % 2 = 1) :
    negInv64 p < 2 ^ 64 ∧ negInv64 p * p % 2 ^ 64 = 2 ^ 64 - 1 := by
  have hc : Nat.gcd p (2 ^ 64) = 1 :=
    Nat.Coprime.pow_right 64 (Nat.coprime_two_right.2 (Nat.odd_iff.2 hp))
  have h1 := invMod_spec (m := 2 ^ 64) (by norm_num) hc
  have h2 := invMod_lt p (m := 2 ^ 64) (by norm_num)
  refine ⟨Nat.mod_lt _ (by norm_num), ?_⟩
  unfold negInv64
  generalize invMod p (2 ^ 64) = w at h1 h2
  rw [Nat.mod_mul_mod]
  have h3 : ((2 ^ 64 - w) * p + p * w) % 2 ^ 64 = 0 := by
    rw [Nat.mul_comm p w, ← Nat.add_mul, Nat.sub_add_cancel h2.le, Nat.mul_mod_right]
  omega

/-- The two-adicity is the exponent of the largest power of two that divides (R30). -/
theorem twoAdicity_spec : ∀ (bound n : Nat), 0 < n → n < 2 ^ bound →
    2 ^ twoAdicity bound n ∣ n ∧ ¬ 2 ^ (twoAdicity bound n + 1) ∣ n ∧ twoAdicity bound n ≤ bound := by
  intro bound
  induction bound with
  | zero => intro n h0 h1; simp at h1; omega
  | succ b ih =>
    intro n h0 h1
    unfold twoAdicity
    split
    · rename_i h
      have hlt : n / 2 < 2 ^ b := by rw [Nat.pow_succ] at h1; omega
      obtain ⟨i1, i2, i3⟩ := ih (n / 2) (by omega) hlt
      have hn : n = 2 * (n / 2) := by omega
      refine ⟨?_, ?_, by omega⟩
      · rw [Nat.add_comm, Nat.pow_succ, Nat.mul_comm]
        conv_rhs => rw [hn]
        exact Nat.mul_dvd_mul_left 2 i1
      · rw [Nat.add_comm 1, Nat.pow_succ, Nat.mul_comm]
        intro hd
        exact i2 ((Nat.mul_dvd_mul_iff_left (by norm_num : 0 < 2)).1 (hn ▸ hd))
    · rename_i h
      refine ⟨by simp, ?_, by omega⟩
      intro hd
      rw [Nat.zero_add, pow_one] at hd
      omega

end Sys2Proof.Machine
end

