-- ==== Sys2Proof/Laws/State.lean ====
section
/-! SUPPORT. What each update of the state leaves in each part of it, so that no proof unfolds a record
update: one lemma per update and part. -/

namespace Sys2Proof.Machine

variable (s : State)

/-! ### `State.setX` -/

@[simp] theorem State.a_setX (i : AReg) (j : XReg) (v : Word) : (s.setX j v).a i = s.a i := rfl
@[simp] theorem State.pt_setX (i : PReg) (j : XReg) (v : Word) : (s.setX j v).pt i = s.pt i := rfl
@[simp] theorem State.F_setX (g : Ctx) (j : XReg) (v : Word) : (s.setX j v).F g = s.F g :=
  by cases g <;> rfl
@[simp] theorem State.ST_setX (j : XReg) (v : Word) : (s.setX j v).ST = s.ST := rfl
@[simp] theorem State.ERRVAL_setX (j : XReg) (v : Word) : (s.setX j v).ERRVAL = s.ERRVAL := rfl
@[simp] theorem State.Fbase_setX (j : XReg) (v : Word) : (s.setX j v).Fbase = s.Fbase := rfl
@[simp] theorem State.Fscalar_setX (j : XReg) (v : Word) : (s.setX j v).Fscalar = s.Fscalar := rfl
@[simp] theorem State.CRV_setX (j : XReg) (v : Word) : (s.setX j v).CRV = s.CRV := rfl
@[simp] theorem State.K_setX (j : XReg) (v : Word) : (s.setX j v).K = s.K := rfl
@[simp] theorem State.PS_setX (j : XReg) (v : Word) : (s.setX j v).PS = s.PS := rfl
@[simp] theorem State.MEM_setX (j : XReg) (v : Word) : (s.setX j v).MEM = s.MEM := rfl
@[simp] theorem State.pending_setX (j : XReg) (v : Word) : (s.setX j v).pending = s.pending := rfl
@[simp] theorem State.reply_setX (j : XReg) (v : Word) : (s.setX j v).reply = s.reply := rfl

/-! ### `State.setXNat` -/

@[simp] theorem State.a_setXNat (i : AReg) (j : XReg) (n : Nat) : (s.setXNat j n).a i = s.a i := rfl
@[simp] theorem State.pt_setXNat (i : PReg) (j : XReg) (n : Nat) : (s.setXNat j n).pt i = s.pt i :=
  rfl
@[simp] theorem State.F_setXNat (g : Ctx) (j : XReg) (n : Nat) : (s.setXNat j n).F g = s.F g :=
  by cases g <;> rfl
@[simp] theorem State.ST_setXNat (j : XReg) (n : Nat) : (s.setXNat j n).ST = s.ST := rfl
@[simp] theorem State.ERRVAL_setXNat (j : XReg) (n : Nat) : (s.setXNat j n).ERRVAL = s.ERRVAL := rfl
@[simp] theorem State.Fbase_setXNat (j : XReg) (n : Nat) : (s.setXNat j n).Fbase = s.Fbase := rfl
@[simp] theorem State.Fscalar_setXNat (j : XReg) (n : Nat) : (s.setXNat j n).Fscalar = s.Fscalar :=
  rfl
@[simp] theorem State.CRV_setXNat (j : XReg) (n : Nat) : (s.setXNat j n).CRV = s.CRV := rfl
@[simp] theorem State.K_setXNat (j : XReg) (n : Nat) : (s.setXNat j n).K = s.K := rfl
@[simp] theorem State.PS_setXNat (j : XReg) (n : Nat) : (s.setXNat j n).PS = s.PS := rfl
@[simp] theorem State.MEM_setXNat (j : XReg) (n : Nat) : (s.setXNat j n).MEM = s.MEM := rfl
@[simp] theorem State.pending_setXNat (j : XReg) (n : Nat) : (s.setXNat j n).pending = s.pending :=
  rfl
@[simp] theorem State.reply_setXNat (j : XReg) (n : Nat) : (s.setXNat j n).reply = s.reply := rfl

/-! ### `State.setA` -/

@[simp] theorem State.x_setA (i : XReg) (j : AReg) (v : Addr) : (s.setA j v).x i = s.x i := rfl
@[simp] theorem State.pt_setA (i : PReg) (j : AReg) (v : Addr) : (s.setA j v).pt i = s.pt i := rfl
@[simp] theorem State.F_setA (g : Ctx) (j : AReg) (v : Addr) : (s.setA j v).F g = s.F g :=
  by cases g <;> rfl
@[simp] theorem State.ST_setA (j : AReg) (v : Addr) : (s.setA j v).ST = s.ST := rfl
@[simp] theorem State.ERRVAL_setA (j : AReg) (v : Addr) : (s.setA j v).ERRVAL = s.ERRVAL := rfl
@[simp] theorem State.Fbase_setA (j : AReg) (v : Addr) : (s.setA j v).Fbase = s.Fbase := rfl
@[simp] theorem State.Fscalar_setA (j : AReg) (v : Addr) : (s.setA j v).Fscalar = s.Fscalar := rfl
@[simp] theorem State.CRV_setA (j : AReg) (v : Addr) : (s.setA j v).CRV = s.CRV := rfl
@[simp] theorem State.K_setA (j : AReg) (v : Addr) : (s.setA j v).K = s.K := rfl
@[simp] theorem State.PS_setA (j : AReg) (v : Addr) : (s.setA j v).PS = s.PS := rfl
@[simp] theorem State.MEM_setA (j : AReg) (v : Addr) : (s.setA j v).MEM = s.MEM := rfl
@[simp] theorem State.pending_setA (j : AReg) (v : Addr) : (s.setA j v).pending = s.pending := rfl
@[simp] theorem State.reply_setA (j : AReg) (v : Addr) : (s.setA j v).reply = s.reply := rfl

/-! ### `State.setPt` -/

@[simp] theorem State.x_setPt (i : XReg) (j : PReg) (P : PointReg) : (s.setPt j P).x i = s.x i :=
  rfl
@[simp] theorem State.a_setPt (i : AReg) (j : PReg) (P : PointReg) : (s.setPt j P).a i = s.a i :=
  rfl
@[simp] theorem State.F_setPt (g : Ctx) (j : PReg) (P : PointReg) : (s.setPt j P).F g = s.F g :=
  by cases g <;> rfl
@[simp] theorem State.ST_setPt (j : PReg) (P : PointReg) : (s.setPt j P).ST = s.ST := rfl
@[simp] theorem State.ERRVAL_setPt (j : PReg) (P : PointReg) : (s.setPt j P).ERRVAL = s.ERRVAL :=
  rfl
@[simp] theorem State.Fbase_setPt (j : PReg) (P : PointReg) : (s.setPt j P).Fbase = s.Fbase := rfl
@[simp] theorem State.Fscalar_setPt (j : PReg) (P : PointReg) : (s.setPt j P).Fscalar = s.Fscalar :=
  rfl
@[simp] theorem State.CRV_setPt (j : PReg) (P : PointReg) : (s.setPt j P).CRV = s.CRV := rfl
@[simp] theorem State.K_setPt (j : PReg) (P : PointReg) : (s.setPt j P).K = s.K := rfl
@[simp] theorem State.PS_setPt (j : PReg) (P : PointReg) : (s.setPt j P).PS = s.PS := rfl
@[simp] theorem State.MEM_setPt (j : PReg) (P : PointReg) : (s.setPt j P).MEM = s.MEM := rfl
@[simp] theorem State.pending_setPt (j : PReg) (P : PointReg) : (s.setPt j P).pending = s.pending :=
  rfl
@[simp] theorem State.reply_setPt (j : PReg) (P : PointReg) : (s.setPt j P).reply = s.reply := rfl

/-! ### `State.setF` -/

@[simp] theorem State.x_setF (i : XReg) (f : Ctx) (c : FieldCtx) : (s.setF f c).x i = s.x i :=
  by cases f <;> rfl
@[simp] theorem State.a_setF (i : AReg) (f : Ctx) (c : FieldCtx) : (s.setF f c).a i = s.a i :=
  by cases f <;> rfl
@[simp] theorem State.pt_setF (i : PReg) (f : Ctx) (c : FieldCtx) : (s.setF f c).pt i = s.pt i :=
  by cases f <;> rfl
@[simp] theorem State.ST_setF (f : Ctx) (c : FieldCtx) : (s.setF f c).ST = s.ST :=
  by cases f <;> rfl
@[simp] theorem State.ERRVAL_setF (f : Ctx) (c : FieldCtx) : (s.setF f c).ERRVAL = s.ERRVAL :=
  by cases f <;> rfl
@[simp] theorem State.CRV_setF (f : Ctx) (c : FieldCtx) : (s.setF f c).CRV = s.CRV :=
  by cases f <;> rfl
@[simp] theorem State.K_setF (f : Ctx) (c : FieldCtx) : (s.setF f c).K = s.K := by cases f <;> rfl
@[simp] theorem State.PS_setF (f : Ctx) (c : FieldCtx) : (s.setF f c).PS = s.PS :=
  by cases f <;> rfl
@[simp] theorem State.MEM_setF (f : Ctx) (c : FieldCtx) : (s.setF f c).MEM = s.MEM :=
  by cases f <;> rfl
@[simp] theorem State.pending_setF (f : Ctx) (c : FieldCtx) : (s.setF f c).pending = s.pending :=
  by cases f <;> rfl
@[simp] theorem State.reply_setF (f : Ctx) (c : FieldCtx) : (s.setF f c).reply = s.reply :=
  by cases f <;> rfl

/-! ### `State.setCRV` -/

@[simp] theorem State.x_setCRV (i : XReg) (c : Curve) : (s.setCRV c).x i = s.x i := rfl
@[simp] theorem State.a_setCRV (i : AReg) (c : Curve) : (s.setCRV c).a i = s.a i := rfl
@[simp] theorem State.pt_setCRV (i : PReg) (c : Curve) : (s.setCRV c).pt i = s.pt i := rfl
@[simp] theorem State.F_setCRV (g : Ctx) (c : Curve) : (s.setCRV c).F g = s.F g :=
  by cases g <;> rfl
@[simp] theorem State.ST_setCRV (c : Curve) : (s.setCRV c).ST = s.ST := rfl
@[simp] theorem State.ERRVAL_setCRV (c : Curve) : (s.setCRV c).ERRVAL = s.ERRVAL := rfl
@[simp] theorem State.Fbase_setCRV (c : Curve) : (s.setCRV c).Fbase = s.Fbase := rfl
@[simp] theorem State.Fscalar_setCRV (c : Curve) : (s.setCRV c).Fscalar = s.Fscalar := rfl
@[simp] theorem State.CRV_setCRV (c : Curve) : (s.setCRV c).CRV = c := rfl
@[simp] theorem State.K_setCRV (c : Curve) : (s.setCRV c).K = s.K := rfl
@[simp] theorem State.PS_setCRV (c : Curve) : (s.setCRV c).PS = s.PS := rfl
@[simp] theorem State.MEM_setCRV (c : Curve) : (s.setCRV c).MEM = s.MEM := rfl
@[simp] theorem State.pending_setCRV (c : Curve) : (s.setCRV c).pending = s.pending := rfl
@[simp] theorem State.reply_setCRV (c : Curve) : (s.setCRV c).reply = s.reply := rfl

/-! ### `State.setK` -/

@[simp] theorem State.x_setK (i : XReg) (k : Hasher) : (s.setK k).x i = s.x i := rfl
@[simp] theorem State.a_setK (i : AReg) (k : Hasher) : (s.setK k).a i = s.a i := rfl
@[simp] theorem State.pt_setK (i : PReg) (k : Hasher) : (s.setK k).pt i = s.pt i := rfl
@[simp] theorem State.F_setK (g : Ctx) (k : Hasher) : (s.setK k).F g = s.F g := by cases g <;> rfl
@[simp] theorem State.ST_setK (k : Hasher) : (s.setK k).ST = s.ST := rfl
@[simp] theorem State.ERRVAL_setK (k : Hasher) : (s.setK k).ERRVAL = s.ERRVAL := rfl
@[simp] theorem State.Fbase_setK (k : Hasher) : (s.setK k).Fbase = s.Fbase := rfl
@[simp] theorem State.Fscalar_setK (k : Hasher) : (s.setK k).Fscalar = s.Fscalar := rfl
@[simp] theorem State.CRV_setK (k : Hasher) : (s.setK k).CRV = s.CRV := rfl
@[simp] theorem State.K_setK (k : Hasher) : (s.setK k).K = k := rfl
@[simp] theorem State.PS_setK (k : Hasher) : (s.setK k).PS = s.PS := rfl
@[simp] theorem State.MEM_setK (k : Hasher) : (s.setK k).MEM = s.MEM := rfl
@[simp] theorem State.pending_setK (k : Hasher) : (s.setK k).pending = s.pending := rfl
@[simp] theorem State.reply_setK (k : Hasher) : (s.setK k).reply = s.reply := rfl

/-! ### `State.setPS` -/

@[simp] theorem State.x_setPS (i : XReg) (p : Sponge) : (s.setPS p).x i = s.x i := rfl
@[simp] theorem State.a_setPS (i : AReg) (p : Sponge) : (s.setPS p).a i = s.a i := rfl
@[simp] theorem State.pt_setPS (i : PReg) (p : Sponge) : (s.setPS p).pt i = s.pt i := rfl
@[simp] theorem State.F_setPS (g : Ctx) (p : Sponge) : (s.setPS p).F g = s.F g := by cases g <;> rfl
@[simp] theorem State.ST_setPS (p : Sponge) : (s.setPS p).ST = s.ST := rfl
@[simp] theorem State.ERRVAL_setPS (p : Sponge) : (s.setPS p).ERRVAL = s.ERRVAL := rfl
@[simp] theorem State.Fbase_setPS (p : Sponge) : (s.setPS p).Fbase = s.Fbase := rfl
@[simp] theorem State.Fscalar_setPS (p : Sponge) : (s.setPS p).Fscalar = s.Fscalar := rfl
@[simp] theorem State.CRV_setPS (p : Sponge) : (s.setPS p).CRV = s.CRV := rfl
@[simp] theorem State.K_setPS (p : Sponge) : (s.setPS p).K = s.K := rfl
@[simp] theorem State.PS_setPS (p : Sponge) : (s.setPS p).PS = p := rfl
@[simp] theorem State.MEM_setPS (p : Sponge) : (s.setPS p).MEM = s.MEM := rfl
@[simp] theorem State.pending_setPS (p : Sponge) : (s.setPS p).pending = s.pending := rfl
@[simp] theorem State.reply_setPS (p : Sponge) : (s.setPS p).reply = s.reply := rfl

/-! ### `State.memWrite` -/

@[simp] theorem State.x_memWrite (i : XReg) (addr : Nat) (bs : List Byte) : (s.memWrite addr bs).x i = s.x i :=
  rfl
@[simp] theorem State.a_memWrite (i : AReg) (addr : Nat) (bs : List Byte) : (s.memWrite addr bs).a i = s.a i :=
  rfl
@[simp] theorem State.pt_memWrite (i : PReg) (addr : Nat) (bs : List Byte) : (s.memWrite addr bs).pt i = s.pt i :=
  rfl
@[simp] theorem State.F_memWrite (g : Ctx) (addr : Nat) (bs : List Byte) : (s.memWrite addr bs).F g = s.F g :=
  by cases g <;> rfl
@[simp] theorem State.ST_memWrite (addr : Nat) (bs : List Byte) : (s.memWrite addr bs).ST = s.ST :=
  rfl
@[simp] theorem State.ERRVAL_memWrite (addr : Nat) (bs : List Byte) : (s.memWrite addr bs).ERRVAL = s.ERRVAL :=
  rfl
@[simp] theorem State.Fbase_memWrite (addr : Nat) (bs : List Byte) : (s.memWrite addr bs).Fbase = s.Fbase :=
  rfl
@[simp] theorem State.Fscalar_memWrite (addr : Nat) (bs : List Byte) : (s.memWrite addr bs).Fscalar = s.Fscalar :=
  rfl
@[simp] theorem State.CRV_memWrite (addr : Nat) (bs : List Byte) : (s.memWrite addr bs).CRV = s.CRV :=
  rfl
@[simp] theorem State.K_memWrite (addr : Nat) (bs : List Byte) : (s.memWrite addr bs).K = s.K := rfl
@[simp] theorem State.PS_memWrite (addr : Nat) (bs : List Byte) : (s.memWrite addr bs).PS = s.PS :=
  rfl
@[simp] theorem State.MEM_memWrite (addr : Nat) (bs : List Byte) : (s.memWrite addr bs).MEM = s.MEM.writeBytes addr bs :=
  rfl
@[simp] theorem State.pending_memWrite (addr : Nat) (bs : List Byte) : (s.memWrite addr bs).pending = s.pending :=
  rfl
@[simp] theorem State.reply_memWrite (addr : Nat) (bs : List Byte) : (s.memWrite addr bs).reply = s.reply :=
  rfl

/-! ### `State.setERR` -/

@[simp] theorem State.x_setERR (i : XReg) (e : BitVec 8) : (s.setERR e).x i = s.x i := rfl
@[simp] theorem State.a_setERR (i : AReg) (e : BitVec 8) : (s.setERR e).a i = s.a i := rfl
@[simp] theorem State.pt_setERR (i : PReg) (e : BitVec 8) : (s.setERR e).pt i = s.pt i := rfl
@[simp] theorem State.F_setERR (g : Ctx) (e : BitVec 8) : (s.setERR e).F g = s.F g :=
  by cases g <;> rfl
@[simp] theorem State.ST_setERR (e : BitVec 8) : (s.setERR e).ST = { s.ST with ERR := e } := rfl
@[simp] theorem State.ERRVAL_setERR (e : BitVec 8) : (s.setERR e).ERRVAL = s.ERRVAL := rfl
@[simp] theorem State.Fbase_setERR (e : BitVec 8) : (s.setERR e).Fbase = s.Fbase := rfl
@[simp] theorem State.Fscalar_setERR (e : BitVec 8) : (s.setERR e).Fscalar = s.Fscalar := rfl
@[simp] theorem State.CRV_setERR (e : BitVec 8) : (s.setERR e).CRV = s.CRV := rfl
@[simp] theorem State.K_setERR (e : BitVec 8) : (s.setERR e).K = s.K := rfl
@[simp] theorem State.PS_setERR (e : BitVec 8) : (s.setERR e).PS = s.PS := rfl
@[simp] theorem State.MEM_setERR (e : BitVec 8) : (s.setERR e).MEM = s.MEM := rfl
@[simp] theorem State.pending_setERR (e : BitVec 8) : (s.setERR e).pending = s.pending := rfl
@[simp] theorem State.reply_setERR (e : BitVec 8) : (s.setERR e).reply = s.reply := rfl

/-! ### `State.setC` -/

@[simp] theorem State.x_setC (i : XReg) (b : Bool) : (s.setC b).x i = s.x i := rfl
@[simp] theorem State.a_setC (i : AReg) (b : Bool) : (s.setC b).a i = s.a i := rfl
@[simp] theorem State.pt_setC (i : PReg) (b : Bool) : (s.setC b).pt i = s.pt i := rfl
@[simp] theorem State.F_setC (g : Ctx) (b : Bool) : (s.setC b).F g = s.F g := by cases g <;> rfl
@[simp] theorem State.ST_setC (b : Bool) : (s.setC b).ST = { s.ST with C := b } := rfl
@[simp] theorem State.ERRVAL_setC (b : Bool) : (s.setC b).ERRVAL = s.ERRVAL := rfl
@[simp] theorem State.Fbase_setC (b : Bool) : (s.setC b).Fbase = s.Fbase := rfl
@[simp] theorem State.Fscalar_setC (b : Bool) : (s.setC b).Fscalar = s.Fscalar := rfl
@[simp] theorem State.CRV_setC (b : Bool) : (s.setC b).CRV = s.CRV := rfl
@[simp] theorem State.K_setC (b : Bool) : (s.setC b).K = s.K := rfl
@[simp] theorem State.PS_setC (b : Bool) : (s.setC b).PS = s.PS := rfl
@[simp] theorem State.MEM_setC (b : Bool) : (s.setC b).MEM = s.MEM := rfl
@[simp] theorem State.pending_setC (b : Bool) : (s.setC b).pending = s.pending := rfl
@[simp] theorem State.reply_setC (b : Bool) : (s.setC b).reply = s.reply := rfl

/-! ### `State.setZ` -/

@[simp] theorem State.x_setZ (i : XReg) (b : Bool) : (s.setZ b).x i = s.x i := rfl
@[simp] theorem State.a_setZ (i : AReg) (b : Bool) : (s.setZ b).a i = s.a i := rfl
@[simp] theorem State.pt_setZ (i : PReg) (b : Bool) : (s.setZ b).pt i = s.pt i := rfl
@[simp] theorem State.F_setZ (g : Ctx) (b : Bool) : (s.setZ b).F g = s.F g := by cases g <;> rfl
@[simp] theorem State.ST_setZ (b : Bool) : (s.setZ b).ST = { s.ST with Z := b } := rfl
@[simp] theorem State.ERRVAL_setZ (b : Bool) : (s.setZ b).ERRVAL = s.ERRVAL := rfl
@[simp] theorem State.Fbase_setZ (b : Bool) : (s.setZ b).Fbase = s.Fbase := rfl
@[simp] theorem State.Fscalar_setZ (b : Bool) : (s.setZ b).Fscalar = s.Fscalar := rfl
@[simp] theorem State.CRV_setZ (b : Bool) : (s.setZ b).CRV = s.CRV := rfl
@[simp] theorem State.K_setZ (b : Bool) : (s.setZ b).K = s.K := rfl
@[simp] theorem State.PS_setZ (b : Bool) : (s.setZ b).PS = s.PS := rfl
@[simp] theorem State.MEM_setZ (b : Bool) : (s.setZ b).MEM = s.MEM := rfl
@[simp] theorem State.pending_setZ (b : Bool) : (s.setZ b).pending = s.pending := rfl
@[simp] theorem State.reply_setZ (b : Bool) : (s.setZ b).reply = s.reply := rfl

/-! ### `State.setT` -/

@[simp] theorem State.x_setT (i : XReg) (b : Bool) : (s.setT b).x i = s.x i := rfl
@[simp] theorem State.a_setT (i : AReg) (b : Bool) : (s.setT b).a i = s.a i := rfl
@[simp] theorem State.pt_setT (i : PReg) (b : Bool) : (s.setT b).pt i = s.pt i := rfl
@[simp] theorem State.F_setT (g : Ctx) (b : Bool) : (s.setT b).F g = s.F g := by cases g <;> rfl
@[simp] theorem State.ST_setT (b : Bool) : (s.setT b).ST = { s.ST with T := b } := rfl
@[simp] theorem State.ERRVAL_setT (b : Bool) : (s.setT b).ERRVAL = s.ERRVAL := rfl
@[simp] theorem State.Fbase_setT (b : Bool) : (s.setT b).Fbase = s.Fbase := rfl
@[simp] theorem State.Fscalar_setT (b : Bool) : (s.setT b).Fscalar = s.Fscalar := rfl
@[simp] theorem State.CRV_setT (b : Bool) : (s.setT b).CRV = s.CRV := rfl
@[simp] theorem State.K_setT (b : Bool) : (s.setT b).K = s.K := rfl
@[simp] theorem State.PS_setT (b : Bool) : (s.setT b).PS = s.PS := rfl
@[simp] theorem State.MEM_setT (b : Bool) : (s.setT b).MEM = s.MEM := rfl
@[simp] theorem State.pending_setT (b : Bool) : (s.setT b).pending = s.pending := rfl
@[simp] theorem State.reply_setT (b : Bool) : (s.setT b).reply = s.reply := rfl

/-! ### `State.raise` -/

@[simp] theorem State.x_raise (i : XReg) (e : Err) : (s.raise e).x i = s.x i := rfl
@[simp] theorem State.a_raise (i : AReg) (e : Err) : (s.raise e).a i = s.a i := rfl
@[simp] theorem State.pt_raise (i : PReg) (e : Err) : (s.raise e).pt i = s.pt i := rfl
@[simp] theorem State.F_raise (g : Ctx) (e : Err) : (s.raise e).F g = s.F g := by cases g <;> rfl
@[simp] theorem State.ST_raise (e : Err) : (s.raise e).ST = { s.ST with ERR := errCode e, FAULT := if errIsFault e then true else s.ST.FAULT } :=
  rfl
@[simp] theorem State.Fbase_raise (e : Err) : (s.raise e).Fbase = s.Fbase := rfl
@[simp] theorem State.Fscalar_raise (e : Err) : (s.raise e).Fscalar = s.Fscalar := rfl
@[simp] theorem State.CRV_raise (e : Err) : (s.raise e).CRV = s.CRV := rfl
@[simp] theorem State.K_raise (e : Err) : (s.raise e).K = s.K := rfl
@[simp] theorem State.PS_raise (e : Err) : (s.raise e).PS = s.PS := rfl
@[simp] theorem State.MEM_raise (e : Err) : (s.raise e).MEM = s.MEM := rfl
@[simp] theorem State.pending_raise (e : Err) : (s.raise e).pending = s.pending := rfl
@[simp] theorem State.reply_raise (e : Err) : (s.raise e).reply = s.reply := rfl

/-! ### What an update writes -/

/-- A general register after a write to one (R12, R20). -/
theorem State.x_setX (i j : XReg) (v : Word) : (s.setX j v).x i = if i = j then v else s.x i := by
  simp only [State.x, State.setX, Vector.get_eq_getElem, Vector.getElem_set,
    Fin.ext_iff, eq_comm]

@[simp] theorem State.x_setX_same (i : XReg) (v : Word) : (s.setX i v).x i = v := by
  simp [State.x_setX]

theorem State.x_setX_ne {i j : XReg} (h : i ≠ j) (v : Word) : (s.setX j v).x i = s.x i := by
  simp [State.x_setX, h]

/-- A general register after an integer is written to one (R12). -/
theorem State.x_setXNat (i j : XReg) (n : Nat) :
    (s.setXNat j n).x i = if i = j then BitVec.ofNat 256 n else s.x i := State.x_setX s i j _

@[simp] theorem State.x_setXNat_same (i : XReg) (n : Nat) :
    (s.setXNat i n).x i = BitVec.ofNat 256 n := State.x_setX_same s i _

theorem State.x_setXNat_ne {i j : XReg} (h : i ≠ j) (n : Nat) : (s.setXNat j n).x i = s.x i :=
  State.x_setX_ne s h _

/-- The value read back is the integer written, which every rule keeps below `2^256` (R12). -/
theorem State.toNat_x_setXNat (i : XReg) {n : Nat} (h : n < 2 ^ 256) :
    ((s.setXNat i n).x i).toNat = n := by
  rw [State.x_setXNat_same, BitVec.toNat_ofNat, Nat.mod_eq_of_lt h]

/-- An address register after a write to one (R12, R21). -/
theorem State.a_setA (i j : AReg) (v : Addr) : (s.setA j v).a i = if i = j then v else s.a i := by
  simp only [State.a, State.setA, Vector.get_eq_getElem, Vector.getElem_set,
    Fin.ext_iff, eq_comm]

@[simp] theorem State.a_setA_same (i : AReg) (v : Addr) : (s.setA i v).a i = v := by
  simp [State.a_setA]

/-- A point register after a write to one (R12, R22). -/
theorem State.pt_setPt (i j : PReg) (P : PointReg) :
    (s.setPt j P).pt i = if i = j then P else s.pt i := by
  simp only [State.pt, State.setPt, Vector.get_eq_getElem, Vector.getElem_set,
    Fin.ext_iff, eq_comm]

@[simp] theorem State.pt_setPt_same (i : PReg) (P : PointReg) : (s.setPt i P).pt i = P := by
  simp [State.pt_setPt]

/-- A field context after a write to one (R12, R30). -/
theorem State.F_setF (f g : Ctx) (c : FieldCtx) : (s.setF f c).F g = if g = f then c else s.F g := by
  cases f <;> cases g <;> rfl

@[simp] theorem State.F_setF_same (f : Ctx) (c : FieldCtx) : (s.setF f c).F f = c := by
  cases f <;> rfl

@[simp] theorem State.F_base : s.F .base = s.Fbase := rfl

@[simp] theorem State.F_scalar : s.F .scalar = s.Fscalar := rfl

/-- `raise E` sets `ERRVAL` only for `InvalidSignatureS(v)` (R12, R26, R361). -/
theorem State.ERRVAL_raise (e : Err) : (s.raise e).ERRVAL =
    match e with
    | .invalidSignatureS v => v
    | _ => s.ERRVAL := rfl

end Sys2Proof.Machine
end

