-- ==== Sys2Proof/Laws/Checks.lean ====
section
/-! SUPPORT. What each shared check and operand form can do: when it passes with which result, and
when it ends with which error (rules R44, R74, R170, R200, R280, R281, R283, R301). -/

namespace Sys2Proof.Machine

@[simp] theorem check_true {α : Type} (e : Err) (k : Except Err α) : check true e k = k := rfl

@[simp] theorem check_false {α : Type} (e : Err) (k : Except Err α) : check false e k = .error e := rfl

@[simp] theorem andThen_ok {α β : Type} (v : α) (k : α → Except Err β) :
    andThen (.ok v) k = k v := rfl

@[simp] theorem andThen_error {α β : Type} (e : Err) (k : α → Except Err β) :
    andThen (.error e) k = .error e := rfl

theorem check_eq_ok {α : Type} {c : Bool} {e : Err} {k : Except Err α} {v : α} :
    check c e k = .ok v ↔ c = true ∧ k = .ok v := by cases c <;> simp

theorem check_eq_error {α : Type} {c : Bool} {e e' : Err} {k : Except Err α} :
    check c e k = .error e' ↔ (c = false ∧ e' = e) ∨ (c = true ∧ k = .error e') := by
  cases c <;> simp [eq_comm]

theorem andThen_eq_ok {α β : Type} {r : Except Err α} {k : α → Except Err β} {v : β} :
    andThen r k = .ok v ↔ ∃ a, r = .ok a ∧ k a = .ok v := by cases r <;> simp

theorem andThen_eq_error {α β : Type} {r : Except Err α} {k : α → Except Err β} {e : Err} :
    andThen r k = .error e ↔ r = .error e ∨ ∃ a, r = .ok a ∧ k a = .error e := by
  cases r <;> simp

/-- A command that completes (R360). -/
@[simp] theorem conclude_ok (s u : State) : conclude s (.ok u) = .next (u.setERR okCode) := rfl

/-- A command that fails (R361, R362). -/
@[simp] theorem conclude_error (s : State) (e : Err) : conclude s (.error e) = .next (s.raise e) := rfl

/-- How a command ends: it completes, or it fails with nothing done. -/
theorem conclude_eq_next {s t : State} {r : Except Err State} :
    conclude s r = .next t ↔
      (∃ u, r = .ok u ∧ t = u.setERR okCode) ∨ ∃ e, r = .error e ∧ t = s.raise e := by
  cases r <;> simp [eq_comm]

theorem inRange_iff (addr n : Nat) : inRange addr n = true ↔ addr + n ≤ 65536 := by
  rw [inRange, decide_eq_true_iff]; rfl

theorem inRange_eq_false_iff (addr n : Nat) : inRange addr n = false ↔ 65536 < addr + n := by
  rw [← Bool.not_eq_true, inRange_iff, Nat.not_le]

theorem withRange_eq_ok {α : Type} {addr n : Nat} {k : Except Err α} {v : α} :
    withRange addr n k = .ok v ↔ addr + n ≤ 65536 ∧ k = .ok v := by
  rw [withRange, check_eq_ok, inRange_iff]

theorem withRange_eq_error {α : Type} {addr n : Nat} {k : Except Err α} {e : Err} :
    withRange addr n k = .error e ↔
      (65536 < addr + n ∧ e = .accessFault) ∨ (addr + n ≤ 65536 ∧ k = .error e) := by
  rw [withRange, check_eq_error, inRange_iff, inRange_eq_false_iff]

theorem withField_eq_ok {α : Type} {s : State} {f : Ctx} {k : FieldCtx → Except Err α} {v : α} :
    withField s f k = .ok v ↔ (s.F f).VALID = true ∧ k (s.F f) = .ok v := by
  rw [withField, check_eq_ok]

theorem withField_eq_error {α : Type} {s : State} {f : Ctx} {k : FieldCtx → Except Err α} {e : Err} :
    withField s f k = .error e ↔ ((s.F f).VALID = false ∧ e = .noConfig) ∨
      ((s.F f).VALID = true ∧ k (s.F f) = .error e) := by
  rw [withField, check_eq_error]

theorem withElement_eq_ok {α : Type} {F : FieldCtx} {v : Word} {k : Nat → Except Err α} {u : α} :
    withElement F v k = .ok u ↔ v.toNat < F.P.toNat ∧ k v.toNat = .ok u := by
  rw [withElement, check_eq_ok, decide_eq_true_iff]

theorem withElement_eq_error {α : Type} {F : FieldCtx} {v : Word} {k : Nat → Except Err α} {e : Err} :
    withElement F v k = .error e ↔ (F.P.toNat ≤ v.toNat ∧ e = .notInField) ∨
      (v.toNat < F.P.toNat ∧ k v.toNat = .error e) := by
  rw [withElement, check_eq_error, decide_eq_true_iff, decide_eq_false_iff_not, Nat.not_lt]

theorem withCurve_eq_ok {α : Type} {s : State} {k : CurveParams → Except Err α} {v : α} :
    withCurve s k = .ok v ↔ s.curveOK = true ∧ k s.curve = .ok v := by
  rw [withCurve, check_eq_ok]

theorem withCurve_eq_error {α : Type} {s : State} {k : CurveParams → Except Err α} {e : Err} :
    withCurve s k = .error e ↔ (s.curveOK = false ∧ e = .noConfig) ∨
      (s.curveOK = true ∧ k s.curve = .error e) := by
  rw [withCurve, check_eq_error]

/-- `CurveOK()` (R43). -/
theorem State.curveOK_iff (s : State) : s.curveOK = true ↔
    s.Fbase.VALID = true ∧ s.CRV.CA.toNat < s.Fbase.P.toNat ∧ s.CRV.CB.toNat < s.Fbase.P.toNat := by
  simp [State.curveOK, and_assoc]

theorem withSponge_eq_ok {α : Type} {s : State} {k : Except Err α} {v : α} :
    withSponge s k = .ok v ↔ s.p2OK = true ∧ k = .ok v := by
  rw [withSponge, check_eq_ok]

theorem withSponge_eq_error {α : Type} {s : State} {k : Except Err α} {e : Err} :
    withSponge s k = .error e ↔ (s.p2OK = false ∧ e = .noConfig) ∨
      (s.p2OK = true ∧ k = .error e) := by
  rw [withSponge, check_eq_error]

/-- `P2OK()` (R301). -/
theorem State.p2OK_iff (s : State) :
    s.p2OK = true ↔ s.Fbase.VALID = true ∧ s.Fbase.P.toNat = Config.p2rom.P := by
  simp [State.p2OK]

theorem withParity_eq_ok {α : Type} {v : Word} {k : Nat → Except Err α} {u : α} :
    withParity v k = .ok u ↔
      ((v.toNat = 0 ∨ v.toNat = 27) ∧ k 0 = .ok u) ∨ ((v.toNat = 1 ∨ v.toNat = 28) ∧ k 1 = .ok u) := by
  unfold withParity
  split
  · rename_i h
    constructor
    · exact fun hk => .inl ⟨h, hk⟩
    · rintro (⟨-, hk⟩ | ⟨h', -⟩)
      · exact hk
      · omega
  split
  · rename_i h h'
    constructor
    · exact fun hk => .inr ⟨h', hk⟩
    · rintro (⟨h'', -⟩ | ⟨-, hk⟩)
      · exact absurd h'' h
      · exact hk
  · rename_i h h'
    constructor
    · intro hk; cases hk
    · rintro (⟨h'', -⟩ | ⟨h'', -⟩)
      · exact absurd h'' h
      · exact absurd h'' h'

theorem withParity_eq_error {α : Type} {v : Word} {k : Nat → Except Err α} {e : Err} :
    withParity v k = .error e → e = .invalidSignature ∨ k 0 = .error e ∨ k 1 = .error e := by
  unfold withParity
  split
  · exact fun h => .inr (.inl h)
  split
  · exact fun h => .inr (.inr h)
  · intro h; cases h; exact .inl rfl

/-- `SigCheck(r, s)` passes (R281). -/
theorem sigCheck_eq_ok {α : Type} {n : Nat} {r s : Word} {k : Except Err α} {v : α} :
    sigCheck n r s k = .ok v ↔ (r.toNat ≠ 0 ∧ r.toNat < n) ∧ (s.toNat ≠ 0 ∧ s.toNat < n) ∧
      s.toNat ≤ (n - 1) / 2 ∧ k = .ok v := by
  simp only [sigCheck, check_eq_ok, Bool.not_eq_true', Bool.or_eq_false_iff, beq_eq_false_iff_ne,
    decide_eq_false_iff_not, decide_eq_true_iff, Nat.not_le]
  exact Iff.rfl

/-- `SigCheck(r, s)` raises (R281). -/
theorem sigCheck_eq_error {α : Type} {n : Nat} {r s : Word} {k : Except Err α} {e : Err} :
    sigCheck n r s k = .error e → e = .invalidSignature ∨ e = .invalidSignatureS s ∨
      k = .error e := by
  simp only [sigCheck, check_eq_error]
  rintro (⟨-, h⟩ | ⟨-, ⟨-, h⟩ | ⟨-, ⟨-, h⟩ | ⟨-, h⟩⟩⟩)
  · exact .inl h
  · exact .inl h
  · exact .inr (.inl h)
  · exact .inr (.inr h)

/-- What `CFGW` does when it completes: it writes one field of one context, the curve, or one slot of
the sponge that the engine has (R55, R134). -/
theorem writeCtl_eq_ok {c : CtlReg} {v : Word} {s u : State} (h : s.writeCtl c v = .ok u) :
    (∃ f, (s.F f).VALID = true ∧ v.toNat < (s.F f).P.toNat ∧
      (u = s.setF f { s.F f with GEN := v } ∨ u = s.setF f { s.F f with ROOT2 := v })) ∨
    (∃ C, u = s.setCRV C) ∨
    ∃ k : Fin 16, k.val < Config.p2rom.T ∧ s.p2OK = true ∧ v.toNat < s.Fbase.P.toNat ∧
      u = s.setPS { s.PS with STATE := setSlot s.PS.STATE k.val v } := by
  have elem : ∀ {f : Ctx} {w : State}, withElementOf s f v (.ok w) = .ok u →
      (s.F f).VALID = true ∧ v.toNat < (s.F f).P.toNat ∧ u = w := by
    intro f w h
    obtain ⟨h1, h⟩ := withField_eq_ok.1 h
    obtain ⟨h2, h⟩ := withElement_eq_ok.1 h
    cases h
    exact ⟨h1, h2, rfl⟩
  cases c with
  | gen f => obtain ⟨h1, h2, rfl⟩ := elem h; exact .inl ⟨f, h1, h2, .inl rfl⟩
  | root2 f => obtain ⟨h1, h2, rfl⟩ := elem h; exact .inl ⟨f, h1, h2, .inr rfl⟩
  | ca | cb | gx | gy => obtain ⟨h1, h2, rfl⟩ := elem h; exact .inr (.inl ⟨_, rfl⟩)
  | cofactor | cofactorInv => cases h; exact .inr (.inl ⟨_, rfl⟩)
  | model =>
    unfold State.writeCtl at h
    simp only at h
    split at h
    · cases h; exact .inr (.inl ⟨_, rfl⟩)
    · cases h
  | psState k =>
    obtain ⟨h1, h⟩ := check_eq_ok.1 h
    obtain ⟨h2, h⟩ := withSponge_eq_ok.1 h
    obtain ⟨h3, h⟩ := withElement_eq_ok.1 h
    cases h
    exact .inr (.inr ⟨k, of_decide_eq_true h1, h2, h3, rfl⟩)
  | p | r1 | r2 | inv | s | valid | errval | kActive | kPos | p2T | p2D | p2RF | p2RP | p2P | psIdx
  | psSqueezed | psSqidx => cases h

/-- A slot after a write to one that exists in the vector (R55, R311). -/
theorem slot_setSlot (st : Vector Word 16) {i : Nat} (h : i < 16) (j : Nat) (v : Word) :
    slot (setSlot st i v) j = if j = i then v else slot st j := by
  unfold slot setSlot
  rw [dif_pos h]
  split
  · simp [Vector.getElem_set, eq_comm]
  · rw [if_neg (by omega)]

end Sys2Proof.Machine
end

