-- ==== Sys2Proof/Laws/Curve.lean ====
section
/-! SUPPORT. The laws of the group operations: which errors they can end with, the recurrence of the
scalar multiple, and what `Div` gives (rules R201 to R206). -/

namespace Sys2Proof.Machine

/-- The errors of the group laws: a missing division, or (never after `PointCheck`) a point at
infinity on a twisted Edwards curve (R44, R201). -/
def GroupError (c : CurveParams) (e : Err) : Prop :=
  e = .arithDomain ∨ (e = .notOnCurve ∧ c.model = .edwards)

/-- `Div(u, v)` fails exactly when v has no inverse modulo p (R201). -/
theorem divMod_eq_error {p : Nat} {u v : Int} {e : Err} :
    divMod p u v = .error e ↔ invertible (residue p v) p = false ∧ e = .arithDomain := by
  simp [divMod, check_eq_error]

theorem divMod_eq_ok {p : Nat} {u v : Int} {q : Nat} :
    divMod p u v = .ok q ↔ invertible (residue p v) p = true ∧
      residue p (u * (invMod (residue p v) p : Int)) = q := by
  simp [divMod, check_eq_ok]

/-- The residue of an integer lies below the modulus (R10). -/
theorem residue_lt {p : Nat} (hp : 0 < p) (z : Int) : residue p z < p := by
  have h1 := Int.emod_lt_of_pos z (show (0 : Int) < p by omega)
  have h2 := Int.emod_nonneg z (show (p : Int) ≠ 0 by omega)
  unfold residue
  omega

/-- An integer and its residue are congruent (R10). -/
theorem residue_modEq {p : Nat} (hp : 0 < p) (z : Int) : (residue p z : Int) ≡ z [ZMOD p] := by
  unfold residue
  rw [Int.toNat_of_nonneg (Int.emod_nonneg _ (by omega))]
  exact Int.mod_modEq _ _

/-- The guard of `Div` is that the divisor is prime to the modulus (R201). -/
theorem invertible_residue {p : Nat} (hp : 0 < p) (v : Int) :
    invertible (residue p v) p = true ↔ IsCoprime v (p : Int) := by
  have hv : v = (residue p v : Int) + p * (v / p) := by
    unfold residue
    rw [Int.toNat_of_nonneg (Int.emod_nonneg _ (by omega)), Int.emod_add_mul_ediv]
  rw [invertible_iff]
  conv_rhs => rw [hv]
  rw [IsCoprime.add_mul_left_left_iff]
  exact Nat.isCoprime_iff_coprime.symm

/-- What `Div(u, v)` gives: the quotient q below p, with `q · v ≡ u` (R201). -/
theorem divMod_spec {p : Nat} (hp : 1 < p) {u v : Int} {q : Nat} (h : divMod p u v = .ok q) :
    q < p ∧ (q : Int) * v ≡ u [ZMOD p] := by
  obtain ⟨h1, rfl⟩ := divMod_eq_ok.1 h
  rw [invertible_iff] at h1
  refine ⟨residue_lt (by omega) _, ?_⟩
  have a := residue_modEq (p := p) (by omega) (u * (invMod (residue p v) p : Int))
  have b := residue_modEq (p := p) (by omega) v
  have d : ((residue p v * invMod (residue p v) p : Nat) : Int) ≡ ((1 : Nat) : Int) [ZMOD p] := by
    rw [Int.natCast_modEq_iff, Nat.ModEq, invMod_spec hp h1, Nat.mod_eq_of_lt hp]
  push_cast at d
  calc (residue p (u * (invMod (residue p v) p : Int)) : Int) * v
      ≡ (u * (invMod (residue p v) p : Int)) * residue p v [ZMOD p] := a.mul b.symm
    _ = u * (residue p v * invMod (residue p v) p) := by ring
    _ ≡ u * 1 [ZMOD p] := d.mul_left u
    _ = u := by ring

/-- `Div(u, v)` exists when v is prime to the modulus (R201). -/
theorem divMod_of_coprime {p : Nat} (hp : 0 < p) (u : Int) {v : Int} (h : IsCoprime v (p : Int)) :
    ∃ q, divMod p u v = .ok q := ⟨_, divMod_eq_ok.2 ⟨(invertible_residue hp v).2 h, rfl⟩⟩

/-- `Div(u, v)` raises `ArithDomain` when v is not prime to the modulus (R201). -/
theorem divMod_of_not_coprime {p : Nat} (hp : 0 < p) (u : Int) {v : Int}
    (h : ¬ IsCoprime v (p : Int)) : divMod p u v = .error .arithDomain :=
  divMod_eq_error.2 ⟨by
    rw [← Bool.not_eq_true]
    exact fun hv => h ((invertible_residue hp v).1 hv), rfl⟩

theorem dblWeierstrass_error {c : CurveParams} {P : AffPoint} {e : Err}
    (h : dblWeierstrass c P = .error e) : e = .arithDomain := by
  cases P with
  | O => simp [dblWeierstrass] at h
  | mk x y =>
    unfold dblWeierstrass at h
    simp only at h
    split at h
    · cases h
    · rcases andThen_eq_error.1 h with h | ⟨_, _, h⟩
      · exact (divMod_eq_error.1 h).2
      · cases h

theorem dblMontgomery_error {c : CurveParams} {P : AffPoint} {e : Err}
    (h : dblMontgomery c P = .error e) : e = .arithDomain := by
  cases P with
  | O => simp [dblMontgomery] at h
  | mk x y =>
    unfold dblMontgomery at h
    simp only at h
    split at h
    · cases h
    · rcases andThen_eq_error.1 h with h | ⟨_, _, h⟩
      · exact (divMod_eq_error.1 h).2
      · cases h

theorem addChord_error {c : CurveParams} {dbl : AffPoint → Except Err AffPoint}
    (hd : ∀ P e, dbl P = .error e → e = .arithDomain) {P1 P2 : AffPoint} {e : Err}
    (h : addChord c dbl P1 P2 = .error e) : e = .arithDomain := by
  cases P1 with
  | O => simp [addChord] at h
  | mk x1 y1 =>
    cases P2 with
    | O => simp [addChord] at h
    | mk x2 y2 =>
      unfold addChord at h
      simp only at h
      split at h
      · split at h
        · exact hd _ _ h
        · cases h
      · rcases andThen_eq_error.1 h with h | ⟨_, _, h⟩
        · exact (divMod_eq_error.1 h).2
        · cases h

theorem addEdwards_error {c : CurveParams} {P1 P2 : AffPoint} {e : Err}
    (h : addEdwards c P1 P2 = .error e) : e = .arithDomain ∨ e = .notOnCurve := by
  cases P1 with
  | O => right; simpa [addEdwards, eq_comm] using h
  | mk x1 y1 =>
    cases P2 with
    | O => right; simpa [addEdwards, eq_comm] using h
    | mk x2 y2 =>
      left
      unfold addEdwards at h
      simp only at h
      rcases andThen_eq_error.1 h with h | ⟨_, _, h⟩
      · exact (divMod_eq_error.1 h).2
      · rcases andThen_eq_error.1 h with h | ⟨_, _, h⟩
        · exact (divMod_eq_error.1 h).2
        · cases h

theorem addPoint_error {c : CurveParams} {P1 P2 : AffPoint} {e : Err}
    (h : addPoint c P1 P2 = .error e) : GroupError c e := by
  unfold addPoint at h
  unfold GroupError
  split at h
  · exact .inl (addChord_error (fun _ _ => dblWeierstrass_error) h)
  · rename_i hm
    rcases addEdwards_error h with h | h
    · exact .inl h
    · exact .inr ⟨h, hm⟩
  · exact .inl (addChord_error (fun _ _ => dblMontgomery_error) h)

theorem dblPoint_error {c : CurveParams} {P : AffPoint} {e : Err}
    (h : dblPoint c P = .error e) : GroupError c e := by
  unfold dblPoint at h
  unfold GroupError
  split at h
  · exact .inl (dblWeierstrass_error h)
  · rename_i hm
    rcases addEdwards_error h with h | h
    · exact .inl h
    · exact .inr ⟨h, hm⟩
  · exact .inl (dblMontgomery_error h)

/-! ## The scalar multiple -/

theorem doubleAdd_append (c : CurveParams) (P : AffPoint) (l : List Bool) (b : Bool) :
    ∀ acc, doubleAdd c P acc (l ++ [b]) =
      andThen (doubleAdd c P acc l) fun Q => andThen (dblPoint c Q) fun D =>
        if b then addPoint c D P else .ok D := by
  induction l with
  | nil =>
    intro acc
    simp only [List.nil_append, doubleAdd, andThen_ok]
    cases dblPoint c acc with
    | error e => rfl
    | ok D =>
      cases b with
      | false => rfl
      | true =>
        simp only [andThen_ok, if_true]
        cases addPoint c D P <;> rfl
  | cons a l ih =>
    intro acc
    simp only [List.cons_append, doubleAdd]
    cases dblPoint c acc with
    | error e => rfl
    | ok D =>
      cases a with
      | false => simpa using ih D
      | true =>
        simp only [andThen_ok, if_true]
        cases addPoint c D P with
        | error e => rfl
        | ok E => simpa using ih E

@[simp] theorem mulPoint_zero (c : CurveParams) (P : AffPoint) :
    mulPoint c 0 P = .ok (identity c) := rfl

/-- The double-and-add recurrence over the digits of the scalar (R206). -/
theorem mulPoint_bit (c : CurveParams) (P : AffPoint) (k : Nat) (b : Bool) (h : k ≠ 0 ∨ b = true) :
    mulPoint c (2 * k + b.toNat) P =
      andThen (mulPoint c k P) fun Q => andThen (dblPoint c Q) fun D =>
        if b then addPoint c D P else .ok D := by
  rw [mulPoint, bitsBE_bit k b h, doubleAdd_append]
  rfl

/-- A property of errors that doublings and additions have, scalar multiples have. -/
theorem mulPoint_error {c : CurveParams} {P : AffPoint} {k : Nat} {e : Err}
    (h : mulPoint c k P = .error e) : GroupError c e := by
  induction k using bits_induction generalizing e with
  | zero => cases h
  | bit k b hb ih =>
    rw [mulPoint_bit c P k b hb] at h
    rcases andThen_eq_error.1 h with h | ⟨Q, -, h⟩
    · exact ih h
    rcases andThen_eq_error.1 h with h | ⟨D, -, h⟩
    · exact dblPoint_error h
    cases b
    · cases h
    · exact addPoint_error h

/-! ## The ECDSA computations -/

theorem signWith_error {c : CurveParams} {G : AffPoint} {n sk e k : Nat} {err : Err}
    (h : signWith c G n sk e k = .error err) : GroupError c err := by
  rcases andThen_eq_error.1 h with h | ⟨Rp, -, h⟩
  · exact mulPoint_error h
  · cases Rp with
    | O => cases h
    | mk Rx Ry =>
      simp only at h
      repeat' split at h
      all_goals cases h

theorem signLoop_error {c : CurveParams} {G : AffPoint} {n sk e : Nat} {nonceAt : Nat → Nat}
    {err : Err} : ∀ {tries ctr : Nat}, signLoop c G n sk e nonceAt tries ctr = .error err →
      err = .nonceExhausted ∨ GroupError c err
  | 0, _, h => by cases h; exact .inl rfl
  | tries + 1, ctr, h => by
    rcases andThen_eq_error.1 h with h | ⟨sig, -, h⟩
    · exact .inr (signWith_error h)
    · cases sig with
      | some rsv => cases h
      | none => exact signLoop_error h

theorem signature_error {c : CurveParams} {G : AffPoint} {n sk h : Nat} {err : Err}
    (hs : signature c G n sk h = .error err) : err = .nonceExhausted ∨ GroupError c err :=
  signLoop_error hs

theorem verifies_error {c : CurveParams} {G : AffPoint} {n h r s : Nat} {Q : AffPoint} {err : Err}
    (hv : verifies c G n h r s Q = .error err) : GroupError c err := by
  unfold verifies at hv
  split at hv
  · cases hv
  split at hv
  · simp only at hv
    rcases andThen_eq_error.1 hv with hv | ⟨_, -, hv⟩
    · exact mulPoint_error hv
    rcases andThen_eq_error.1 hv with hv | ⟨_, -, hv⟩
    · exact mulPoint_error hv
    rcases andThen_eq_error.1 hv with hv | ⟨X, -, hv⟩
    · exact addPoint_error hv
    cases X <;> cases hv
  · cases hv

theorem recoverAddress_error {c : CurveParams} {G : AffPoint} {n : Nat} {root : Nat → Option Nat}
    {h r s par : Nat} {err : Err} (hr : recoverAddress c G n root h r s par = .error err) :
    err = .invalidSignature ∨ GroupError c err := by
  rcases check_eq_error.1 hr with ⟨-, h⟩ | ⟨-, hr⟩
  · exact .inl h
  split at hr
  · cases hr; exact .inl rfl
  rcases check_eq_error.1 hr with ⟨-, h⟩ | ⟨-, hr⟩
  · exact .inl h
  rcases check_eq_error.1 hr with ⟨-, h⟩ | ⟨-, hr⟩
  · exact .inl h
  rcases andThen_eq_error.1 hr with hr | ⟨_, -, hr⟩
  · exact .inr (mulPoint_error hr)
  rcases andThen_eq_error.1 hr with hr | ⟨_, -, hr⟩
  · exact .inr (mulPoint_error hr)
  rcases andThen_eq_error.1 hr with hr | ⟨_, -, hr⟩
  · exact .inr (addPoint_error hr)
  rcases andThen_eq_error.1 hr with hr | ⟨Q, -, hr⟩
  · exact .inr (mulPoint_error hr)
  cases Q <;> cases hr
  exact .inl rfl

end Sys2Proof.Machine
end

