-- ==== Sys2Proof/Laws/Encoding.lean ====
section
/-! SUPPORT. The laws of the command encoding, field by field (rules R101, R102, R106): what the words
of each format are as numbers, and what the decoder reads from a field. -/

namespace Sys2Proof

/-! ## The words as numbers -/

theorem toNat_encodeR {op rd rs1 rs2 f : Nat} (ho : op < 256) (hd : rd < 16) (h1 : rs1 < 16)
    (h2 : rs2 < 16) (hf : f < 2) : (encodeR op rd rs1 rs2 f).toNat =
      op * 2 ^ 24 + rd * 2 ^ 20 + rs1 * 2 ^ 16 + rs2 * 2 ^ 12 + f * 2 ^ 8 := by
  unfold encodeR; rw [BitVec.toNat_ofNat]; omega

theorem toNat_encodeC {op rd rs1 f imm : Nat} (ho : op < 256) (hd : rd < 16) (h1 : rs1 < 16)
    (hf : f < 2) (hi : imm < 256) : (encodeC op rd rs1 f imm).toNat =
      op * 2 ^ 24 + rd * 2 ^ 20 + rs1 * 2 ^ 16 + f * 2 ^ 8 + imm := by
  unfold encodeC; rw [BitVec.toNat_ofNat]; omega

theorem toNat_encodeI {op rd imm : Nat} (ho : op < 256) (hd : rd < 16) (hi : imm < 65536) :
    (encodeI op rd imm).toNat = op * 2 ^ 24 + rd * 2 ^ 20 + imm := by
  unfold encodeI; rw [BitVec.toNat_ofNat]; omega

theorem toNat_encodeQ {op q1 q2 q3 q4 q5 : Nat} (ho : op < 256) (h1 : q1 < 16) (h2 : q2 < 16)
    (h3 : q3 < 16) (h4 : q4 < 16) (h5 : q5 < 16) : (encodeQ op q1 q2 q3 q4 q5).toNat =
      op * 2 ^ 24 + q1 * 2 ^ 20 + q2 * 2 ^ 16 + q3 * 2 ^ 12 + q4 * 2 ^ 8 + q5 * 2 ^ 4 := by
  unfold encodeQ; rw [BitVec.toNat_ofNat]; omega

/-! ## Bounds of the encoded fields -/

theorem xreg_lt (r : XReg) : r.val < 16 := r.isLt

theorem small_lt (r : Fin 8) : r.val < 16 := by omega

theorem ctxBit_lt (f : Ctx) : ctxBit f < 2 := by cases f <;> decide

theorem ctlNumber_lt (c : CtlReg) : ctlNumber c < 256 := by
  cases c with
  | psState i =>
    have h : 0x40 + i.val < 256 := by omega
    exact h
  | _ => simp [ctlNumber]

theorem constNumber_lt (k : FConst) : constNumber k < 256 := by cases k <;> decide

/-! ## What the decoder reads -/

theorem xField_eq {w : CmdWord} {lo : Nat} {r : XReg} (h : field w (lo + 3) lo = r.val) :
    xField w lo = r := by
  unfold xField
  rw [h]
  exact Fin.ext (Nat.mod_eq_of_lt r.isLt)

theorem ctxField_eq {w : CmdWord} {f : Ctx} (h : field w 8 8 = ctxBit f) : ctxField w = f := by
  unfold ctxField
  rw [h]
  cases f <;> rfl

theorem withSmallField_eq {w : CmdWord} {lo : Nat} {r : Fin 8} (h0 : field w (lo + 3) (lo + 3) = 0)
    (h : field w (lo + 2) lo = r.val) (k : Fin 8 → Except DecodeError Instr) :
    withSmallField w lo k = k r := by
  unfold withSmallField
  rw [if_pos h0, h, show Fin.ofNat 8 r.val = r from Fin.ext (Nat.mod_eq_of_lt r.isLt)]

theorem ctlReg_ctlNumber (c : CtlReg) : ctlReg (ctlCtx c) (ctlNumber c) = some c := by
  have h : ∀ i : Fin 16, ctlReg .base (0x40 + i.val) = some (.psState i) := by decide
  cases c with
  | psState i => exact h i
  | _ => rfl

theorem withCtlField_eq {w : CmdWord} {c : CtlReg} (hf : field w 8 8 = ctxBit (ctlCtx c))
    (h : field w 7 0 = ctlNumber c) (k : CtlReg → Except DecodeError Instr) :
    withCtlField w k = k c := by
  unfold withCtlField
  rw [ctxField_eq hf, h, ctlReg_ctlNumber]

theorem withConstField_eq {w : CmdWord} {c : FConst} (h : field w 7 0 = constNumber c)
    (k : FConst → Except DecodeError Instr) : withConstField w k = k c := by
  unfold withConstField
  rw [h]
  cases c <;> rfl

theorem checked_eq {i : Instr} (h : i.wf = true) : checked i = .ok i := if_pos h

end Sys2Proof
end

