-- ==== Sys2Proof/Laws/Operands.lean ====
section
/-! SUPPORT. The point and ECDSA operands against the predicates of `Safety.lean` (rules R44, R200,
R280, R281), and frames. -/

namespace Sys2Proof.Machine

theorem affOf_infinity {p : Nat} {P : PointReg} (h : P.INF = true) : affOf p P = .O := by
  simp [affOf, h]

theorem affOf_finite {p : Nat} {P : PointReg} (h : P.INF = false) :
    affOf p P = .mk (valOf p P.X.toNat) (valOf p P.Y.toNat) := by
  simp [affOf, h]

/-- `PointCheck(P)` passes, and the command goes on with `Aff(P)` (R44, R45). -/
theorem withPoint_eq_ok {α : Type} {c : CurveParams} {P : PointReg} {k : AffPoint → Except Err α}
    {v : α} : withPoint c P k = .ok v ↔ PointPasses c P ∧ k (affOf c.p P) = .ok v := by
  unfold withPoint PointPasses
  cases h : P.INF
  · simp [check_eq_ok, and_assoc]
  · simp [check_eq_ok]

/-- `PointCheck(P)` raises, or the rest of the command does (R44). -/
theorem withPoint_eq_error {α : Type} {c : CurveParams} {P : PointReg} {k : AffPoint → Except Err α}
    {e : Err} : withPoint c P k = .error e ↔
      PointFails c P e ∨ (PointPasses c P ∧ k (affOf c.p P) = .error e) := by
  unfold withPoint PointPasses PointFails
  cases h : P.INF
  · simp only [Bool.false_eq_true, if_false, check_eq_error, Bool.and_eq_true, Bool.and_eq_false_iff,
      decide_eq_true_iff, decide_eq_false_iff_not, Nat.not_lt, false_and, true_and, false_or]
    tauto
  · simp only [if_true, check_eq_error, bne_iff_ne, bne_eq_false_iff_eq, ne_eq, true_and, false_and,
      or_false, Bool.true_eq_false]

theorem withPoint_passes {α : Type} {c : CurveParams} {P : PointReg} (h : PointPasses c P)
    (k : AffPoint → Except Err α) : withPoint c P k = k (affOf c.p P) := by
  cases hk : k (affOf c.p P) with
  | ok v => exact withPoint_eq_ok.2 ⟨h, hk⟩
  | error e => exact withPoint_eq_error.2 (.inr ⟨h, hk⟩)

theorem withPoint_fails {α : Type} {c : CurveParams} {P : PointReg} {e : Err} (h : PointFails c P e)
    (k : AffPoint → Except Err α) : withPoint c P k = .error e := withPoint_eq_error.2 (.inl h)

theorem PointFails.kind {c : CurveParams} {P : PointReg} {e : Err} (h : PointFails c P e) :
    e = .notOnCurve ∨ e = .notInField := by
  rcases h with ⟨-, -, h⟩ | ⟨-, -, h⟩ | ⟨-, -, -, -, h⟩
  · exact .inl h
  · exact .inr h
  · exact .inl h

/-- The ECDSA checks pass (R280). -/
theorem withEcdsa_eq_ok {α : Type} {s : State} {k : CurveParams → AffPoint → Nat → Except Err α}
    {v : α} : withEcdsa s k = .ok v ↔ EcdsaReady s ∧ k s.curve s.G s.Fscalar.P.toNat = .ok v := by
  simp only [withEcdsa, check_eq_ok, withCurve_eq_ok, withPoint_eq_ok, EcdsaReady, State.G,
    Bool.and_eq_true, beq_iff_eq]
  tauto

/-- The ECDSA checks raise, or the rest of the command does (R280). -/
theorem withEcdsa_eq_error {α : Type} {s : State} {k : CurveParams → AffPoint → Nat → Except Err α}
    {e : Err} : withEcdsa s k = .error e →
      e = .noConfig ∨ PointFails s.curve s.generator e ∨
        (EcdsaReady s ∧ k s.curve s.G s.Fscalar.P.toNat = .error e) := by
  simp only [withEcdsa, check_eq_error, withCurve_eq_error, withPoint_eq_error, EcdsaReady, State.G,
    Bool.and_eq_true, beq_iff_eq]
  tauto

theorem withEcdsa_ready {α : Type} {s : State} (h : EcdsaReady s)
    (k : CurveParams → AffPoint → Nat → Except Err α) :
    withEcdsa s k = k s.curve s.G s.Fscalar.P.toNat := by
  obtain ⟨h0, h1, h2, h3, h4⟩ := h
  simp [withEcdsa, withCurve, h0, h1, h2, h3, withPoint_passes h4, State.G]

/-- The frame between a state and itself. -/
theorem Keeps.refl (s : State) (l : List Part) : Keeps s s l := by
  intro q _
  cases q <;> rfl

theorem Keeps.mono {s t : State} {l l' : List Part} (h : Keeps s t l) (hl : l ⊆ l') : Keeps s t l' :=
  fun q hq => h q fun hm => hq (hl hm)

/-- What an operation error or a fault leaves alone (R361, R362). -/
theorem keeps_raise (s : State) (e : Err) : Keeps s (s.raise e) [.err, .fault, .errval] := by
  intro q hq
  cases q <;> simp_all [Part.same]

/-- What `SETMOD` makes of a modulus it accepts is a configured context (R30, R133). -/
theorem configuredCtx_spec {p : Word} (h1 : p.toNat % 2 = 1) (h2 : 3 ≤ p.toNat) :
    (configuredCtx p).Configured := by
  have hp := p.isLt
  have h0 : (0 : Word).toNat < p.toNat := by show 0 < p.toNat; omega
  have hlt : ∀ n, n % p.toNat < 2 ^ 256 := fun n =>
    Nat.lt_trans (Nat.mod_lt n (by omega)) hp
  obtain ⟨n1, n2⟩ := negInv64_spec h1
  obtain ⟨t1, t2, t3⟩ := twoAdicity_spec 256 (p.toNat - 1) (by omega) (by omega)
  have hs : (configuredCtx p).S.toNat = twoAdicity 256 (p.toNat - 1) := by
    simp only [configuredCtx, BitVec.toNat_ofNat]
    exact Nat.mod_eq_of_lt (by omega)
  refine ⟨h1, h2, ?_, ?_, ?_, ?_, ?_, ?_, ?_⟩
  · simp only [configuredCtx, BitVec.toNat_ofNat]
    exact Nat.mod_eq_of_lt (hlt _)
  · simp only [configuredCtx, BitVec.toNat_ofNat]
    exact Nat.mod_eq_of_lt (hlt _)
  · simp only [configuredCtx, BitVec.toNat_ofNat, Nat.mod_eq_of_lt n1]
    exact n2
  · rw [hs]; exact t1
  · rw [hs]; exact t2
  · exact h0
  · exact h0

end Sys2Proof.Machine
end

