-- ==== Sys2Proof/Laws/Outcomes.lean ====
section
/-! SUPPORT. What each command can do, said once: `exec` always answers a next state; either the
command has failed with one of the errors that rule R365 lists for it, or it has had the effect that
its own rule gives (`Effect`). -/

namespace Sys2Proof.Machine

/-- From s the command i has completed with the effect u, up to `ST.ERR <- 0`: the conditions under
which it completes, and what it does then. -/
def Effect (i : Instr) (s u : State) : Prop :=
  match i with
  | .nop => u = s
  | .li ad imm => u = s.setA ad imm
  | .mov xd xs => u = s.setX xd (s.x xs)
  | .setmod f xs => ((s.x xs).toNat % 2 = 1 ∧ 3 ≤ (s.x xs).toNat) ∧
      u = s.setF f (configuredCtx (s.x xs))
  | .cfgw c xs => s.writeCtl c (s.x xs) = .ok u
  | .cfgr xd c => c.present = true ∧ u = s.setX xd (s.readCtl c)
  | .ldle xd aa al => s.ea aa + s.ea al ≤ 65536 ∧ s.ea al = 32 ∧
      u = s.setXNat xd (leNat (s.memRead (s.ea aa) 32))
  | .ldbe xd aa al => s.ea aa + s.ea al ≤ 65536 ∧ s.ea al = 32 ∧
      u = s.setXNat xd (beNat (s.memRead (s.ea aa) 32))
  | .stle aa xs => s.ea aa + 32 ≤ 65536 ∧ u = s.memWrite (s.ea aa) (toLE (s.x xs).toNat 32)
  | .stbe aa xs => s.ea aa + 32 ≤ 65536 ∧ u = s.memWrite (s.ea aa) (toBE (s.x xs).toNat 32)
  | .fldmod f xd aa al => s.ea aa + s.ea al ≤ 65536 ∧ (s.F f).VALID = true ∧
      u = s.setXNat xd (repOf (s.F f).P.toNat
        (leNat (s.memRead (s.ea aa) (s.ea al)) % (s.F f).P.toNat))
  | .uadd xd xs1 xs2 =>
      u = (s.setXNat xd (((s.x xs1).toNat + (s.x xs2).toNat) % 2 ^ 256)).setC
        (carryOut (s.x xs1) (s.x xs2))
  | .usub xd xs1 xs2 =>
      u = (s.setXNat xd (((s.x xs1).toNat + 2 ^ 256 - (s.x xs2).toNat) % 2 ^ 256)).setC
        (borrowOut (s.x xs1) (s.x xs2))
  | .umul xdlo xdhi xs1 xs2 => xdlo ≠ xdhi ∧
      u = (s.setXNat xdlo ((s.x xs1).toNat * (s.x xs2).toNat % 2 ^ 256)).setXNat xdhi
        ((s.x xs1).toNat * (s.x xs2).toNat / 2 ^ 256)
  | .ushl1 xd xs => u = (s.setXNat xd (2 * (s.x xs).toNat % 2 ^ 256)).setC (bitOf (s.x xs) 255)
  | .ushr1 xd xs => u = (s.setXNat xd ((s.x xs).toNat / 2)).setC (bitOf (s.x xs) 0)
  | .ucmp xs1 xs2 => u = (s.setZ (s.x xs1 == s.x xs2)).setC (borrowOut (s.x xs1) (s.x xs2))
  | .ubit xs k => u = s.setT (bitOf (s.x xs) k.toNat)
  | .unumbits xd xs => u = (s.setXNat xd (numBits (s.x xs).toNat)).setZ (s.x xs == 0)
  | .utest xs => u = s.setZ (s.x xs == 0)
  | .ffrom f xd xs => Usable s f [xs] ∧ u = s.setXNat xd (repOf (s.F f).P.toNat (s.x xs).toNat)
  | .finto f xd xs => Usable s f [xs] ∧ u = s.setXNat xd (valOf (s.F f).P.toNat (s.x xs).toNat)
  | .fadd f xd xs1 xs2 => Usable s f [xs1, xs2] ∧
      u = s.setXNat xd (addMod (s.F f).P.toNat (s.x xs1).toNat (s.x xs2).toNat)
  | .fsub f xd xs1 xs2 => Usable s f [xs1, xs2] ∧
      u = s.setXNat xd (subMod (s.F f).P.toNat (s.x xs1).toNat (s.x xs2).toNat)
  | .fneg f xd xs => Usable s f [xs] ∧ u = s.setXNat xd (negMod (s.F f).P.toNat (s.x xs).toNat)
  | .fmul f xd xs1 xs2 => Usable s f [xs1, xs2] ∧
      u = s.setXNat xd (montMul (s.F f).P.toNat (s.x xs1).toNat (s.x xs2).toNat)
  | .fsqr f xd xs => Usable s f [xs] ∧
      u = s.setXNat xd (montMul (s.F f).P.toNat (s.x xs).toNat (s.x xs).toNat)
  | .fdbl f xd xs => Usable s f [xs] ∧
      u = s.setXNat xd (addMod (s.F f).P.toNat (s.x xs).toNat (s.x xs).toNat)
  | .fpow f xd xs1 xs2 => Usable s f [xs1] ∧
      u = s.setXNat xd (montPow (s.F f) (s.x xs1).toNat (s.x xs2).toNat)
  | .finv f xd xs => Usable s f [xs] ∧
      u = s.optionResult xd (inverseRep (s.F f) (s.x xs).toNat)
  | .fsqrt f xd xs => Usable s f [xs] ∧ rootReady (s.F f) = true ∧
      u = s.optionResult xd ((sqrtMod (s.F f) (valOf (s.F f).P.toNat (s.x xs).toNat)).map
        (repOf (s.F f).P.toNat))
  | .fconst f xd k => (s.F f).VALID = true ∧ u = s.setX xd (constantValue (s.F f) k)
  | .pset pd xsx xsy => s.curveOK = true ∧ PointPasses s.curve ⟨s.x xsx, s.x xsy, false⟩ ∧
      u = s.setPt pd ⟨s.x xsx, s.x xsy, false⟩
  | .pinf pd => s.curveOK = true ∧ u = s.setPt pd (match s.CRV.MODEL with
      | .weierstrass => ⟨0, 0, true⟩
      | .edwards => ⟨0, s.Fbase.R1, false⟩
      | .montgomery => ⟨0, 0, true⟩)
  | .pgen pd => s.curveOK = true ∧ PointPasses s.curve s.generator ∧ u = s.setPt pd s.generator
  | .pget xdx xdy ps => xdx ≠ xdy ∧ PointsReady s [ps] ∧
      u = ((s.setX xdx (s.pt ps).X).setX xdy (s.pt ps).Y).setT (!(s.pt ps).INF)
  | .pmov pd ps => u = s.setPt pd (s.pt ps)
  | .padd pd ps1 ps2 => PointsReady s [ps1, ps2] ∧ ∃ Q,
      addPoint s.curve (affOf s.curve.p (s.pt ps1)) (affOf s.curve.p (s.pt ps2)) = .ok Q ∧
        u = s.setPt pd (encPoint s.curve.p Q)
  | .pdbl pd ps => PointsReady s [ps] ∧ ∃ Q,
      dblPoint s.curve (affOf s.curve.p (s.pt ps)) = .ok Q ∧ u = s.setPt pd (encPoint s.curve.p Q)
  | .pneg pd ps => PointsReady s [ps] ∧
      u = s.setPt pd (encPoint s.curve.p (negPoint s.curve (affOf s.curve.p (s.pt ps))))
  | .peq ps1 ps2 => PointsReady s [ps1, ps2] ∧
      u = s.setT (decide (affOf s.curve.p (s.pt ps1) = affOf s.curve.p (s.pt ps2)))
  | .pmul pd ps xs => PointsReady s [ps] ∧ ∃ Q,
      mulPoint s.curve (s.x xs).toNat (affOf s.curve.p (s.pt ps)) = .ok Q ∧
        u = s.setPt pd (encPoint s.curve.p Q)
  | .pisid ps => PointsReady s [ps] ∧
      u = s.setT (decide (affOf s.curve.p (s.pt ps) = identity s.curve))
  | .kinit => u = s.setK (emptyHasher true)
  | .kupdate aa al => s.ea aa + s.ea al ≤ 65536 ∧ s.K.ACTIVE = true ∧
      u = s.setK (absorb s.K (s.memRead (s.ea aa) (s.ea al)))
  | .kfinal aa => s.ea aa + 32 ≤ 65536 ∧ s.K.ACTIVE = true ∧
      u = (s.memWrite (s.ea aa) (finish s.K)).setK (emptyHasher false)
  | .hpair ad aa ab => s.ea aa + 32 ≤ 65536 ∧ s.ea ab + 32 ≤ 65536 ∧ s.ea ad + 32 ≤ 65536 ∧
      u = s.memWrite (s.ea ad) (hashPair (s.memRead (s.ea aa) 32) (s.memRead (s.ea ab) 32))
  | .mverify => s.ea 0 + 32 * s.ea 1 ≤ 65536 ∧ s.ea 4 + 32 ≤ 65536 ∧ s.ea 5 + 32 ≤ 65536 ∧
      u = s.setT (proofRoot (s.memRead (s.ea 5) 32) (s.nodes (s.ea 0) (s.ea 1)) ==
        s.memRead (s.ea 4) 32)
  | .mverifym => s.ea 0 + 32 * s.ea 1 ≤ 65536 ∧ s.ea 2 + s.ea 3 ≤ 65536 ∧ s.ea 4 + 32 ≤ 65536 ∧
      s.ea 5 + 32 * s.ea 6 ≤ 65536 ∧
      u = s.setT (multiVerify (s.nodes (s.ea 0) (s.ea 1)) (s.proofFlags (s.ea 2) (s.ea 3))
        (s.memRead (s.ea 4) 32) (s.nodes (s.ea 5) (s.ea 6)))
  | .esign xdr xds xdv xsk xh => (xdr ≠ xds ∧ xdr ≠ xdv ∧ xds ≠ xdv) ∧ EcdsaReady s ∧
      (1 ≤ (s.x xsk).toNat ∧ (s.x xsk).toNat ≤ s.Fscalar.P.toNat - 1) ∧ ∃ rsv,
      signature s.curve s.G s.Fscalar.P.toNat (s.x xsk).toNat (s.x xh).toNat = .ok rsv ∧
        u = ((s.setXNat xdr rsv.1).setXNat xds rsv.2.1).setXNat xdv rsv.2.2
  | .everify xh xr xs pq => EcdsaReady s ∧ PointPasses s.curve (s.pt pq) ∧
      SigPasses s.Fscalar.P.toNat (s.x xr) (s.x xs) ∧ ∃ b,
      verifies s.curve s.G s.Fscalar.P.toNat (s.x xh).toNat (s.x xr).toNat (s.x xs).toNat
        (affOf s.curve.p (s.pt pq)) = .ok b ∧ u = s.setT b
  | .erecover xd xh xv xr xs => EcdsaReady s ∧ rootReady s.Fbase = true ∧
      SigPasses s.Fscalar.P.toNat (s.x xr) (s.x xs) ∧ ∃ par,
      (((s.x xv).toNat = 0 ∨ (s.x xv).toNat = 27) ∧ par = 0 ∨
        ((s.x xv).toNat = 1 ∨ (s.x xv).toNat = 28) ∧ par = 1) ∧ ∃ addr,
      recoverAddress s.curve s.G s.Fscalar.P.toNat (sqrtMod s.Fbase) (s.x xh).toNat
        (s.x xr).toNat (s.x xs).toNat par = .ok addr ∧ u = s.setXNat xd addr
  | .p2init => s.p2OK = true ∧ u = s.setPS
      { STATE := Vector.ofFn fun k => if k.val < Config.p2rom.T then 0 else slot s.PS.STATE k.val
        IDX := 0
        SQUEEZED := false
        SQIDX := 0 }
  | .p2absorb xs => s.p2OK = true ∧ (s.x xs).toNat < s.Fbase.P.toNat ∧ s.PS.SQUEEZED = false ∧
      u = s.setPS (spongeAbsorb Config.p2rom s.Fbase.P.toNat s.PS (s.x xs))
  | .p2squeeze xd => s.p2OK = true ∧
      u = (s.setX xd (squeezedElement Config.p2rom s.Fbase.P.toNat s.PS)).setPS
        (spongeSqueeze Config.p2rom s.Fbase.P.toNat s.PS)
  | .p2perm => s.p2OK = true ∧ u = s.setPS
      { s.PS with STATE := permuteState Config.p2rom s.Fbase.P.toNat s.PS.STATE }
where
  /-- The checks of rule R170 pass. -/
  Usable (s : State) (f : Ctx) (srcs : List XReg) : Prop :=
    (s.F f).VALID = true ∧ ∀ r ∈ srcs, (s.x r).toNat < (s.F f).P.toNat

/-- How a command ends: it completes with its effect, or it fails and nothing is done. -/
def Ends (i : Instr) (s : State) (r : Except Err State) : Prop :=
  (∀ u, r = .ok u ↔ Effect i s u) ∧ exec i s = conclude s r

theorem withElement_ok_iff {F : FieldCtx} {v : Word} {g : Nat → State} {u : State} :
    (withElement F v fun a => .ok (g a)) = Except.ok (ε := Err) u ↔
      v.toNat < F.P.toNat ∧ u = g v.toNat := by
  rw [withElement_eq_ok, Except.ok.injEq, eq_comm]

/-- The shape of a command with one field operand (R170). -/
theorem fieldUnary_eq (f : Ctx) (xd xs : XReg) (s : State) (op : FieldCtx → Nat → Nat) :
    fieldUnary f xd xs s op = conclude s (withField s f fun F => withElement F (s.x xs) fun a =>
      .ok (s.setXNat xd (op F a))) := rfl

/-- The shape of a command with two field operands (R170). -/
theorem fieldBinary_eq (f : Ctx) (xd xs1 xs2 : XReg) (s : State) (op : FieldCtx → Nat → Nat → Nat) :
    fieldBinary f xd xs1 xs2 s op = conclude s (withField s f fun F => withElement F (s.x xs1) fun a =>
      withElement F (s.x xs2) fun b => .ok (s.setXNat xd (op F a b))) := rfl

theorem fieldUnary_ends (f : Ctx) (xd xs : XReg) (s u : State) (op : FieldCtx → Nat → Nat) :
    (withField s f fun F => withElement F (s.x xs) fun a => .ok (s.setXNat xd (op F a))) =
      Except.ok (ε := Err) u ↔
      Effect.Usable s f [xs] ∧ u = s.setXNat xd (op (s.F f) (s.x xs).toNat) := by
  rw [withField_eq_ok, withElement_ok_iff]
  simp [Effect.Usable, and_assoc]

theorem fieldBinary_ends (f : Ctx) (xd xs1 xs2 : XReg) (s u : State)
    (op : FieldCtx → Nat → Nat → Nat) :
    (withField s f fun F => withElement F (s.x xs1) fun a => withElement F (s.x xs2) fun b =>
      .ok (s.setXNat xd (op F a b))) = Except.ok (ε := Err) u ↔
      Effect.Usable s f [xs1, xs2] ∧
        u = s.setXNat xd (op (s.F f) (s.x xs1).toNat (s.x xs2).toNat) := by
  rw [withField_eq_ok, withElement_eq_ok, withElement_ok_iff]
  simp [Effect.Usable, and_assoc]

theorem sigPasses_iff (n : Nat) (r s : Word) : SigPasses n r s ↔
    (r.toNat ≠ 0 ∧ r.toNat < n) ∧ (s.toNat ≠ 0 ∧ s.toNat < n) ∧ s.toNat ≤ (n - 1) / 2 := by
  unfold SigPasses
  omega

theorem eq_ok_iff {u v : State} : Except.ok (ε := Err) v = .ok u ↔ u = v := by
  rw [Except.ok.injEq, eq_comm]

/-- Every command ends in a next state: with its effect, or with a failure. -/
theorem exec_ends (i : Instr) (s : State) : ∃ r, Ends i s r := by
  cases i with
  | nop | li | mov | uadd | usub | ushl1 | ushr1 | ucmp | ubit | unumbits | utest | pmov | kinit =>
    exact ⟨.ok _, fun u => eq_ok_iff, by rfl⟩
  | setmod f xs =>
    refine ⟨check _ _ (.ok _), fun u => ?_, by rfl⟩
    rw [check_eq_ok, eq_ok_iff]; simp [Effect]
  | cfgw c xs => exact ⟨s.writeCtl c (s.x xs), fun u => Iff.rfl, by rfl⟩
  | cfgr xd c =>
    exact ⟨check c.present .illegalCommand (.ok _),
      fun u => by rw [check_eq_ok, eq_ok_iff]; rfl, by rfl⟩
  | ldle | ldbe =>
    refine ⟨withRange _ _ (check _ _ (.ok _)), fun u => ?_, by rfl⟩
    rw [withRange_eq_ok, check_eq_ok, eq_ok_iff, decide_eq_true_iff]; rfl
  | stle | stbe =>
    exact ⟨withRange _ _ (.ok _), fun u => by rw [withRange_eq_ok, eq_ok_iff]; rfl, by rfl⟩
  | fldmod f xd aa al =>
    refine ⟨withRange _ _ (withField s f fun F => .ok _), fun u => ?_, by rfl⟩
    rw [withRange_eq_ok, withField_eq_ok, eq_ok_iff]; rfl
  | umul =>
    refine ⟨check _ _ (.ok _), fun u => ?_, by rfl⟩
    rw [check_eq_ok, eq_ok_iff, bne_iff_ne]; rfl
  | ffrom | finto | fneg | fsqr | fdbl | fpow =>
    exact ⟨_, fun u => fieldUnary_ends _ _ _ s u _, fieldUnary_eq _ _ _ s _⟩
  | fadd | fsub | fmul => exact ⟨_, fun u => fieldBinary_ends _ _ _ _ s u _, fieldBinary_eq _ _ _ _ s _⟩
  | finv f xd xs =>
    refine ⟨withField s f fun F => withElement F (s.x xs) fun a => .ok _, fun u => ?_, by rfl⟩
    rw [withField_eq_ok, withElement_ok_iff]; simp [Effect, Effect.Usable, and_assoc]
  | fsqrt f xd xs =>
    refine ⟨withField s f fun F => withElement F (s.x xs) fun a => check _ _ (.ok _),
      fun u => ?_, by rfl⟩
    rw [withField_eq_ok, withElement_eq_ok, check_eq_ok, eq_ok_iff]
    simp [Effect, Effect.Usable, and_assoc]
  | fconst f xd k =>
    exact ⟨withField s f fun F => .ok _, fun u => by rw [withField_eq_ok, eq_ok_iff]; rfl, by rfl⟩
  | pset =>
    refine ⟨withCurve s fun c => withPoint c _ fun _ => .ok _, fun u => ?_, by rfl⟩
    rw [withCurve_eq_ok, withPoint_eq_ok, eq_ok_iff]; rfl
  | pgen =>
    refine ⟨withCurve s fun c => withPoint c _ fun _ => .ok _, fun u => ?_, by rfl⟩
    rw [withCurve_eq_ok, withPoint_eq_ok, eq_ok_iff]; rfl
  | pinf =>
    refine ⟨withCurve s fun c => .ok _, fun u => ?_, by rfl⟩
    rw [withCurve_eq_ok, eq_ok_iff]; rfl
  | pget =>
    refine ⟨check _ _ (withCurve s fun c => withPoint c _ fun _ => .ok _), fun u => ?_, by rfl⟩
    rw [check_eq_ok, withCurve_eq_ok, withPoint_eq_ok, eq_ok_iff, bne_iff_ne]
    simp [Effect, PointsReady, and_assoc]
  | padd =>
    refine ⟨withCurve s fun c => withPoint c _ fun P1 => withPoint c _ fun P2 =>
      andThen _ fun Q => .ok _, fun u => ?_, by rfl⟩
    rw [withCurve_eq_ok, withPoint_eq_ok, withPoint_eq_ok, andThen_eq_ok]
    simp only [eq_ok_iff]
    simp [Effect, PointsReady, and_assoc]
  | pdbl | pmul =>
    refine ⟨withCurve s fun c => withPoint c _ fun P => andThen _ fun Q => .ok _,
      fun u => ?_, by rfl⟩
    rw [withCurve_eq_ok, withPoint_eq_ok, andThen_eq_ok]
    simp only [eq_ok_iff]
    simp [Effect, PointsReady, and_assoc]
  | pneg =>
    refine ⟨withCurve s fun c => withPoint c _ fun P => andThen (.ok _) fun Q => .ok _,
      fun u => ?_, by rfl⟩
    rw [withCurve_eq_ok, withPoint_eq_ok, andThen_ok, eq_ok_iff]
    simp [Effect, PointsReady, and_assoc]
  | peq =>
    refine ⟨withCurve s fun c => withPoint c _ fun P1 => withPoint c _ fun P2 => .ok _,
      fun u => ?_, by rfl⟩
    rw [withCurve_eq_ok, withPoint_eq_ok, withPoint_eq_ok, eq_ok_iff]
    simp [Effect, PointsReady, and_assoc]
  | pisid =>
    refine ⟨withCurve s fun c => withPoint c _ fun P => .ok _, fun u => ?_, by rfl⟩
    rw [withCurve_eq_ok, withPoint_eq_ok, eq_ok_iff]
    simp [Effect, PointsReady, and_assoc]
  | kupdate | kfinal =>
    exact ⟨withRange _ _ (check s.K.ACTIVE .spongeSequence (.ok _)),
      fun u => by rw [withRange_eq_ok, check_eq_ok, eq_ok_iff]; rfl, by rfl⟩
  | hpair | mverify =>
    exact ⟨withRange _ _ (withRange _ _ (withRange _ _ (.ok _))),
      fun u => by rw [withRange_eq_ok, withRange_eq_ok, withRange_eq_ok, eq_ok_iff]; rfl, by rfl⟩
  | mverifym =>
    exact ⟨withRange _ _ (withRange _ _ (withRange _ _ (withRange _ _ (.ok _)))),
      fun u => by
        rw [withRange_eq_ok, withRange_eq_ok, withRange_eq_ok, withRange_eq_ok, eq_ok_iff]; rfl,
      by rfl⟩
  | esign =>
    refine ⟨check _ _ (withEcdsa s fun c G n => check _ _ (andThen _ fun rsv => .ok _)),
      fun u => ?_, by rfl⟩
    rw [check_eq_ok, withEcdsa_eq_ok, check_eq_ok, andThen_eq_ok]
    simp only [eq_ok_iff]
    simp [Effect, and_assoc]
  | everify =>
    refine ⟨withEcdsa s fun c G n => withPoint c _ fun Q => sigCheck n _ _ (andThen _ fun t => .ok _),
      fun u => ?_, by rfl⟩
    rw [withEcdsa_eq_ok, withPoint_eq_ok, sigCheck_eq_ok, andThen_eq_ok]
    simp only [eq_ok_iff, Effect, sigPasses_iff, and_assoc]
  | erecover =>
    refine ⟨withEcdsa s fun c G n => check _ _ (sigCheck n _ _ (withParity _ fun par =>
      andThen _ fun addr => .ok _)), fun u => ?_, by rfl⟩
    rw [withEcdsa_eq_ok, check_eq_ok, sigCheck_eq_ok, withParity_eq_ok, andThen_eq_ok, andThen_eq_ok]
    simp only [eq_ok_iff]
    constructor
    · rintro ⟨h1, h2, h3, h4, h5, ⟨hv, addr, h⟩ | ⟨hv, addr, h⟩⟩
      · exact ⟨h1, h2, (sigPasses_iff _ _ _).2 ⟨h3, h4, h5⟩, 0, .inl ⟨hv, rfl⟩, addr, h⟩
      · exact ⟨h1, h2, (sigPasses_iff _ _ _).2 ⟨h3, h4, h5⟩, 1, .inr ⟨hv, rfl⟩, addr, h⟩
    · rintro ⟨h1, h2, h3, par, ⟨hv, rfl⟩ | ⟨hv, rfl⟩, addr, h⟩
      · obtain ⟨h3, h4, h5⟩ := (sigPasses_iff _ _ _).1 h3
        exact ⟨h1, h2, h3, h4, h5, .inl ⟨hv, addr, h⟩⟩
      · obtain ⟨h3, h4, h5⟩ := (sigPasses_iff _ _ _).1 h3
        exact ⟨h1, h2, h3, h4, h5, .inr ⟨hv, addr, h⟩⟩
  | p2init | p2squeeze | p2perm =>
    exact ⟨withSponge s (.ok _), fun u => by rw [withSponge_eq_ok, eq_ok_iff]; rfl, by rfl⟩
  | p2absorb =>
    refine ⟨withSponge s (withElement _ _ fun _ => check _ _ (.ok _)), fun u => ?_, by rfl⟩
    rw [withSponge_eq_ok, withElement_eq_ok, check_eq_ok, eq_ok_iff, Bool.not_eq_true']; rfl

/-- What is known of a failure of a command: rule R365 lists its code for the command, or the command
is ill-formed; `InvalidSignatureS` carries the s of the signature (R361). -/
def FailsWith (i : Instr) (s : State) (e : Err) : Prop :=
  ((errCode e ∈ errorCodes i ∧ i.wf = true) ∨ (i.wf = false ∧ e = .illegalCommand)) ∧
    ∀ v, e = .invalidSignatureS v → ∃ xs, v = s.x xs ∧
      ((∃ xh xr pq, i = .everify xh xr xs pq) ∨ ∃ xd xh xv xr, i = .erecover xd xh xv xr xs)

/-- A plain failure: a code of the table that is not `InvalidSignatureS`. -/
theorem FailsWith.plain {i : Instr} {s : State} {e : Err}
    (h : (errorCodes i).contains (errCode e) = true) (hw : i.wf = true) (hs : errCode e ≠ 0x06) :
    FailsWith i s e :=
  ⟨.inl ⟨List.contains_iff_mem.1 h, hw⟩, fun v hv => absurd (by rw [hv]; rfl) hs⟩

theorem fieldUnary_fails {i : Instr} {f : Ctx} {xs : XReg} {s : State} {e : Err}
    {g : FieldCtx → Nat → State} (hc : errorCodes i = [0x10, 0x03]) (hw : i.wf = true)
    (h : (withField s f fun F => withElement F (s.x xs) fun a => .ok (g F a)) =
      Except.error (α := State) e) : FailsWith i s e := by
  rcases withField_eq_error.1 h with ⟨-, rfl⟩ | ⟨-, h⟩
  · exact .plain (by rw [hc]; rfl) hw (by decide)
  rcases withElement_eq_error.1 h with ⟨-, rfl⟩ | ⟨-, h⟩
  · exact .plain (by rw [hc]; rfl) hw (by decide)
  · cases h

theorem GroupError.plain {i : Instr} {c : CurveParams} {s : State} {e : Err} (h : GroupError c e)
    (h1 : (errorCodes i).contains 0x14 = true) (h2 : (errorCodes i).contains 0x04 = true)
    (hw : i.wf = true) : FailsWith i s e := by
  rcases h with rfl | ⟨rfl, -⟩
  · exact .plain h1 hw (by decide)
  · exact .plain h2 hw (by decide)

theorem PointFails.plain {i : Instr} {c : CurveParams} {P : PointReg} {s : State} {e : Err}
    (h : PointFails c P e) (h1 : (errorCodes i).contains 0x03 = true)
    (h2 : (errorCodes i).contains 0x04 = true) (hw : i.wf = true) : FailsWith i s e := by
  rcases h.kind with rfl | rfl
  · exact .plain h2 hw (by decide)
  · exact .plain h1 hw (by decide)

end Sys2Proof.Machine
end

