-- ==== Sys2Proof/Laws/Failures.lean ====
section
/-! SUPPORT. With which errors each command can fail (rule R365), and the two ways in which every
command ends (rules R360 to R362). -/

namespace Sys2Proof.Machine

theorem writeCtl_failsWith {c : CtlReg} {xs : XReg} {s : State} {e : Err}
    (h : s.writeCtl c (s.x xs) = .error e) : FailsWith (.cfgw c xs) s e := by
  have ill : ∀ {d : CtlReg}, (d.present && d.writable) = false →
      FailsWith (.cfgw d xs) s .illegalCommand := fun hd => ⟨.inr ⟨hd, rfl⟩, fun v hv => by cases hv⟩
  have elem : ∀ {d : CtlReg} {f : Ctx} {k : Except Err State}, (Instr.cfgw d xs).wf = true →
      (∀ e', k ≠ .error e') → withElementOf s f (s.x xs) k = .error e →
      FailsWith (.cfgw d xs) s e := by
    intro d f k hw hk h
    rcases withField_eq_error.1 h with ⟨-, rfl⟩ | ⟨-, h⟩
    · exact .plain rfl hw (by decide)
    rcases withElement_eq_error.1 h with ⟨-, rfl⟩ | ⟨-, h⟩
    · exact .plain rfl hw (by decide)
    · exact absurd h (hk e)
  cases c with
  | gen f | root2 f => exact elem rfl (by simp) h
  | ca | cb | gx | gy => exact elem rfl (by simp) h
  | model =>
    unfold State.writeCtl at h
    simp only at h
    split at h
    · cases h
    · cases h; exact .plain rfl rfl (by decide)
  | cofactor | cofactorInv => cases h
  | psState k =>
    rcases check_eq_error.1 h with ⟨hp, rfl⟩ | ⟨hp, h⟩
    · exact ill (by rw [hp]; rfl)
    have hw : (Instr.cfgw (.psState k) xs).wf = true := by
      show ((CtlReg.psState k).present && true) = true
      rw [hp]; rfl
    rcases withSponge_eq_error.1 h with ⟨-, rfl⟩ | ⟨-, h⟩
    · exact .plain rfl hw (by decide)
    rcases withElement_eq_error.1 h with ⟨-, rfl⟩ | ⟨-, h⟩
    · exact .plain rfl hw (by decide)
    · cases h
  | p | r1 | r2 | inv | s | valid | errval | kActive | kPos | p2T | p2D | p2RF | p2RP | p2P | psIdx
  | psSqueezed | psSqidx =>
    cases h; exact ill rfl

/-- Every command fails only with the errors that rule R365 lists for it. -/
theorem exec_fails (i : Instr) (s : State) :
    ∃ r, exec i s = conclude s r ∧ ∀ e, r = .error e → FailsWith i s e := by
  cases i with
  | nop | li | mov | uadd | usub | ushl1 | ushr1 | ucmp | ubit | unumbits | utest | pmov | kinit =>
    exact ⟨.ok _, by rfl, fun e h => by cases h⟩
  | setmod f xs =>
    refine ⟨check _ _ (.ok _), by rfl, fun e h => ?_⟩
    rcases check_eq_error.1 h with ⟨-, rfl⟩ | ⟨-, h⟩
    · exact .plain rfl rfl (by decide)
    · cases h
  | cfgw c xs => exact ⟨s.writeCtl c (s.x xs), by rfl, fun e h => writeCtl_failsWith h⟩
  | cfgr xd c =>
    refine ⟨check c.present .illegalCommand (.ok _), by rfl, fun e h => ?_⟩
    rcases check_eq_error.1 h with ⟨hc, rfl⟩ | ⟨-, h⟩
    · exact ⟨.inr ⟨hc, rfl⟩, fun v hv => by cases hv⟩
    · cases h
  | ldle | ldbe =>
    refine ⟨withRange _ _ (check _ _ (.ok _)), by rfl, fun e h => ?_⟩
    rcases withRange_eq_error.1 h with ⟨-, rfl⟩ | ⟨-, h⟩
    · exact .plain rfl rfl (by decide)
    rcases check_eq_error.1 h with ⟨-, rfl⟩ | ⟨-, h⟩
    · exact .plain rfl rfl (by decide)
    · cases h
  | stle | stbe =>
    refine ⟨withRange _ _ (.ok _), by rfl, fun e h => ?_⟩
    rcases withRange_eq_error.1 h with ⟨-, rfl⟩ | ⟨-, h⟩
    · exact .plain rfl rfl (by decide)
    · cases h
  | fldmod f xd aa al =>
    refine ⟨withRange _ _ (withField s f fun F => .ok _), by rfl, fun e h => ?_⟩
    rcases withRange_eq_error.1 h with ⟨-, rfl⟩ | ⟨-, h⟩
    · exact .plain rfl rfl (by decide)
    rcases withField_eq_error.1 h with ⟨-, rfl⟩ | ⟨-, h⟩
    · exact .plain rfl rfl (by decide)
    · cases h
  | umul xdlo xdhi xs1 xs2 =>
    refine ⟨check _ _ (.ok _), by rfl, fun e h => ?_⟩
    rcases check_eq_error.1 h with ⟨hc, rfl⟩ | ⟨-, h⟩
    · exact ⟨.inr ⟨hc, rfl⟩, fun v hv => by cases hv⟩
    · cases h
  | ffrom f xd xs | finto f xd xs | fneg f xd xs | fsqr f xd xs | fdbl f xd xs | fpow f xd xs xs2 =>
    exact ⟨_, fieldUnary_eq f xd xs s _, fun e h => fieldUnary_fails rfl rfl h⟩
  | fadd f xd xs1 xs2 | fsub f xd xs1 xs2 | fmul f xd xs1 xs2 =>
    refine ⟨_, fieldBinary_eq _ _ _ _ s _, fun e h => ?_⟩
    rcases withField_eq_error.1 h with ⟨-, rfl⟩ | ⟨-, h⟩
    · exact .plain rfl rfl (by decide)
    rcases withElement_eq_error.1 h with ⟨-, rfl⟩ | ⟨-, h⟩
    · exact .plain rfl rfl (by decide)
    rcases withElement_eq_error.1 h with ⟨-, rfl⟩ | ⟨-, h⟩
    · exact .plain rfl rfl (by decide)
    · cases h
  | finv f xd xs =>
    exact ⟨withField s f fun F => withElement F (s.x xs) fun a => .ok (s.optionResult xd (inverseRep F a)),
      by rfl, fun e h => fieldUnary_fails (g := fun F a => s.optionResult xd (inverseRep F a)) rfl rfl h⟩
  | fsqrt f xd xs =>
    refine ⟨withField s f fun F => withElement F (s.x xs) fun a => check _ _ (.ok _), by rfl,
      fun e h => ?_⟩
    rcases withField_eq_error.1 h with ⟨-, rfl⟩ | ⟨-, h⟩
    · exact .plain rfl rfl (by decide)
    rcases withElement_eq_error.1 h with ⟨-, rfl⟩ | ⟨-, h⟩
    · exact .plain rfl rfl (by decide)
    rcases check_eq_error.1 h with ⟨-, rfl⟩ | ⟨-, h⟩
    · exact .plain rfl rfl (by decide)
    · cases h
  | fconst f xd k =>
    refine ⟨withField s f fun F => .ok _, by rfl, fun e h => ?_⟩
    rcases withField_eq_error.1 h with ⟨-, rfl⟩ | ⟨-, h⟩
    · exact .plain rfl rfl (by decide)
    · cases h
  | pset | pgen =>
    refine ⟨withCurve s fun c => withPoint c _ fun _ => .ok _, by rfl, fun e h => ?_⟩
    rcases withCurve_eq_error.1 h with ⟨-, rfl⟩ | ⟨-, h⟩
    · exact .plain rfl rfl (by decide)
    rcases withPoint_eq_error.1 h with h | ⟨-, h⟩
    · exact h.plain rfl rfl rfl
    · cases h
  | pinf pd =>
    refine ⟨withCurve s fun c => .ok _, by rfl, fun e h => ?_⟩
    rcases withCurve_eq_error.1 h with ⟨-, rfl⟩ | ⟨-, h⟩
    · exact .plain rfl rfl (by decide)
    · cases h
  | pget xdx xdy ps =>
    refine ⟨check (xdx != xdy) .illegalCommand (withCurve s fun c => withPoint c _ fun _ => .ok _),
      by rfl, fun e h => ?_⟩
    rcases check_eq_error.1 h with ⟨hc, rfl⟩ | ⟨hc, h⟩
    · exact ⟨.inr ⟨hc, rfl⟩, fun v hv => by cases hv⟩
    rcases withCurve_eq_error.1 h with ⟨-, rfl⟩ | ⟨-, h⟩
    · exact .plain rfl hc (by decide)
    rcases withPoint_eq_error.1 h with h | ⟨-, h⟩
    · exact h.plain rfl rfl hc
    · cases h
  | padd =>
    refine ⟨withCurve s fun c => withPoint c _ fun P1 => withPoint c _ fun P2 =>
      andThen _ fun Q => .ok _, by rfl, fun e h => ?_⟩
    rcases withCurve_eq_error.1 h with ⟨-, rfl⟩ | ⟨-, h⟩
    · exact .plain rfl rfl (by decide)
    rcases withPoint_eq_error.1 h with h | ⟨-, h⟩
    · exact h.plain rfl rfl rfl
    rcases withPoint_eq_error.1 h with h | ⟨-, h⟩
    · exact h.plain rfl rfl rfl
    rcases andThen_eq_error.1 h with h | ⟨Q, -, h⟩
    · exact (addPoint_error h).plain rfl rfl rfl
    · cases h
  | pdbl =>
    refine ⟨withCurve s fun c => withPoint c _ fun P => andThen _ fun Q => .ok _, by rfl,
      fun e h => ?_⟩
    rcases withCurve_eq_error.1 h with ⟨-, rfl⟩ | ⟨-, h⟩
    · exact .plain rfl rfl (by decide)
    rcases withPoint_eq_error.1 h with h | ⟨-, h⟩
    · exact h.plain rfl rfl rfl
    rcases andThen_eq_error.1 h with h | ⟨Q, -, h⟩
    · exact (dblPoint_error h).plain rfl rfl rfl
    · cases h
  | pmul =>
    refine ⟨withCurve s fun c => withPoint c _ fun P => andThen _ fun Q => .ok _, by rfl,
      fun e h => ?_⟩
    rcases withCurve_eq_error.1 h with ⟨-, rfl⟩ | ⟨-, h⟩
    · exact .plain rfl rfl (by decide)
    rcases withPoint_eq_error.1 h with h | ⟨-, h⟩
    · exact h.plain rfl rfl rfl
    rcases andThen_eq_error.1 h with h | ⟨Q, -, h⟩
    · exact (mulPoint_error h).plain rfl rfl rfl
    · cases h
  | pneg =>
    refine ⟨withCurve s fun c => withPoint c _ fun P => andThen (.ok _) fun Q => .ok _, by rfl,
      fun e h => ?_⟩
    rcases withCurve_eq_error.1 h with ⟨-, rfl⟩ | ⟨-, h⟩
    · exact .plain rfl rfl (by decide)
    rcases withPoint_eq_error.1 h with h | ⟨-, h⟩
    · exact h.plain rfl rfl rfl
    · cases h
  | peq =>
    refine ⟨withCurve s fun c => withPoint c _ fun P1 => withPoint c _ fun P2 => .ok _, by rfl,
      fun e h => ?_⟩
    rcases withCurve_eq_error.1 h with ⟨-, rfl⟩ | ⟨-, h⟩
    · exact .plain rfl rfl (by decide)
    rcases withPoint_eq_error.1 h with h | ⟨-, h⟩
    · exact h.plain rfl rfl rfl
    rcases withPoint_eq_error.1 h with h | ⟨-, h⟩
    · exact h.plain rfl rfl rfl
    · cases h
  | pisid =>
    refine ⟨withCurve s fun c => withPoint c _ fun P => .ok _, by rfl, fun e h => ?_⟩
    rcases withCurve_eq_error.1 h with ⟨-, rfl⟩ | ⟨-, h⟩
    · exact .plain rfl rfl (by decide)
    rcases withPoint_eq_error.1 h with h | ⟨-, h⟩
    · exact h.plain rfl rfl rfl
    · cases h
  | kupdate | kfinal =>
    refine ⟨withRange _ _ (check s.K.ACTIVE .spongeSequence (.ok _)), by rfl, fun e h => ?_⟩
    rcases withRange_eq_error.1 h with ⟨-, rfl⟩ | ⟨-, h⟩
    · exact .plain rfl rfl (by decide)
    rcases check_eq_error.1 h with ⟨-, rfl⟩ | ⟨-, h⟩
    · exact .plain rfl rfl (by decide)
    · cases h
  | hpair | mverify =>
    refine ⟨withRange _ _ (withRange _ _ (withRange _ _ (.ok _))), by rfl, fun e h => ?_⟩
    rcases withRange_eq_error.1 h with ⟨-, rfl⟩ | ⟨-, h⟩
    · exact .plain rfl rfl (by decide)
    rcases withRange_eq_error.1 h with ⟨-, rfl⟩ | ⟨-, h⟩
    · exact .plain rfl rfl (by decide)
    rcases withRange_eq_error.1 h with ⟨-, rfl⟩ | ⟨-, h⟩
    · exact .plain rfl rfl (by decide)
    · cases h
  | mverifym =>
    refine ⟨withRange _ _ (withRange _ _ (withRange _ _ (withRange _ _ (.ok _)))), by rfl,
      fun e h => ?_⟩
    rcases withRange_eq_error.1 h with ⟨-, rfl⟩ | ⟨-, h⟩
    · exact .plain rfl rfl (by decide)
    rcases withRange_eq_error.1 h with ⟨-, rfl⟩ | ⟨-, h⟩
    · exact .plain rfl rfl (by decide)
    rcases withRange_eq_error.1 h with ⟨-, rfl⟩ | ⟨-, h⟩
    · exact .plain rfl rfl (by decide)
    rcases withRange_eq_error.1 h with ⟨-, rfl⟩ | ⟨-, h⟩
    · exact .plain rfl rfl (by decide)
    · cases h
  | esign xdr xds xdv xsk xh =>
    refine ⟨check (xdr != xds && xdr != xdv && xds != xdv) .illegalCommand (withEcdsa s fun c G n =>
      check _ _ (andThen _ fun rsv => .ok _)), by rfl, fun e h => ?_⟩
    rcases check_eq_error.1 h with ⟨hc, rfl⟩ | ⟨hc, h⟩
    · exact ⟨.inr ⟨hc, rfl⟩, fun v hv => by cases hv⟩
    rcases withEcdsa_eq_error h with rfl | h | ⟨-, h⟩
    · exact .plain rfl hc (by decide)
    · exact h.plain rfl rfl hc
    rcases check_eq_error.1 h with ⟨-, rfl⟩ | ⟨-, h⟩
    · exact .plain rfl hc (by decide)
    rcases andThen_eq_error.1 h with h | ⟨_, -, h⟩
    · rcases signature_error h with rfl | h
      · exact .plain rfl hc (by decide)
      · exact h.plain rfl rfl hc
    · cases h
  | everify xh xr xs pq =>
    refine ⟨withEcdsa s fun c G n => withPoint c _ fun Q => sigCheck n _ _ (andThen _ fun t => .ok _),
      by rfl, fun e h => ?_⟩
    rcases withEcdsa_eq_error h with rfl | h | ⟨-, h⟩
    · exact .plain rfl rfl (by decide)
    · exact h.plain rfl rfl rfl
    rcases withPoint_eq_error.1 h with h | ⟨-, h⟩
    · exact h.plain rfl rfl rfl
    rcases sigCheck_eq_error h with rfl | rfl | h
    · exact .plain rfl rfl (by decide)
    · exact ⟨.inl ⟨List.contains_iff_mem.1 rfl, rfl⟩, fun v hv => by
        cases hv; exact ⟨xs, rfl, .inl ⟨_, _, _, rfl⟩⟩⟩
    rcases andThen_eq_error.1 h with h | ⟨_, -, h⟩
    · exact (verifies_error h).plain rfl rfl rfl
    · cases h
  | erecover xd xh xv xr xs =>
    refine ⟨withEcdsa s fun c G n => check _ _ (sigCheck n _ _ (withParity _ fun par =>
      andThen _ fun addr => .ok _)), by rfl, fun e h => ?_⟩
    rcases withEcdsa_eq_error h with rfl | h | ⟨-, h⟩
    · exact .plain rfl rfl (by decide)
    · exact h.plain rfl rfl rfl
    rcases check_eq_error.1 h with ⟨-, rfl⟩ | ⟨-, h⟩
    · exact .plain rfl rfl (by decide)
    rcases sigCheck_eq_error h with rfl | rfl | h
    · exact .plain rfl rfl (by decide)
    · exact ⟨.inl ⟨List.contains_iff_mem.1 rfl, rfl⟩, fun v hv => by
        cases hv; exact ⟨xs, rfl, .inr ⟨_, _, _, _, rfl⟩⟩⟩
    have tail : ∀ par, (andThen (recoverAddress s.curve s.G s.Fscalar.P.toNat (sqrtMod s.Fbase)
        (s.x xh).toNat (s.x xr).toNat (s.x xs).toNat par) fun addr =>
          Except.ok (ε := Err) (s.setXNat xd addr)) = .error e →
        FailsWith (.erecover xd xh xv xr xs) s e := by
      intro par h
      rcases andThen_eq_error.1 h with h | ⟨_, -, h⟩
      · rcases recoverAddress_error h with rfl | h
        · exact .plain rfl rfl (by decide)
        · exact h.plain rfl rfl rfl
      · cases h
    rcases withParity_eq_error h with rfl | h | h
    · exact .plain rfl rfl (by decide)
    · exact tail 0 h
    · exact tail 1 h
  | p2init | p2squeeze | p2perm =>
    refine ⟨withSponge s (.ok _), by rfl, fun e h => ?_⟩
    rcases withSponge_eq_error.1 h with ⟨-, rfl⟩ | ⟨-, h⟩
    · exact .plain rfl rfl (by decide)
    · cases h
  | p2absorb xs =>
    refine ⟨withSponge s (withElement _ _ fun _ => check _ .spongeSequence (.ok _)), by rfl,
      fun e h => ?_⟩
    rcases withSponge_eq_error.1 h with ⟨-, rfl⟩ | ⟨-, h⟩
    · exact .plain rfl rfl (by decide)
    rcases withElement_eq_error.1 h with ⟨-, rfl⟩ | ⟨-, h⟩
    · exact .plain rfl rfl (by decide)
    rcases check_eq_error.1 h with ⟨-, rfl⟩ | ⟨-, h⟩
    · exact .plain rfl rfl (by decide)
    · cases h

theorem errCode_ne_ok (e : Err) : errCode e ≠ okCode := by cases e <;> simp [errCode, okCode]

/-- The two ways in which a command ends: it completes with its effect, or it fails with an error of
rule R365 and nothing is done. -/
theorem exec_cases {i : Instr} {s t : State} (h : exec i s = .next t) :
    (∃ u, Effect i s u ∧ t = u.setERR okCode) ∨ ∃ e, FailsWith i s e ∧ t = s.raise e := by
  obtain ⟨r, hr, hx⟩ := exec_ends i s
  obtain ⟨r', hx', hr'⟩ := exec_fails i s
  rw [hx] at h hx'
  rcases conclude_eq_next.1 h with ⟨u, rfl, rfl⟩ | ⟨e, rfl, rfl⟩
  · exact .inl ⟨u, (hr u).1 rfl, rfl⟩
  · cases r' with
    | ok u =>
      simp only [conclude_error, conclude_ok, Host.Outcome.next.injEq] at hx'
      have := congrArg (fun s : State => s.ST.ERR) hx'
      simp only [State.ST_raise, State.ST_setERR] at this
      exact absurd this (errCode_ne_ok e)
    | error e' =>
      refine .inr ⟨e', hr' e' rfl, ?_⟩
      simpa using hx'

/-- A command whose effect is defined completes with it. -/
theorem exec_of_effect {i : Instr} {s u : State} (h : Effect i s u) :
    exec i s = .next (u.setERR okCode) := by
  obtain ⟨r, hr, hx⟩ := exec_ends i s
  rw [hx, (hr u).2 h]
  rfl

/-- Every command answers a next state. -/
theorem exec_next (i : Instr) (s : State) : ∃ t, exec i s = .next t := by
  obtain ⟨r, -, hx⟩ := exec_ends i s
  rw [hx]
  cases r <;> exact ⟨_, rfl⟩

end Sys2Proof.Machine
end

