-- ==== Sys2Proof/Laws/Hashing.lean ====
section
/-! SUPPORT. The laws of the hasher and of the pair hash (rules R240 to R246, R258). -/

namespace Sys2Proof.Machine

/-- Absorbing a byte does not end or begin hashing (R243). -/
@[simp] theorem ACTIVE_absorbByte (h : Hasher) (b : Byte) : (absorbByte h b).ACTIVE = h.ACTIVE := by
  unfold absorbByte
  dsimp only
  split <;> rfl

@[simp] theorem ACTIVE_absorb (h : Hasher) (bs : List Byte) : (absorb h bs).ACTIVE = h.ACTIVE := by
  induction bs generalizing h with
  | nil => rfl
  | cons b bs ih => exact (ih (absorbByte h b)).trans (ACTIVE_absorbByte h b)

/-- Absorbing one byte string after another is absorbing both together (R243). -/
theorem absorb_append (h : Hasher) (u v : List Byte) : absorb h (u ++ v) = absorb (absorb h u) v :=
  List.foldl_append

/-- The digest has 32 bytes (R243). -/
@[simp] theorem length_finish (h : Hasher) : (finish h).length = 32 := by
  simp [finish]

@[simp] theorem length_keccak256 (bs : List Byte) : (keccak256 bs).length = 32 := length_finish _

/-- A node made from two nodes has 32 bytes (R258). -/
@[simp] theorem length_hashPair (u v : List Byte) : (hashPair u v).length = 32 := by
  unfold hashPair
  split <;> exact length_keccak256 _

/-- The array of nodes has as many nodes as the count says (R78). -/
@[simp] theorem length_nodes (s : State) (ea k : Nat) : (s.nodes ea k).length = k := by
  simp [State.nodes]

end Sys2Proof.Machine
end

