-- ==== Sys2Proof/Laws/Memory.lean ====
section
/-! SUPPORT. The laws of `MEM`: what a byte reads as after a write, and that every memory operation
keeps the canonical form (rules R70 to R80). -/

namespace Sys2Proof.Machine

@[simp] theorem Memory.read_nil (a : Nat) : Memory.read [] a = Memory.unlisted := rfl

theorem Memory.read_cons (k : Nat) (c : Byte) (m : Memory) (a : Nat) :
    Memory.read ((k, c) :: m) a = if a = k then c else m.read a := rfl

/-- A byte below every listed address is unlisted. -/
theorem Memory.read_below {m : Memory} {a : Nat} (h : ∀ c ∈ m, a < c.1) :
    m.read a = Memory.unlisted := by
  induction m with
  | nil => rfl
  | cons c m ih =>
    have hc : a ≠ c.1 := Nat.ne_of_lt (h c List.mem_cons_self)
    rw [Memory.read_cons, if_neg hc, ih fun d hd => h d (List.mem_cons_of_mem _ hd)]

/-- Putting a cell in front of a memory whose addresses lie above it. -/
theorem Memory.read_cell {m : Memory} {a : Nat} (b : Byte) (h : ∀ c ∈ m, a < c.1) (k : Nat) :
    (Memory.cons a b m).read k = if k = a then b else m.read k := by
  unfold Memory.cons
  split
  · rename_i hb
    split
    · rename_i hk
      rw [hk, hb, Memory.read_below h]
    · rfl
  · rfl

/-- The other bytes do not depend on the cell in front, whatever the list. -/
theorem Memory.read_cell_ne (m : Memory) {a k : Nat} (b : Byte) (h : k ≠ a) :
    (Memory.cons a b m).read k = m.read k := by
  unfold Memory.cons
  split
  · rfl
  · rw [Memory.read_cons, if_neg h]

/-- A write leaves every other byte alone, whatever the list (R70, R76). -/
theorem Memory.read_write_ne (m : Memory) {a k : Nat} (b : Byte) (h : k ≠ a) :
    (m.write a b).read k = m.read k := by
  induction m with
  | nil => exact Memory.read_cell_ne [] b h
  | cons c m ih =>
    obtain ⟨j, v⟩ := c
    unfold Memory.write
    split
    · exact Memory.read_cell_ne _ b h
    split
    · rename_i hj
      rw [Memory.read_cell_ne _ b h, Memory.read_cons, if_neg (hj ▸ h)]
    · rw [Memory.read_cons, Memory.read_cons, ih]

/-- What the canonical form says of a list with a first cell. -/
theorem Memory.wf_cons {c : Host.Cell} {m : Memory} (h : Memory.wf (c :: m)) :
    (∀ d ∈ m, c.1 < d.1) ∧ Memory.wf m ∧ c.1 < Config.memSize ∧ c.2 ≠ Memory.unlisted :=
  ⟨(List.pairwise_cons.1 h.1).1,
    ⟨(List.pairwise_cons.1 h.1).2, fun d hd => h.2 d (List.mem_cons_of_mem _ hd)⟩,
    h.2 c List.mem_cons_self⟩

/-- A read after a write to the same byte gives the byte written (R70, R80). -/
theorem Memory.read_write_same {m : Memory} (h : Memory.wf m) (a : Nat) (b : Byte) :
    (m.write a b).read a = b := by
  induction m with
  | nil =>
    show (Memory.cons a b []).read a = b
    rw [Memory.read_cell b (by simp), if_pos rfl]
  | cons c m ih =>
    obtain ⟨j, v⟩ := c
    obtain ⟨hlt, hm, -⟩ := Memory.wf_cons h
    unfold Memory.write
    split
    · rename_i haj
      rw [Memory.read_cell b, if_pos rfl]
      intro d hd
      rcases List.mem_cons.1 hd with rfl | hd
      · exact haj
      · exact Nat.lt_trans haj (hlt d hd)
    split
    · rename_i haj
      subst haj
      rw [Memory.read_cell b hlt, if_pos rfl]
    · rename_i haj
      rw [Memory.read_cons, if_neg haj, ih hm]

/-- What a byte reads as after a write (R70, R80). -/
theorem Memory.read_write {m : Memory} (h : Memory.wf m) (a k : Nat) (b : Byte) :
    (m.write a b).read k = if k = a then b else m.read k := by
  split
  · rename_i hk
    rw [hk, Memory.read_write_same h]
  · rename_i hk
    exact Memory.read_write_ne m b hk

/-- The cells of a memory after a write are the one written and old ones. -/
theorem Memory.mem_write {m : Memory} {a : Nat} {b : Byte} {d : Host.Cell} (h : d ∈ m.write a b) :
    (d = (a, b) ∧ b ≠ Memory.unlisted) ∨ d ∈ m := by
  have cell : ∀ m' : Memory, d ∈ Memory.cons a b m' →
      (d = (a, b) ∧ b ≠ Memory.unlisted) ∨ d ∈ m' := by
    intro m' hd
    unfold Memory.cons at hd
    split at hd
    · exact .inr hd
    · rename_i hb
      rcases List.mem_cons.1 hd with rfl | hd
      · exact .inl ⟨rfl, hb⟩
      · exact .inr hd
  induction m with
  | nil => exact cell [] h
  | cons c m ih =>
    obtain ⟨j, v⟩ := c
    unfold Memory.write at h
    split at h
    · exact cell _ h
    split at h
    · rcases cell _ h with h | h
      · exact .inl h
      · exact .inr (List.mem_cons_of_mem _ h)
    · rcases List.mem_cons.1 h with rfl | h
      · exact .inr List.mem_cons_self
      · rcases ih h with h | h
        · exact .inl h
        · exact .inr (List.mem_cons_of_mem _ h)

/-- A cell in front of a canonical memory with larger addresses. -/
theorem Memory.wf_cell {m : Memory} (hm : Memory.wf m) {a : Nat} (ha : a < Config.memSize)
    (b : Byte) (h : ∀ d ∈ m, a < d.1) : Memory.wf (Memory.cons a b m) := by
  unfold Memory.cons
  split
  · exact hm
  · rename_i hb
    refine ⟨List.pairwise_cons.2 ⟨h, hm.1⟩, ?_⟩
    intro d hd
    rcases List.mem_cons.1 hd with rfl | hd
    · exact ⟨ha, hb⟩
    · exact hm.2 d hd

/-- A write to an address of `MEM` keeps the canonical form. -/
theorem Memory.wf_write {m : Memory} (hm : Memory.wf m) {a : Nat} (ha : a < Config.memSize)
    (b : Byte) : Memory.wf (m.write a b) := by
  induction m with
  | nil => exact Memory.wf_cell hm ha b (by simp)
  | cons c m ih =>
    obtain ⟨j, v⟩ := c
    obtain ⟨hlt, hm', hj⟩ := Memory.wf_cons hm
    unfold Memory.write
    split
    · rename_i haj
      refine Memory.wf_cell hm ha b ?_
      intro d hd
      rcases List.mem_cons.1 hd with rfl | hd
      · exact haj
      · exact Nat.lt_trans haj (hlt d hd)
    split
    · rename_i haj
      subst haj
      exact Memory.wf_cell hm' ha b hlt
    · rename_i h1 h2
      refine ⟨List.pairwise_cons.2 ⟨?_, (ih hm').1⟩, ?_⟩
      · intro d hd
        rcases Memory.mem_write hd with ⟨rfl, -⟩ | hd
        · exact Nat.lt_of_le_of_ne (Nat.le_of_not_lt h1) (Ne.symm h2)
        · exact hlt d hd
      · intro d hd
        rcases List.mem_cons.1 hd with rfl | hd
        · exact hj
        · exact (ih hm').2 d hd

/-- Writing a byte string into `MEM` keeps the canonical form. -/
theorem Memory.wf_writeBytes {m : Memory} (hm : Memory.wf m) (bs : List Byte) (a : Nat)
    (ha : a + bs.length ≤ Config.memSize) : Memory.wf (m.writeBytes a bs) := by
  induction bs generalizing m a with
  | nil => exact hm
  | cons b bs ih =>
    simp only [List.length_cons] at ha
    exact ih (Memory.wf_write hm (by omega) b) (a + 1) (by omega)

/-- Writing a byte string leaves every byte outside its range alone, whatever the list (R76). -/
theorem Memory.read_writeBytes_ne (m : Memory) (bs : List Byte) {a k : Nat}
    (h : k < a ∨ a + bs.length ≤ k) : (m.writeBytes a bs).read k = m.read k := by
  induction bs generalizing m a with
  | nil => rfl
  | cons b bs ih =>
    simp only [List.length_cons] at h
    show ((m.write a b).writeBytes (a + 1) bs).read k = m.read k
    rw [ih (m.write a b) (a := a + 1) (by omega), Memory.read_write_ne m b (by omega)]

/-- What the bytes of the range read as after a byte string is written (R80). -/
theorem Memory.read_writeBytes {m : Memory} (hm : Memory.wf m) (bs : List Byte) {a : Nat}
    (ha : a + bs.length ≤ Config.memSize) {k : Nat} (hk : k < bs.length) :
    (m.writeBytes a bs).read (a + k) = bs[k] := by
  induction bs generalizing m a k with
  | nil => simp at hk
  | cons b bs ih =>
    simp only [List.length_cons] at ha hk
    have hm' : Memory.wf (m.write a b) := Memory.wf_write hm (by omega) b
    show ((m.write a b).writeBytes (a + 1) bs).read (a + k) = _
    cases k with
    | zero =>
      rw [Memory.read_writeBytes_ne _ _ (.inl (by omega)), Nat.add_zero,
        Memory.read_write_same hm]
      rfl
    | succ k =>
      rw [show a + (k + 1) = a + 1 + k by omega, ih hm' (by omega) (by omega)]
      rfl

@[simp] theorem Memory.length_readBytes (m : Memory) (a n : Nat) :
    (m.readBytes a n).length = n := by
  induction n generalizing a with
  | zero => rfl
  | succ n ih => simp [Memory.readBytes, ih]

/-- `MemRead` as a list of single reads (R12). -/
theorem Memory.readBytes_eq_map (m : Memory) (a n : Nat) :
    m.readBytes a n = (List.range n).map fun k => m.read (a + k) := by
  induction n generalizing a with
  | zero => rfl
  | succ n ih =>
    simp only [Memory.readBytes, ih, List.range_succ_eq_map, List.map_cons, List.map_map, Nat.add_zero]
    congr 1
    apply List.map_congr_left
    intro k _
    simp [Nat.add_comm k 1, Nat.add_assoc]

/-- Reading two adjacent ranges one after the other (R12, R245). -/
theorem Memory.readBytes_append (m : Memory) (a n k : Nat) :
    m.readBytes a (n + k) = m.readBytes a n ++ m.readBytes (a + n) k := by
  induction n generalizing a with
  | zero => simp [Memory.readBytes]
  | succ n ih =>
    rw [show n + 1 + k = (n + k) + 1 by omega]
    simp only [Memory.readBytes, List.cons_append, ih, Nat.add_assoc, Nat.add_comm 1 n]

/-- Reset lists nothing, in canonical form. -/
theorem Memory.wf_reset : Memory.wf State.reset.MEM := by
  exact ⟨List.Pairwise.nil, by simp [State.reset, State.powerOn]⟩

end Sys2Proof.Machine
end

