-- ==== Sys2Proof/Laws/Nonce.lean ====
section
/-! SUPPORT. The laws of the nonce function (rules R282, R340 to R342). -/

namespace Sys2Proof.Machine

/-- A digest of SHA-256 has 32 bytes (R340). -/
@[simp] theorem length_sha256 (m : List Byte) : (sha256 m).length = 32 := by
  simp [sha256]

/-- A code of HMAC-SHA-256 has 32 bytes (R341). -/
@[simp] theorem length_hmac (key m : List Byte) : (hmac key m).length = 32 := length_sha256 _

/-- The gathering loop leaves a V of 32 bytes (R342). -/
theorem length_nonceGather (key : List Byte) (qlen : Nat) : ∀ (turns : Nat) (tb V : List Byte),
    V.length = 32 → (nonceGather key qlen turns tb V).2.length = 32 := by
  intro turns
  induction turns with
  | zero => intro tb V h; exact h
  | succ t ih =>
    intro tb V h
    unfold nonceGather
    split
    · exact ih _ _ (length_hmac _ _)
    · exact h

/-- What the search finds lies in `[1, n − 1]` (R342). -/
theorem nonceSearch_range (n qlen : Nat) : ∀ (bound : Nat) (key V : List Byte) (ctr k : Nat),
    nonceSearch n qlen bound key V ctr = some k → 1 ≤ k ∧ k ≤ n - 1 := by
  intro bound
  induction bound with
  | zero => intro key V ctr k h; cases h
  | succ b ih =>
    intro key V ctr k h
    unfold nonceSearch at h
    simp only at h
    split at h
    · rename_i hk
      cases h
      exact ⟨hk.1, hk.2.1⟩
    · exact ih _ _ _ _ h

/-- Every candidate of the default instance lies in `[1, n − 1]` (R342). -/
theorem rfc6979_range {n sk h ctr k : Nat} (hk : rfc6979 n sk h ctr = some k) :
    1 ≤ k ∧ k ≤ n - 1 := by
  unfold rfc6979 at hk
  generalize nonceBound ctr = b at hk
  exact nonceSearch_range _ _ _ _ _ _ _ hk

end Sys2Proof.Machine
end

