-- ==== Sys2Proof/Laws/PerInstr.lean ====
section
/-! SUPPORT. What holds of every command as syntax, one lemma per command. The family `OpcodeField`:
the opcode byte of the command word is the one of its row of the opcode map (rules R101, R105). -/

namespace Sys2Proof.Laws

/-- The opcode of each row (R105). -/
def opcode : Instr → Nat
  | .nop => 0x00
  | .li .. => 0x01
  | .mov .. => 0x02
  | .setmod .. => 0x03
  | .cfgw .. => 0x04
  | .cfgr .. => 0x05
  | .ldle .. => 0x10
  | .ldbe .. => 0x11
  | .stle .. => 0x12
  | .stbe .. => 0x13
  | .fldmod .. => 0x14
  | .uadd .. => 0x20
  | .usub .. => 0x21
  | .umul .. => 0x22
  | .ushl1 .. => 0x23
  | .ushr1 .. => 0x24
  | .ucmp .. => 0x25
  | .ubit .. => 0x26
  | .unumbits .. => 0x27
  | .utest .. => 0x28
  | .ffrom .. => 0x30
  | .finto .. => 0x31
  | .fadd .. => 0x32
  | .fsub .. => 0x33
  | .fneg .. => 0x34
  | .fmul .. => 0x35
  | .fsqr .. => 0x36
  | .fdbl .. => 0x37
  | .fpow .. => 0x38
  | .finv .. => 0x39
  | .fsqrt .. => 0x3A
  | .fconst .. => 0x3B
  | .pset .. => 0x40
  | .pinf .. => 0x41
  | .pgen .. => 0x42
  | .pget .. => 0x43
  | .pmov .. => 0x44
  | .padd .. => 0x45
  | .pdbl .. => 0x46
  | .pneg .. => 0x47
  | .peq .. => 0x48
  | .pmul .. => 0x49
  | .pisid .. => 0x4A
  | .kinit => 0x50
  | .kupdate .. => 0x51
  | .kfinal .. => 0x52
  | .hpair .. => 0x58
  | .mverify => 0x59
  | .mverifym => 0x5A
  | .esign .. => 0x60
  | .everify .. => 0x61
  | .erecover .. => 0x62
  | .p2init => 0x70
  | .p2absorb .. => 0x71
  | .p2squeeze .. => 0x72
  | .p2perm => 0x73

/-- The opcode byte of the command word is its row's (R101, R105). -/
def OpcodeField.Statement (i : Instr) : Prop := (encode i).toNat / 2 ^ 24 = opcode i

/-- The opcode byte of a word of format R. -/
theorem opcode_encodeR {op rd rs1 rs2 f : Nat} (ho : op < 256) (hd : rd < 16) (h1 : rs1 < 16)
    (h2 : rs2 < 16) (hf : f < 2) : (encodeR op rd rs1 rs2 f).toNat / 2 ^ 24 = op := by
  rw [toNat_encodeR ho hd h1 h2 hf]; omega

/-- The opcode byte of a word of format C. -/
theorem opcode_encodeC {op rd rs1 f imm : Nat} (ho : op < 256) (hd : rd < 16) (h1 : rs1 < 16)
    (hf : f < 2) (hi : imm < 256) : (encodeC op rd rs1 f imm).toNat / 2 ^ 24 = op := by
  rw [toNat_encodeC ho hd h1 hf hi]; omega

/-- The opcode byte of a word of format I. -/
theorem opcode_encodeI {op rd imm : Nat} (ho : op < 256) (hd : rd < 16) (hi : imm < 65536) :
    (encodeI op rd imm).toNat / 2 ^ 24 = op := by
  rw [toNat_encodeI ho hd hi]; omega

/-- The opcode byte of a word of format Q. -/
theorem opcode_encodeQ {op q1 q2 q3 q4 q5 : Nat} (ho : op < 256) (h1 : q1 < 16) (h2 : q2 < 16)
    (h3 : q3 < 16) (h4 : q4 < 16) (h5 : q5 < 16) :
    (encodeQ op q1 q2 q3 q4 q5).toNat / 2 ^ 24 = op := by
  rw [toNat_encodeQ ho h1 h2 h3 h4 h5]; omega

/-- The field 0 of a word that does not use it. -/
theorem zero_lt16 : 0 < 16 := by decide

theorem zero_lt2 : 0 < 2 := by decide

theorem OpcodeField.nop : OpcodeField.Statement .nop :=
  opcode_encodeR (by decide) zero_lt16 zero_lt16 zero_lt16 zero_lt2

theorem OpcodeField.li (ad : AReg) (imm : BitVec 16) : OpcodeField.Statement (.li ad imm) :=
  opcode_encodeI (by decide) (small_lt ad) imm.isLt

theorem OpcodeField.mov (xd : XReg) (xs : XReg) : OpcodeField.Statement (.mov xd xs) :=
  opcode_encodeR (by decide) (xreg_lt xd) (xreg_lt xs) zero_lt16 zero_lt2

theorem OpcodeField.setmod (f : Ctx) (xs : XReg) : OpcodeField.Statement (.setmod f xs) :=
  opcode_encodeR (by decide) zero_lt16 (xreg_lt xs) zero_lt16 (ctxBit_lt _)

theorem OpcodeField.cfgw (c : CtlReg) (xs : XReg) : OpcodeField.Statement (.cfgw c xs) :=
  opcode_encodeC (by decide) zero_lt16 (xreg_lt xs) (ctxBit_lt _) (ctlNumber_lt _)

theorem OpcodeField.cfgr (xd : XReg) (c : CtlReg) : OpcodeField.Statement (.cfgr xd c) :=
  opcode_encodeC (by decide) (xreg_lt xd) zero_lt16 (ctxBit_lt _) (ctlNumber_lt _)

theorem OpcodeField.ldle (xd : XReg) (aa : AReg) (al : AReg) :
    OpcodeField.Statement (.ldle xd aa al) :=
  opcode_encodeR (by decide) (xreg_lt xd) (small_lt aa) (small_lt al) zero_lt2

theorem OpcodeField.ldbe (xd : XReg) (aa : AReg) (al : AReg) :
    OpcodeField.Statement (.ldbe xd aa al) :=
  opcode_encodeR (by decide) (xreg_lt xd) (small_lt aa) (small_lt al) zero_lt2

theorem OpcodeField.stle (aa : AReg) (xs : XReg) : OpcodeField.Statement (.stle aa xs) :=
  opcode_encodeR (by decide) zero_lt16 (small_lt aa) (xreg_lt xs) zero_lt2

theorem OpcodeField.stbe (aa : AReg) (xs : XReg) : OpcodeField.Statement (.stbe aa xs) :=
  opcode_encodeR (by decide) zero_lt16 (small_lt aa) (xreg_lt xs) zero_lt2

theorem OpcodeField.fldmod (f : Ctx) (xd : XReg) (aa : AReg) (al : AReg) :
    OpcodeField.Statement (.fldmod f xd aa al) :=
  opcode_encodeR (by decide) (xreg_lt xd) (small_lt aa) (small_lt al) (ctxBit_lt _)

theorem OpcodeField.uadd (xd : XReg) (xs1 : XReg) (xs2 : XReg) :
    OpcodeField.Statement (.uadd xd xs1 xs2) :=
  opcode_encodeR (by decide) (xreg_lt xd) (xreg_lt xs1) (xreg_lt xs2) zero_lt2

theorem OpcodeField.usub (xd : XReg) (xs1 : XReg) (xs2 : XReg) :
    OpcodeField.Statement (.usub xd xs1 xs2) :=
  opcode_encodeR (by decide) (xreg_lt xd) (xreg_lt xs1) (xreg_lt xs2) zero_lt2

theorem OpcodeField.umul (xdlo : XReg) (xdhi : XReg) (xs1 : XReg) (xs2 : XReg) :
    OpcodeField.Statement (.umul xdlo xdhi xs1 xs2) :=
  opcode_encodeQ (by decide) (xreg_lt xdlo) (xreg_lt xdhi) (xreg_lt xs1) (xreg_lt xs2) zero_lt16

theorem OpcodeField.ushl1 (xd : XReg) (xs : XReg) : OpcodeField.Statement (.ushl1 xd xs) :=
  opcode_encodeR (by decide) (xreg_lt xd) (xreg_lt xs) zero_lt16 zero_lt2

theorem OpcodeField.ushr1 (xd : XReg) (xs : XReg) : OpcodeField.Statement (.ushr1 xd xs) :=
  opcode_encodeR (by decide) (xreg_lt xd) (xreg_lt xs) zero_lt16 zero_lt2

theorem OpcodeField.ucmp (xs1 : XReg) (xs2 : XReg) : OpcodeField.Statement (.ucmp xs1 xs2) :=
  opcode_encodeR (by decide) zero_lt16 (xreg_lt xs1) (xreg_lt xs2) zero_lt2

theorem OpcodeField.ubit (xs : XReg) (i : BitVec 8) : OpcodeField.Statement (.ubit xs i) :=
  opcode_encodeC (by decide) zero_lt16 (xreg_lt xs) zero_lt2 i.isLt

theorem OpcodeField.unumbits (xd : XReg) (xs : XReg) : OpcodeField.Statement (.unumbits xd xs) :=
  opcode_encodeR (by decide) (xreg_lt xd) (xreg_lt xs) zero_lt16 zero_lt2

theorem OpcodeField.utest (xs : XReg) : OpcodeField.Statement (.utest xs) :=
  opcode_encodeR (by decide) zero_lt16 (xreg_lt xs) zero_lt16 zero_lt2

theorem OpcodeField.ffrom (f : Ctx) (xd : XReg) (xs : XReg) :
    OpcodeField.Statement (.ffrom f xd xs) :=
  opcode_encodeR (by decide) (xreg_lt xd) (xreg_lt xs) zero_lt16 (ctxBit_lt _)

theorem OpcodeField.finto (f : Ctx) (xd : XReg) (xs : XReg) :
    OpcodeField.Statement (.finto f xd xs) :=
  opcode_encodeR (by decide) (xreg_lt xd) (xreg_lt xs) zero_lt16 (ctxBit_lt _)

theorem OpcodeField.fadd (f : Ctx) (xd : XReg) (xs1 : XReg) (xs2 : XReg) :
    OpcodeField.Statement (.fadd f xd xs1 xs2) :=
  opcode_encodeR (by decide) (xreg_lt xd) (xreg_lt xs1) (xreg_lt xs2) (ctxBit_lt _)

theorem OpcodeField.fsub (f : Ctx) (xd : XReg) (xs1 : XReg) (xs2 : XReg) :
    OpcodeField.Statement (.fsub f xd xs1 xs2) :=
  opcode_encodeR (by decide) (xreg_lt xd) (xreg_lt xs1) (xreg_lt xs2) (ctxBit_lt _)

theorem OpcodeField.fneg (f : Ctx) (xd : XReg) (xs : XReg) :
    OpcodeField.Statement (.fneg f xd xs) :=
  opcode_encodeR (by decide) (xreg_lt xd) (xreg_lt xs) zero_lt16 (ctxBit_lt _)

theorem OpcodeField.fmul (f : Ctx) (xd : XReg) (xs1 : XReg) (xs2 : XReg) :
    OpcodeField.Statement (.fmul f xd xs1 xs2) :=
  opcode_encodeR (by decide) (xreg_lt xd) (xreg_lt xs1) (xreg_lt xs2) (ctxBit_lt _)

theorem OpcodeField.fsqr (f : Ctx) (xd : XReg) (xs : XReg) :
    OpcodeField.Statement (.fsqr f xd xs) :=
  opcode_encodeR (by decide) (xreg_lt xd) (xreg_lt xs) zero_lt16 (ctxBit_lt _)

theorem OpcodeField.fdbl (f : Ctx) (xd : XReg) (xs : XReg) :
    OpcodeField.Statement (.fdbl f xd xs) :=
  opcode_encodeR (by decide) (xreg_lt xd) (xreg_lt xs) zero_lt16 (ctxBit_lt _)

theorem OpcodeField.fpow (f : Ctx) (xd : XReg) (xs1 : XReg) (xs2 : XReg) :
    OpcodeField.Statement (.fpow f xd xs1 xs2) :=
  opcode_encodeR (by decide) (xreg_lt xd) (xreg_lt xs1) (xreg_lt xs2) (ctxBit_lt _)

theorem OpcodeField.finv (f : Ctx) (xd : XReg) (xs : XReg) :
    OpcodeField.Statement (.finv f xd xs) :=
  opcode_encodeR (by decide) (xreg_lt xd) (xreg_lt xs) zero_lt16 (ctxBit_lt _)

theorem OpcodeField.fsqrt (f : Ctx) (xd : XReg) (xs : XReg) :
    OpcodeField.Statement (.fsqrt f xd xs) :=
  opcode_encodeR (by decide) (xreg_lt xd) (xreg_lt xs) zero_lt16 (ctxBit_lt _)

theorem OpcodeField.fconst (f : Ctx) (xd : XReg) (k : FConst) :
    OpcodeField.Statement (.fconst f xd k) :=
  opcode_encodeC (by decide) (xreg_lt xd) zero_lt16 (ctxBit_lt _) (constNumber_lt _)

theorem OpcodeField.pset (pd : PReg) (xsx : XReg) (xsy : XReg) :
    OpcodeField.Statement (.pset pd xsx xsy) :=
  opcode_encodeR (by decide) (small_lt pd) (xreg_lt xsx) (xreg_lt xsy) zero_lt2

theorem OpcodeField.pinf (pd : PReg) : OpcodeField.Statement (.pinf pd) :=
  opcode_encodeR (by decide) (small_lt pd) zero_lt16 zero_lt16 zero_lt2

theorem OpcodeField.pgen (pd : PReg) : OpcodeField.Statement (.pgen pd) :=
  opcode_encodeR (by decide) (small_lt pd) zero_lt16 zero_lt16 zero_lt2

theorem OpcodeField.pget (xdx : XReg) (xdy : XReg) (ps : PReg) :
    OpcodeField.Statement (.pget xdx xdy ps) :=
  opcode_encodeQ (by decide) (xreg_lt xdx) (xreg_lt xdy) (small_lt ps) zero_lt16 zero_lt16

theorem OpcodeField.pmov (pd : PReg) (ps : PReg) : OpcodeField.Statement (.pmov pd ps) :=
  opcode_encodeR (by decide) (small_lt pd) (small_lt ps) zero_lt16 zero_lt2

theorem OpcodeField.padd (pd : PReg) (ps1 : PReg) (ps2 : PReg) :
    OpcodeField.Statement (.padd pd ps1 ps2) :=
  opcode_encodeR (by decide) (small_lt pd) (small_lt ps1) (small_lt ps2) zero_lt2

theorem OpcodeField.pdbl (pd : PReg) (ps : PReg) : OpcodeField.Statement (.pdbl pd ps) :=
  opcode_encodeR (by decide) (small_lt pd) (small_lt ps) zero_lt16 zero_lt2

theorem OpcodeField.pneg (pd : PReg) (ps : PReg) : OpcodeField.Statement (.pneg pd ps) :=
  opcode_encodeR (by decide) (small_lt pd) (small_lt ps) zero_lt16 zero_lt2

theorem OpcodeField.peq (ps1 : PReg) (ps2 : PReg) : OpcodeField.Statement (.peq ps1 ps2) :=
  opcode_encodeR (by decide) zero_lt16 (small_lt ps1) (small_lt ps2) zero_lt2

theorem OpcodeField.pmul (pd : PReg) (ps : PReg) (xs : XReg) :
    OpcodeField.Statement (.pmul pd ps xs) :=
  opcode_encodeR (by decide) (small_lt pd) (small_lt ps) (xreg_lt xs) zero_lt2

theorem OpcodeField.pisid (ps : PReg) : OpcodeField.Statement (.pisid ps) :=
  opcode_encodeR (by decide) zero_lt16 (small_lt ps) zero_lt16 zero_lt2

theorem OpcodeField.kinit : OpcodeField.Statement .kinit :=
  opcode_encodeR (by decide) zero_lt16 zero_lt16 zero_lt16 zero_lt2

theorem OpcodeField.kupdate (aa : AReg) (al : AReg) : OpcodeField.Statement (.kupdate aa al) :=
  opcode_encodeR (by decide) zero_lt16 (small_lt aa) (small_lt al) zero_lt2

theorem OpcodeField.kfinal (aa : AReg) : OpcodeField.Statement (.kfinal aa) :=
  opcode_encodeR (by decide) zero_lt16 (small_lt aa) zero_lt16 zero_lt2

theorem OpcodeField.hpair (ad : AReg) (aa : AReg) (ab : AReg) :
    OpcodeField.Statement (.hpair ad aa ab) :=
  opcode_encodeR (by decide) (small_lt ad) (small_lt aa) (small_lt ab) zero_lt2

theorem OpcodeField.mverify : OpcodeField.Statement .mverify :=
  opcode_encodeR (by decide) zero_lt16 zero_lt16 zero_lt16 zero_lt2

theorem OpcodeField.mverifym : OpcodeField.Statement .mverifym :=
  opcode_encodeR (by decide) zero_lt16 zero_lt16 zero_lt16 zero_lt2

theorem OpcodeField.esign (xdr : XReg) (xds : XReg) (xdv : XReg) (xsk : XReg) (xh : XReg) :
    OpcodeField.Statement (.esign xdr xds xdv xsk xh) :=
  opcode_encodeQ (by decide) (xreg_lt xdr) (xreg_lt xds) (xreg_lt xdv) (xreg_lt xsk) (xreg_lt xh)

theorem OpcodeField.everify (xh : XReg) (xr : XReg) (xs : XReg) (pq : PReg) :
    OpcodeField.Statement (.everify xh xr xs pq) :=
  opcode_encodeQ (by decide) (xreg_lt xh) (xreg_lt xr) (xreg_lt xs) (small_lt pq) zero_lt16

theorem OpcodeField.erecover (xd : XReg) (xh : XReg) (xv : XReg) (xr : XReg) (xs : XReg) :
    OpcodeField.Statement (.erecover xd xh xv xr xs) :=
  opcode_encodeQ (by decide) (xreg_lt xd) (xreg_lt xh) (xreg_lt xv) (xreg_lt xr) (xreg_lt xs)

theorem OpcodeField.p2init : OpcodeField.Statement .p2init :=
  opcode_encodeR (by decide) zero_lt16 zero_lt16 zero_lt16 zero_lt2

theorem OpcodeField.p2absorb (xs : XReg) : OpcodeField.Statement (.p2absorb xs) :=
  opcode_encodeR (by decide) zero_lt16 (xreg_lt xs) zero_lt16 zero_lt2

theorem OpcodeField.p2squeeze (xd : XReg) : OpcodeField.Statement (.p2squeeze xd) :=
  opcode_encodeR (by decide) (xreg_lt xd) zero_lt16 zero_lt16 zero_lt2

theorem OpcodeField.p2perm : OpcodeField.Statement .p2perm :=
  opcode_encodeR (by decide) zero_lt16 zero_lt16 zero_lt16 zero_lt2

end Sys2Proof.Laws
end

