-- ==== Sys2Proof/Laws/Poseidon.lean ====
section
/-! SUPPORT. The laws of the Poseidon2 instance and of the sponge state (rules R300 to R304, R311). -/

namespace Sys2Proof.Config

/-- The field of an instance is a prime field (R300). -/
theorem P2Rom.P_prime (r : P2Rom) : r.P.Prime := by
  unfold P2Rom.P
  split
  · exact r.prime.property
  · exact Nat.prime_three

/-- The constraints on the field of an instance (R300). -/
theorem P2Rom.P_spec (r : P2Rom) : r.P % 2 = 1 ∧ 3 ≤ r.P ∧ r.P < 2 ^ 256 := by
  have h : 3 ≤ r.P ∧ r.P < 2 ^ 256 := by
    unfold P2Rom.P
    split
    · assumption
    · norm_num
  have h2 := r.P_prime.eq_two_or_odd
  omega

/-- The constraint on the width of an instance (R300). -/
theorem P2Rom.T_spec (r : P2Rom) : 2 ≤ r.T ∧ r.T ≤ 16 := by
  have h := r.tMinus2.isLt
  unfold P2Rom.T
  omega

/-- The constraint on the full rounds of an instance (R300). -/
theorem P2Rom.RF_spec (r : P2Rom) : r.RF / 2 + r.RF / 2 = r.RF ∧ 2 ≤ r.RF := by
  unfold P2Rom.RF
  omega

end Sys2Proof.Config

namespace Sys2Proof.Machine

open Sys2Proof.Config (P2Rom)

/-- `P2OK()` says that context 0 is configured with the field of the instance (R301). -/
theorem p2OK_iff (s : State) :
    s.p2OK = true ↔ s.Fbase.VALID = true ∧ s.Fbase.P.toNat = Config.p2rom.P := by
  simp [State.p2OK]

/-- The slots of the permuted state (R311). -/
theorem slot_permuteState (rom : P2Rom) {p : Nat} (hp : 0 < p) (hp' : p ≤ 2 ^ 256)
    (st : Vector Word 16) (i : Nat) :
    (slot (permuteState rom p st) i).toNat =
      if i < rom.T then
        repOf p ((permute rom p ((List.range rom.T).map fun i => valOf p (slot st i).toNat)).getD i 0)
      else (slot st i).toNat := by
  have hT := rom.T_spec.2
  by_cases hi : i < 16
  · have hs : slot (permuteState rom p st) i = (permuteState rom p st)[i] := dif_pos hi
    rw [hs]
    unfold permuteState
    simp only [Vector.getElem_ofFn]
    split
    · rw [BitVec.toNat_ofNat]
      exact Nat.mod_eq_of_lt (Nat.lt_of_lt_of_le (repOf_lt hp _) hp')
    · rfl
  · rw [if_neg (by omega)]
    unfold slot
    rw [dif_neg hi, dif_neg hi]

end Sys2Proof.Machine
end

