-- ==== Sys2Proof/Tests/Slice0.lean ====
section
/-! SUPPORT. Tests. The expected values are the specification's (95_test_vectors.md, or the rule named)
or worked out by hand from the rule named. The theorems that begin with `witness_` show that the
hypotheses of the obligation of that name can be met. -/

namespace Sys2Proof.Tests

set_option Elab.async false

open Sys2Proof.Machine

/-! ## Well-formedness (R106): each check refuses an ill-formed term -/

theorem test_wf_refuses_read_only_register : (Instr.cfgw (.p .base) 1).wf = false := by decide

theorem test_wf_refuses_absent_register (i : Fin 16) (h : Config.p2rom.T ≤ i.val) (x : XReg) :
    (Instr.cfgr x (.psState i)).wf = false ∧ (Instr.cfgw (.psState i) x).wf = false := by
  have h' : (CtlReg.psState i).present = false := decide_eq_false (by omega)
  exact ⟨h', by rw [Instr.wf, h']; rfl⟩

theorem test_wf_refuses_equal_umul_destinations : (Instr.umul 3 3 0 1).wf = false := by decide

theorem test_wf_refuses_equal_pget_destinations : (Instr.pget 3 3 0).wf = false := by decide

theorem test_wf_refuses_equal_esign_destinations : (Instr.esign 4 4 6 1 2).wf = false ∧
    (Instr.esign 4 5 4 1 2).wf = false ∧ (Instr.esign 4 5 5 1 2).wf = false := by decide

theorem test_wf_accepts : (Instr.cfgw .model 1).wf = true ∧ (Instr.umul 2 3 0 1).wf = true ∧
    (Instr.pget 3 4 0).wf = true ∧ (Instr.esign 4 5 6 1 2).wf = true := by decide

/-! ## Decoding: words laid out from rule R101 and the *Encoding* line of each command's rule, one per
command, with different numbers in the fields -/

theorem test_decode_system : decode 0x00000000 = .ok .nop ∧ decode 0x0150BEEF = .ok (.li 5 0xBEEF) ∧
    decode 0x02A30000 = .ok (.mov 10 3) ∧ decode 0x03070100 = .ok (.setmod .scalar 7) ∧
    decode 0x04040014 = .ok (.cfgw .gy 4) ∧ decode 0x04040106 = .ok (.cfgw (.root2 .scalar) 4) ∧
    decode 0x05A00103 = .ok (.cfgr 10 (.inv .scalar)) ∧ decode 0x05900020 = .ok (.cfgr 9 .errval) := by
  decide

theorem test_decode_memory : decode 0x10501000 = .ok (.ldle 5 0 1) ∧
    decode 0x11E67000 = .ok (.ldbe 14 6 7) ∧ decode 0x12029000 = .ok (.stle 2 9) ∧
    decode 0x1303C000 = .ok (.stbe 3 12) ∧ decode 0x14876100 = .ok (.fldmod .scalar 8 7 6) := by
  decide

theorem test_decode_bigint : decode 0x20123000 = .ok (.uadd 1 2 3) ∧
    decode 0x21456000 = .ok (.usub 4 5 6) ∧ decode 0x22789A00 = .ok (.umul 7 8 9 10) ∧
    decode 0x23BC0000 = .ok (.ushl1 11 12) ∧ decode 0x24DE0000 = .ok (.ushr1 13 14) ∧
    decode 0x250F1000 = .ok (.ucmp 15 1) ∧ decode 0x260200FE = .ok (.ubit 2 254) ∧
    decode 0x27340000 = .ok (.unumbits 3 4) ∧ decode 0x28050000 = .ok (.utest 5) := by
  decide

theorem test_decode_field : decode 0x30120100 = .ok (.ffrom .scalar 1 2) ∧
    decode 0x31340000 = .ok (.finto .base 3 4) ∧ decode 0x32567100 = .ok (.fadd .scalar 5 6 7) ∧
    decode 0x3389A000 = .ok (.fsub .base 8 9 10) ∧ decode 0x34BC0100 = .ok (.fneg .scalar 11 12) ∧
    decode 0x35DEF000 = .ok (.fmul .base 13 14 15) ∧ decode 0x36120100 = .ok (.fsqr .scalar 1 2) ∧
    decode 0x37340000 = .ok (.fdbl .base 3 4) ∧ decode 0x38567100 = .ok (.fpow .scalar 5 6 7) ∧
    decode 0x39890000 = .ok (.finv .base 8 9) ∧ decode 0x3AAB0100 = .ok (.fsqrt .scalar 10 11) ∧
    decode 0x3BC00102 = .ok (.fconst .scalar 12 .gen) := by
  decide

theorem test_decode_curve : decode 0x401AB000 = .ok (.pset 1 10 11) ∧
    decode 0x41200000 = .ok (.pinf 2) ∧ decode 0x42300000 = .ok (.pgen 3) ∧
    decode 0x43894000 = .ok (.pget 8 9 4) ∧ decode 0x44560000 = .ok (.pmov 5 6) ∧
    decode 0x45701000 = .ok (.padd 7 0 1) ∧ decode 0x46230000 = .ok (.pdbl 2 3) ∧
    decode 0x47450000 = .ok (.pneg 4 5) ∧ decode 0x48067000 = .ok (.peq 6 7) ∧
    decode 0x4912F000 = .ok (.pmul 1 2 15) ∧ decode 0x4A030000 = .ok (.pisid 3) := by
  decide

theorem test_decode_hash : decode 0x50000000 = .ok .kinit ∧ decode 0x51024000 = .ok (.kupdate 2 4) ∧
    decode 0x52050000 = .ok (.kfinal 5) ∧ decode 0x58312000 = .ok (.hpair 3 1 2) ∧
    decode 0x59000000 = .ok .mverify ∧ decode 0x5A000000 = .ok .mverifym := by
  decide

theorem test_decode_ecdsa : decode 0x60ABC120 = .ok (.esign 10 11 12 1 2) ∧
    decode 0x61245100 = .ok (.everify 2 4 5 1) ∧ decode 0x62726450 = .ok (.erecover 7 2 6 4 5) := by
  decide

theorem test_decode_poseidon : decode 0x70000000 = .ok .p2init ∧ decode 0x710B0000 = .ok (.p2absorb 11) ∧
    decode 0x72200000 = .ok (.p2squeeze 2) ∧ decode 0x73000000 = .ok .p2perm := by
  decide

/-- R101, R102, R106, R107: words that are no command. -/
theorem test_decode_refuses : decode 0x06000000 = .error .reservedOpcode ∧
    decode 0xFF000000 = .error .reservedOpcode ∧ decode 0x00000001 = .error .nonzeroField ∧
    decode 0x02A30001 = .error .nonzeroField ∧ decode 0x42800000 = .error .registerField ∧
    decode 0x04040008 = .error .controlNumber ∧ decode 0x04040110 = .error .controlNumber ∧
    decode 0x3BC00003 = .error .constantSelector ∧ decode 0x22330100 = .error .constraint ∧
    decode 0x04040000 = .error .constraint := by
  decide

/-! ## Small states -/

/-- The state in which a step or command ends. -/
def done : Outcome → State
  | .next t => t
  | _ => State.reset

/-- Both contexts configured, with the moduli p and n. -/
def fields (p n : Nat) : State :=
  (State.reset.setF .base (configuredCtx (BitVec.ofNat 256 p))).setF .scalar
    (configuredCtx (BitVec.ofNat 256 n))

/-- The representative of v. -/
def rep (p v : Nat) : Word := BitVec.ofNat 256 (repOf p v)

/-- A configured curve with coefficients A, B and generator `(gx, gy)` over p, with the group order n
(logical values). -/
def curve (m : CurveModel) (p A B gx gy n : Nat) : State :=
  (fields p n).setCRV ⟨m, rep p A, rep p B, rep p gx, rep p gy, 0, 0⟩

/-- The point register value of a finite point (logical values). -/
def point (p x y : Nat) : PointReg := ⟨rep p x, rep p y, false⟩

/-- A state whose memory holds `01 02 … 20` from 0x10 on (95_test_vectors.md, 3.1). -/
def memState : State :=
  (((State.reset.memWrite 0x10 ((List.range 32).map fun i => BitVec.ofNat 8 (i + 1))).setA 0 0x10).setA
    1 32).setA 2 0x100

/-- The curve `y² = x³ + 2` over 7 with the generator `(5, 1)` of order 3. -/
def w7 : State := curve .weierstrass 7 0 2 5 1 3

/-- The curve `y² = x³ + 2x + 4` over 7 with the generator `(0, 2)` and 15 in the place of the group
order. -/
def w15 : State := curve .weierstrass 7 2 4 0 2 15

/-- The curve `y² = x³` over the composite modulus 15, with the generator `(0, 0)`. -/
def w15c : State := curve .weierstrass 15 0 0 0 0 7

/-- The curve `x² + y² = 1 + 3x²y²` over 7 with the generator `(1, 0)`. -/
def e7 : State := curve .edwards 7 1 3 1 0 3

/-- The curve `y² = x³ + x² + x` over 7 with the generator `(0, 0)`. -/
def m7 : State := curve .montgomery 7 1 1 0 0 3

/-- secp256k1's two moduli (95_test_vectors.md, P0), with `rep(2)`, `rep(3)`, `rep(p − 1)` and 0 in
`x1`, `x2`, `x4` and `x5` (3.3). -/
def secp : State :=
  ((((fields 0xFFFFFFFFFFFFFFFFFFFFFFFFFFFFFFFFFFFFFFFFFFFFFFFFFFFFFFFEFFFFFC2F
    0xFFFFFFFFFFFFFFFFFFFFFFFFFFFFFFFEBAAEDCE6AF48A03BBFD25E8CD0364141).setX 1 0x2000007A2).setX 2
    0x300000B73).setX 4 0xFFFFFFFFFFFFFFFFFFFFFFFFFFFFFFFFFFFFFFFFFFFFFFFFFFFFFFFDFFFFF85E)

/-- `M = 2^256 − 1` in `x1`, 1 in `x2`. -/
def maxState : State := (State.reset.setX 1 (BitVec.allOnes 256)).setX 2 1

/-- The state after a command. -/
def after (i : Instr) (s : State) : State := done (exec i s)

/-! ## One step on small states -/

/-- R130, R360: the outcome code becomes 0. -/
theorem test_nop : (after .nop (State.reset.raise .noConfig)).ST.ERR = 0 := by decide

/-- R131 example. -/
theorem test_li : (after (.li 1 0xFFFF) State.reset).a 1 = 0xFFFF := by decide

theorem test_mov : (after (.mov 5 1) maxState).x 5 = BitVec.allOnes 256 := by decide

/-- 95_test_vectors.md, 3.1, `SETMOD.n` of 101. -/
theorem test_setmod : ((after (.setmod .scalar 7) (State.reset.setX 7 101)).F .scalar) =
    ⟨101, true, 37, 56, 0xC5B3F5DC83CD4E93, 2, 0, 0⟩ := by decide +kernel

/-- 95_test_vectors.md, 3.1, `SETMOD.n` of an even value: a valid context stays valid. -/
theorem test_setmod_even : (after (.setmod .scalar 7) ((fields 7 101).setX 7 4)).ST.ERR = 0x11 ∧
    ((after (.setmod .scalar 7) ((fields 7 101).setX 7 4)).F .scalar).P = 101 := by decide +kernel

/-- 95_test_vectors.md, 3.1, `CFGW`. -/
theorem test_cfgw : (after (.cfgw .model 11) (State.reset.setX 11 3)).ST.ERR = 0x11 ∧
    (after (.cfgw .model 11) (State.reset.setX 11 2)).CRV.MODEL = .montgomery ∧
    (after (.cfgw .ca 11) ((fields 101 15).setX 11 101)).ST.ERR = 0x03 ∧
    (after (.cfgw .ca 11) ((fields 101 15).setX 11 100)).CRV.CA = 100 := by decide +kernel

/-- 95_test_vectors.md, 3.1: a read-only register faults, even though the word does not decode. -/
theorem test_cfgw_read_only : (after (.cfgw (.p .base) 11) State.reset).status = 0x8002 := by
  decide +kernel

/-- 95_test_vectors.md, 3.1, `CFGR`. -/
theorem test_cfgr : (after (.cfgr 10 (.inv .base)) (fields 101 15)).x 10 = 0xC5B3F5DC83CD4E93 ∧
    (after (.cfgr 10 (.p .scalar)) (fields 101 15)).x 10 = 15 := by decide +kernel

/-- 95_test_vectors.md, 3.1. -/
theorem test_ldle : (after (.ldle 0 0 1) memState).x 0 =
    0x201F1E1D1C1B1A191817161514131211100F0E0D0C0B0A090807060504030201 := by decide +kernel

theorem test_ldbe : (after (.ldbe 1 0 1) memState).x 1 =
    0x0102030405060708090A0B0C0D0E0F101112131415161718191A1B1C1D1E1F20 := by decide +kernel

/-- 95_test_vectors.md, 3.1: the range is checked before the length. -/
theorem test_ldbe_errors : (after (.ldbe 6 0 1) (memState.setA 1 33)).ST.ERR = 0x01 ∧
    (after (.ldbe 0 0 1) (memState.setA 0 0xFFE0)).ST.ERR = 0 ∧
    (after (.ldbe 0 0 1) (memState.setA 0 0xFFE1)).status = 0x8102 ∧
    (after (.ldbe 0 0 1) ((memState.setA 0 0xFFFF).setA 1 2)).status = 0x8102 := by decide +kernel

/-- 95_test_vectors.md, 3.1. -/
theorem test_stle : (after (.stle 2 1) (memState.setX 1
    0x0102030405060708090A0B0C0D0E0F101112131415161718191A1B1C1D1E1F20)).memRead 0x100 2 =
      [0x20, 0x1F] := by decide +kernel

theorem test_stbe : (after (.stbe 2 1) (memState.setX 1
    0x0102030405060708090A0B0C0D0E0F101112131415161718191A1B1C1D1E1F20)).memRead 0x11E 2 =
      [0x1F, 0x20] := by decide +kernel

/-- 95_test_vectors.md, 3.1, `FLDMOD` of the bytes `2c 01` modulo 101, and of no byte. -/
theorem test_fldmod : let s := (((fields 101 15).memWrite 0x300 [0x2C, 0x01]).setA 0 0x300).setA 1 2
    (after (.fldmod .base 8 0 1) s).x 8 = 91 ∧
    (after (.fldmod .base 8 0 1) (s.setA 1 0)).x 8 = 0 := by decide +kernel

/-- 95_test_vectors.md, 3.2. -/
theorem test_uadd : (after (.uadd 3 1 2) maxState).x 3 = 0 ∧
    (after (.uadd 3 1 2) maxState).ST.C = true := by decide +kernel

theorem test_usub : (after (.usub 3 0 2) maxState).x 3 = BitVec.allOnes 256 ∧
    (after (.usub 3 0 2) maxState).ST.C = true := by decide +kernel

theorem test_umul : (after (.umul 3 4 1 1) maxState).x 3 = 1 ∧
    (after (.umul 3 4 1 1) maxState).x 4 = BitVec.allOnes 256 - 1 := by decide +kernel

/-- 95_test_vectors.md, 3.2: the sources are read before any write. -/
theorem test_umul_in_place :
    let s := (State.reset.setX 1 3).setX 2 5
    (after (.umul 1 2 1 2) s).x 1 = 15 ∧ (after (.umul 1 2 1 2) s).x 2 = 0 := by decide +kernel

theorem test_ushl1 : (after (.ushl1 3 1) maxState).x 3 = BitVec.allOnes 256 - 1 ∧
    (after (.ushl1 3 1) maxState).ST.C = true := by decide +kernel

theorem test_ushr1 : (after (.ushr1 3 2) maxState).x 3 = 0 ∧
    (after (.ushr1 3 2) maxState).ST.C = true := by decide +kernel

theorem test_ucmp : (after (.ucmp 0 1) maxState).ST.Z = false ∧
    (after (.ucmp 0 1) maxState).ST.C = true ∧ (after (.ucmp 1 1) maxState).ST.Z = true := by
  decide +kernel

/-- 95_test_vectors.md, 3.2, `UBIT` of `0x25`. -/
theorem test_ubit : (after (.ubit 1 5) (State.reset.setX 1 0x25)).ST.T = true ∧
    (after (.ubit 1 6) (State.reset.setX 1 0x25)).ST.T = false := by decide +kernel

theorem test_unumbits : (after (.unumbits 3 1) maxState).x 3 = 256 ∧
    (after (.unumbits 3 0) maxState).x 3 = 0 ∧ (after (.unumbits 3 0) maxState).ST.Z = true := by
  decide +kernel

theorem test_utest : (after (.utest 0) maxState).ST.Z = true ∧
    (after (.utest 1) maxState).ST.Z = false := by decide +kernel

/-- 95_test_vectors.md, 3.3. -/
theorem test_ffrom : (after (.ffrom .base 3 7) (secp.setX 7 2)).x 3 = 0x2000007A2 ∧
    (after (.ffrom .base 3 7) (secp.setX 7 secp.Fbase.P)).ST.ERR = 0x03 := by decide +kernel

theorem test_finto : (after (.finto .base 3 1) secp).x 3 = 2 := by decide +kernel

theorem test_fadd : (after (.fadd .base 3 4 1) secp).x 3 = 0x1000003D1 ∧
    (after (.fadd .base 2 0 1) State.reset).status = 0x1000 := by decide +kernel

theorem test_fsub : (after (.fsub .base 3 5 4) secp).x 3 = 0x1000003D1 := by decide +kernel

theorem test_fneg : (after (.fneg .base 3 4) secp).x 3 = 0x1000003D1 ∧
    (after (.fneg .base 3 5) secp).x 3 = 0 := by decide +kernel

theorem test_fmul : (after (.fmul .base 3 1 2) secp).x 3 = 0x6000016E6 := by decide +kernel

theorem test_fsqr : (after (.fsqr .base 3 2) secp).x 3 = 0x900002259 := by decide +kernel

theorem test_fdbl : (after (.fdbl .base 3 2) secp).x 3 = 0x6000016E6 := by decide +kernel

theorem test_fpow : (after (.fpow .base 3 1 7) (secp.setX 7 10)).x 3 = 0x400000F4400 ∧
    (after (.fpow .base 3 5 6) secp).x 3 = 0x1000003D1 := by decide +kernel

theorem test_finv : (after (.finv .base 3 1) secp).x 3 = BitVec.ofNat 256 (2 ^ 255) ∧
    (after (.finv .base 3 1) secp).ST.T = true := by decide +kernel

theorem test_finv_of_zero :
    (after (.finv .base 3 5) ((secp.setX 3 9).setT true)).x 3 = 9 ∧
    (after (.finv .base 3 5) ((secp.setX 3 9).setT true)).status = 0 := by decide +kernel

/-- 95_test_vectors.md, 3.3, Tonelli–Shanks modulo 13 with `ROOT2 = rep(8) = 11`: the root of 3 is 9,
and 2 has none. -/
theorem test_fsqrt :
    let s := (((fields 13 13).setF .base { configuredCtx 13 with ROOT2 := 11 }).setX 1
      (rep 13 3)).setX 2 (rep 13 2)
    (after (.fsqrt .base 3 1) s).x 3 = rep 13 9 ∧ (after (.fsqrt .base 3 1) s).ST.T = true ∧
    (after (.fsqrt .base 3 2) s).ST.T = false := by decide +kernel

theorem test_fsqrt_needs_root2 : (after (.fsqrt .base 3 1) (fields 13 13)).ST.ERR = 0x10 ∧
    (after (.fsqrt .base 3 1) ((fields 13 13).setX 1 13)).ST.ERR = 0x03 := by decide +kernel

theorem test_fconst : (after (.fconst .base 3 .one) secp).x 3 = 0x1000003D1 ∧
    (after (.fconst .scalar 3 .one) secp).x 3 = 0x14551231950B75FC4402DA1732FC9BEBF := by
  decide +kernel

/-- The curve `y² = x³ + 7` over 13 with `P = (7, 5)` as generator and in `pt0` (95_test_vectors.md,
3.4). -/
def w13 : State := (curve .weierstrass 13 0 7 7 5 7).setPt 0 ⟨8, 2, false⟩

/-- The curve `x² + y² = 1 + 2x²y²` over 13 with `P = (4, 4)` in `pt1` (95_test_vectors.md, 3.4). -/
def e13 : State := (curve .edwards 13 1 2 4 4 7).setPt 1 ⟨12, 12, false⟩

/-- The curve `y² = x³ + 7x² + x` over 13 with `P = (2, 5)` in `pt0` (95_test_vectors.md, 3.4). -/
def m13 : State := (curve .montgomery 13 7 1 2 5 7).setPt 0 ⟨6, 2, false⟩

theorem test_pset : (after (.pset 3 1 2) ((w13.setX 1 8).setX 2 2)).pt 3 = ⟨8, 2, false⟩ ∧
    (after (.pset 3 1 2) ((w13.setX 1 3).setX 2 3)).ST.ERR = 0x04 ∧
    (after (.pset 3 1 2) ((w13.setX 1 13).setX 2 3)).ST.ERR = 0x03 := by decide +kernel

theorem test_pinf : (after (.pinf 6) e13).pt 6 = ⟨0, 3, false⟩ ∧
    (after (.pinf 0) w13).pt 0 = ⟨0, 0, true⟩ := by decide +kernel

theorem test_pgen : (after (.pgen 5) w13).pt 5 = ⟨8, 2, false⟩ ∧
    (after (.pgen 0) State.reset).status = 0x1000 := by decide +kernel

theorem test_pget : (after (.pget 4 5 0) w13).x 4 = 8 ∧ (after (.pget 4 5 0) w13).x 5 = 2 ∧
    (after (.pget 4 5 0) w13).ST.T = true := by decide +kernel

theorem test_pget_infinity : let s := (w13.setX 4 9).setT true
    (after (.pget 4 5 7) s).x 4 = 0 ∧ (after (.pget 4 5 7) s).ST.T = false := by decide +kernel

/-- 95_test_vectors.md, 3.4: no check. -/
theorem test_pmov : (after (.pmov 7 0) (w13.setPt 0 ⟨1, 1, false⟩)).pt 7 = ⟨1, 1, false⟩ := by
  decide +kernel

/-- 95_test_vectors.md, 3.4: `P + P = (8, 5)` and `(8, 5) + (7, 5) = (11, 8)`. -/
theorem test_padd : (after (.padd 3 0 0) w13).pt 3 = ⟨11, 2, false⟩ ∧
    (after (.padd 3 1 0) (w13.setPt 1 ⟨11, 2, false⟩)).pt 3 = ⟨7, 11, false⟩ := by decide +kernel

/-- 95_test_vectors.md, 3.4: a denominator that is 0 on an incomplete twisted Edwards curve. -/
theorem test_padd_arith_domain :
    (after (.padd 3 1 2) (((curve .edwards 13 1 3 0 1 7).setPt 1 (point 13 4 6)).setPt 2
      (point 13 4 6))).ST.ERR = 0x14 := by decide +kernel

theorem test_pdbl : (after (.pdbl 3 0) w13).pt 3 = ⟨11, 2, false⟩ ∧
    (after (.pdbl 3 1) e13).pt 3 = ⟨3, 0, false⟩ ∧ (after (.pdbl 3 0) m13).pt 3 = ⟨3, 9, false⟩ := by
  decide +kernel

theorem test_pdbl_errors : (after (.pdbl 5 7) e13).ST.ERR = 0x04 ∧
    (after (.pdbl 5 0) w15c).ST.ERR = 0 ∧
    (after (.pdbl 5 0) (w15c.setPt 0 (point 15 6 6))).ST.ERR = 0x14 := by decide +kernel

theorem test_pneg : (after (.pneg 4 1) e13).pt 4 = ⟨1, 12, false⟩ ∧
    (after (.pneg 4 0) m13).pt 4 = ⟨6, 11, false⟩ := by decide +kernel

theorem test_peq : (after (.peq 0 1) (w13.setPt 1 ⟨8, 2, false⟩)).ST.T = true ∧
    (after (.peq 0 1) (w13.setPt 1 ⟨8, 11, false⟩)).ST.T = false := by decide +kernel

/-- 95_test_vectors.md, 3.4: `3·P = (11, 8)`, `7·P = O`, and `5·P = (9, 9)` on the Edwards curve. -/
theorem test_pmul : (after (.pmul 3 0 1) (w13.setX 1 3)).pt 3 = ⟨7, 11, false⟩ ∧
    (after (.pmul 3 0 1) (w13.setX 1 7)).pt 3 = ⟨0, 0, true⟩ ∧
    (after (.pmul 3 1 2) (e13.setX 2 5)).pt 3 = ⟨1, 1, false⟩ := by decide +kernel

theorem test_pisid : (after (.pisid 6) (e13.setPt 6 ⟨0, 3, false⟩)).ST.T = true ∧
    (after (.pisid 7) w13).ST.T = true ∧ (after (.pisid 0) w13).ST.T = false := by decide +kernel

/-- R244: `KINIT` discards what was absorbed. -/
theorem test_kinit : (after .kinit (State.reset.setK (absorb (emptyHasher true) [1]))).K =
    emptyHasher true := by decide +kernel

/-- R245, 95_test_vectors.md, 3.6. -/
theorem test_kupdate : (after (.kupdate 0 1) ((memState.setA 1 3).setK (emptyHasher true))).K.POS = 3 ∧
    (after (.kupdate 0 1) memState).ST.ERR = 0x12 ∧
    (after (.kupdate 0 1) (memState.setA 0 0xFFF0)).status = 0x8102 := by decide +kernel

/-- 95_test_vectors.md, 3.6: the digest of the empty string, its first and last bytes. -/
theorem test_kfinal : let s := after (.kfinal 2) (memState.setK (emptyHasher true))
    s.memRead 0x100 4 = [0xC5, 0xD2, 0x46, 0x01] ∧ s.memRead 0x11E 3 = [0xA4, 0x70, 0] := by
  decide +kernel

/-- A 32-byte node with the given big-endian value. -/
def node (v : Nat) : List Byte := toBE v 32

/-- The nodes `keccak("a")`, `keccak("b")` and `H(a,b)` at 0x1000, 0x1020 and 0x1100, and one flag byte
`02` at 0x80 (95_test_vectors.md, P2). -/
def merkleState : State :=
  (((State.reset.memWrite 0x1000
    (node 0x3ac225168df54212a25c1c01fd35bebfea408fdac2e31ddd6f80a4bbf9a5f1cb)).memWrite 0x1020
    (node 0xb5553de315e0edf504d9150af82dafa5c4667fa618ed0a6f19c69b41166c5510)).memWrite 0x1100
    (node 0x805b21d846b189efaeb0377d6bb0d201b3872a363e607c25088f025b0c6ae1f8)).memWrite 0x80 [2]

/-- 95_test_vectors.md, P2, `HPAIR`, with the operands swapped. -/
theorem test_hpair : (after (.hpair 3 2 1) (((merkleState.setA 1 0x1000).setA 2 0x1020).setA 3
    0x1200)).memRead 0x1200 32 = merkleState.memRead 0x1100 32 := by decide +kernel

/-- R262: the leaf `keccak("a")` with the proof `[keccak("b")]`. -/
theorem test_mverify : (after .mverify ((((merkleState.setA 0 0x1020).setA 1 1).setA 4 0x1100).setA 5
    0x1000)).ST.T = true := by decide +kernel

/-- 95_test_vectors.md, 3.7: the empty proof. -/
theorem test_mverify_empty : (after .mverify ((merkleState.setA 4 0x1000).setA 5 0x1000)).ST.T = true ∧
    (after .mverify ((merkleState.setA 4 0x1100).setA 5 0x1000)).ST.T = false := by decide +kernel

/-- R263: two leaves, no proof, one flag that is not zero. -/
theorem test_mverifym : (after .mverifym (((((merkleState.setA 2 0x80).setA 3 1).setA 4 0x1100).setA 5
    0x1000).setA 6 2)).ST.T = true := by decide +kernel

/-- 95_test_vectors.md, 3.7: a wrong number of flags, or nothing at all, is a false result. -/
theorem test_mverifym_malformed : (after .mverifym (merkleState.setA 3 1)).status = 0 ∧
    (after .mverifym (merkleState.setT true)).status = 0 := by decide +kernel

/-- 95_test_vectors.md, 3.8, with the group order 3. -/
theorem test_esign_errors : (after (.esign 4 5 6 1 2) w7).ST.ERR = 0x13 ∧
    (after (.esign 4 5 6 1 2) (w7.setX 1 3)).ST.ERR = 0x13 ∧
    (after (.esign 4 5 6 1 2) State.reset).ST.ERR = 0x10 ∧
    (after (.esign 4 4 6 1 2) w7).status = 0x8002 := by decide +kernel

/-- R287 on the curve `y² = x³ + 2` over 7: the signature `r = 2`, `s = 1` of the hash 0 by the key 1 is
the one of the nonces 1 and 2, worked out by hand from rule R285. -/
theorem test_everify : let s := ((w7.setX 4 2).setX 5 1).setPt 1 (point 7 5 1)
    (after (.everify 3 4 5 1) s).ST.T = true ∧ (after (.everify 3 4 5 0) s).status = 0 ∧
    (after (.everify 3 4 5 1) (s.setX 4 1)).ST.T = false := by decide +kernel

/-- 95_test_vectors.md, 3.8, with the group order 3: `s = 2` is high. -/
theorem test_everify_high_s :
    let s := after (.everify 3 4 5 1) (((w7.setX 4 2).setX 5 2).setPt 1 (point 7 5 1))
    s.ST.ERR = 0x06 ∧ s.ERRVAL = 2 := by decide +kernel

/-- R286 on the curve `y² = x³ + 2x + 4` over 7 with the order 15: `r = s = 1`, the hash 0 and the
parity 0 recover the key `(1, 0)`; its address is the end of the Keccak-256 digest of `1 ‖ 0`. -/
theorem test_erecover : (after (.erecover 7 2 6 4 5) ((w15.setX 4 1).setX 5 1)).x 7 =
    0x83fb069b10426056ef8ca54750cb9bb552a59e7d := by decide +kernel

/-- R286: a recovery id of 2, an r not below p, an r without a root, a parity that does not exist, an r
not prime to the order. -/
theorem test_erecover_errors : let s := (w15.setX 4 1).setX 5 1
    (after (.erecover 7 2 6 4 5) (s.setX 6 2)).ST.ERR = 0x05 ∧
    (after (.erecover 7 2 6 4 5) (s.setX 4 7)).ST.ERR = 0x05 ∧
    (after (.erecover 7 2 6 4 5) (s.setX 4 4)).ST.ERR = 0x05 ∧
    (after (.erecover 7 2 6 4 5) (s.setX 6 28)).ST.ERR = 0x05 ∧
    (after (.erecover 7 2 6 4 5) (s.setX 4 3)).ST.ERR = 0x05 ∧
    (after (.erecover 7 2 6 4 5) (s.setX 5 8)).ERRVAL = 8 := by decide +kernel

/-- `2^31 − 1` is a prime, by the test of Lucas and Lehmer. -/
theorem prime_toy : Nat.Prime 2147483647 := by
  have h := lucas_lehmer_sufficiency 31 (by norm_num) (by norm_num)
  rwa [show mersenne 31 = 2147483647 by norm_num [mersenne]] at h

/-- The toy instance of rule R315. -/
def toyRom : Config.P2Rom where
  prime := ⟨2147483647, prime_toy⟩
  tMinus2 := 1
  degree := .five
  rfHalfMinus1 := 1
  rp := 3
  rawMatExt := fun i j => if i = j then 2 else 1
  rawDiagM1 := fun i => if i = 2 then 2 else 1
  rawRc := fun r i => 100 * r + i + 1

/-- R315. -/
theorem test_p2perm : permute toyRom 2147483647 [0, 0, 0] = [1558454706, 1540558246, 74398194] ∧
    permute toyRom 2147483647 [1, 2, 3] = [803292380, 884324491, 1860735652] := by decide +kernel

/-- 95_test_vectors.md, 3.9: absorbing 1 and 2 (stored values). -/
def toyAbsorbed : Sponge :=
  spongeAbsorb toyRom 2147483647 (spongeAbsorb toyRom 2147483647 Sponge.clear 256) 512

theorem test_p2absorb : (spongeAbsorb toyRom 2147483647 Sponge.clear 256).IDX = 1 ∧
    toyAbsorbed.IDX = 0 ∧ slot toyAbsorbed.STATE 0 = 1529163019 ∧
    slot toyAbsorbed.STATE 2 = 383049441 := by decide +kernel

/-- 95_test_vectors.md, 3.9: three squeezes, the third of which permutes. -/
theorem test_p2squeeze : let q := spongeSqueeze toyRom 2147483647
    squeezedElement toyRom 2147483647 toyAbsorbed = 1384037931 ∧
    squeezedElement toyRom 2147483647 (q toyAbsorbed) = 383049441 ∧
    squeezedElement toyRom 2147483647 (q (q toyAbsorbed)) = 655552444 ∧
    (q (q (q toyAbsorbed))).SQIDX = 1 := by decide +kernel

/-- 95_test_vectors.md, 3.9: a fresh sponge is squeezed without a permutation; nothing is configured
after reset. -/
theorem test_p2init : squeezedElement toyRom 2147483647 Sponge.clear = 0 ∧
    (spongeSqueeze toyRom 2147483647 Sponge.clear).SQIDX = 1 ∧
    (after .p2init State.reset).status = 0x1000 := by decide +kernel

/-! ## Steps of the machine -/

/-- 95_test_vectors.md, 3.10: an illegal word, an ignored command, the reset. -/
theorem test_step_fault :
    let s := done (step (State.reset.withFetchWord 32 0x06000000))
    let t := done (step (s.withFetchWord 32 0x01000005))
    s.status = 0x8002 ∧ t.a 0 = 0 ∧ t.status = 0x8002 ∧
    (done (step { t with pending := [.reset] })).status = 0 := by decide +kernel

/-- R60, R109: a legal word runs, and the host reads the status. -/
theorem test_step_runs : let s := done (step (State.reset.withFetchWord 32 0x01000005))
    s.a 0 = 5 ∧ s.pending = [] ∧
    (done (step { s with pending := [.readStatus] })).reply = .status 0 := by decide +kernel

/-- R60, R80: the host writes and reads a byte, at the last address. -/
theorem test_step_host_memory :
    let s := done (step { State.reset with pending := [.hostWrite 0xFFFF 7, .hostRead 0xFFFF] })
    (done (step s)).reply = .byte 7 ∧ (done (step s)).pending = [] := by decide +kernel

/-! ## Witnesses -/

/-- A command answers the state that the tests call its result. -/
theorem exec_after (i : Instr) (s : State) : exec i s = .next (after i s) := by
  obtain ⟨t, h⟩ := exec_next i s
  simp [after, done, h]

theorem fields_ready {p n : Nat} (hp : p % 2 = 1) (hp3 : 3 ≤ p) (hp' : p < 2 ^ 256)
    (hn : n % 2 = 1) (hn3 : 3 ≤ n) (hn' : n < 2 ^ 256) (f : Ctx) : Ready (fields p n) f := by
  have h : ∀ q, q < 2 ^ 256 → (BitVec.ofNat 256 q).toNat = q := fun q hq => by
    rw [BitVec.toNat_ofNat, Nat.mod_eq_of_lt hq]
  cases f
  · exact ⟨rfl, configuredCtx_spec (by rw [h p hp']; exact hp) (by rw [h p hp']; exact hp3)⟩
  · exact ⟨rfl, configuredCtx_spec (by rw [h n hn']; exact hn) (by rw [h n hn']; exact hn3)⟩

theorem curve_ready (m : CurveModel) {p n : Nat} (A B x y : Nat) (hp : p % 2 = 1) (hp3 : 3 ≤ p)
    (hp' : p < 2 ^ 256) (hn : n % 2 = 1) (hn3 : 3 ≤ n) (hn' : n < 2 ^ 256) (f : Ctx) :
    Ready (curve m p A B x y n) f := by
  have h := fields_ready hp hp3 hp' hn hn3 hn' f
  cases f <;> exact h

theorem w13_ready (f : Ctx) : Ready w13 f := by
  have h := curve_ready .weierstrass (p := 13) (n := 7) 0 7 7 5 (by decide) (by decide) (by decide)
    (by decide) (by decide) (by decide) f
  cases f <;> exact h

theorem e13_ready (f : Ctx) : Ready e13 f := by
  have h := curve_ready .edwards (p := 13) (n := 7) 1 2 4 4 (by decide) (by decide) (by decide)
    (by decide) (by decide) (by decide) f
  cases f <;> exact h

theorem m13_ready (f : Ctx) : Ready m13 f := by
  have h := curve_ready .montgomery (p := 13) (n := 7) 7 1 2 5 (by decide) (by decide) (by decide)
    (by decide) (by decide) (by decide) f
  cases f <;> exact h

theorem w7_ready (f : Ctx) : Ready w7 f :=
  curve_ready .weierstrass 0 2 5 1 (by decide) (by decide) (by decide) (by decide) (by decide)
    (by decide) f

theorem w15_ready (f : Ctx) : Ready w15 f :=
  curve_ready .weierstrass 2 4 0 2 (by decide) (by decide) (by decide) (by decide) (by decide)
    (by decide) f

theorem w15c_ready (f : Ctx) : Ready w15c f :=
  curve_ready .weierstrass 0 0 0 0 (by decide) (by decide) (by decide) (by decide) (by decide)
    (by decide) f

/-- Context 0 configured for the engine's Poseidon2 instance, with 1 in `x1` and the modulus in
`x2`. -/
def p2State : State :=
  ((State.reset.setF .base (configuredCtx (BitVec.ofNat 256 Config.p2rom.P))).setX 1 1).setX 2
    (BitVec.ofNat 256 Config.p2rom.P)

theorem p2State_P : p2State.Fbase.P.toNat = Config.p2rom.P := by
  show (BitVec.ofNat 256 Config.p2rom.P).toNat = _
  rw [BitVec.toNat_ofNat, Nat.mod_eq_of_lt Config.p2rom.P_spec.2.2]

theorem p2State_ok : p2State.p2OK = true := (p2OK_iff _).2 ⟨rfl, p2State_P⟩

theorem clear_wf : Sponge.wf Sponge.clear := by
  have hT := Config.p2rom.T_spec
  have hP := Config.p2rom.P_spec
  have h0 : ∀ i, slot Sponge.clear.STATE i = 0 := by
    intro i; simp [slot, Sponge.clear]
  refine ⟨?_, by simp [Sponge.clear], ?_, fun _ => rfl, fun i _ => ?_, fun i _ => h0 i⟩
  · show 0 + 2 ≤ _; omega
  · show 0 + 1 ≤ _; omega
  · rw [h0]; simp; omega

/-- A sponge that has been squeezed once. -/
def squeezed : Sponge := { Sponge.clear with SQUEEZED := true, SQIDX := 1 }

theorem squeezed_wf : Sponge.wf squeezed := by
  have hT := Config.p2rom.T_spec
  exact ⟨clear_wf.idx_le, fun _ => ⟨Nat.le_refl 1, rfl⟩, by show 1 + 1 ≤ _; omega, by simp [squeezed],
    clear_wf.element, clear_wf.absent⟩

/-- The engine with the given commands to come. -/
def issuing (w : CmdWord) : State := State.reset.withFetchWord 32 w.toNat

theorem witness_StepRunsDecodedCommand : (issuing 0x0150BEEF).pending = [.issue 0x0150BEEF] ∧
    (issuing 0x0150BEEF).ST.FAULT = false ∧ decode 0x0150BEEF = .ok (.li 5 0xBEEF) ∧
    State.reset.pending = [] := by decide +kernel

theorem opcode_all (i : Instr) : Laws.OpcodeField.Statement i := by
  cases i with
  | nop => exact Laws.OpcodeField.nop
  | li ad imm => exact Laws.OpcodeField.li _ _
  | mov xd xs => exact Laws.OpcodeField.mov _ _
  | setmod f xs => exact Laws.OpcodeField.setmod _ _
  | cfgw c xs => exact Laws.OpcodeField.cfgw _ _
  | cfgr xd c => exact Laws.OpcodeField.cfgr _ _
  | ldle xd aa al => exact Laws.OpcodeField.ldle _ _ _
  | ldbe xd aa al => exact Laws.OpcodeField.ldbe _ _ _
  | stle aa xs => exact Laws.OpcodeField.stle _ _
  | stbe aa xs => exact Laws.OpcodeField.stbe _ _
  | fldmod f xd aa al => exact Laws.OpcodeField.fldmod _ _ _ _
  | uadd xd xs1 xs2 => exact Laws.OpcodeField.uadd _ _ _
  | usub xd xs1 xs2 => exact Laws.OpcodeField.usub _ _ _
  | umul xdlo xdhi xs1 xs2 => exact Laws.OpcodeField.umul _ _ _ _
  | ushl1 xd xs => exact Laws.OpcodeField.ushl1 _ _
  | ushr1 xd xs => exact Laws.OpcodeField.ushr1 _ _
  | ucmp xs1 xs2 => exact Laws.OpcodeField.ucmp _ _
  | ubit xs i => exact Laws.OpcodeField.ubit _ _
  | unumbits xd xs => exact Laws.OpcodeField.unumbits _ _
  | utest xs => exact Laws.OpcodeField.utest _
  | ffrom f xd xs => exact Laws.OpcodeField.ffrom _ _ _
  | finto f xd xs => exact Laws.OpcodeField.finto _ _ _
  | fadd f xd xs1 xs2 => exact Laws.OpcodeField.fadd _ _ _ _
  | fsub f xd xs1 xs2 => exact Laws.OpcodeField.fsub _ _ _ _
  | fneg f xd xs => exact Laws.OpcodeField.fneg _ _ _
  | fmul f xd xs1 xs2 => exact Laws.OpcodeField.fmul _ _ _ _
  | fsqr f xd xs => exact Laws.OpcodeField.fsqr _ _ _
  | fdbl f xd xs => exact Laws.OpcodeField.fdbl _ _ _
  | fpow f xd xs1 xs2 => exact Laws.OpcodeField.fpow _ _ _ _
  | finv f xd xs => exact Laws.OpcodeField.finv _ _ _
  | fsqrt f xd xs => exact Laws.OpcodeField.fsqrt _ _ _
  | fconst f xd k => exact Laws.OpcodeField.fconst _ _ _
  | pset pd xsx xsy => exact Laws.OpcodeField.pset _ _ _
  | pinf pd => exact Laws.OpcodeField.pinf _
  | pgen pd => exact Laws.OpcodeField.pgen _
  | pget xdx xdy ps => exact Laws.OpcodeField.pget _ _ _
  | pmov pd ps => exact Laws.OpcodeField.pmov _ _
  | padd pd ps1 ps2 => exact Laws.OpcodeField.padd _ _ _
  | pdbl pd ps => exact Laws.OpcodeField.pdbl _ _
  | pneg pd ps => exact Laws.OpcodeField.pneg _ _
  | peq ps1 ps2 => exact Laws.OpcodeField.peq _ _
  | pmul pd ps xs => exact Laws.OpcodeField.pmul _ _ _
  | pisid ps => exact Laws.OpcodeField.pisid _
  | kinit => exact Laws.OpcodeField.kinit
  | kupdate aa al => exact Laws.OpcodeField.kupdate _ _
  | kfinal aa => exact Laws.OpcodeField.kfinal _
  | hpair ad aa ab => exact Laws.OpcodeField.hpair _ _ _
  | mverify => exact Laws.OpcodeField.mverify
  | mverifym => exact Laws.OpcodeField.mverifym
  | esign xdr xds xdv xsk xh => exact Laws.OpcodeField.esign _ _ _ _ _
  | everify xh xr xs pq => exact Laws.OpcodeField.everify _ _ _ _
  | erecover xd xh xv xr xs => exact Laws.OpcodeField.erecover _ _ _ _ _
  | p2init => exact Laws.OpcodeField.p2init
  | p2absorb xs => exact Laws.OpcodeField.p2absorb _
  | p2squeeze xd => exact Laws.OpcodeField.p2squeeze _
  | p2perm => exact Laws.OpcodeField.p2perm

theorem witness_IllegalWordsRaiseIllegalCommand :
    ((issuing 0x0F000000).pending = [.issue 0x0F000000] ∧
      (issuing 0x0F000000).ST.FAULT = false ∧ ReservedOpcode (0x0F000000 / 2 ^ 24)) ∧
    (ReservedOpcode 0x06 ∧ ReservedOpcode 0x74 ∧ ReservedOpcode 0xFF) ∧
    (∀ i : Instr, i.wf = true → encode i ≠ 0x00000001) ∧
    decode 0x50000000 = .ok .kinit := by
  refine ⟨⟨by decide +kernel, by decide +kernel, by unfold ReservedOpcode; decide⟩,
    by unfold ReservedOpcode; decide, fun i _ h => ?_, by decide⟩
  have ho := opcode_all i
  unfold Laws.OpcodeField.Statement at ho
  rw [h] at ho
  cases i <;> first | exact absurd h (by decide) | (simp only [Laws.opcode] at ho; exact absurd ho (by decide))

theorem witness_DecodeOfEncode : (Instr.esign 4 5 6 1 2).wf = true ∧ (Instr.nop).wf = true := by
  decide

theorem witness_DecodedWordIsTheEncoding : decode 0x60ABC120 = .ok (.esign 10 11 12 1 2) := by decide

theorem witness_HostReadsAndWrites :
    ({ State.reset with pending := [.readStatus] } : State).nextMove = some .readStatus ∧
    ({ State.reset with pending := [.hostRead 0xFFFF] } : State).nextMove = some (.hostRead 0xFFFF) ∧
    ({ State.reset with pending := [.hostWrite 0xFFFF 7] } : State).nextMove =
      some (.hostWrite 0xFFFF 7) ∧ Memory.wf State.reset.MEM := by decide +kernel

theorem witness_ResetRule : ({ memState with pending := [.reset] } : State).pending = [.reset] ∧
    State.powerOn memState.MEM = State.powerOn memState.MEM := by decide +kernel

theorem witness_SuccessEffect : exec .nop memState = .next (after .nop memState) ∧
    (after .nop memState).ST.ERR = 0x00 := ⟨exec_after _ _, by decide +kernel⟩

/-- The signature `r = 2`, `s = 2` on `w7`. -/
def highS : State := ((w7.setX 4 2).setX 5 2).setPt 1 (point 7 5 1)

theorem witness_OperationErrorEffect :
    (exec (.everify 3 4 5 1) highS = .next (after (.everify 3 4 5 1) highS) ∧
      (after (.everify 3 4 5 1) highS).ST.ERR = 0x06) ∧
    exec .p2init State.reset = .next (after .p2init State.reset) ∧
      (after .p2init State.reset).ST.ERR = 0x10 :=
  ⟨⟨exec_after _ _, by decide +kernel⟩, exec_after _ _, by decide +kernel⟩

/-- The engine after the fault of the word 0x06000000, with a command still to come. -/
def faulted : State := { done (step (issuing 0x06000000)) with pending := [.issue 0x01000005] }

theorem witness_FaultEffect :
    (exec (.umul 3 3 0 1) State.reset = .next (after (.umul 3 3 0 1) State.reset) ∧
      (after (.umul 3 3 0 1) State.reset).ST.ERR = 0x80) ∧
    (exec (.ldbe 0 0 1) (memState.setA 0 0xFFE1) =
        .next (after (.ldbe 0 0 1) (memState.setA 0 0xFFE1)) ∧
      (after (.ldbe 0 0 1) (memState.setA 0 0xFFE1)).ST.ERR = 0x81) ∧
    faulted.pending = [.issue 0x01000005] ∧ faulted.ST.FAULT = true ∧
    step faulted = .next (done (step faulted)) ∧ faulted.nextMove ≠ some .reset :=
  ⟨⟨exec_after _ _, by decide +kernel⟩, ⟨exec_after _ _, by decide +kernel⟩, by decide +kernel,
    by decide +kernel, rfl, by decide +kernel⟩

theorem witness_ErrorTable : (Instr.p2init).wf = true ∧ (Instr.umul 3 3 0 1).wf = false := by decide

/-- The state after reset with all three flags set. -/
def flagged : State := ((State.reset.setC true).setZ true).setT true

theorem witness_FlagRule : Keeps State.reset flagged [.C, .Z, .T] ∧ flagged.MEM = State.reset.MEM ∧
    (∀ i s, exec i s = .next (after i s)) ∧
    ((after (.ucmp 0 1) State.reset).ST.ERR = 0x00 ∧ writesC (.ucmp 0 1) = true ∧
      writesZ (.ucmp 0 1) = true) ∧
    ((after (.ubit 0 1) State.reset).ST.ERR = 0x00 ∧ writesT (.ubit 0 1) = true) ∧
    (after (.usub 3 0 2) maxState).ST.C ≠ maxState.ST.C ∧
    (after (.utest 0) State.reset).ST.Z ≠ State.reset.ST.Z ∧
    (after (.ubit 1 0) maxState).ST.T ≠ maxState.ST.T := by
  refine ⟨?_, rfl, exec_after, by decide +kernel, by decide +kernel, by decide +kernel,
    by decide +kernel, by decide +kernel⟩
  intro q hq
  cases q <;> first | rfl | simp_all

theorem witness_StateWriters : exec .nop State.reset = .next (after .nop State.reset) ∧
    writesAddress .nop = false ∧ writesPoint .nop = false ∧ writesMemory .nop = false ∧
    writesHasher .nop = false ∧ writesContext .nop = false ∧ writesCurve .nop = false ∧
    writesSponge .nop = false := ⟨exec_after _ _, rfl, rfl, rfl, rfl, rfl, rfl, rfl⟩

/-- The state of `memState`, with a command that stores to come. -/
def storing : State := memState.withFetchWord 32 0x13021000

theorem witness_MemoryFormKept : Memory.wf storing.MEM ∧ step storing = .next (done (step storing)) :=
  ⟨by decide +kernel, by
    obtain ⟨t, h⟩ := exec_next (.stbe 2 1) memState
    have : step storing = exec (.stbe 2 1) memState := rfl
    rw [this, h]; rfl⟩

theorem witness_RegisterFormsKept : (∀ r, (State.reset.pt r).wf) ∧ State.reset.K.wf ∧
    State.reset.ST.wf ∧ step (issuing 0x50000000) = .next (done (step (issuing 0x50000000))) ∧
    (issuing 0x50000000).K.wf ∧ (issuing 0x50000000).ST.wf := by
  have hK : State.reset.K.wf := fun _ => ⟨rfl, rfl⟩
  have hS : State.reset.ST.wf := ⟨by decide, by decide⟩
  refine ⟨fun r _ => ?_, hK, hS, rfl, hK, hS⟩
  simp [State.pt, State.reset, State.powerOn, PointReg.infinity]

theorem witness_ContextFormKept : (∀ f, (w13.F f).wf) ∧ (∀ f, (State.reset.F f).wf) ∧
    step w13 = .next w13 := by
  refine ⟨fun f => ?_, fun f => ?_, rfl⟩
  · unfold FieldCtx.wf
    rw [if_pos (w13_ready f).1]
    exact (w13_ready f).2
  · cases f <;> exact rfl

theorem witness_SpongeFormKept : Sponge.wf p2State.PS ∧ Sponge.wf squeezed ∧
    step p2State = .next p2State := ⟨clear_wf, squeezed_wf, rfl⟩

theorem witness_PowerOnMeetsInvariants : Memory.wf [(0, 1), (0xFFFF, 0xFF)] := by decide

theorem witness_SetmodRule : (((State.reset.setX 1 3).x 1).toNat % 2 = 1 ∧
    3 ≤ ((State.reset.setX 1 3).x 1).toNat) ∧ (State.reset.x 1).toNat % 2 = 0 ∧
    ((State.reset.setX 1 1).x 1).toNat < 3 := by decide +kernel

theorem psState_present : (CtlReg.psState 1).present = true := by
  have hT := Config.p2rom.T_spec
  have h : ((1 : Fin 16).val : Nat) < Config.p2rom.T := by show 1 < _; omega
  exact decide_eq_true h

theorem witness_CfgwRule : (∀ c : CtlReg, c = .gen .base ∨ c = .model ∨ c = .ca ∨ c = .cofactor ∨
      c = .psState 1 → c.present = true ∧ c.writable = true) ∧
    Accepts (fields 7 9) 6 (.gen .base) ∧ Accepts (fields 7 9) 8 (.root2 .scalar) ∧
    Accepts State.reset 2 .model ∧ Accepts (fields 7 9) 6 .ca ∧ Accepts State.reset 9 .cofactor ∧
    Accepts p2State 1 (.psState 1) ∧
    Refuses (fields 7 9) 7 .notInField (.gen .base) ∧ Refuses State.reset 0 .noConfig (.gen .base) ∧
    Refuses State.reset 3 .badConfigValue .model ∧ Refuses (fields 7 9) 7 .notInField .ca ∧
    Refuses State.reset 0 .noConfig .gy ∧
    Refuses p2State (BitVec.ofNat 256 Config.p2rom.P) .notInField (.psState 1) ∧
    Refuses State.reset 0 .noConfig (.psState 1) := by
  have hP := Config.p2rom.P_spec
  refine ⟨?_, ⟨by decide +kernel, by decide +kernel⟩, ⟨by decide +kernel, by decide +kernel⟩,
    by unfold Accepts; decide, ⟨by decide +kernel, by decide +kernel⟩, trivial, ⟨p2State_ok, ?_⟩,
    ⟨by decide +kernel, rfl⟩, rfl, ⟨by decide, rfl⟩, ⟨by decide +kernel, rfl⟩, rfl, ?_, rfl⟩
  · rintro c (rfl | rfl | rfl | rfl | rfl)
    · decide
    · decide
    · decide
    · decide
    · exact ⟨psState_present, rfl⟩
  · rw [p2State_P]; simp; omega
  · unfold Refuses
    simp only
    rw [if_pos p2State_ok, p2State_P, BitVec.toNat_ofNat, Nat.mod_eq_of_lt hP.2.2]
    exact ⟨Nat.le_refl _, trivial⟩

theorem witness_CfgrRule : CtlReg.model.present = true ∧ (CtlReg.psState 1).present = true ∧
    w13.CRV.MODEL = .weierstrass ∧ e13.CRV.MODEL = .edwards ∧ m13.CRV.MODEL = .montgomery ∧
    0 < Config.p2rom.T ∧ Config.p2rom.T - 1 < Config.p2rom.T := by
  have hT := Config.p2rom.T_spec
  exact ⟨rfl, psState_present, rfl, rfl, rfl, by omega, by omega⟩

theorem witness_LoadRules : 65536 < (memState.setA 0 0xFFE1).ea 0 + (memState.setA 0 0xFFE1).ea 1 ∧
    ((memState.setA 0 0xFFE0).ea 0 + (memState.setA 0 0xFFE0).ea 1 = 65536 ∧
      (memState.setA 0 0xFFE0).ea 1 = 32) ∧
    (State.reset.ea 0 + State.reset.ea 1 ≤ 65536 ∧ State.reset.ea 1 ≠ 32) := by decide +kernel

theorem witness_StoreRules : 65536 < (memState.setA 0 0xFFE1).ea 0 + 32 ∧ Memory.wf memState.MEM ∧
    (memState.setA 0 0xFFE0).ea 0 + 32 = 65536 := by decide +kernel

/-- A field context with the largest element in `x1`, 0 in `x0`, and the modulus in `x2`. -/
def fieldState : State := ((fields 7 9).setX 1 6).setX 2 7

theorem fieldState_ready (f : Ctx) : Ready fieldState f := by
  have h := fields_ready (p := 7) (n := 9) (by decide) (by decide) (by decide) (by decide) (by decide)
    (by decide) f
  cases f <;> exact h

/-- The hypotheses of the field statements. -/
theorem fieldState_holds : (∀ f, Ready fieldState f) ∧ Holds fieldState .base 1 ∧
    Holds fieldState .base 0 ∧ (State.reset.F .base).VALID = false ∧
    (fieldState.F .base).VALID = true ∧
    ∃ r ∈ [(1 : XReg), 2], (fieldState.F .base).P.toNat ≤ (fieldState.x r).toNat :=
  ⟨fieldState_ready, by unfold Holds; decide +kernel, by unfold Holds; decide +kernel, rfl, rfl,
    2, by decide, by decide +kernel⟩

theorem witness_UmulRule : (2 : XReg) ≠ 3 ∧ (2 : XReg) = 2 := by decide

theorem witness_CompareAndTestIntegers :
    (State.reset.x 0).toNat = 0 ∧ ((State.reset.setX 0 1).x 0).toNat ≠ 0 := by decide +kernel

theorem witness_ConversionRules : Ready fieldState .base ∧ Holds fieldState .base 1 :=
  ⟨fieldState_ready _, fieldState_holds.2.1⟩

theorem witness_MultiplyRules :
    Ready fieldState .base ∧ Holds fieldState .base 1 ∧ Holds fieldState .base 0 :=
  ⟨fieldState_ready _, fieldState_holds.2.1, fieldState_holds.2.2.1⟩

theorem witness_AddSubtractRules :
    Ready fieldState .base ∧ Holds fieldState .base 1 ∧ Holds fieldState .base 0 :=
  witness_MultiplyRules

theorem witness_FpowRule : Ready fieldState .base ∧ Holds fieldState .base 1 :=
  witness_ConversionRules

/-- 2 is prime to 9; 0 and 3 are not. -/
theorem witness_FinvRule : let s := (fieldState.setX 3 2).setX 4 3
    Ready fieldState .scalar ∧ Holds s .scalar 3 ∧
    Nat.gcd (s.x 3).toNat (s.F .scalar).P.toNat = 1 ∧ Holds s .scalar 4 ∧
    Nat.gcd (s.x 4).toNat (s.F .scalar).P.toNat ≠ 1 ∧
    Nat.gcd (s.x 0).toNat (s.F .scalar).P.toNat ≠ 1 :=
  ⟨fieldState_ready _, by unfold Holds; decide +kernel, by decide +kernel,
    by unfold Holds; decide +kernel, by decide +kernel, by decide +kernel⟩

/-- The context of 95_test_vectors.md, 3.3, modulo 13 with `ROOT2 = rep(8)`. -/
def ctx13 : FieldCtx := { configuredCtx 13 with ROOT2 := 11 }

theorem ctx13_configured : ctx13.Configured := by
  constructor <;> decide +kernel

theorem ctx13_ready : Ready (w13.setF .base ctx13) .base := by
  unfold Ready
  rw [show (w13.setF .base ctx13).F .base = ctx13 from rfl]
  exact ⟨by decide +kernel, ctx13_configured⟩

theorem witness_FsqrtRule :
    (Ready w13 .base ∧ Holds w13 .base 0 ∧ (w13.F .base).P.toNat % 4 = 1 ∧ (w13.F .base).ROOT2 = 0) ∧
    (Ready (w13.setF .base ctx13) .base ∧ Holds (w13.setF .base ctx13) .base 0 ∧
      ((w13.setF .base ctx13).F .base).ROOT2 ≠ 0) ∧
    Ready fieldState .base ∧ Holds fieldState .base 1 ∧ (fieldState.F .base).P.toNat % 4 = 3 ∧
    (fieldState.F .base).P.toNat.Prime := by
  refine ⟨⟨w13_ready _, by unfold Holds; decide +kernel, by decide +kernel, by decide +kernel⟩,
    ⟨ctx13_ready, by unfold Holds; decide +kernel, by decide +kernel⟩,
    fieldState_ready _, fieldState_holds.2.1, by decide +kernel, ?_⟩
  rw [show (fieldState.F .base).P.toNat = 7 by decide +kernel]
  decide

theorem witness_TonelliShanksComplete : ctx13.Configured ∧ ctx13.P.toNat.Prime ∧
    ctx13.P.toNat % 4 = 1 ∧
    orderOf (valOf ctx13.P.toNat ctx13.ROOT2.toNat : ZMod ctx13.P.toNat) = 2 ^ ctx13.S.toNat ∧
    3 < ctx13.P.toNat ∧ IsSquare ((3 : Nat) : ZMod ctx13.P.toNat) ∧
    ¬ IsSquare ((2 : Nat) : ZMod ctx13.P.toNat) := by
  have hp : ctx13.P.toNat = 13 := by decide +kernel
  have hv : valOf ctx13.P.toNat ctx13.ROOT2.toNat = 8 := by decide +kernel
  have hs : ctx13.S.toNat = 1 + 1 := by decide +kernel
  refine ⟨ctx13_configured, ?_, ?_, ?_, ?_, ?_⟩
  · rw [hp]; decide
  · rw [hp]
  · rw [hv, hs, hp]
    exact orderOf_eq_prime_pow (by decide) (by decide)
  · rw [hp]; decide
  · rw [hp]
    exact ⟨⟨4, by decide⟩, by decide⟩

theorem witness_ConstantAndReductionRules : (State.reset.F .base).VALID = false ∧
    (fieldState.F .base).VALID = true ∧ Ready fieldState .base ∧
    (fieldState.setA 1 0xFFFF).ea 0 + (fieldState.setA 1 0xFFFF).ea 1 ≤ 65536 ∧
    65536 < ((fieldState.setA 1 0xFFFF).setA 0 2).ea 0 + ((fieldState.setA 1 0xFFFF).setA 0 2).ea 1 :=
  ⟨rfl, rfl, fieldState_ready _, by decide +kernel, by decide +kernel⟩

theorem witness_LimbLoopIsMontgomeryProduct : 7 % 2 = 1 ∧ 3 ≤ 7 ∧ 7 < 2 ^ 256 ∧
    negInv64 7 < 2 ^ 64 ∧ negInv64 7 * 7 % 2 ^ 64 = 2 ^ 64 - 1 ∧ 6 < 7 ∧
    montMulLimbs 7 (negInv64 7) 6 6 = montMul 7 6 6 := by decide +kernel

/-- The point operands of the witnesses: `pt0` is on the curve, `pt1` is not, `pt2` is out of the
field, `pt7` is at infinity. -/
def pts (s : State) : State := (s.setPt 1 ⟨1, 1, false⟩).setPt 2 ⟨13, 0, false⟩

theorem witness_points : PointsReady (pts w13) [0, 7] ∧ PointPasses (pts w13).curve ((pts w13).pt 0) ∧
    PointFails (pts w13).curve ((pts w13).pt 1) .notOnCurve ∧
    PointFails (pts w13).curve ((pts w13).pt 2) .notInField ∧
    PointFails e13.curve (e13.pt 7) .notOnCurve ∧ State.reset.curveOK = false ∧
    (w13.pt 0).wf ∧ (w13.pt 7).wf ∧ (w13.pt 7).INF = true ∧ (w13.pt 0).INF = false := by
  refine ⟨?_, ?_, ?_, ?_, ?_, ?_, ?_, ?_, ?_, ?_⟩
  all_goals
    (try unfold PointsReady); (try unfold PointPasses); (try unfold PointFails)
    (try unfold PointReg.wf); decide +kernel

theorem witness_PointLoadRules : let s := ((pts w13).setX 1 8).setX 2 2
    State.reset.curveOK = false ∧ s.curveOK = true ∧
    PointPasses s.curve ⟨s.x 1, s.x 2, false⟩ ∧ PointFails s.curve ⟨s.x 0, s.x 0, false⟩ .notOnCurve ∧
    PointPasses s.curve ⟨s.CRV.GX, s.CRV.GY, false⟩ ∧
    PointFails ((w13.setCRV { w13.CRV with GX := 13 })).curve ⟨13, s.CRV.GY, false⟩ .notInField := by
  unfold PointPasses PointFails
  decide +kernel

theorem witness_PointQueryRules : (0 : XReg) ≠ 1 ∧ PointsReady w13 [0] ∧ (w13.pt 0).wf ∧
    PointsReady w13 [7] ∧ (w13.pt 7).wf ∧ (w13.pt 7).INF = true ∧ PointsReady w13 [0, 7] ∧
    PointsReady e13 [1] ∧ Ready w13 .base ∧ Ready e13 .base := by
  refine ⟨by decide, ?_, ?_, ?_, ?_, ?_, ?_, ?_, w13_ready _, e13_ready _⟩
  all_goals
    (try unfold PointsReady); (try unfold PointPasses); (try unfold PointReg.wf); decide +kernel

theorem witness_PointAdditionRules :
    (PointsReady w13 [0, 0] ∧ Ready w13 .base ∧
      affOf w13.curve.p (w13.pt 0) = .mk 7 5 ∧ SumDefined w13.curve (.mk 7 5) (.mk 7 5)) ∧
    (PointsReady (w15c.setPt 0 (point 15 6 6)) [0, 0] ∧ Ready w15c .base ∧
      affOf 15 (point 15 6 6) = .mk 6 6 ∧ ¬ SumDefined w15c.curve (.mk 6 6) (.mk 6 6)) ∧
    PointsReady e13 [1, 1] ∧ Ready e13 .base ∧ affOf e13.curve.p (e13.pt 1) = .mk 4 4 ∧
      SumDefined e13.curve (.mk 4 4) (.mk 4 4) := by
  have hw : w13.curve = ⟨.weierstrass, 13, 0, 7⟩ := by decide +kernel
  have hc : w15c.curve = ⟨.weierstrass, 15, 0, 0⟩ := by decide +kernel
  have he : e13.curve = ⟨.edwards, 13, 1, 2⟩ := by decide +kernel
  refine ⟨⟨?_, w13_ready _, by decide +kernel, ?_⟩, ⟨?_, w15c_ready _, by decide +kernel, ?_⟩, ?_,
    e13_ready _, by decide +kernel, ?_⟩
  · unfold PointsReady PointPasses; decide +kernel
  · rw [hw]; simp only [SumDefined]; norm_num
  · unfold PointsReady PointPasses; decide +kernel
  · rw [hc]; simp only [SumDefined]; norm_num
  · unfold PointsReady PointPasses; decide +kernel
  · rw [he]; simp only [SumDefined]; norm_num

theorem witness_PnegRule : PointsReady w13 [0] ∧ PointsReady w13 [7] ∧ PointsReady e13 [1] ∧
    Ready w13 .base ∧ Ready e13 .base ∧ (w13.pt 0).INF = false ∧ w13.CRV.MODEL ≠ .edwards ∧
    (w13.pt 7).INF = true ∧ (e13.pt 1).INF = false ∧ e13.CRV.MODEL = .edwards := by
  refine ⟨?_, ?_, ?_, w13_ready _, e13_ready _, by decide +kernel, by decide +kernel,
    by decide +kernel, by decide +kernel, by decide +kernel⟩
  all_goals unfold PointsReady PointPasses; decide +kernel

theorem witness_ScalarMultipleRules : PointsReady (w13.setX 1 3) [0] ∧
    mulPoint w13.curve 3 (affOf w13.curve.p (w13.pt 0)) = .ok (.mk 11 8) ∧
    PointsReady (w15c.setPt 0 (point 15 6 6)) [0] ∧
    mulPoint w15c.curve 2 (affOf w15c.curve.p (point 15 6 6)) = .error .arithDomain := by
  refine ⟨?_, by decide +kernel, ?_, by decide +kernel⟩
  all_goals unfold PointsReady PointPasses; decide +kernel

theorem witness_NoArithDomainOnPrimeWeierstrass : Ready w13 .base ∧ w13.Fbase.P.toNat.Prime ∧
    w13.CRV.MODEL = .weierstrass ∧ exec (.pdbl 3 0) w13 = .next (after (.pdbl 3 0) w13) := by
  refine ⟨w13_ready _, ?_, rfl, exec_after _ _⟩
  rw [show w13.Fbase.P.toNat = 13 by decide +kernel]
  decide

/-- A point is written on each of the three models, over the composite modulus 15 too. -/
theorem witness_StoredPointsAreOnTheCurve :
    (Ready w13 .base ∧ Ready e13 .base ∧ Ready m13 .base ∧ Ready w15c .base) ∧
    (∀ pd ps, Instr.padd 3 0 0 ≠ .pmov pd ps) ∧ (∀ i s, exec i s = .next (after i s)) ∧
    (after (.padd 3 0 0) w13).pt 3 ≠ w13.pt 3 ∧ (after (.pdbl 3 0) m13).pt 3 ≠ m13.pt 3 ∧
    (after (.padd 3 1 1) e13).pt 3 ≠ e13.pt 3 ∧ (after (.pneg 3 1) e13).pt 3 ≠ e13.pt 3 ∧
    (after (.pinf 3) e13).pt 3 ≠ e13.pt 3 ∧ (after (.pgen 3) w15c).pt 3 ≠ w15c.pt 3 ∧
    (after (.pmul 3 0 1) (w13.setX 1 3)).pt 3 ≠ (w13.setX 1 3).pt 3 := by
  refine ⟨⟨w13_ready _, e13_ready _, m13_ready _, w15c_ready _⟩, ?_, exec_after, ?_⟩
  · intro pd ps h; cases h
  · decide +kernel

/-- `memState` with the hasher in use. -/
def hashing : State := memState.setK (emptyHasher true)

theorem witness_KeccakCommandRules : hashing.K.ACTIVE = true ∧ memState.K.ACTIVE = false ∧
    hashing.ea 0 + hashing.ea 1 ≤ 65536 ∧
    65536 < (hashing.setA 0 0xFFF0).ea 0 + (hashing.setA 0 0xFFF0).ea 1 ∧ Memory.wf hashing.MEM ∧
    (hashing.setA 0 0xFFE0).ea 0 + 32 = 65536 ∧ 65536 < (hashing.setA 0 0xFFE1).ea 0 + 32 := by
  decide +kernel

/-- `hashing` with the ranges 0x10 to 0x1F, 0x20 to 0x2F and both together. -/
def twoRanges : State := (((hashing.setA 1 0x10).setA 2 0x20).setA 3 0x10).setA 4 0x20

theorem witness_AbsorbingRules : twoRanges.ea 2 = twoRanges.ea 0 + twoRanges.ea 1 ∧
    twoRanges.ea 4 = twoRanges.ea 1 + twoRanges.ea 3 ∧ twoRanges.ea 0 + twoRanges.ea 4 ≤ 65536 ∧
    twoRanges.K.ACTIVE = true ∧ (∀ i s, exec i s = .next (after i s)) ∧
    (emptyHasher true).POS.val < 135 ∧
    ({ emptyHasher true with POS := 135 } : Hasher).POS.val = 135 ∧
    (emptyHasher false).S = Vector.replicate 200 0 ∧ (emptyHasher false).POS = 0 ∧
    (∀ h : Hasher, ∃ S : Vector Byte 200, ∀ k : Fin 200,
      S[k] = h.S[k] ^^^ (if k.val = h.POS.val then 0x01 else 0) ^^^
        (if k.val = 135 then 0x80 else 0)) :=
  ⟨by decide +kernel, by decide +kernel, by decide +kernel, rfl, exec_after, by decide, rfl, rfl, rfl,
    fun h => ⟨Vector.ofFn fun k => h.S[k] ^^^ (if k.val = h.POS.val then 0x01 else 0) ^^^
      (if k.val = 135 then 0x80 else 0), fun k => by simp⟩⟩

theorem witness_KeccakRoundSteps : (List.replicate 25 (0 : BitVec 64)).length = 25 ∧ 4 < 5 ∧ 0 < 5 ∧
    ∀ S : Vector Byte 200, ∃ trace : Nat → Lanes, trace 0 = lanesOf S ∧
      ∀ ir, ir < 24 → trace (ir + 1) = keccakIota (rcTable ir)
        (keccakChi (keccakRhoPi (keccakTheta (trace ir)))) :=
  ⟨rfl, by decide, by decide, fun S => ⟨fun n => Nat.rec (lanesOf S) (fun ir A =>
    keccakIota (rcTable ir)
      (keccakChi (keccakRhoPi (keccakTheta A)))) n, rfl, fun _ _ => rfl⟩⟩

theorem witness_PairHashRules : (node 1).length = 32 ∧ (node 2).length = 32 ∧
    beNat (node 1) < beNat (node 2) ∧ beNat (node 1) ≤ beNat (node 1) ∧ Memory.wf memState.MEM ∧
    memState.ea 0 + 32 ≤ 65536 ∧ (memState.setA 1 0xFFE0).ea 1 + 32 = 65536 ∧
    65536 < (memState.setA 1 0xFFE1).ea 1 + 32 := by decide +kernel

theorem witness_MverifyRule : (memState.ea 3 = 0 ∧ memState.ea 0 + 32 * memState.ea 1 ≤ 65536 ∧
      memState.ea 4 + 32 ≤ 65536 ∧ memState.ea 5 + 32 ≤ 65536) ∧ State.reset.ea 1 = 0 ∧
    65536 < (memState.setA 1 0xFFFF).ea 0 + 32 * (memState.setA 1 0xFFFF).ea 1 ∧
    65536 < (memState.setA 4 0xFFE1).ea 4 + 32 ∧ 65536 < (memState.setA 5 0xFFE1).ea 5 + 32 := by
  decide +kernel

theorem witness_MverifymRule : (memState.ea 0 + 32 * memState.ea 1 ≤ 65536 ∧
      memState.ea 2 + memState.ea 3 ≤ 65536 ∧ memState.ea 4 + 32 ≤ 65536 ∧
      memState.ea 5 + 32 * memState.ea 6 ≤ 65536) ∧
    memState.ea 3 + 1 ≠ memState.ea 6 + memState.ea 1 ∧ memState.ea 6 = 0 ∧
    65536 < ((memState.setA 2 0xFFFF).setA 3 2).ea 2 + ((memState.setA 2 0xFFFF).setA 3 2).ea 3 ∧
    65536 < (memState.setA 6 0x801).ea 5 + 32 * (memState.setA 6 0x801).ea 6 := by decide +kernel

theorem witness_MultiVerifyFollowsTheRule : multiVerify [] [] (node 1) [node 1] = true ∧
    multiAt [] [node 1, node 2] [true] [] 0 0 0 = some [hashPair (node 1) (node 2)] :=
  ⟨by decide +kernel, rfl⟩

theorem witness_NonceContract : 2 ≤ 2 ∧ 1 ≤ 1 ∧ 1 ≤ 2 - 1 ∧ 2 ^ 256 - 1 < 2 ^ 256 := by decide

/-- For the order 7 the first two turns emit their k; for the order 1 no turn does. -/
theorem witness_DefaultNonceRule : (Emits 7 1 0 0 ∧ emittedBefore 7 1 0 0 = 0) ∧
    (Emits 7 1 0 1 ∧ emittedBefore 7 1 0 1 = 1) ∧
    ∀ i, Emits 1 0 0 i → emittedBefore 1 0 0 i ≠ 0 := by
  refine ⟨?_, ?_, fun i h => absurd (Nat.le_trans h.1 h.2) (by decide)⟩
  all_goals unfold Emits; decide +kernel

/-- Every nonce for the order 3 is 1 or 2. -/
theorem nonce_three (sk h ctr : Nat) : nonce 3 sk h ctr = 1 ∨ nonce 3 sk h ctr = 2 := by
  have hr : ∀ k, intoNonceRange 3 k = 1 ∨ intoNonceRange 3 k = 2 := by
    intro k; unfold intoNonceRange; omega
  unfold nonce
  generalize Config.nonceInstance = inst
  unfold nonceBy
  cases inst with
  | some g => exact hr _
  | none =>
    have h3 : ∀ k, rfc6979 3 sk h ctr = some k → 1 ≤ k ∧ k ≤ 2 := fun k => rfc6979_range
    generalize rfc6979 3 sk h ctr = r at h3
    cases r with
    | some k => have := h3 k rfl; simp only; omega
    | none => exact hr _

/-- The curve `y² = x³ + 1` over 7 with the generator `(0, 1)` of order 3: every multiple has x = 0. -/
def w7z : State := curve .weierstrass 7 0 1 0 1 3

/-- The curve `y² = x³` over the composite modulus 15 with the generator `(6, 6)` and the order 3: twice
the generator needs a division by 12. -/
def w15d : State := curve .weierstrass 15 0 0 6 6 3

theorem w7_ecdsa : EcdsaReady w7 ∧ EcdsaReady w7z ∧ EcdsaReady w13 ∧ EcdsaReady w15 ∧
    EcdsaReady w15c ∧ EcdsaReady w15d := by
  unfold EcdsaReady PointPasses
  decide +kernel

/-- The ECDSA checks that fail: nothing configured, a model that is not short Weierstrass, a generator
off the curve. -/
theorem witness_EcdsaChecks : State.reset.Fbase.VALID = false ∧ e13.CRV.MODEL ≠ .weierstrass ∧
    (∃ s, s = w7.setCRV { w7.CRV with GX := 0 } ∧ s.Fbase.VALID = true ∧ s.Fscalar.VALID = true ∧
      s.CRV.MODEL = .weierstrass ∧ s.curveOK = true ∧
      PointFails s.curve s.generator .notOnCurve) := by
  refine ⟨rfl, by decide +kernel, _, rfl, ?_⟩
  unfold PointFails
  decide +kernel

/-- Every nonce gives the key 1 and the hash 0 the signature `(2, 1, 0)` on `w7`, and is rejected on
`w7z`; where the first nonce is 2, its multiple on `w15d` does not exist. -/
theorem witness_EsignRule : (4 : XReg) ≠ 5 ∧ (4 : XReg) ≠ 6 ∧ (5 : XReg) ≠ 6 ∧ EcdsaReady w7 ∧
    Ready w7 .scalar ∧ EcdsaReady w7z ∧ Ready w7z .scalar ∧ (w7.x 1).toNat = 0 ∧
    3 ≤ ((w7.setX 1 3).x 1).toNat ∧
    NonceGives w7.curve w7.G 3 1 (0 % 3) (nonce 3 1 0 0) 2 1 0 ∧
    (∀ j, j ≤ 255 → NonceRejected w7z.curve w7z.G 3 1 (0 % 3) (nonce 3 1 0 j)) ∧
    EcdsaReady w15d ∧ Ready w15d .scalar ∧
    (nonce 3 1 0 0 = 2 → mulPoint w15d.curve (nonce 3 1 0 0) w15d.G = .error .arithDomain) := by
  refine ⟨by decide, by decide, by decide, w7_ecdsa.1, w7_ready _, w7_ecdsa.2.1,
    curve_ready .weierstrass 0 1 0 1 (by decide) (by decide) (by decide) (by decide) (by decide)
      (by decide) _, by decide +kernel, by decide +kernel, ?_, fun j _ => ?_, w7_ecdsa.2.2.2.2.2,
    curve_ready .weierstrass 0 0 6 6 (by decide) (by decide) (by decide) (by decide) (by decide)
      (by decide) _, fun h => by rw [h]; decide +kernel⟩
  · rcases nonce_three 1 0 0 with h | h <;> rw [h]
    · exact ⟨5, 1, 2, by decide +kernel⟩
    · exact ⟨5, 6, 1, by decide +kernel⟩
  · rcases nonce_three 1 0 j with h | h <;> rw [h]
    · exact .inr ⟨0, 1, by decide +kernel, .inl rfl⟩
    · exact .inr ⟨0, 6, by decide +kernel, .inl rfl⟩

theorem witness_EverifyRule : EcdsaReady w7 ∧ Ready w7 .scalar ∧ EcdsaReady w15c ∧
    Ready w15c .scalar ∧ PointPasses w7.curve (point 7 5 1) ∧ PointPasses w15c.curve (point 15 6 6) ∧
    PointFails w7.curve ⟨0, 0, false⟩ .notOnCurve ∧
    SigFails 3 0 1 .invalidSignature ∧ SigFails 3 1 3 .invalidSignature ∧
    SigFails 3 2 2 (.invalidSignatureS 2) ∧ SigPasses 3 2 1 ∧ SigPasses 15 1 3 ∧
    Nat.gcd 3 15 ≠ 1 ∧
    sumOfMultiples w7.curve (0 % 3 * 1 % 3) w7.G (2 * 1 % 3) (.mk 5 1) = .ok (.mk 5 6) ∧
    sumOfMultiples w15c.curve (0 % 7 * 1 % 7) w15c.G (2 * 1 % 7) (.mk 6 6) = .error .arithDomain := by
  refine ⟨w7_ecdsa.1, w7_ready _, w7_ecdsa.2.2.2.2.1, w15c_ready _, ?_⟩
  unfold PointPasses PointFails SigFails SigPasses
  decide +kernel

/-- On `w15` with `s = 1` and the hash 0: r = 1 gives a key, or with the parity 1 no y; r = 7 is not
below p, r = 4 has no root, r = 3 is not prime to 15, and `s = 2` gives the point at infinity; on the
composite modulus of `w15c` a division is missing. -/
theorem witness_ErecoverRule :
    (EcdsaReady w15 ∧ Ready w15 .base ∧ Ready w15 .scalar ∧ w15.Fbase.P.toNat % 4 = 3) ∧
    (EcdsaReady w13 ∧ w13.Fbase.P.toNat % 4 = 1 ∧ w13.Fbase.ROOT2 = 0) ∧
    (SigPasses 15 1 1 ∧ SigPasses 15 7 7 ∧ SigFails 15 1 8 (.invalidSignatureS 8)) ∧
    sqrtMod w15.Fbase ((1 ^ 3 + w15.curve.A * 1 + w15.curve.B) % 7) = some 0 ∧
    sqrtMod w15.Fbase ((4 ^ 3 + w15.curve.A * 4 + w15.curve.B) % 7) = none ∧
    sqrtMod w15.Fbase ((3 ^ 3 + w15.curve.A * 3 + w15.curve.B) % 7) = some 4 ∧
    recoveredKey w15.curve w15.G 1 1 (0 % 15) (.mk 1 0) = .ok (.mk 1 0) ∧
    recoveredKey w15.curve w15.G 1 2 (0 % 15) (.mk 1 0) = .ok .O ∧
    (EcdsaReady w15c ∧ Ready w15c .base ∧ Ready w15c .scalar ∧ w15c.Fbase.P.toNat % 4 = 3 ∧
      SigPasses 7 6 2 ∧ sqrtMod w15c.Fbase ((6 ^ 3 + w15c.curve.A * 6 + w15c.curve.B) % 15) = some 6 ∧
      6 * 6 % 7 = 1 ∧
      recoveredKey w15c.curve w15c.G 6 2 (0 % 7) (.mk 6 6) = .error .arithDomain) := by
  obtain ⟨-, -, h13, h15, hc, -⟩ := w7_ecdsa
  refine ⟨⟨h15, w15_ready _, w15_ready _, by decide +kernel⟩, ⟨h13, by decide +kernel, rfl⟩, ?_, ?_, ?_,
    ?_, ?_, ?_, hc, w15c_ready _, w15c_ready _, ?_⟩
  all_goals (try unfold SigPasses); (try unfold SigFails); decide +kernel

theorem witness_SpongeInitAndPermute : State.reset.p2OK = false ∧ p2State.p2OK = true :=
  ⟨rfl, p2State_ok⟩

theorem witness_AbsorbRule : p2State.p2OK = true ∧ Holds p2State .base 1 ∧ ¬ Holds p2State .base 2 ∧
    p2State.PS.SQUEEZED = false ∧ (p2State.setPS squeezed).PS.SQUEEZED = true ∧ p2State.PS.wf := by
  have hP := Config.p2rom.P_spec
  have h1 : (p2State.x 1).toNat = 1 := rfl
  have h2 : (p2State.x 2).toNat = Config.p2rom.P := by
    show (BitVec.ofNat 256 Config.p2rom.P).toNat = _
    rw [BitVec.toNat_ofNat, Nat.mod_eq_of_lt hP.2.2]
  refine ⟨p2State_ok, ?_, ?_, rfl, rfl, clear_wf⟩
  · unfold Holds; rw [h1, State.F_base, p2State_P]; omega
  · unfold Holds; rw [h2, State.F_base, p2State_P]; omega

theorem witness_SqueezeRule : State.reset.p2OK = false ∧ p2State.p2OK = true ∧ p2State.PS.wf ∧
    (p2State.setPS squeezed).PS.wf ∧ (p2State.setPS squeezed).p2OK = true :=
  ⟨rfl, p2State_ok, clear_wf, squeezed_wf, p2State_ok⟩

theorem witness_PermutationRounds : [0, 0, 0].length = toyRom.T ∧
    ∃ trace : Nat → List Nat, trace 0 = [0, 0, 0] ∧ ∀ r, r < toyRom.RF + toyRom.RP →
      trace (r + 1) = if toyRom.RF / 2 ≤ r ∧ r < toyRom.RF / 2 + toyRom.RP
        then partialRound toyRom 2147483647 (trace r) r
        else fullRound toyRom 2147483647 (trace r) r :=
  ⟨rfl, fun n => Nat.rec [0, 0, 0] (fun r l => if toyRom.RF / 2 ≤ r ∧ r < toyRom.RF / 2 + toyRom.RP
    then partialRound toyRom 2147483647 l r else fullRound toyRom 2147483647 l r) n,
    rfl, fun _ _ => rfl⟩

end Sys2Proof.Tests
end

section
/-! PROOFS. The state: one step of the machine by the host's next move, what each update of the
state and each command leaves alone, and the writers of each kind of state (rules R21 to R71, R360
to R362). -/

namespace Sys2Proof.Machine

-- Many theorems elaborated at once need more memory than the check grants.
set_option Elab.async false

/-! ## One step -/

/-- The state in which the host's next move is made: the move is no longer to come, and the host has
got nothing from it yet. -/
def State.atMove (s : State) (ms : List HostMove) : State :=
  { s with pending := ms, reply := .nothing }

/-- A step makes the host's next move (R60). -/
theorem step_cons {s : State} {m : HostMove} {ms : List HostMove} (h : s.pending = m :: ms) :
    step s = makeMove m (s.atMove ms) := by
  unfold step advance State.takeMove
  rw [h]
  rfl

/-- While the host makes no move, the engine keeps its state (R382). -/
theorem step_nil {s : State} (h : s.pending = []) : step s = .next s := by
  unfold step advance State.takeMove
  rw [h]

/-- Without a fault, `Issue(w)` of a word that decodes runs the command (R109). -/
theorem issue_decoded {s : State} {w : CmdWord} {i : Instr} (hf : s.ST.FAULT = false)
    (hd : decode w = .ok i) : issue w s = exec i s := by
  unfold issue
  rw [hf, hd]
  rfl

/-- Settles O1: a step makes the host's next move, and `Issue(w)` runs the decoded command. -/
theorem stepRunsDecodedCommand : Obligations.StepRunsDecodedCommand :=
  ⟨fun s _ ms _ hp hf hd => (step_cons hp).trans (issue_decoded (s := s.atMove ms) hf hd),
    fun _ hp => step_nil hp⟩

/-- What `Issue(w)` can do (R109): it is ignored after a fault, it raises an error or a fault, or a
command completes with its effect. -/
theorem issue_cases {w : CmdWord} {s t : State} (h : issue w s = .next t) :
    t = s ∨ s.ST.FAULT = false ∧
      ((∃ e, t = s.raise e) ∨ ∃ i u, Effect i s u ∧ t = u.setERR okCode) := by
  unfold issue at h
  split at h
  · exact .inl (by cases h; rfl)
  · rename_i hf
    refine .inr ⟨Bool.eq_false_iff.2 hf, ?_⟩
    split at h
    · rcases exec_cases h with ⟨u, hu, rfl⟩ | ⟨e, -, rfl⟩
      · exact .inr ⟨_, u, hu, rfl⟩
      · exact .inl ⟨e, rfl⟩
    · cases h
      exact .inl ⟨_, rfl⟩

/-- An invariant of the machine, by the events that a step can be: it does not speak of the host's side
of the port, and a byte written by the host, `Reset()`, a failing command and the effect of a command
each keep it. -/
theorem step_preserves {I : State → Prop}
    (port : ∀ s ms r, I s → I { s with pending := ms, reply := r })
    (write : ∀ (s : State) a b, I s → I { s with MEM := s.MEM.write a b })
    (reset : ∀ s : State, I s → I s.hostReset)
    (raise : ∀ s e, s.ST.FAULT = false → I s → I (s.raise e))
    (effect : ∀ i s u, s.ST.FAULT = false → I s → Effect i s u → I (u.setERR okCode))
    {s t : State} (hs : I s) (h : step s = .next t) : I t := by
  cases hp : s.pending with
  | nil =>
    rw [step_nil hp] at h
    cases h
    exact hs
  | cons m ms =>
    rw [step_cons hp] at h
    have h0 : I (s.atMove ms) := port s ms .nothing hs
    cases m with
    | issue w =>
      rcases issue_cases h with rfl | ⟨hf, ⟨e, rfl⟩ | ⟨i, u, hu, rfl⟩⟩
      · exact h0
      · exact raise _ e hf h0
      · exact effect i _ u hf h0 hu
    | readStatus => cases h; exact port s ms _ hs
    | hostRead addr => cases h; exact port s ms _ hs
    | hostWrite addr b => cases h; exact write _ _ _ h0
    | reset => cases h; exact reset _ h0

/-! ## What a command leaves alone -/

/-- The parts of the state that a command may write when it completes, by the tables of rules R21, R22,
R24, R30, R40, R50, R55, R71 and R301; every command may write a general register, and `ST.ERR` is
written by `conclude`. -/
def mayWrite (i : Instr) : Part → Bool
  | .x _ => true
  | .a _ => writesAddress i
  | .pt _ => writesPoint i
  | .C => writesC i
  | .Z => writesZ i
  | .T => writesT i
  | .field _ => writesContext i
  | .curve => writesCurve i
  | .hasher => writesHasher i
  | .sponge => writesSponge i
  | .byte _ => writesMemory i
  | .fault | .err | .errval | .pending | .reply => false

theorem Part.same_trans {s t u : State} {q : Part} (h : q.same s t) (h' : q.same t u) :
    q.same s u := by
  cases q <;> exact Eq.trans h' h

theorem Keeps.trans {s t u : State} {l l' : List Part} (h : Keeps s t l) (h' : Keeps t u l') :
    Keeps s u (l ++ l') := by
  intro q hq
  obtain ⟨hl, hl'⟩ := not_or.1 (mt List.mem_append.2 hq)
  exact Part.same_trans (h q hl) (h' q hl')

section
variable (s : State)

theorem keeps_setX (j : XReg) (v : Word) : Keeps s (s.setX j v) [.x j] := by
  intro q hq
  cases q with
  | x i => exact State.x_setX_ne s (by simpa using hq) v
  | _ => simp [Part.same]

theorem keeps_setXNat (j : XReg) (n : Nat) : Keeps s (s.setXNat j n) [.x j] := keeps_setX s j _

theorem keeps_setA (j : AReg) (v : Addr) : Keeps s (s.setA j v) [.a j] := by
  intro q hq
  cases q with
  | a i => exact (State.a_setA s i j v).trans (if_neg (by simpa using hq))
  | _ => simp [Part.same]

theorem keeps_setPt (j : PReg) (P : PointReg) : Keeps s (s.setPt j P) [.pt j] := by
  intro q hq
  cases q with
  | pt i => exact (State.pt_setPt s i j P).trans (if_neg (by simpa using hq))
  | _ => simp [Part.same]

theorem keeps_setF (f : Ctx) (c : FieldCtx) : Keeps s (s.setF f c) [.field f] := by
  intro q hq
  cases q with
  | field g => exact (State.F_setF s f g c).trans (if_neg (by simpa using hq))
  | _ => simp [Part.same]

theorem keeps_setCRV (c : Curve) : Keeps s (s.setCRV c) [.curve] := by
  intro q hq
  cases q with
  | curve => exact absurd List.mem_cons_self hq
  | _ => simp [Part.same]

theorem keeps_setK (k : Hasher) : Keeps s (s.setK k) [.hasher] := by
  intro q hq
  cases q with
  | hasher => exact absurd List.mem_cons_self hq
  | _ => simp [Part.same]

theorem keeps_setPS (p : Sponge) : Keeps s (s.setPS p) [.sponge] := by
  intro q hq
  cases q with
  | sponge => exact absurd List.mem_cons_self hq
  | _ => simp [Part.same]

theorem keeps_setC (b : Bool) : Keeps s (s.setC b) [.C] := by
  intro q hq
  cases q with
  | C => exact absurd List.mem_cons_self hq
  | _ => simp [Part.same]

theorem keeps_setZ (b : Bool) : Keeps s (s.setZ b) [.Z] := by
  intro q hq
  cases q with
  | Z => exact absurd List.mem_cons_self hq
  | _ => simp [Part.same]

theorem keeps_setT (b : Bool) : Keeps s (s.setT b) [.T] := by
  intro q hq
  cases q with
  | T => exact absurd List.mem_cons_self hq
  | _ => simp [Part.same]

theorem keeps_setERR (e : BitVec 8) : Keeps s (s.setERR e) [.err] := by
  intro q hq
  cases q with
  | err => exact absurd List.mem_cons_self hq
  | _ => simp [Part.same]

theorem mem_bytesFrom {a n k : Nat} : Part.byte k ∈ bytesFrom a n ↔ a ≤ k ∧ k < a + n := by
  simp only [bytesFrom, List.mem_map, List.mem_range, Part.byte.injEq]
  exact ⟨fun ⟨i, hi, hk⟩ => by omega, fun h => ⟨k - a, by omega, by omega⟩⟩

theorem keeps_memWrite (a : Nat) (bs : List Byte) :
    Keeps s (s.memWrite a bs) (bytesFrom a bs.length) := by
  intro q hq
  cases q with
  | byte k =>
    rw [mem_bytesFrom] at hq
    exact Memory.read_writeBytes_ne s.MEM bs (by omega)
  | _ => simp [Part.same]

theorem keeps_optionResult (xd : XReg) (r : Option Nat) :
    Keeps s (s.optionResult xd r) [.x xd, .T] := by
  cases r with
  | none => exact (keeps_setT s false).mono (by simp)
  | some v => exact (keeps_setXNat s xd v).trans (keeps_setT _ true)

end

/-- A command that completes writes `ST.ERR` beside the parts that its effect writes (R360). -/
theorem completed_setERR {s u : State} {l : List Part} (h : Keeps s u l) :
    Completed s (u.setERR okCode) l :=
  ⟨rfl, (h.trans (keeps_setERR u okCode)).mono fun q hq => by simpa [or_comm] using hq⟩

/-- From s to u the command i has left alone every part that it may not write. -/
def Frame (i : Instr) (s u : State) : Prop := ∀ q, mayWrite i q = false → q.same s u

theorem Keeps.frame {i : Instr} {s u : State} {l : List Part} (h : Keeps s u l)
    (hl : ∀ q ∈ l, mayWrite i q = true) : Frame i s u :=
  fun q hq => h q fun hm => Bool.false_ne_true (hq.symm.trans (hl q hm))

/-- Every command may write a general register (R20). -/
theorem frame_setX (i : Instr) (s : State) (j : XReg) (v : Word) : Frame i s (s.setX j v) :=
  (keeps_setX s j v).frame (by simp [mayWrite])

theorem frame_setXNat (i : Instr) (s : State) (j : XReg) (n : Nat) : Frame i s (s.setXNat j n) :=
  frame_setX i s j _

theorem frame_setPt {i : Instr} (hi : writesPoint i = true) (s : State) (j : PReg) (P : PointReg) :
    Frame i s (s.setPt j P) :=
  (keeps_setPt s j P).frame (by simp [mayWrite, hi])

theorem frame_setT {i : Instr} (hi : writesT i = true) (s : State) (b : Bool) :
    Frame i s (s.setT b) :=
  (keeps_setT s b).frame (by simp [mayWrite, hi])

theorem frame_setPS {i : Instr} (hi : writesSponge i = true) (s : State) (p : Sponge) :
    Frame i s (s.setPS p) :=
  (keeps_setPS s p).frame (by simp [mayWrite, hi])

theorem frame_memWrite {i : Instr} (hi : writesMemory i = true) (s : State) (a : Nat)
    (bs : List Byte) : Frame i s (s.memWrite a bs) := by
  refine (keeps_memWrite s a bs).frame fun q hq => ?_
  obtain ⟨k, -, rfl⟩ := List.mem_map.1 hq
  exact hi

theorem Frame.trans {i : Instr} {s t u : State} (h : Frame i s t) (h' : Frame i t u) :
    Frame i s u :=
  fun q hq => Part.same_trans (h q hq) (h' q hq)

/-- A command that completes writes only what the tables list for it. -/
theorem Effect.frame {i : Instr} {s u : State} (h : Effect i s u) : Frame i s u := by
  cases i with
  | nop =>
    obtain rfl := h
    exact (Keeps.refl _ []).frame (by simp)
  | li ad imm =>
    obtain rfl := h
    exact (keeps_setA s _ _).frame (by simp [mayWrite, writesAddress])
  | mov =>
    obtain rfl := h
    exact frame_setX _ s _ _
  | setmod =>
    obtain ⟨-, rfl⟩ := h
    exact (keeps_setF s _ _).frame (by simp [mayWrite, writesContext])
  | cfgw c xs =>
    rcases writeCtl_eq_ok h with ⟨f, -, -, rfl | rfl⟩ | ⟨C, rfl⟩ | ⟨k, -, -, -, rfl⟩
    · exact (keeps_setF s _ _).frame (by simp [mayWrite, writesContext])
    · exact (keeps_setF s _ _).frame (by simp [mayWrite, writesContext])
    · exact (keeps_setCRV s _).frame (by simp [mayWrite, writesCurve])
    · exact frame_setPS rfl s _
  | cfgr | fconst =>
    obtain ⟨-, rfl⟩ := h
    exact frame_setX _ s _ _
  | ffrom | finto | fneg | fsqr | fdbl | fpow | fadd | fsub | fmul =>
    obtain ⟨-, rfl⟩ := h
    exact frame_setXNat _ s _ _
  | ldle | ldbe | fldmod =>
    obtain ⟨-, -, rfl⟩ := h
    exact frame_setXNat _ s _ _
  | stle | stbe =>
    obtain ⟨-, rfl⟩ := h
    exact frame_memWrite rfl s _ _
  | uadd | usub | ushl1 | ushr1 =>
    obtain rfl := h
    exact (frame_setXNat _ s _ _).trans ((keeps_setC _ _).frame (by simp [mayWrite, writesC]))
  | umul =>
    obtain ⟨-, rfl⟩ := h
    exact (frame_setXNat _ s _ _).trans (frame_setXNat _ _ _ _)
  | ucmp =>
    obtain rfl := h
    exact ((keeps_setZ s _).trans (keeps_setC _ _)).frame (by simp [mayWrite, writesC, writesZ])
  | ubit =>
    obtain rfl := h
    exact frame_setT rfl s _
  | unumbits =>
    obtain rfl := h
    exact (frame_setXNat _ s _ _).trans ((keeps_setZ _ _).frame (by simp [mayWrite, writesZ]))
  | utest =>
    obtain rfl := h
    exact (keeps_setZ s _).frame (by simp [mayWrite, writesZ])
  | finv =>
    obtain ⟨-, rfl⟩ := h
    exact (keeps_optionResult s _ _).frame (by simp [mayWrite, writesT])
  | fsqrt =>
    obtain ⟨-, -, rfl⟩ := h
    exact (keeps_optionResult s _ _).frame (by simp [mayWrite, writesT])
  | pmov =>
    obtain rfl := h
    exact frame_setPt rfl s _ _
  | pinf | pneg =>
    obtain ⟨-, rfl⟩ := h
    exact frame_setPt rfl s _ _
  | pset | pgen =>
    obtain ⟨-, -, rfl⟩ := h
    exact frame_setPt rfl s _ _
  | padd | pdbl | pmul =>
    obtain ⟨-, Q, -, rfl⟩ := h
    exact frame_setPt rfl s _ _
  | pget =>
    obtain ⟨-, -, rfl⟩ := h
    exact ((frame_setX _ s _ _).trans (frame_setX _ _ _ _)).trans (frame_setT rfl _ _)
  | peq | pisid =>
    obtain ⟨-, rfl⟩ := h
    exact frame_setT rfl s _
  | kinit =>
    obtain rfl := h
    exact (keeps_setK s _).frame (by simp [mayWrite, writesHasher])
  | kupdate =>
    obtain ⟨-, -, rfl⟩ := h
    exact (keeps_setK s _).frame (by simp [mayWrite, writesHasher])
  | kfinal =>
    obtain ⟨-, -, rfl⟩ := h
    exact (frame_memWrite rfl s _ _).trans
      ((keeps_setK _ _).frame (by simp [mayWrite, writesHasher]))
  | hpair =>
    obtain ⟨-, -, -, rfl⟩ := h
    exact frame_memWrite rfl s _ _
  | mverify =>
    obtain ⟨-, -, -, rfl⟩ := h
    exact frame_setT rfl s _
  | mverifym =>
    obtain ⟨-, -, -, -, rfl⟩ := h
    exact frame_setT rfl s _
  | esign =>
    obtain ⟨-, -, -, rsv, -, rfl⟩ := h
    exact ((frame_setXNat _ s _ _).trans (frame_setXNat _ _ _ _)).trans (frame_setXNat _ _ _ _)
  | everify =>
    obtain ⟨-, -, -, b, -, rfl⟩ := h
    exact frame_setT rfl s _
  | erecover =>
    obtain ⟨-, -, -, par, -, addr, -, rfl⟩ := h
    exact frame_setXNat _ s _ _
  | p2init | p2perm =>
    obtain ⟨-, rfl⟩ := h
    exact frame_setPS rfl s _
  | p2absorb =>
    obtain ⟨-, -, -, rfl⟩ := h
    exact frame_setPS rfl s _
  | p2squeeze =>
    obtain ⟨-, rfl⟩ := h
    exact (frame_setX _ s _ _).trans (frame_setPS rfl _ _)

/-- What a command leaves alone, however it ends: a failure writes `ST.ERR`, `ST.FAULT` and `ERRVAL`
alone (R360 to R362). -/
theorem exec_frame {i : Instr} {s t : State} (h : exec i s = .next t) {q : Part}
    (hq : mayWrite i q = false) (he : q ∉ [.err, .fault, .errval]) : q.same s t := by
  rcases exec_cases h with ⟨u, hu, rfl⟩ | ⟨e, -, rfl⟩
  · have hq' : q ∉ [.err] := fun hm => he (List.mem_cons.2 (.inl (List.mem_singleton.1 hm)))
    exact Part.same_trans (hu.frame q hq) (keeps_setERR u okCode q hq')
  · exact keeps_raise s e q he

/-- Settles O13: each clause is the frame of the command at one part of the state. -/
theorem stateWriters : Obligations.StateWriters := fun _ _ _ h =>
  ⟨fun hw r => exec_frame h (q := .a r) hw (by simp),
    fun hw r => exec_frame h (q := .pt r) hw (by simp),
    fun hw k => exec_frame h (q := .byte k) hw (by simp),
    fun hw => exec_frame h (q := .hasher) hw (by simp),
    fun hw f => exec_frame h (q := .field f) hw (by simp),
    fun hw => exec_frame h (q := .curve) hw (by simp),
    fun hw => exec_frame h (q := .sponge) hw (by simp),
    exec_frame h (q := .pending) rfl (by simp), exec_frame h (q := .reply) rfl (by simp)⟩

end Sys2Proof.Machine
end

section
/-! PROOFS. The invariants of the state, each kept by every step and met after power-on (rules R22, R30,
R31, R50, R51, R65, R301, R304, R312, R362, R363). -/

namespace Sys2Proof.Machine

-- Many theorems elaborated at once need more memory than the check grants.
set_option Elab.async false

/-! ## The forms of the point registers, the hasher and the status -/

theorem PointReg.wf_finite (X Y : Word) : (⟨X, Y, false⟩ : PointReg).wf := fun h => nomatch h

theorem PointReg.wf_infinity : PointReg.infinity.wf := fun _ => ⟨rfl, rfl⟩

/-- What `Enc` writes is in the form of R22 (R45). -/
theorem encPoint_wf (p : Nat) (Q : AffPoint) : (encPoint p Q).wf := by
  cases Q with
  | O => exact PointReg.wf_infinity
  | mk x y => exact PointReg.wf_finite _ _

theorem pt_setPt_wf {s : State} (hs : ∀ r, (s.pt r).wf) (pd : PReg) {P : PointReg} (hP : P.wf) :
    ∀ r, ((s.setPt pd P).pt r).wf := by
  intro r
  rw [State.pt_setPt]
  split
  · exact hP
  · exact hs r

/-- A command that completes keeps the form of the point registers (R22). -/
theorem Effect.pt_wf {i : Instr} {s u : State} (h : Effect i s u) (hs : ∀ r, (s.pt r).wf) :
    ∀ r, (u.pt r).wf := by
  cases hw : writesPoint i with
  | false =>
    intro r
    have hr : u.pt r = s.pt r := h.frame (.pt r) hw
    rw [hr]
    exact hs r
  | true =>
    cases i with
    | pset pd =>
      obtain ⟨-, -, rfl⟩ := h
      exact pt_setPt_wf hs pd (PointReg.wf_finite _ _)
    | pgen pd =>
      obtain ⟨-, -, rfl⟩ := h
      exact pt_setPt_wf hs pd (PointReg.wf_finite _ _)
    | pinf pd =>
      obtain ⟨-, rfl⟩ := h
      refine pt_setPt_wf hs pd ?_
      cases s.CRV.MODEL with
      | weierstrass | montgomery => exact PointReg.wf_infinity
      | edwards => exact PointReg.wf_finite _ _
    | pmov pd ps =>
      obtain rfl := h
      exact pt_setPt_wf hs pd (hs ps)
    | padd pd | pdbl pd | pmul pd =>
      obtain ⟨-, Q, -, rfl⟩ := h
      exact pt_setPt_wf hs pd (encPoint_wf _ Q)
    | pneg pd =>
      obtain ⟨-, rfl⟩ := h
      exact pt_setPt_wf hs pd (encPoint_wf _ _)
    | _ => cases hw

theorem Hasher.wf_active {K : Hasher} (h : K.ACTIVE = true) : K.wf := fun h' => by
  rw [h] at h'
  cases h'

theorem Hasher.wf_clear : Hasher.clear.wf := fun _ => ⟨rfl, rfl⟩

/-- A command that completes keeps an inactive hasher zero (R50, R246). -/
theorem Effect.K_wf {i : Instr} {s u : State} (h : Effect i s u) (hs : s.K.wf) : u.K.wf := by
  cases hw : writesHasher i with
  | false =>
    have hK : u.K = s.K := h.frame .hasher hw
    rw [hK]
    exact hs
  | true =>
    cases i with
    | kinit =>
      obtain rfl := h
      exact Hasher.wf_active rfl
    | kupdate =>
      obtain ⟨-, hK, rfl⟩ := h
      exact Hasher.wf_active ((ACTIVE_absorb _ _).trans hK)
    | kfinal =>
      obtain ⟨-, -, rfl⟩ := h
      exact Hasher.wf_clear
    | _ => cases hw

/-- An error or a fault taken by an engine without a fault leaves its code, and `ST.FAULT` set exactly
with a fault's (R361 to R363). -/
theorem Status.wf_raise {s : State} (hf : s.ST.FAULT = false) (e : Err) : (s.raise e).ST.wf := by
  rw [State.ST_raise]
  cases e <;> simp [Status.wf, errCode, errIsFault, producedCodes, hf]

/-- A command that completes leaves the outcome code 0 and no fault (R360). -/
theorem Effect.ST_wf {i : Instr} {s u : State} (h : Effect i s u) (hf : s.ST.FAULT = false) :
    (u.setERR okCode).ST.wf := by
  have hu : u.ST.FAULT = s.ST.FAULT := h.frame .fault rfl
  rw [State.ST_setERR]
  simp [Status.wf, okCode, producedCodes, hu, hf]

theorem Status.wf_clear : Status.clear.wf := by
  simp [Status.wf, Status.clear, producedCodes]

theorem State.pt_powerOn (mem0 : Memory) (r : PReg) :
    (State.powerOn mem0).pt r = PointReg.infinity := by
  simp [State.pt, State.powerOn, Vector.get_eq_getElem]

/-- Settles O15, one invariant after the other, by the events that a step can be. -/
theorem registerFormsKept : Obligations.RegisterFormsKept := by
  refine ⟨fun s t hs h => ?_, fun s t hs h => ?_, fun s t hs h => ?_⟩
  · refine step_preserves (I := fun s => ∀ r, (s.pt r).wf) (fun _ _ _ hs => hs) (fun _ _ _ hs => hs)
      (fun s _ r => ?_) (fun _ _ _ hs => hs) (fun _ _ _ _ hs hu => hu.pt_wf hs) hs h
    exact (State.pt_powerOn s.MEM r).symm ▸ PointReg.wf_infinity
  · exact step_preserves (I := fun s => s.K.wf) (fun _ _ _ hs => hs) (fun _ _ _ hs => hs)
      (fun _ _ => Hasher.wf_clear) (fun _ _ _ hs => hs) (fun _ _ _ _ hs hu => hu.K_wf hs) hs h
  · exact step_preserves (I := fun s => s.ST.wf) (fun _ _ _ hs => hs) (fun _ _ _ hs => hs)
      (fun _ _ => Status.wf_clear) (fun _ e hf _ => Status.wf_raise hf e)
      (fun _ _ _ hf _ hu => hu.ST_wf hf) hs h

/-! ## The form of the field contexts -/

theorem FieldCtx.wf_unconfigured : FieldCtx.unconfigured.wf := rfl

theorem FieldCtx.wf_of_configured {F : FieldCtx} (hv : F.VALID = true) (h : F.Configured) : F.wf := by
  unfold FieldCtx.wf
  rw [if_pos hv]
  exact h

theorem FieldCtx.configured_of_valid {F : FieldCtx} (h : F.wf) (hv : F.VALID = true) :
    F.Configured := by
  unfold FieldCtx.wf at h
  rwa [if_pos hv] at h

/-- A configured context stays so when `GEN` receives a field element (R55). -/
theorem FieldCtx.Configured.withGen {F : FieldCtx} (h : F.Configured) {v : Word}
    (hv : v.toNat < F.P.toNat) : ({ F with GEN := v } : FieldCtx).Configured :=
  { h with gen := hv }

/-- A configured context stays so when `ROOT2` receives a field element (R55). -/
theorem FieldCtx.Configured.withRoot2 {F : FieldCtx} (h : F.Configured) {v : Word}
    (hv : v.toNat < F.P.toNat) : ({ F with ROOT2 := v } : FieldCtx).Configured :=
  { h with root2 := hv }

theorem F_setF_wf {s : State} (hs : ∀ f, (s.F f).wf) (f : Ctx) {c : FieldCtx} (hc : c.wf) :
    ∀ g, ((s.setF f c).F g).wf := by
  intro g
  rw [State.F_setF]
  split
  · exact hc
  · exact hs g

/-- A command that completes keeps the form of the field contexts (R30, R31, R55). -/
theorem Effect.F_wf {i : Instr} {s u : State} (h : Effect i s u) (hs : ∀ f, (s.F f).wf) :
    ∀ f, (u.F f).wf := by
  cases hw : writesContext i with
  | false =>
    intro f
    have hf : u.F f = s.F f := h.frame (.field f) hw
    rw [hf]
    exact hs f
  | true =>
    cases i with
    | setmod f xs =>
      obtain ⟨⟨hodd, hthree⟩, rfl⟩ := h
      exact F_setF_wf hs f (FieldCtx.wf_of_configured rfl (configuredCtx_spec hodd hthree))
    | cfgw c xs =>
      rcases writeCtl_eq_ok h with ⟨f, hv, hlt, rfl | rfl⟩ | ⟨C, rfl⟩ | ⟨k, -, -, -, rfl⟩
      · have hF := FieldCtx.configured_of_valid (hs f) hv
        exact F_setF_wf hs f (FieldCtx.wf_of_configured hv (hF.withGen hlt))
      · have hF := FieldCtx.configured_of_valid (hs f) hv
        exact F_setF_wf hs f (FieldCtx.wf_of_configured hv (hF.withRoot2 hlt))
      · simpa using hs
      · simpa using hs
    | _ => cases hw

theorem State.F_powerOn (mem0 : Memory) (f : Ctx) :
    (State.powerOn mem0).F f = FieldCtx.unconfigured := by cases f <;> rfl

theorem F_wf_powerOn (mem0 : Memory) (f : Ctx) : ((State.powerOn mem0).F f).wf :=
  State.F_powerOn mem0 f ▸ FieldCtx.wf_unconfigured

/-- The form of the contexts does not depend on the other parts of the state. -/
theorem F_wf_congr {s t : State} (hb : t.Fbase = s.Fbase) (hc : t.Fscalar = s.Fscalar)
    (hs : ∀ f, (s.F f).wf) : ∀ f, (t.F f).wf := by
  intro f
  cases f with
  | base => rw [State.F_base, hb]; exact hs .base
  | scalar => rw [State.F_scalar, hc]; exact hs .scalar

/-- Settles O16, by the events that a step can be: only the effect of `SETMOD` and `CFGW` writes a
context, and `Reset()` makes both unconfigured. -/
theorem contextFormKept : Obligations.ContextFormKept := by
  intro s t hs h
  exact step_preserves (I := fun s => ∀ f, (s.F f).wf) (fun _ _ _ hs => F_wf_congr rfl rfl hs)
    (fun _ _ _ hs => F_wf_congr rfl rfl hs)
    (fun s _ => F_wf_congr (s := State.powerOn s.MEM) rfl rfl (F_wf_powerOn s.MEM))
    (fun _ _ _ hs => F_wf_congr rfl rfl hs) (fun _ _ _ _ hs hu => F_wf_congr rfl rfl (hu.F_wf hs))
    hs h

/-! ## The form of the sponge -/

/-- The slots that the engine has hold elements of the field of `P2ROM`, the others 0 (R301). -/
def SlotsWf (st : Vector Word 16) : Prop :=
  (∀ i, i < Config.p2rom.T → (slot st i).toNat < Config.p2rom.P) ∧
    ∀ i, Config.p2rom.T ≤ i → slot st i = 0

theorem Sponge.wf.slots {PS : Sponge} (h : PS.wf) : SlotsWf PS.STATE := ⟨h.element, h.absent⟩

/-- The permutation leaves elements of the field of `P2ROM` (R303, R311). -/
theorem SlotsWf.permuteState {st : Vector Word 16} (h : SlotsWf st) :
    SlotsWf (permuteState Config.p2rom Config.p2rom.P st) := by
  obtain ⟨-, h3, hP⟩ := Config.p2rom.P_spec
  refine ⟨fun i hi => ?_, fun i hi => BitVec.eq_of_toNat_eq ?_⟩
  · rw [slot_permuteState _ (by omega) (by omega), if_pos hi]
    exact repOf_lt (by omega) _
  · rw [slot_permuteState _ (by omega) (by omega), if_neg (by omega), h.2 i hi]

/-- Writing an element to a slot that the engine has (R55, R311). -/
theorem SlotsWf.setSlot {st : Vector Word 16} (h : SlotsWf st) {k : Nat} (hk : k < Config.p2rom.T)
    {v : Word} (hv : v.toNat < Config.p2rom.P) : SlotsWf (setSlot st k v) := by
  have hT := Config.p2rom.T_spec.2
  refine ⟨fun i hi => ?_, fun i hi => ?_⟩
  · rw [slot_setSlot st (by omega)]
    split
    · exact hv
    · exact h.1 i hi
  · rw [slot_setSlot st (by omega), if_neg (by omega)]
    exact h.2 i hi

/-- The slots after `P2INIT` (R310). -/
theorem slot_initSlots (T : Nat) (st : Vector Word 16) (i : Nat) :
    slot (Vector.ofFn fun k : Fin 16 => if k.val < T then 0 else slot st k.val) i =
      if i < T then 0 else slot st i := by
  by_cases hi : i < 16
  · simp [slot, hi]
  · simp [slot, hi]

theorem Sponge.wf_init {st : Vector Word 16} (h : SlotsWf st) :
    Sponge.wf
      { STATE := Vector.ofFn fun k : Fin 16 => if k.val < Config.p2rom.T then 0 else slot st k.val
        IDX := 0
        SQUEEZED := false
        SQIDX := 0 } := by
  have hT := Config.p2rom.T_spec.1
  have hP := Config.p2rom.P_spec.2.1
  refine ⟨by simpa using hT, by simp, by simp; omega, fun _ => rfl, fun i hi => ?_, fun i hi => ?_⟩
  · rw [slot_initSlots, if_pos hi]
    show 0 < _
    omega
  · rw [slot_initSlots, if_neg (by omega)]
    exact h.2 i hi

/-- A sponge whose slots alone have changed (R55, R313). -/
theorem Sponge.wf.withState {PS : Sponge} (h : PS.wf) {st : Vector Word 16} (hst : SlotsWf st) :
    ({ PS with STATE := st } : Sponge).wf :=
  { h with element := hst.1, absent := hst.2 }

/-- The form of the sponge after an element is absorbed (R304, R311). -/
theorem Sponge.wf.spongeAbsorb {PS : Sponge} (h : PS.wf) (hsq : PS.SQUEEZED = false) {v : Word}
    (hv : v.toNat < Config.p2rom.P) : (spongeAbsorb Config.p2rom Config.p2rom.P PS v).wf := by
  have hT := Config.p2rom.T_spec.1
  have hidx := h.idx_le
  have hst := h.slots.setSlot (k := 1 + PS.IDX) (by omega) hv
  unfold Machine.spongeAbsorb
  dsimp only
  split
  · exact ⟨by simpa using hT, fun hq => absurd hq (by simp [hsq]), h.sqidx_le, h.absorbing,
      hst.permuteState.1, hst.permuteState.2⟩
  · exact ⟨by dsimp only; omega, fun hq => absurd hq (by simp [hsq]), h.sqidx_le, h.absorbing,
      hst.1, hst.2⟩

/-- The form of the sponge after an element is squeezed (R312). -/
theorem Sponge.wf.spongeSqueeze {PS : Sponge} (h : PS.wf) :
    (spongeSqueeze Config.p2rom Config.p2rom.P PS).wf := by
  have hT := Config.p2rom.T_spec.1
  have hq := h.sqidx_le
  unfold Machine.spongeSqueeze spongeReady
  dsimp only
  split
  · rename_i hsq
    have hidx := (h.squeezed_pos hsq).2
    split
    · exact ⟨h.idx_le, fun _ => ⟨Nat.le_add_left 1 _, hidx⟩, by dsimp only; omega,
        fun hf => absurd hf (by simp [hsq]), h.slots.permuteState.1, h.slots.permuteState.2⟩
    · exact ⟨h.idx_le, fun _ => ⟨Nat.le_add_left 1 _, hidx⟩, by dsimp only; omega,
        fun hf => absurd hf (by simp [hsq]), h.element, h.absent⟩
  split
  · exact ⟨by simpa using hT, fun _ => ⟨Nat.le_add_left 1 _, rfl⟩, by dsimp only; omega,
      fun hf => Bool.noConfusion hf, h.slots.permuteState.1, h.slots.permuteState.2⟩
  · rename_i hidx
    exact ⟨h.idx_le, fun _ => ⟨Nat.le_add_left 1 _, not_not.1 hidx⟩, by dsimp only; omega,
      fun hf => Bool.noConfusion hf, h.element, h.absent⟩

/-- A command that completes keeps the form of the sponge (R51, R301, R304, R312). -/
theorem Effect.PS_wf {i : Instr} {s u : State} (h : Effect i s u) (hs : s.PS.wf) : u.PS.wf := by
  cases hw : writesSponge i with
  | false =>
    have hPS : u.PS = s.PS := h.frame .sponge hw
    rw [hPS]
    exact hs
  | true =>
    cases i with
    | cfgw c xs =>
      rcases writeCtl_eq_ok h with ⟨f, -, -, rfl | rfl⟩ | ⟨C, rfl⟩ | ⟨k, hk, hok, hlt, rfl⟩
      · simpa using hs
      · simpa using hs
      · simpa using hs
      · rw [((p2OK_iff s).1 hok).2] at hlt
        exact hs.withState (hs.slots.setSlot hk hlt)
    | p2init =>
      obtain ⟨-, rfl⟩ := h
      exact Sponge.wf_init hs.slots
    | p2absorb xs =>
      obtain ⟨hok, hlt, hsq, rfl⟩ := h
      rw [((p2OK_iff s).1 hok).2] at hlt ⊢
      exact hs.spongeAbsorb hsq hlt
    | p2squeeze xd =>
      obtain ⟨hok, rfl⟩ := h
      rw [((p2OK_iff s).1 hok).2]
      exact hs.spongeSqueeze
    | p2perm =>
      obtain ⟨hok, rfl⟩ := h
      rw [((p2OK_iff s).1 hok).2]
      exact hs.withState hs.slots.permuteState
    | _ => cases hw

theorem slot_clear (i : Nat) : slot Sponge.clear.STATE i = 0 := by
  simp [slot, Sponge.clear]

theorem Sponge.wf_clear : Sponge.clear.wf := by
  have hT := Config.p2rom.T_spec.1
  have hP := Config.p2rom.P_spec.2.1
  refine ⟨by simpa [Sponge.clear] using hT, fun hq => Bool.noConfusion hq, by simp [Sponge.clear]; omega,
    fun _ => rfl, fun i _ => ?_, fun i _ => slot_clear i⟩
  rw [slot_clear]
  show 0 < _
  omega

/-- Settles O17, by the events that a step can be. -/
theorem spongeFormKept : Obligations.SpongeFormKept := by
  intro s t hs h
  exact step_preserves (I := fun s => s.PS.wf) (fun _ _ _ hs => hs) (fun _ _ _ hs => hs)
    (fun _ _ => Sponge.wf_clear) (fun _ _ _ hs => hs) (fun _ _ _ _ hs hu => hu.PS_wf hs) hs h

/-- Settles O18: each element of the engine has its reset value, which is in its form. -/
theorem powerOnMeetsInvariants : Obligations.PowerOnMeetsInvariants := by
  rintro mem0 hm _ rfl
  exact ⟨hm, fun r => State.pt_powerOn mem0 r ▸ PointReg.wf_infinity,
    F_wf_powerOn mem0, Hasher.wf_clear, Sponge.wf_clear, Status.wf_clear⟩

end Sys2Proof.Machine
end

section
/-! PROOFS. The flags, the host's reads and writes, `Reset()`, and the control registers as `CFGR` reads
them (rules R24, R25, R55, R60, R65, R135). -/

namespace Sys2Proof.Machine

-- Many theorems elaborated at once need more memory than the check grants.
set_option Elab.async false

/-! ## The flags (R24) -/

/-- A command that has changed a flag is a writer of it and has completed (R24, R361, R362). -/
theorem exec_frame_flag {i : Instr} {s t : State} (h : exec i s = .next t) {q : Part}
    (hq : q = .C ∨ q = .Z ∨ q = .T) (hne : ¬ q.same s t) :
    mayWrite i q = true ∧ t.ST.ERR = okCode := by
  have he : q ∉ [.err, .fault, .errval] := by rcases hq with rfl | rfl | rfl <;> simp
  rcases exec_cases h with ⟨u, -, rfl⟩ | ⟨e, -, rfl⟩
  · exact ⟨Bool.eq_true_of_not_eq_false fun hw => hne (exec_frame h hw he), rfl⟩
  · exact absurd (keeps_raise s e q he) hne

/-- The state with its three flags replaced. -/
def State.withFlags (s : State) (c z t : Bool) : State :=
  { s with ST := { s.ST with C := c, Z := z, T := t } }

/-- What becomes of the effect u of the command i when the flags are c, z, t beforehand: the flags that
i writes are those of u. -/
def reflag (i : Instr) (c z t : Bool) (u : State) : State :=
  u.withFlags (if writesC i then u.ST.C else c) (if writesZ i then u.ST.Z else z)
    (if writesT i then u.ST.T else t)

section
variable {α β : Type} (g : α → β)

@[simp] theorem map_ok (v : α) : (Except.ok v : Except Err α).map g = .ok (g v) := rfl

@[simp] theorem map_check (c : Bool) (e : Err) (k : Except Err α) :
    (check c e k).map g = check c e (k.map g) := by cases c <;> rfl

@[simp] theorem map_andThen {γ : Type} (r : Except Err γ) (k : γ → Except Err α) :
    (andThen r k).map g = andThen r fun v => (k v).map g := by cases r <;> rfl

@[simp] theorem map_withRange (a n : Nat) (k : Except Err α) :
    (withRange a n k).map g = withRange a n (k.map g) := map_check g _ _ _

@[simp] theorem map_withField (s : State) (f : Ctx) (k : FieldCtx → Except Err α) :
    (withField s f k).map g = withField s f fun F => (k F).map g := map_check g _ _ _

@[simp] theorem map_withElement (F : FieldCtx) (v : Word) (k : Nat → Except Err α) :
    (withElement F v k).map g = withElement F v fun a => (k a).map g := map_check g _ _ _

@[simp] theorem map_withCurve (s : State) (k : CurveParams → Except Err α) :
    (withCurve s k).map g = withCurve s fun c => (k c).map g := map_check g _ _ _

@[simp] theorem map_withPoint (c : CurveParams) (P : PointReg) (k : AffPoint → Except Err α) :
    (withPoint c P k).map g = withPoint c P fun Q => (k Q).map g := by
  unfold withPoint
  split <;> simp

@[simp] theorem map_withEcdsa (s : State) (k : CurveParams → AffPoint → Nat → Except Err α) :
    (withEcdsa s k).map g = withEcdsa s fun c G n => (k c G n).map g := by
  simp [withEcdsa]

@[simp] theorem map_withSponge (s : State) (k : Except Err α) :
    (withSponge s k).map g = withSponge s (k.map g) := map_check g _ _ _

@[simp] theorem map_sigCheck (n : Nat) (r s : Word) (k : Except Err α) :
    (sigCheck n r s k).map g = sigCheck n r s (k.map g) := by
  simp [sigCheck]

@[simp] theorem map_withParity (v : Word) (k : Nat → Except Err α) :
    (withParity v k).map g = withParity v fun par => (k par).map g := by
  unfold withParity
  split
  · rfl
  split <;> rfl

end

section
variable (s : State) (c z t : Bool)

@[simp] theorem x_withFlags (i : XReg) : (s.withFlags c z t).x i = s.x i := rfl
@[simp] theorem ea_withFlags (i : AReg) : (s.withFlags c z t).ea i = s.ea i := rfl
@[simp] theorem pt_withFlags (i : PReg) : (s.withFlags c z t).pt i = s.pt i := rfl
@[simp] theorem F_withFlags (f : Ctx) : (s.withFlags c z t).F f = s.F f := by cases f <;> rfl
@[simp] theorem Fbase_withFlags : (s.withFlags c z t).Fbase = s.Fbase := rfl
@[simp] theorem Fscalar_withFlags : (s.withFlags c z t).Fscalar = s.Fscalar := rfl
@[simp] theorem ERRVAL_withFlags : (s.withFlags c z t).ERRVAL = s.ERRVAL := rfl
@[simp] theorem CRV_withFlags : (s.withFlags c z t).CRV = s.CRV := rfl
@[simp] theorem K_withFlags : (s.withFlags c z t).K = s.K := rfl
@[simp] theorem PS_withFlags : (s.withFlags c z t).PS = s.PS := rfl
@[simp] theorem memRead_withFlags (a n : Nat) : (s.withFlags c z t).memRead a n = s.memRead a n := rfl
@[simp] theorem nodes_withFlags (a n : Nat) : (s.withFlags c z t).nodes a n = s.nodes a n := rfl
@[simp] theorem proofFlags_withFlags (a n : Nat) :
    (s.withFlags c z t).proofFlags a n = s.proofFlags a n := rfl
@[simp] theorem curve_withFlags : (s.withFlags c z t).curve = s.curve := rfl
@[simp] theorem curveOK_withFlags : (s.withFlags c z t).curveOK = s.curveOK := rfl
@[simp] theorem generator_withFlags : (s.withFlags c z t).generator = s.generator := rfl
@[simp] theorem p2OK_withFlags : (s.withFlags c z t).p2OK = s.p2OK := rfl
@[simp] theorem readCtl_withFlags (reg : CtlReg) :
    (s.withFlags c z t).readCtl reg = s.readCtl reg := by
  unfold State.readCtl
  cases reg <;> simp [State.ctlValue]

@[simp] theorem withField_withFlags {α : Type} (f : Ctx) (k : FieldCtx → Except Err α) :
    withField (s.withFlags c z t) f k = withField s f k := by simp [withField]
@[simp] theorem withCurve_withFlags {α : Type} (k : CurveParams → Except Err α) :
    withCurve (s.withFlags c z t) k = withCurve s k := rfl
@[simp] theorem withEcdsa_withFlags {α : Type} (k : CurveParams → AffPoint → Nat → Except Err α) :
    withEcdsa (s.withFlags c z t) k = withEcdsa s k := rfl
@[simp] theorem withSponge_withFlags {α : Type} (k : Except Err α) :
    withSponge (s.withFlags c z t) k = withSponge s k := rfl

@[simp] theorem setX_withFlags (j : XReg) (v : Word) :
    (s.withFlags c z t).setX j v = (s.setX j v).withFlags c z t := rfl
@[simp] theorem setXNat_withFlags (j : XReg) (n : Nat) :
    (s.withFlags c z t).setXNat j n = (s.setXNat j n).withFlags c z t := rfl
@[simp] theorem setA_withFlags (j : AReg) (v : Addr) :
    (s.withFlags c z t).setA j v = (s.setA j v).withFlags c z t := rfl
@[simp] theorem setPt_withFlags (j : PReg) (P : PointReg) :
    (s.withFlags c z t).setPt j P = (s.setPt j P).withFlags c z t := rfl
@[simp] theorem setF_withFlags (f : Ctx) (F : FieldCtx) :
    (s.withFlags c z t).setF f F = (s.setF f F).withFlags c z t := by cases f <;> rfl
@[simp] theorem setCRV_withFlags (C : Curve) :
    (s.withFlags c z t).setCRV C = (s.setCRV C).withFlags c z t := rfl
@[simp] theorem setK_withFlags (k : Hasher) :
    (s.withFlags c z t).setK k = (s.setK k).withFlags c z t := rfl
@[simp] theorem setPS_withFlags (p : Sponge) :
    (s.withFlags c z t).setPS p = (s.setPS p).withFlags c z t := rfl
@[simp] theorem memWrite_withFlags (a : Nat) (bs : List Byte) :
    (s.withFlags c z t).memWrite a bs = (s.memWrite a bs).withFlags c z t := rfl
@[simp] theorem setC_withFlags (b : Bool) :
    (s.withFlags c z t).setC b = (s.setC b).withFlags b z t := rfl
@[simp] theorem setZ_withFlags (b : Bool) :
    (s.withFlags c z t).setZ b = (s.setZ b).withFlags c b t := rfl
@[simp] theorem setT_withFlags (b : Bool) :
    (s.withFlags c z t).setT b = (s.setT b).withFlags c z b := rfl

@[simp] theorem optionResult_withFlags (xd : XReg) (r : Option Nat) :
    (s.withFlags c z t).optionResult xd r =
      (s.optionResult xd r).withFlags c z (s.optionResult xd r).ST.T := by cases r <;> rfl

end

/-- The outcome of a command on the state s with other flags is that on s, up to the flags that it does
not write. -/
def FlagBlind (i : Instr) (s : State) (c z t : Bool) : Prop :=
  ∃ r, exec i s = conclude s r ∧
    exec i (s.withFlags c z t) = conclude (s.withFlags c z t) (r.map (reflag i c z t))

/-- `CFGW` does not read the flags (R55, R134). -/
theorem writeCtl_withFlags (s : State) (c z t : Bool) (reg : CtlReg) (v : Word) :
    (s.withFlags c z t).writeCtl reg v = (s.writeCtl reg v).map fun u => u.withFlags c z t := by
  cases reg with
  | model =>
    unfold State.writeCtl
    dsimp only
    cases modelOf v <;> rfl
  | cofactor | cofactorInv | p | r1 | r2 | inv | s | valid | errval | kActive | kPos | p2T | p2D
  | p2RF | p2RP | p2P | psIdx | psSqueezed | psSqidx => rfl
  | _ => simp [State.writeCtl, withElementOf]

/-- No command reads a flag (R24): its checks read other parts, and its effect commutes with replacing
the flags. (Where a `rfl` follows, the two sides differ in the `Decidable` term of a check alone.) -/
theorem exec_flagBlind (i : Instr) (s : State) (c z t : Bool) : FlagBlind i s c z t := by
  cases i with
  | nop => exact ⟨.ok s, by rfl, by rfl⟩
  | li | mov => exact ⟨.ok _, by rfl, by rfl⟩
  | uadd | usub | ushl1 | ushr1 =>
    exact ⟨.ok _, by rfl,
      by simp [exec, execUadd, execUsub, execUshl1, execUshr1, reflag, writesC, writesZ, writesT]⟩
  | ucmp | ubit | unumbits | utest =>
    exact ⟨.ok _, by rfl,
      by simp [exec, execUcmp, execUbit, execUnumbits, execUtest, reflag, writesC, writesZ, writesT]⟩
  | setmod =>
    exact ⟨check _ _ (.ok _), by rfl,
      by simp [exec, execSetmod, reflag, writesC, writesZ, writesT]; rfl⟩
  | cfgr | umul =>
    exact ⟨check _ _ (.ok _), by rfl,
      by simp [exec, execCfgr, execUmul, reflag, writesC, writesZ, writesT]⟩
  | cfgw reg xs =>
    exact ⟨s.writeCtl reg (s.x xs), by rfl, congrArg (conclude _) (writeCtl_withFlags s c z t reg _)⟩
  | ldle | ldbe =>
    exact ⟨withRange _ _ (check _ _ (.ok _)), by rfl,
      by simp [exec, execLdle, execLdbe, withLoad, reflag, writesC, writesZ, writesT]; rfl⟩
  | stle | stbe =>
    exact ⟨withRange _ _ (.ok _), by rfl,
      by simp [exec, execStle, execStbe, reflag, writesC, writesZ, writesT]⟩
  | fldmod =>
    exact ⟨withRange _ _ (withField s _ fun F => .ok _), by rfl,
      by simp [exec, execFldmod, reflag, writesC, writesZ, writesT]⟩
  | ffrom | finto | fneg | fsqr | fdbl | fpow =>
    exact ⟨_, fieldUnary_eq _ _ _ s _, by
      simp [exec, execFfrom, execFinto, execFneg, execFsqr, execFdbl, execFpow,
        fieldUnary_eq, reflag, writesC, writesZ, writesT]⟩
  | fadd | fsub | fmul =>
    exact ⟨_, fieldBinary_eq _ _ _ _ s _, by
      simp [exec, execFadd, execFsub, execFmul, fieldBinary_eq, reflag, writesC, writesZ, writesT]⟩
  | finv | fsqrt | fconst =>
    exact ⟨withField s _ fun F => _, by rfl,
      by simp [exec, execFinv, execFsqrt, execFconst, reflag, writesC, writesZ, writesT]⟩
  | pset | pinf | pgen | padd | peq | pisid =>
    exact ⟨withCurve s fun k => _, by rfl, by
      simp [exec, execPset, execPinf, execPgen, execPadd, execPeq, execPisid, reflag, writesC, writesZ, writesT]⟩
  | pdbl | pneg | pmul =>
    exact ⟨withCurve s fun k => withPoint k _ fun P => andThen _ fun Q => .ok _, by rfl,
      by simp [exec, execPdbl, execPneg, execPmul, pointUnary, reflag, writesC, writesZ, writesT]⟩
  | pget =>
    exact ⟨check _ _ (withCurve s fun k => _), by rfl,
      by simp [exec, execPget, reflag, writesC, writesZ, writesT]⟩
  | pmov => exact ⟨.ok _, by rfl, by rfl⟩
  | kinit => exact ⟨.ok _, by rfl, by rfl⟩
  | kupdate | kfinal =>
    exact ⟨withRange _ _ (check _ _ (.ok _)), by rfl,
      by simp [exec, execKupdate, execKfinal, reflag, writesC, writesZ, writesT]⟩
  | hpair | mverify | mverifym =>
    exact ⟨withRange _ _ (withRange _ _ (withRange _ _ _)), by rfl,
      by simp [exec, execHpair, execMverify, execMverifym, reflag, writesC, writesZ, writesT]⟩
  | esign =>
    exact ⟨check _ _ (withEcdsa s fun k G n => _), by rfl,
      by simp [exec, execEsign, reflag, writesC, writesZ, writesT]; rfl⟩
  | everify | erecover =>
    exact ⟨withEcdsa s fun k G n => _, by rfl,
      by simp [exec, execEverify, execErecover, reflag, writesC, writesZ, writesT]⟩
  | p2init | p2absorb | p2squeeze | p2perm =>
    exact ⟨withSponge s _, by rfl, by
      simp [exec, execP2init, execP2absorb, execP2squeeze, execP2perm, reflag, writesC, writesZ, writesT]⟩

/-- Two states that differ in the flags alone. -/
theorem eq_withFlags {s s' : State} (h : Keeps s s' [.C, .Z, .T]) (hm : s'.MEM = s.MEM) :
    s' = s.withFlags s'.ST.C s'.ST.Z s'.ST.T := by
  have hx : s'.xreg = s.xreg := Vector.ext fun i hi => h (.x ⟨i, hi⟩) (by simp)
  have ha : s'.areg = s.areg := Vector.ext fun i hi => h (.a ⟨i, hi⟩) (by simp)
  have hp : s'.ptreg = s.ptreg := Vector.ext fun i hi => h (.pt ⟨i, hi⟩) (by simp)
  have hf : s'.ST.FAULT = s.ST.FAULT := h .fault (by simp)
  have he : s'.ST.ERR = s.ST.ERR := h .err (by simp)
  have hv : s'.ERRVAL = s.ERRVAL := h .errval (by simp)
  have hb : s'.Fbase = s.Fbase := h (.field .base) (by simp)
  have hs : s'.Fscalar = s.Fscalar := h (.field .scalar) (by simp)
  have hc : s'.CRV = s.CRV := h .curve (by simp)
  have hK : s'.K = s.K := h .hasher (by simp)
  have hP : s'.PS = s.PS := h .sponge (by simp)
  have hn : s'.pending = s.pending := h .pending (by simp)
  have hr : s'.reply = s.reply := h .reply (by simp)
  unfold State.withFlags
  dsimp only
  rw [← hx, ← ha, ← hp, ← hf, ← he, ← hv, ← hb, ← hs, ← hc, ← hK, ← hP, ← hm, ← hn, ← hr]

theorem keeps_withFlags (s : State) (c z t : Bool) : Keeps s (s.withFlags c z t) [.C, .Z, .T] := by
  intro q hq
  cases q with
  | C | Z | T => exact absurd hq (by simp)
  | field f => exact F_withFlags s c z t f
  | _ => rfl

/-- Settles O12: the writers by the frame of a command, the readers because no command reads a flag. -/
theorem flagRule : Obligations.FlagRule := by
  refine ⟨fun i s t h => ⟨exec_frame_flag h (.inl rfl), exec_frame_flag h (.inr (.inl rfl)),
    exec_frame_flag h (.inr (.inr rfl))⟩, fun i s s' t t' hk hm h h' => ?_⟩
  obtain ⟨r, hr, hr'⟩ := exec_flagBlind i s s'.ST.C s'.ST.Z s'.ST.T
  rw [← eq_withFlags hk hm] at hr'
  rw [hr] at h
  rw [hr'] at h'
  cases r with
  | ok u =>
    cases h
    cases h'
    exact ⟨keeps_withFlags (u.setERR okCode) _ _ _,
      fun _ => ⟨fun hw => if_pos hw, fun hw => if_pos hw, fun hw => if_pos hw⟩⟩
  | error e =>
    cases h
    cases h'
    refine ⟨?_, fun h0 => absurd h0 (errCode_ne_ok e)⟩
    rw [eq_withFlags hk hm]
    exact keeps_withFlags (s.raise e) _ _ _

/-! ## The host's reads and writes (R25, R60) -/

/-- The bits of the low byte of `STATUS`: `BUSY`, `FAULT`, C, Z, T and three reserved bits (R25). -/
def statusByte (f c z t : Bool) : List Bool := [false, f, c, z, t, false, false, false]

theorem testBit_statusByte (f c z t : Bool) : ∀ k < 8,
    (boolNat f * 2 + boolNat c * 4 + boolNat z * 8 + boolNat t * 16).testBit k =
      (statusByte f c z t).getD k false := by
  cases f <;> cases c <;> cases z <;> cases t <;> decide

theorem boolNat_le (b : Bool) : boolNat b ≤ 1 := by cases b <;> decide

/-- The bits of `STATUS`: the flags in the low byte, the outcome code above it (R25). -/
theorem getLsbD_status (s : State) (k : Nat) : s.status.getLsbD k =
    if k < 8 then (statusByte s.ST.FAULT s.ST.C s.ST.Z s.ST.T).getD k false
    else s.ST.ERR.getLsbD (k - 8) := by
  have hf := boolNat_le s.ST.FAULT
  have hc := boolNat_le s.ST.C
  have hz := boolNat_le s.ST.Z
  have ht := boolNat_le s.ST.T
  have hsum : boolNat s.ST.FAULT * 2 + boolNat s.ST.C * 4 + boolNat s.ST.Z * 8 + boolNat s.ST.T * 16 +
      s.ST.ERR.toNat * 256 = 2 ^ 8 * s.ST.ERR.toNat +
        (boolNat s.ST.FAULT * 2 + boolNat s.ST.C * 4 + boolNat s.ST.Z * 8 + boolNat s.ST.T * 16) := by
    omega
  unfold State.status
  rw [BitVec.getLsbD_ofNat, hsum, Nat.testBit_two_pow_mul_add _ (by omega)]
  split
  · rename_i hk
    rw [testBit_statusByte _ _ _ _ k hk, decide_eq_true (by omega), Bool.true_and]
  · by_cases hk : k < 32
    · rw [decide_eq_true hk, Bool.true_and]
      rfl
    · rw [decide_eq_false hk, Bool.false_and, BitVec.getLsbD_of_ge _ _ (by omega)]

theorem getLsbD_status_code (s : State) {k : Nat} (hk : 8 ≤ k) :
    s.status.getLsbD k = s.ST.ERR.getLsbD (k - 8) := by
  rw [getLsbD_status, if_neg (by omega)]

/-- The moves of the host that only read change its side of the port alone (R60). -/
theorem keeps_port (s : State) (ms : List HostMove) (r : HostReply) :
    Keeps s { s with pending := ms, reply := r } [.pending, .reply] := by
  intro q hq
  cases q with
  | pending | reply => exact absurd hq (by simp)
  | field f => cases f <;> rfl
  | _ => rfl

/-- `HostWrite` changes one byte beside the host's side of the port (R60). -/
theorem keeps_hostWrite (s : State) (a : Nat) (b : Byte) (ms : List HostMove) :
    Keeps s { s.atMove ms with MEM := s.MEM.write a b } [.byte a, .pending, .reply] := by
  intro q hq
  cases q with
  | byte k => exact Memory.read_write_ne s.MEM b (by simpa using hq)
  | pending | reply => exact absurd hq (by simp)
  | field f => cases f <;> rfl
  | _ => rfl

/-- Settles O6, by the bits of `STATUS` and the frames of the three moves. -/
theorem hostReadsAndWrites : Obligations.HostReadsAndWrites := by
  refine ⟨⟨fun s => ⟨?_, ?_, ?_, ?_, ?_, fun k h5 h7 => ?_, fun k h8 _ => getLsbD_status_code s h8,
    fun k h16 => ?_⟩, fun s ms hp => ⟨_, step_cons hp, rfl, rfl, keeps_port s ms _⟩⟩,
    fun s addr b ms hm hp => ⟨_, step_cons hp, Memory.read_write_same hm _ b, rfl,
      keeps_hostWrite s _ b ms⟩,
    fun s addr ms hp => ⟨_, step_cons hp, rfl, rfl, keeps_port s ms _⟩⟩
  iterate 5 exact getLsbD_status s _
  · rw [getLsbD_status, if_pos (by omega)]
    obtain rfl | rfl | rfl : k = 5 ∨ k = 6 ∨ k = 7 := by omega
    all_goals rfl
  · rw [getLsbD_status_code s (by omega), BitVec.getLsbD_of_ge _ _ (by omega)]

/-! ## Reset (R65) -/

/-- Settles O7, element by element; the move `Reset()` is a power-on with the same `MEM`. -/
theorem resetRule : Obligations.ResetRule := by
  refine ⟨?_, fun s ms hp => step_cons hp⟩
  rintro mem0 _ rfl
  refine ⟨fun i => ?_, fun i => ?_, State.pt_powerOn mem0, rfl, rfl, State.F_powerOn mem0, rfl, rfl,
    fun k => ?_, rfl, slot_clear, rfl, rfl, rfl, rfl⟩
  · simp [State.x, State.powerOn, Vector.get_eq_getElem]
  · simp [State.a, State.powerOn, Vector.get_eq_getElem]
  · simp [State.powerOn, Hasher.clear]

/-! ## Reading the control registers (R55, R135) -/

/-- The word of `CFGR xd, c` decodes to the command (R101, R105). -/
theorem encodes_cfgr (xd : XReg) {c : CtlReg} (hc : c.present = true) :
    Encodes (0x05 * 2 ^ 24 + xd.val * 2 ^ 20 + ctxBit (ctlCtx c) * 2 ^ 8 + ctlNumber c)
      (.cfgr xd c) := by
  have hx := xd.isLt
  have hf := ctxBit_lt (ctlCtx c)
  have hn := ctlNumber_lt c
  unfold Encodes
  generalize hw : BitVec.ofNat 32 _ = w
  have hv : w.toNat = 0x05 * 2 ^ 24 + xd.val * 2 ^ 20 + ctxBit (ctlCtx c) * 2 ^ 8 + ctlNumber c := by
    rw [← hw, BitVec.toNat_ofNat]
    omega
  have hop : field w 31 24 = 0x05 := by unfold field; omega
  have hxd : field w 23 20 = xd.val := by unfold field; omega
  have hrs1 : field w 19 16 = 0 := by unfold field; omega
  have hrs2 : field w 15 12 = 0 := by unfold field; omega
  have hgap : field w 11 9 = 0 := by unfold field; omega
  have hctx : field w 8 8 = ctxBit (ctlCtx c) := by unfold field; omega
  have hnum : field w 7 0 = ctlNumber c := by unfold field; omega
  unfold decode
  simp only [hop]
  rw [withCtlField_eq hctx hnum, xField_eq hxd,
    checked_eq (i := .cfgr xd c) hc]
  simp [formatC, usedOrZero, hrs1, hrs2, hgap]

/-- `CFGR` of a register that the engine has completes and delivers its value (R135). -/
theorem exec_cfgr (xd : XReg) {c : CtlReg} (s : State) (hc : c.present = true) :
    ∃ t, exec (.cfgr xd c) s = .next t ∧ Completed s t [.x xd] ∧
      t.x xd = BitVec.ofNat 256 (s.ctlValue c) :=
  ⟨_, exec_of_effect ⟨hc, rfl⟩, completed_setERR (keeps_setX s xd _), State.x_setX_same s xd _⟩

/-- What the number and the context bit of a register read as (R55). -/
theorem readsAs_ctl (s : State) {c : CtlReg} (hc : c.present = true) :
    ReadsAs s (ctlCtx c) (ctlNumber c) (s.ctlValue c) := by
  intro xd
  obtain ⟨t, ht⟩ := exec_cfgr xd s hc
  exact ⟨c, t, encodes_cfgr xd hc, ht⟩

/-- `CRV.MODEL` reads as the number of the model (R40). -/
theorem readsAs_model {s : State} {m : CurveModel} (h : s.CRV.MODEL = m) :
    ReadsAs s .base 0x10 (modelNumber m) :=
  h ▸ readsAs_ctl s (c := .model) rfl

/-- `PS.STATE[i]` can be read for every slot that the engine has (R55). -/
theorem readsAs_slot (s : State) {i : Nat} (hi : i < Config.p2rom.T) :
    ReadsAs s .base (0x40 + i) (slot s.PS.STATE i).toNat := by
  have hT := Config.p2rom.T_spec.2
  exact readsAs_ctl s (c := .psState ⟨i, by omega⟩) (decide_eq_true hi)

/-- Settles O22: each number of R55 is that of one register, read by `readsAs_ctl`. -/
theorem cfgrRule : Obligations.CfgrRule := by
  refine ⟨fun xd c s hc => ⟨encodes_cfgr xd hc, exec_cfgr xd s hc⟩, fun s => ?_⟩
  have reads : ∀ c : CtlReg, c.present = true → ReadsAs s (ctlCtx c) (ctlNumber c) (s.ctlValue c) :=
    fun c => readsAs_ctl s
  exact ⟨fun f => ⟨reads (.p f) rfl, reads (.r1 f) rfl, reads (.r2 f) rfl, reads (.inv f) rfl,
      reads (.s f) rfl, reads (.gen f) rfl, reads (.root2 f) rfl, reads (.valid f) rfl⟩,
    readsAs_model, readsAs_model, readsAs_model, reads .ca rfl, reads .cb rfl, reads .gx rfl,
    reads .gy rfl, reads .cofactor rfl, reads .cofactorInv rfl, reads .errval rfl, reads .kActive rfl,
    reads .kPos rfl, reads .p2T rfl, reads .p2D rfl, reads .p2RF rfl, reads .p2RP rfl, reads .p2P rfl,
    reads .psIdx rfl, reads .psSqueezed rfl, reads .psSqidx rfl, fun i => readsAs_slot s⟩

end Sys2Proof.Machine
end

section
/-! PROOFS. The canonical form of `MEM`, kept by every step (rules R70 to R80, log entry 1). -/

namespace Sys2Proof.Machine

-- Many theorems elaborated at once need more memory than the check grants.
set_option Elab.async false

@[simp] theorem State.MEM_optionResult (s : State) (xd : XReg) (r : Option Nat) :
    (s.optionResult xd r).MEM = s.MEM := by cases r <;> rfl

/-- A command outside the list of R71 that completes keeps the list of cells itself; its frame
(`Effect.frame`) says only that every byte reads as before. -/
theorem Effect.MEM_eq {i : Instr} {s u : State} (h : Effect i s u) (hw : writesMemory i = false) :
    u.MEM = s.MEM := by
  cases i with
  | stle | stbe | kfinal | hpair => cases hw
  | cfgw c xs =>
    rcases writeCtl_eq_ok h with ⟨f, -, -, rfl | rfl⟩ | ⟨C, rfl⟩ | ⟨k, -, -, -, rfl⟩
    all_goals simp
  | nop | li | mov | uadd | usub | ushl1 | ushr1 | ucmp | ubit | unumbits | utest | pmov | kinit =>
    obtain rfl := h
    rfl
  | setmod | finv =>
    obtain ⟨-, rfl⟩ := h
    simp
  | cfgr | umul | ffrom | finto | fadd | fsub | fneg | fmul | fsqr | fdbl | fpow | fconst | pinf | pneg
  | peq | pisid | p2init | p2squeeze | p2perm =>
    obtain ⟨-, rfl⟩ := h
    rfl
  | fsqrt =>
    obtain ⟨-, -, rfl⟩ := h
    simp
  | ldle | ldbe | fldmod | pset | pgen | pget | kupdate =>
    obtain ⟨-, -, rfl⟩ := h
    rfl
  | mverify | p2absorb =>
    obtain ⟨-, -, -, rfl⟩ := h
    rfl
  | mverifym =>
    obtain ⟨-, -, -, -, rfl⟩ := h
    rfl
  | padd | pdbl | pmul =>
    obtain ⟨-, Q, -, rfl⟩ := h
    rfl
  | esign =>
    obtain ⟨-, -, -, rsv, -, rfl⟩ := h
    rfl
  | everify =>
    obtain ⟨-, -, -, b, -, rfl⟩ := h
    rfl
  | erecover =>
    obtain ⟨-, -, -, par, -, addr, -, rfl⟩ := h
    rfl

/-- Storing 32 bytes, all a command ever stores, keeps the canonical form when the operand range
passes its check (R74, R80). -/
theorem State.MEM_wf_memWrite {s : State} (hs : Memory.wf s.MEM) {a : Nat} (ha : a + 32 ≤ 65536)
    {bs : List Byte} (hbs : bs.length = 32) : Memory.wf (s.memWrite a bs).MEM :=
  Memory.wf_writeBytes hs bs a (hbs.symm ▸ ha)

/-- A command that completes keeps the canonical form of `MEM` (R71, R80). -/
theorem Effect.MEM_wf {i : Instr} {s u : State} (h : Effect i s u) (hs : Memory.wf s.MEM) :
    Memory.wf u.MEM := by
  cases hw : writesMemory i with
  | false =>
    rw [h.MEM_eq hw]
    exact hs
  | true =>
    cases i with
    | stle =>
      obtain ⟨ha, rfl⟩ := h
      exact State.MEM_wf_memWrite hs ha (length_toLE _ 32)
    | stbe =>
      obtain ⟨ha, rfl⟩ := h
      exact State.MEM_wf_memWrite hs ha (length_toBE _ 32)
    | kfinal =>
      obtain ⟨ha, -, rfl⟩ := h
      rw [State.MEM_setK]
      exact State.MEM_wf_memWrite hs ha (length_finish _)
    | hpair =>
      obtain ⟨-, -, ha, rfl⟩ := h
      exact State.MEM_wf_memWrite hs ha (length_hashPair _ _)
    | _ => cases hw

/-- The host writes at a 16-bit address, so its writes are in range too. This is why the move is split
here: `step_preserves` asks for a write at any number. -/
theorem makeMove_MEM_wf {m : HostMove} {s t : State} (h : makeMove m s = .next t)
    (hs : Memory.wf s.MEM) : Memory.wf t.MEM := by
  cases m with
  | issue w =>
    rcases issue_cases h with rfl | ⟨-, ⟨e, rfl⟩ | ⟨i, u, hu, rfl⟩⟩
    · exact hs
    · exact hs
    · exact hu.MEM_wf hs
  | hostWrite addr b =>
    cases h
    exact Memory.wf_write hs addr.isLt b
  | readStatus | hostRead | reset =>
    cases h
    exact hs

/-- Settles O14: an idle engine keeps its memory, and each move of the host keeps its form. -/
theorem memoryFormKept : Obligations.MemoryFormKept := by
  intro s t hs h
  cases hp : s.pending with
  | nil =>
    rw [step_nil hp] at h
    cases h
    exact hs
  | cons m ms =>
    rw [step_cons hp] at h
    exact makeMove_MEM_wf h hs

end Sys2Proof.Machine
end

section
/-! PROOFS. The command encoding: the words of each format and the fields that the decoder reads,
the decoder and the encoder as inverses of each other, and the words that are no command (rules R100
to R112). -/

namespace Sys2Proof

-- Many theorems elaborated at once need more memory than the check grants.
set_option Elab.async false

/-! ## A word and its fields (R10, R101) -/

theorem field_lt (w : CmdWord) (hi lo : Nat) : field w hi lo < 2 ^ (hi + 1 - lo) :=
  Nat.mod_lt _ (Nat.two_pow_pos _)

/-- A field is made of the field of its upper bits and the field of its lower bits. -/
theorem field_split (w : CmdWord) {hi mid lo : Nat} (h1 : lo ≤ mid) (h2 : mid < hi) :
    field w hi lo = field w hi (mid + 1) * 2 ^ (mid + 1 - lo) + field w mid lo := by
  obtain ⟨d, rfl⟩ := Nat.exists_eq_add_of_le h1
  obtain ⟨e, rfl⟩ := Nat.exists_eq_add_of_lt h2
  unfold field
  rw [show lo + d + e + 1 + 1 - lo = (d + 1) + (e + 1) by omega,
    show lo + d + e + 1 + 1 - (lo + d + 1) = e + 1 by omega, show lo + d + 1 - lo = d + 1 by omega,
    Nat.add_assoc lo d 1, Nat.pow_add 2 (d + 1), Nat.mod_mul, Nat.div_div_eq_div_mul,
    ← Nat.pow_add]
  ring

theorem field_eq_toNat (w : CmdWord) : field w 31 0 = w.toNat := by
  rw [field, Nat.pow_zero, Nat.div_one]
  exact Nat.mod_eq_of_lt w.isLt

/-- The equations between the fields that rule R101 cuts a word into and the longer fields that they
make up: with them and the bounds of the fields, facts about words are linear. -/
theorem field_equations (w : CmdWord) :
    w.toNat = field w 31 24 * 2 ^ 24 + field w 23 0 ∧
    field w 23 0 = field w 23 20 * 2 ^ 20 + field w 19 0 ∧
    field w 19 0 = field w 19 16 * 2 ^ 16 + field w 15 0 ∧
    field w 15 0 = field w 15 12 * 2 ^ 12 + field w 11 0 ∧
    field w 11 0 = field w 11 8 * 2 ^ 8 + field w 7 0 ∧
    field w 11 8 = field w 11 9 * 2 ^ 1 + field w 8 8 ∧
    field w 7 0 = field w 7 4 * 2 ^ 4 + field w 3 0 := by
  rw [← field_eq_toNat w]
  refine ⟨?_, ?_, ?_, ?_, ?_, ?_, ?_⟩ <;> exact field_split w (by decide) (by decide)

theorem field_bounds (w : CmdWord) :
    field w 31 24 < 256 ∧ field w 23 20 < 16 ∧ field w 19 16 < 16 ∧ field w 15 12 < 16 ∧
    field w 11 9 < 8 ∧ field w 8 8 < 2 ∧ field w 7 4 < 16 ∧ field w 3 0 < 16 := by
  refine ⟨?_, ?_, ?_, ?_, ?_, ?_, ?_, ?_⟩ <;> exact field_lt w _ _

/-! ## The words of each format, by their fields (R101) -/

theorem encodeR_eq_iff {w : CmdWord} {op rd rs1 rs2 f : Nat} (ho : op < 256) (hd : rd < 16)
    (h1 : rs1 < 16) (h2 : rs2 < 16) (hf : f ≤ 1) : encodeR op rd rs1 rs2 f = w ↔
      field w 31 24 = op ∧ field w 23 20 = rd ∧ field w 19 16 = rs1 ∧ field w 15 12 = rs2 ∧
        field w 11 9 = 0 ∧ field w 8 8 = f ∧ field w 7 0 = 0 := by
  have he := field_equations w
  have hb := field_bounds w
  rw [← BitVec.toNat_inj, toNat_encodeR ho hd h1 h2 (Nat.lt_succ_of_le hf)]
  omega

theorem encodeC_eq_iff {w : CmdWord} {op rd rs1 f imm : Nat} (ho : op < 256) (hd : rd < 16)
    (h1 : rs1 < 16) (hf : f ≤ 1) (hi : imm < 256) : encodeC op rd rs1 f imm = w ↔
      field w 31 24 = op ∧ field w 23 20 = rd ∧ field w 19 16 = rs1 ∧ field w 15 12 = 0 ∧
        field w 11 9 = 0 ∧ field w 8 8 = f ∧ field w 7 0 = imm := by
  have he := field_equations w
  have hb := field_bounds w
  rw [← BitVec.toNat_inj, toNat_encodeC ho hd h1 (Nat.lt_succ_of_le hf) hi]
  omega

theorem encodeI_eq_iff {w : CmdWord} {op rd imm : Nat} (ho : op < 256) (hd : rd < 16)
    (hi : imm < 65536) : encodeI op rd imm = w ↔
      field w 31 24 = op ∧ field w 23 20 = rd ∧ field w 19 16 = 0 ∧ field w 15 0 = imm := by
  have he := field_equations w
  have hb := field_bounds w
  rw [← BitVec.toNat_inj, toNat_encodeI ho hd hi]
  omega

theorem encodeQ_eq_iff {w : CmdWord} {op q1 q2 q3 q4 q5 : Nat} (ho : op < 256) (h1 : q1 < 16)
    (h2 : q2 < 16) (h3 : q3 < 16) (h4 : q4 < 16) (h5 : q5 < 16) : encodeQ op q1 q2 q3 q4 q5 = w ↔
      field w 31 24 = op ∧ field w 23 20 = q1 ∧ field w 19 16 = q2 ∧ field w 15 12 = q3 ∧
        field w 11 8 = q4 ∧ field w 7 4 = q5 ∧ field w 3 0 = 0 := by
  have he := field_equations w
  have hb := field_bounds w
  rw [← BitVec.toNat_inj, toNat_encodeQ ho h1 h2 h3 h4 h5]
  omega

/-! ## The used fields of a word -/

/-- The bits hi to lo of a word, for a field that the command does not use 0 (R101). -/
def usedField (w : CmdWord) (used : Bool) (hi lo : Nat) : Nat := if used then field w hi lo else 0

@[simp] theorem usedField_true (w : CmdWord) (hi lo : Nat) :
    usedField w true hi lo = field w hi lo := rfl

@[simp] theorem usedField_false (w : CmdWord) (hi lo : Nat) : usedField w false hi lo = 0 := rfl

theorem usedOrZero_iff {w : CmdWord} {used : Bool} {hi lo : Nat} :
    usedOrZero w used hi lo = true ↔ field w hi lo = usedField w used hi lo := by
  cases used <;> simp [usedOrZero]

theorem usedField_lt (w : CmdWord) (used : Bool) (hi lo : Nat) :
    usedField w used hi lo < 2 ^ (hi + 1 - lo) := by
  cases used with
  | true => exact field_lt w hi lo
  | false => exact Nat.two_pow_pos _

/-! ## Each format accepts the words that its used fields make (R101, R102) -/

theorem formatR_eq_ite (w : CmdWord) (rd rs1 rs2 f : Bool) (k : Except DecodeError Instr) :
    formatR w rd rs1 rs2 f k =
      if encodeR (field w 31 24) (usedField w rd 23 20) (usedField w rs1 19 16)
          (usedField w rs2 15 12) (usedField w f 8 8) = w
      then k else .error .nonzeroField := by
  unfold formatR
  simp only [Bool.and_eq_true, usedOrZero_iff, usedField_false, true_and, and_assoc,
    encodeR_eq_iff (field_lt w 31 24) (usedField_lt w rd 23 20) (usedField_lt w rs1 19 16)
      (usedField_lt w rs2 15 12) (Nat.le_of_lt_succ (usedField_lt w f 8 8))]

theorem formatZ_eq_ite (w : CmdWord) (k : Except DecodeError Instr) :
    formatZ w k = if encodeR (field w 31 24) 0 0 0 0 = w then k else .error .nonzeroField := by
  unfold formatZ
  refine if_congr ?_ rfl rfl
  rw [usedOrZero_iff, usedField_false, encodeR_eq_iff (field_lt w 31 24) (by decide) (by decide)
    (by decide) (by decide)]
  have he := field_equations w
  omega

theorem formatC_eq_ite (w : CmdWord) (rd rs1 f : Bool) (k : Except DecodeError Instr) :
    formatC w rd rs1 f k =
      if encodeC (field w 31 24) (usedField w rd 23 20) (usedField w rs1 19 16)
          (usedField w f 8 8) (field w 7 0) = w
      then k else .error .nonzeroField := by
  unfold formatC
  simp only [Bool.and_eq_true, usedOrZero_iff, usedField_false, true_and, and_true, and_assoc,
    encodeC_eq_iff (field_lt w 31 24) (usedField_lt w rd 23 20) (usedField_lt w rs1 19 16)
      (Nat.le_of_lt_succ (usedField_lt w f 8 8)) (field_lt w 7 0)]

theorem formatI_eq_ite (w : CmdWord) (k : Except DecodeError Instr) :
    formatI w k = if encodeI (field w 31 24) (field w 23 20) (field w 15 0) = w
      then k else .error .nonzeroField := by
  unfold formatI
  simp only [usedOrZero_iff, usedField_false, true_and, and_true,
    encodeI_eq_iff (field_lt w 31 24) (field_lt w 23 20) (field_lt w 15 0)]

/-- Format Q for a command whose last used field is its third, fourth or fifth. -/
theorem formatQ_eq_ite (w : CmdWord) {low : Nat} (hl : low = 12 ∨ low = 8 ∨ low = 4)
    (k : Except DecodeError Instr) :
    formatQ w low k =
      if encodeQ (field w 31 24) (field w 23 20) (field w 19 16) (field w 15 12)
          (usedField w (low ≤ 8) 11 8) (usedField w (low ≤ 4) 7 4) = w
      then k else .error .nonzeroField := by
  unfold formatQ
  refine if_congr ?_ rfl rfl
  rw [usedOrZero_iff, usedField_false, encodeQ_eq_iff (field_lt w 31 24) (field_lt w 23 20)
    (field_lt w 19 16) (field_lt w 15 12) (usedField_lt w _ 11 8) (usedField_lt w _ 7 4)]
  have he := field_equations w
  rcases hl with rfl | rfl | rfl <;> simp <;> omega

/-! ## The operands that the decoder reads (R102, R103, R106) -/

theorem val_xField (w : CmdWord) (lo : Nat) : (xField w lo).val = field w (lo + 3) lo := by
  unfold xField field
  rw [Fin.val_ofNat, show lo + 3 + 1 - lo = 4 by omega]
  omega

theorem toNat_immediate8 (w : CmdWord) : (BitVec.ofNat 8 (field w 7 0)).toNat = field w 7 0 := by
  rw [BitVec.toNat_ofNat]
  exact Nat.mod_eq_of_lt (field_lt w 7 0)

theorem toNat_immediate16 (w : CmdWord) :
    (BitVec.ofNat 16 (field w 15 0)).toNat = field w 15 0 := by
  rw [BitVec.toNat_ofNat]
  exact Nat.mod_eq_of_lt (field_lt w 15 0)

theorem ctxBit_le_one (f : Ctx) : ctxBit f ≤ 1 := Nat.le_of_lt_succ (ctxBit_lt f)

theorem ctxBit_ctxField (w : CmdWord) : ctxBit (ctxField w) = field w 8 8 := by
  have h : field w 8 8 < 2 := field_lt w 8 8
  unfold ctxField
  split <;> simp only [ctxBit] <;> omega

theorem xField_eq_iff {w : CmdWord} {lo : Nat} {r : XReg} :
    xField w lo = r ↔ field w (lo + 3) lo = r.val := by
  rw [← val_xField, Fin.ext_iff]

theorem ctxField_eq_iff {w : CmdWord} {f : Ctx} : ctxField w = f ↔ field w 8 8 = ctxBit f := by
  refine ⟨fun h => ?_, ctxField_eq⟩
  rw [← h, ctxBit_ctxField]

/-- An address- or point-register index is a field of four bits with a value below 8 (R102). -/
theorem withSmallField_eq_ite (w : CmdWord) (lo : Nat) (k : Fin 8 → Except DecodeError Instr) :
    withSmallField w lo k =
      if field w (lo + 3) lo < 8 then k (Fin.ofNat 8 (field w (lo + 3) lo))
      else .error .registerField := by
  have hdiv : w.toNat / 2 ^ (lo + 3) = w.toNat / 2 ^ lo / 8 := by
    rw [Nat.pow_add, Nat.div_div_eq_div_mul]
  unfold withSmallField field
  rw [hdiv, show lo + 3 + 1 - (lo + 3) = 1 by omega, show lo + 3 + 1 - lo = 4 by omega,
    show lo + 2 + 1 - lo = 3 by omega]
  generalize w.toNat / 2 ^ lo = n
  by_cases h : n % 2 ^ 4 < 8
  · rw [if_pos (by omega), if_pos h]
    congr 1
    exact Fin.ext (by simp only [Fin.val_ofNat]; omega)
  · rw [if_neg (by omega), if_neg h]

/-- A number names a control register only with the number and the context bit of R55. -/
theorem ctlReg_eq_some {f : Ctx} {n : Nat} {c : CtlReg} (h : ctlReg f n = some c) :
    ctlNumber c = n ∧ ctlCtx c = f := by
  unfold ctlReg at h
  split at h
  case h_9 =>
    cases f with
    | scalar => cases h
    | base =>
      simp only at h
      split at h
      case h_19 =>
        split at h
        · rename_i hc
          cases h
          exact ⟨by simp only [ctlNumber, Fin.val_ofNat]; omega, rfl⟩
        · cases h
      all_goals cases h; exact ⟨rfl, rfl⟩
  all_goals cases h; exact ⟨rfl, rfl⟩

theorem checked_eq_ok {i j : Instr} : checked i = .ok j ↔ i = j ∧ j.wf = true := by
  unfold checked
  split
  · rename_i h
    exact ⟨fun hij => by cases hij; exact ⟨rfl, h⟩, fun hij => hij.1 ▸ rfl⟩
  · rename_i h
    exact ⟨fun hij => (nomatch hij), fun hij => absurd (hij.1 ▸ hij.2) h⟩

/-! ## A word that decodes is the encoding of its command -/

/-- What the decoder answers for w is exact: a command is well-formed, and its encoding is w. -/
def ExactAnswer (w : CmdWord) (r : Except DecodeError Instr) : Prop :=
  ∀ i, r = .ok i → i.wf = true ∧ encode i = w

section

variable {w : CmdWord}

theorem exactAnswer_error (e : DecodeError) : ExactAnswer w (.error e) := fun _ h => nomatch h

theorem exactAnswer_ok {i : Instr} : ExactAnswer w (.ok i) ↔ i.wf = true ∧ encode i = w :=
  ⟨fun h => h i rfl, fun h j hj => by cases hj; exact h⟩

theorem exactAnswer_ite {c : Prop} [Decidable c] {k : Except DecodeError Instr} (e : DecodeError) :
    ExactAnswer w (if c then k else .error e) ↔ (c → ExactAnswer w k) := by
  by_cases h : c <;> simp [h, exactAnswer_error]

theorem exactAnswer_checked {i : Instr} :
    ExactAnswer w (checked i) ↔ (i.wf = true → encode i = w) := by
  rw [checked, exactAnswer_ite, exactAnswer_ok]
  exact ⟨fun h hi => (h hi).2, fun h hi => ⟨hi, h hi⟩⟩

theorem exactAnswer_withSmallField {lo : Nat} {k : Fin 8 → Except DecodeError Instr} :
    ExactAnswer w (withSmallField w lo k) ↔
      ∀ r : Fin 8, r.val = field w (lo + 3) lo → ExactAnswer w (k r) := by
  rw [withSmallField_eq_ite, exactAnswer_ite]
  refine ⟨fun h r hr => ?_, fun h hlt => h _ (Nat.mod_eq_of_lt hlt)⟩
  rw [show r = Fin.ofNat 8 (field w (lo + 3) lo) from
    Fin.ext ((Nat.mod_eq_of_lt r.isLt).symm.trans (by rw [hr]; rfl))]
  exact h (hr ▸ r.isLt)

theorem exactAnswer_withCtlField {k : CtlReg → Except DecodeError Instr} :
    ExactAnswer w (withCtlField w k) ↔ ∀ c, ctlNumber c = field w 7 0 →
      ctxBit (ctlCtx c) = field w 8 8 → ExactAnswer w (k c) := by
  constructor
  · intro h c hn hf
    rwa [withCtlField_eq hf.symm hn.symm] at h
  · intro h
    unfold withCtlField
    split
    · rename_i c hc
      obtain ⟨hn, hf⟩ := ctlReg_eq_some hc
      exact h c hn (hf ▸ ctxBit_ctxField w)
    · exact exactAnswer_error _

theorem exactAnswer_withConstField {k : FConst → Except DecodeError Instr} :
    ExactAnswer w (withConstField w k) ↔
      ∀ c, constNumber c = field w 7 0 → ExactAnswer w (k c) := by
  constructor
  · intro h c hc
    rwa [withConstField_eq hc.symm] at h
  · intro h
    unfold withConstField
    split
    case h_4 => exact exactAnswer_error _
    all_goals rename_i hc; exact h _ hc.symm

/-- The answer of the decoder, row by row of the opcode map: the format of the row makes w the word
of its used fields, and the operands are what the command encodes in these fields. -/
theorem exactAnswer_decode (w : CmdWord) : ExactAnswer w (decode w) := by
  unfold decode
  split
  case h_57 => exact exactAnswer_error _
  -- LI, the row of format I
  case h_2 hop =>
    simp +contextual [formatI_eq_ite, exactAnswer_ite, exactAnswer_withSmallField, exactAnswer_ok,
      hop, encode, Instr.wf, toNat_immediate16, -BitVec.toNat_ofNat]
  -- CFGW, CFGR, UBIT and FCONST, the rows of format C
  case h_5 hop | h_6 hop | h_18 hop | h_32 hop =>
    simp +contextual [formatC_eq_ite, exactAnswer_ite, exactAnswer_withCtlField,
      exactAnswer_withConstField, exactAnswer_checked, exactAnswer_ok, hop, encode, Instr.wf,
      val_xField, ctxBit_ctxField, toNat_immediate8, -BitVec.toNat_ofNat]
  -- UMUL, PGET, ESIGN, EVERIFY and ERECOVER, the rows of format Q
  case h_14 hop | h_36 hop | h_50 hop | h_51 hop | h_52 hop =>
    simp +contextual [formatQ_eq_ite, exactAnswer_ite, exactAnswer_withSmallField,
      exactAnswer_checked, exactAnswer_ok, hop, encode, Instr.wf, val_xField]
  -- the rows of the formats R and Z
  all_goals
    rename_i hop
    simp +contextual [formatR_eq_ite, formatZ_eq_ite, exactAnswer_ite, exactAnswer_withSmallField,
      exactAnswer_ok, hop, encode, Instr.wf, val_xField, ctxBit_ctxField]

end

/-- Settles O4: every answer of the decoder is exact. -/
theorem decodedWordIsTheEncoding : Obligations.DecodedWordIsTheEncoding :=
  fun w => exactAnswer_decode w

/-! ## The encoding of a command decodes to it -/

/-- The fields of the word are the operands of the command; the word is a variable, so that nothing
computes its fields from the encoding again. -/
theorem decode_of_encode_eq {i : Instr} {w : CmdWord} (h : i.wf = true) (hw : encode i = w) :
    decode w = .ok i := by
  cases i with
  | li ad imm =>
    have hf := (encodeI_eq_iff (by decide) (small_lt ad) imm.isLt).1 hw
    simp only [encode] at hw
    simp [decode, hf, hw, formatI_eq_ite, withSmallField_eq_ite]
  | cfgw c xs =>
    have hf := (encodeC_eq_iff (by decide) (by decide) xs.isLt (ctxBit_le_one _)
      (ctlNumber_lt c)).1 hw
    have ⟨_, _, _, _, _, hctx, hnum⟩ := hf
    simp only [encode] at hw
    simp [decode, hf, hw, formatC_eq_ite, withCtlField_eq hctx hnum, xField_eq_iff,
      checked_eq_ok, h]
  | cfgr xd c =>
    have hf := (encodeC_eq_iff (by decide) xd.isLt (by decide) (ctxBit_le_one _)
      (ctlNumber_lt c)).1 hw
    have ⟨_, _, _, _, _, hctx, hnum⟩ := hf
    simp only [encode] at hw
    simp [decode, hf, hw, formatC_eq_ite, withCtlField_eq hctx hnum, xField_eq_iff,
      checked_eq_ok, h]
  | ubit xs n =>
    have hf := (encodeC_eq_iff (by decide) (by decide) xs.isLt (by decide) n.isLt).1 hw
    simp only [encode] at hw
    simp [decode, hf, hw, formatC_eq_ite, xField_eq_iff]
  | fconst f xd c =>
    have hf := (encodeC_eq_iff (by decide) xd.isLt (by decide) (ctxBit_le_one f)
      (constNumber_lt c)).1 hw
    have ⟨_, _, _, _, _, _, hsel⟩ := hf
    simp only [encode] at hw
    simp [decode, hf, hw, formatC_eq_ite, withConstField_eq hsel, xField_eq_iff, ctxField_eq_iff]
  | umul | pget | esign | everify | erecover =>
    simp only [encode] at hw
    have hf := hw
    simp only [encodeQ_eq_iff, xreg_lt, small_lt, Nat.reduceLT] at hf
    simp [decode, hf, hw, formatQ_eq_ite, xField_eq_iff, withSmallField_eq_ite, checked_eq_ok,
      h]
  | _ => -- the rows of the formats R and Z
    simp only [encode] at hw
    have hf := hw
    simp only [encodeR_eq_iff, xreg_lt, small_lt, ctxBit_le_one, Nat.reduceLT,
      Nat.reduceLeDiff] at hf
    simp [decode, hf, hw, formatR_eq_ite, formatZ_eq_ite, xField_eq_iff, ctxField_eq_iff,
      withSmallField_eq_ite]

/-- Settles O3: the encoding of a command is a word with its fields. -/
theorem decodeOfEncode : Obligations.DecodeOfEncode := fun _ h => decode_of_encode_eq h rfl

/-- A reserved opcode is that of no row (R105, R107). -/
theorem decode_of_reservedOpcode {w : CmdWord} (h : Machine.ReservedOpcode (w.toNat / 2 ^ 24)) :
    decode w = .error .reservedOpcode := by
  have hop : field w 31 24 = w.toNat / 2 ^ 24 := Nat.mod_eq_of_lt (by have := w.isLt; omega)
  unfold Machine.ReservedOpcode at h
  rw [← hop] at h
  unfold decode
  split
  case h_57 => rfl
  all_goals
    rename_i hrow
    rw [hrow] at h
    exact absurd h (by decide)

/-- A word that encodes no well-formed command does not decode (R107). -/
theorem decode_of_not_encoding {w : CmdWord} (h : ∀ i : Instr, i.wf = true → encode i ≠ w) :
    ∃ e, decode w = .error e := by
  cases hd : decode w with
  | error e => exact ⟨e, rfl⟩
  | ok i =>
    obtain ⟨hwf, henc⟩ := decodedWordIsTheEncoding w i hd
    exact absurd henc (h i hwf)

/-- No two words decode to the same command (R107). -/
theorem decode_injective {v w : CmdWord} {i : Instr} (hv : decode v = .ok i)
    (hw : decode w = .ok i) : v = w :=
  (decodedWordIsTheEncoding v i hv).2.symm.trans (decodedWordIsTheEncoding w i hw).2

end Sys2Proof

namespace Sys2Proof.Machine

/-- Without a fault, `Issue(w)` of a word that does not decode raises `IllegalCommand` (R107). -/
theorem issue_undecoded {s : State} {w : CmdWord} {e : DecodeError} (hf : s.ST.FAULT = false)
    (hd : decode w = .error e) : issue w s = .next (s.raise .illegalCommand) := by
  unfold issue
  rw [hf, hd]
  rfl

/-- `IllegalCommand` leaves `ERRVAL` alone beside what every error or fault does (R107, R362). -/
theorem keeps_raise_illegalCommand (s : State) :
    Keeps s (s.raise .illegalCommand) [.err, .fault] := by
  intro q hq
  by_cases hv : q = .errval
  · rw [hv]
    rfl
  · exact keeps_raise s _ q (by simpa [hv] using hq)

/-- Settles O2: such a word does not decode, so issuing it is `raise IllegalCommand`. -/
theorem illegalWordsRaiseIllegalCommand : Obligations.IllegalWordsRaiseIllegalCommand := by
  refine ⟨fun s w ms hp hf hw => ?_, fun _ _ _ => decode_injective⟩
  obtain ⟨e, hd⟩ : ∃ e, decode w = .error e :=
    hw.elim (fun h => ⟨_, decode_of_reservedOpcode h⟩) decode_of_not_encoding
  have hstep : step s = .next ((s.atMove ms).raise .illegalCommand) :=
    (step_cons hp).trans (issue_undecoded (s := s.atMove ms) hf hd)
  refine ⟨_, hstep, rfl, rfl, rfl, rfl, ?_⟩
  exact ((keeps_port s ms .nothing).trans (keeps_raise_illegalCommand (s.atMove ms))).mono (by simp)

end Sys2Proof.Machine
end

section
/-! PROOFS. The system, configuration, move and memory commands: their words, their checks, and what
each does when it completes (rules R130 to R139, with R55 for the control registers). -/

namespace Sys2Proof.Machine

-- Many theorems elaborated at once need more memory than the check grants.
set_option Elab.async false

/-! ## Words, completions and failures of a command -/

/-- A number that is the encoding of a well-formed command is its word (R105, R112). -/
theorem encodes_of_encode {n : Nat} {i : Instr} (hi : i.wf = true)
    (h : encode i = BitVec.ofNat 32 n) : Encodes n i :=
  decode_of_encode_eq hi h

/-- A command fails with the error that ends its checks (R361, R362). -/
theorem raises_of_exec {i : Instr} {s : State} {r : Except Err State} {e : Err}
    (hx : exec i s = conclude s r) (hr : r = .error e) : Raises i s e := by
  rw [Raises, hx, hr, conclude_error]

/-- A command whose effect is to write an integer to a general register (R12, R360). -/
theorem completes_setXNat {i : Instr} {s : State} {xd : XReg} {v : Nat}
    (h : Effect i s (s.setXNat xd v)) (hv : v < 2 ^ 256) :
    ∃ t, exec i s = .next t ∧ Completed s t [.x xd] ∧ (t.x xd).toNat = v :=
  ⟨_, exec_of_effect h, completed_setERR (keeps_setXNat s xd v), State.toNat_x_setXNat s xd hv⟩

/-- A command whose effect is to store n bytes in the range from a on (R80, R360). -/
theorem completes_memWrite {i : Instr} {s : State} {a n : Nat} {bs : List Byte}
    (h : Effect i s (s.memWrite a bs)) (hm : Memory.wf s.MEM) (hn : bs.length = n)
    (ha : a + n ≤ 65536) :
    ∃ t, exec i s = .next t ∧ Completed s t (bytesFrom a n) ∧
      ∀ (k : Nat) (hk : k < bs.length), t.MEM.read (a + k) = bs[k] := by
  subst hn
  exact ⟨_, exec_of_effect h, completed_setERR (keeps_memWrite s a bs),
    fun k hk => Memory.read_writeBytes hm bs ha hk⟩

/-! ## NOP, LI and MOV (R130 to R132) -/

/-- Settles O19: the effect of each of the three is defined in every state. -/
theorem nopLiMov : Obligations.NopLiMov := by
  refine ⟨fun s => ⟨encodes_of_encode rfl rfl, ?_⟩, fun ad imm s => ⟨?_, ?_⟩,
    fun xd xs s => ⟨?_, ?_⟩⟩
  · exact ⟨_, exec_of_effect (i := .nop) rfl, completed_setERR (Keeps.refl s [])⟩
  · exact encodes_of_encode rfl rfl
  · exact ⟨_, exec_of_effect (i := .li ad imm) rfl, State.a_setA_same s ad imm,
      completed_setERR (keeps_setA s ad imm)⟩
  · exact encodes_of_encode rfl (congrArg (BitVec.ofNat 32) (by omega))
  · exact ⟨_, exec_of_effect (i := .mov xd xs) rfl, State.x_setX_same s xd _,
      completed_setERR (keeps_setX s xd _)⟩

/-! ## SETMOD (R133) -/

/-- The check of `SETMOD` on the modulus. -/
theorem exec_setmod (f : Ctx) (xs : XReg) (s : State) :
    exec (.setmod f xs) s = conclude s
      (check ((s.x xs).toNat % 2 = 1 && 3 ≤ (s.x xs).toNat) .badConfigValue
        (.ok (s.setF f (configuredCtx (s.x xs))))) := rfl

theorem setmod_raises {f : Ctx} {xs : XReg} {s : State}
    (h : (s.x xs).toNat % 2 = 0 ∨ (s.x xs).toNat < 3) :
    Raises (.setmod f xs) s .badConfigValue := by
  refine raises_of_exec (exec_setmod f xs s) (check_eq_error.2 (.inl ⟨?_, rfl⟩))
  rw [Bool.and_eq_false_iff, decide_eq_false_iff_not, decide_eq_false_iff_not]
  omega

/-- Settles O20: an accepted modulus makes the context `configuredCtx` of it. -/
theorem setmodRule : Obligations.SetmodRule := by
  intro f xs s
  refine ⟨encodes_of_encode rfl (congrArg (BitVec.ofNat 32) (by omega)), fun hodd hthree => ?_,
    setmod_raises⟩
  have hF : ((s.setF f (configuredCtx (s.x xs))).setERR okCode).F f = configuredCtx (s.x xs) := by
    rw [State.F_setERR, State.F_setF_same]
  refine ⟨_, exec_of_effect (i := .setmod f xs) ⟨⟨hodd, hthree⟩, rfl⟩, ?_⟩
  rw [hF]
  exact ⟨rfl, rfl, configuredCtx_spec hodd hthree, rfl, rfl, completed_setERR (keeps_setF s f _)⟩

/-! ## CFGW (R55, R134) -/

/-- Each number up to 2 is that of a model (R40). -/
theorem exists_modelOf {v : Word} (h : v.toNat ≤ 2) :
    ∃ m, modelOf v = some m ∧ modelNumber m = v.toNat := by
  obtain h0 | h1 | h2 : v.toNat = 0 ∨ v.toNat = 1 ∨ v.toNat = 2 := by omega
  · exact ⟨.weierstrass, by simp [modelOf, h0], h0.symm⟩
  · exact ⟨.edwards, by simp [modelOf, h1], h1.symm⟩
  · exact ⟨.montgomery, by simp [modelOf, h2], h2.symm⟩

/-- A number above 2 is that of no model (R40). -/
theorem modelOf_eq_none {v : Word} (h : 2 < v.toNat) : modelOf v = none := by
  unfold modelOf
  rw [if_neg (by omega), if_neg (by omega), if_neg (by omega)]

section
variable {α : Type} {b : Bool} {F : FieldCtx} {v : Word} {k : Nat → Except Err α}

/-- The two checks of a control register that holds a field element pass (R55). -/
theorem check_withElement_ok (hb : b = true) (hv : v.toNat < F.P.toNat) :
    check b .noConfig (withElement F v k) = k v.toNat := by
  rw [hb, check_true, withElement, decide_eq_true hv, check_true]

/-- `NoConfig` before `NotInField`, as R55 orders the two checks. -/
theorem check_withElement_error {e : Err}
    (h : if b = true then F.P.toNat ≤ v.toNat ∧ e = .notInField else e = .noConfig) :
    check b .noConfig (withElement F v k) = .error e := by
  cases b with
  | false => exact check_eq_error.2 (.inl ⟨rfl, h⟩)
  | true => exact check_eq_error.2 (.inr ⟨rfl, withElement_eq_error.2 (.inl h)⟩)

end

/-- The state after `CFGW` has written v to a register whose checks pass (R55). -/
def ctlWritten (s : State) (v : Word) : CtlReg → State
  | .gen f => s.setF f { s.F f with GEN := v }
  | .root2 f => s.setF f { s.F f with ROOT2 := v }
  | .model => s.setCRV { s.CRV with MODEL := (modelOf v).getD s.CRV.MODEL }
  | .ca => s.setCRV { s.CRV with CA := v }
  | .cb => s.setCRV { s.CRV with CB := v }
  | .gx => s.setCRV { s.CRV with GX := v }
  | .gy => s.setCRV { s.CRV with GY := v }
  | .cofactor => s.setCRV { s.CRV with COFACTOR := v }
  | .cofactorInv => s.setCRV { s.CRV with COFACTOR_INV := v }
  | .psState i => s.setPS { s.PS with STATE := setSlot s.PS.STATE i.val v }
  | _ => s

section
variable {s : State} {v : Word} {c : CtlReg}

theorem writeCtl_of_accepts (hc : c.present = true) (h : Accepts s v c) :
    s.writeCtl c v = .ok (ctlWritten s v c) := by
  cases c with
  | gen f | root2 f | ca | cb | gx | gy => exact check_withElement_ok h.1 h.2
  | model =>
    obtain ⟨m, hm, -⟩ := exists_modelOf h
    simp [State.writeCtl, ctlWritten, hm]
  | cofactor | cofactorInv => rfl
  | psState i => exact check_eq_ok.2 ⟨hc, check_withElement_ok h.1 h.2⟩
  | _ => exact h.elim

theorem writeCtl_of_refuses {e : Err} (hc : c.present = true) (h : Refuses s v e c) :
    s.writeCtl c v = .error e := by
  cases c with
  | gen f | root2 f | ca | cb | gx | gy => exact check_withElement_error h
  | model =>
    obtain ⟨hv, rfl⟩ := h
    simp [State.writeCtl, modelOf_eq_none hv]
  | psState i => exact check_eq_error.2 (.inr ⟨hc, check_withElement_error h⟩)
  | _ => exact h.elim

/-- The register written reads as the value (R55). -/
theorem ctlValue_ctlWritten_same (h : Accepts s v c) :
    (ctlWritten s v c).ctlValue c = v.toNat := by
  cases c with
  | gen f | root2 f => simp [ctlWritten, State.ctlValue]
  | model =>
    obtain ⟨m, hm, hn⟩ := exists_modelOf h
    simp [ctlWritten, State.ctlValue, hm, hn]
  | ca | cb | gx | gy | cofactor | cofactorInv => rfl
  | psState i => simp [ctlWritten, State.ctlValue, slot_setSlot]
  | _ => exact h.elim

/-- The other registers read as before: another one of the same context or of the curve is another
field of the record, another slot of the sponge another element of the vector (R55). -/
theorem ctlValue_ctlWritten_ne {d : CtlReg} (h : d ≠ c) :
    (ctlWritten s v c).ctlValue d = s.ctlValue d := by
  cases c with
  | gen f | root2 f =>
    cases d with
    | p g | r1 g | r2 g | inv g | s g | gen g | root2 g | valid g =>
      by_cases hg : g = f
      · subst hg
        simp [ctlWritten, State.ctlValue] at h ⊢
      · simp [ctlWritten, State.ctlValue, State.F_setF, hg]
    | _ => simp [ctlWritten, State.ctlValue]
  | model | ca | cb | gx | gy | cofactor | cofactorInv =>
    cases d with
    | model | ca | cb | gx | gy | cofactor | cofactorInv =>
      simp [ctlWritten, State.ctlValue] at h ⊢
    | _ => simp [ctlWritten, State.ctlValue]
  | psState i =>
    cases d with
    | psState j =>
      have hij : j.val ≠ i.val := fun hij => h (congrArg CtlReg.psState (Fin.ext hij))
      simp [ctlWritten, State.ctlValue, slot_setSlot, hij]
    | _ => simp [ctlWritten, State.ctlValue]
  | _ => rfl

theorem keeps_ctlWritten : Keeps s (ctlWritten s v c) [ctlPart c] := by
  cases c with
  | gen f | root2 f => exact keeps_setF s f _
  | model | ca | cb | gx | gy | cofactor | cofactorInv => exact keeps_setCRV s _
  | psState i => exact keeps_setPS s _
  | _ => exact Keeps.refl s _

end

/-- No control register is part of the outcome code (R55). -/
@[simp] theorem ctlValue_setERR (s : State) (e : BitVec 8) (c : CtlReg) :
    (s.setERR e).ctlValue c = s.ctlValue c := by
  cases c <;> simp [State.ctlValue]

/-- Settles O21: `CFGW` ends as `writeCtl` does, which `Accepts` and `Refuses` decide. -/
theorem cfgwRule : Obligations.CfgwRule := by
  intro c xs s hc hw
  have hwf : (Instr.cfgw c xs).wf = true := Bool.and_eq_true_iff.2 ⟨hc, hw⟩
  refine ⟨encodes_of_encode hwf (congrArg (BitVec.ofNat 32) (by omega)), fun h => ?_, fun e h => ?_⟩
  · refine ⟨_, exec_of_effect (i := .cfgw c xs) (writeCtl_of_accepts hc h), ?_, fun d hd => ?_,
      completed_setERR keeps_ctlWritten⟩
    · rw [ctlValue_setERR, ctlValue_ctlWritten_same h]
    · rw [ctlValue_setERR, ctlValue_ctlWritten_ne hd]
  · exact raises_of_exec rfl (writeCtl_of_refuses hc h)

/-! ## LDLE and LDBE (R136, R137) -/

/-- Byte k of the bytes that a command reads (R12). -/
theorem State.getElem_memRead (s : State) (a n : Nat) {k : Nat}
    (hk : k < (s.memRead a n).length) : (s.memRead a n)[k] = s.MEM.read (a + k) := by
  simp only [State.memRead, Memory.readBytes_eq_map, List.getElem_map, List.getElem_range]

@[simp] theorem State.length_memRead (s : State) (a n : Nat) : (s.memRead a n).length = n :=
  Memory.length_readBytes s.MEM a n

/-- Byte k of a big-endian value, counted from its most significant one (R11). -/
theorem beNat_digit (bs : List Byte) {k : Nat} (hk : k < bs.length) :
    beNat bs / 256 ^ (bs.length - 1 - k) % 256 = bs[k].toNat := by
  have hlt : bs.length - 1 - k < bs.reverse.length := by rw [List.length_reverse]; omega
  have hk' : bs.length - 1 - (bs.length - 1 - k) = k := by omega
  rw [beNat, leNat_digit bs.reverse hlt, List.getElem_reverse]
  simp only [hk']

section
variable {s : State} {aa al : AReg} {k : List Byte → Except Err State}

theorem withLoad_accessFault (h : 65536 < s.ea aa + s.ea al) :
    withLoad s aa al k = .error .accessFault :=
  withRange_eq_error.2 (.inl ⟨h, rfl⟩)

theorem withLoad_invalidLength (h : s.ea aa + s.ea al ≤ 65536) (hl : s.ea al ≠ 32) :
    withLoad s aa al k = .error .invalidLength :=
  withRange_eq_error.2 (.inr ⟨h, check_eq_error.2 (.inl ⟨decide_eq_false hl, rfl⟩)⟩)

end

/-- Settles O23: the checks are those of `withLoad`, and byte k of the value is byte k of the range,
from the least or from the most significant one. -/
theorem loadRules : Obligations.LoadRules := by
  intro xd aa al s
  have hlen : 256 ^ (s.memRead (s.ea aa) 32).length = 2 ^ 256 := by
    rw [State.length_memRead]
    norm_num
  refine ⟨encodes_of_encode rfl rfl, encodes_of_encode rfl rfl,
    fun h => ⟨raises_of_exec rfl (withLoad_accessFault h),
      raises_of_exec rfl (withLoad_accessFault h)⟩,
    fun h hl => ⟨raises_of_exec rfl (withLoad_invalidLength h hl),
      raises_of_exec rfl (withLoad_invalidLength h hl)⟩, fun h hl => ⟨?_, ?_⟩⟩
  · obtain ⟨t, hx, ht, hv⟩ := completes_setXNat (i := .ldle xd aa al) ⟨h, hl, rfl⟩
      ((leNat_lt _).trans_eq hlen)
    refine ⟨t, hx, ht, fun k hk => ?_⟩
    rw [hv, leNat_digit _ (by simpa using hk), State.getElem_memRead]
  · obtain ⟨t, hx, ht, hv⟩ := completes_setXNat (i := .ldbe xd aa al) ⟨h, hl, rfl⟩
      ((beNat_lt _).trans_eq hlen)
    refine ⟨t, hx, ht, fun k hk => ?_⟩
    have hd := beNat_digit (s.memRead (s.ea aa) 32) (k := k) (by simpa using hk)
    rw [State.getElem_memRead, State.length_memRead] at hd
    rw [hv]
    exact hd

/-! ## STLE and STBE (R138, R139) -/

/-- Settles O24: byte k of the range receives byte k of the value in the order of the command. -/
theorem storeRules : Obligations.StoreRules := by
  intro aa xs s
  refine ⟨encodes_of_encode rfl (congrArg (BitVec.ofNat 32) (by omega)),
    encodes_of_encode rfl (congrArg (BitVec.ofNat 32) (by omega)),
    fun h => ⟨raises_of_exec rfl (withRange_eq_error.2 (.inl ⟨h, rfl⟩)),
      raises_of_exec rfl (withRange_eq_error.2 (.inl ⟨h, rfl⟩))⟩, fun hm h => ⟨?_, ?_⟩⟩
  · obtain ⟨t, hx, ht, hb⟩ := completes_memWrite (i := .stle aa xs) ⟨h, rfl⟩ hm (length_toLE _ 32) h
    refine ⟨t, hx, ht, fun k hk => ?_⟩
    rw [hb k (by simpa using hk), getElem_toLE]
  · obtain ⟨t, hx, ht, hb⟩ := completes_memWrite (i := .stbe aa xs) ⟨h, rfl⟩ hm (length_toBE _ 32) h
    refine ⟨t, hx, ht, fun k hk => ?_⟩
    rw [hb k (by simpa using hk), getElem_toBE]

/-! ## Words of the specification (R130 to R313) -/

/-- Settles O5: each word is the encoding of its well-formed command. -/
theorem sampleWordsDecode : Obligations.SampleWordsDecode := by
  refine ⟨?_, ?_, ?_, ?_, ?_, ?_, ?_, ?_, ?_, ?_, ?_, ?_⟩
  all_goals exact decode_of_encode_eq rfl rfl

end Sys2Proof.Machine
end

section
/-! PROOFS. The big-integer commands: the exact sum, difference, product and shifts, and the tests of a
number with their flags (rules R150 to R159). -/

namespace Sys2Proof.Machine

-- Many theorems elaborated at once need more memory than the check grants.
set_option Elab.async false

/-! ## Flags as numbers and as tests -/

theorem boolNat_decide (p : Prop) [Decidable p] : boolNat (decide p) = if p then 1 else 0 := by
  simp [boolNat]

theorem borrowOut_eq_true (a b : Word) : borrowOut a b = true ↔ a.toNat < b.toNat :=
  decide_eq_true_iff

/-- Bit k of a word as its binary digit (R10). -/
theorem bitOf_eq_true (a : Word) (k : Nat) : bitOf a k = true ↔ a.toNat / 2 ^ k % 2 = 1 := by
  rw [bitOf, Nat.testBit_eq_decide_div_mod_eq, decide_eq_true_iff]

theorem boolNat_bitOf (a : Word) (k : Nat) : boolNat (bitOf a k) = a.toNat / 2 ^ k % 2 := by
  have hbool : boolNat (bitOf a k) = (bitOf a k).toNat := by cases bitOf a k <;> rfl
  rw [hbool, bitOf, Nat.toNat_testBit]

/-- The zero test of R158 and R159. -/
theorem beq_zero_eq_true (a : Word) : (a == 0) = true ↔ a.toNat = 0 := by
  rw [beq_iff_eq, ← BitVec.toNat_inj]; rfl

/-! ## The exact results -/

/-- R151: the truncated sum and the carry. -/
theorem sum_mod_add_carry (a b : Word) :
    (a.toNat + b.toNat) % 2 ^ 256 + 2 ^ 256 * boolNat (carryOut a b) = a.toNat + b.toNat := by
  have ha := a.isLt
  have hb := b.isLt
  rw [carryOut, boolNat_decide]
  split <;> omega

/-- R152: the wrapped difference and the borrow. -/
theorem diff_mod_add_subtrahend (a b : Word) :
    (a.toNat + 2 ^ 256 - b.toNat) % 2 ^ 256 + b.toNat =
      a.toNat + 2 ^ 256 * boolNat (borrowOut a b) := by
  have ha := a.isLt
  have hb := b.isLt
  rw [borrowOut, boolNat_decide]
  split <;> omega

/-- R154: the truncated double and the top bit. -/
theorem double_mod_add_top (a : Word) :
    2 * a.toNat % 2 ^ 256 + 2 ^ 256 * boolNat (bitOf a 255) = 2 * a.toNat := by
  have ha := a.isLt
  rw [boolNat_bitOf]
  omega

/-- R155: the half and the lowest bit. -/
theorem two_mul_half_add_low (a : Word) : 2 * (a.toNat / 2) + boolNat (bitOf a 0) = a.toNat := by
  rw [boolNat_bitOf, Nat.pow_zero, Nat.div_one, Nat.div_add_mod]

/-- The high half of a product of two words is a word (R153). -/
theorem mul_div_lt (a b : Word) : a.toNat * b.toNat / 2 ^ 256 < 2 ^ 256 :=
  Nat.div_lt_of_lt_mul (Nat.mul_lt_mul'' a.isLt b.isLt)

/-- `num_bits` fits its register (R158). -/
theorem numBits_lt (a : Word) : numBits a.toNat < 2 ^ 256 := by
  have hsize : numBits a.toNat ≤ 256 := by
    rw [numBits_eq_size]
    exact Nat.size_le.2 a.isLt
  omega

/-! ## Completions that write two parts of the state -/

/-- A command whose effect is to write an integer to a general register and a bit to C. -/
theorem completes_setXNat_setC {i : Instr} {s : State} {xd : XReg} {v : Nat} {b : Bool}
    (h : Effect i s ((s.setXNat xd v).setC b)) (hv : v < 2 ^ 256) :
    ∃ t, exec i s = .next t ∧ Completed s t [.x xd, .C] ∧ (t.x xd).toNat = v ∧ t.ST.C = b :=
  ⟨_, exec_of_effect h, completed_setERR ((keeps_setXNat s xd v).trans (keeps_setC _ b)),
    State.toNat_x_setXNat s xd hv, rfl⟩

/-- A command whose effect is to write two integers, each to a general register of its own. -/
theorem completes_setXNat_setXNat {i : Instr} {s : State} {xd xe : XReg} {v w : Nat}
    (h : Effect i s ((s.setXNat xd v).setXNat xe w)) (hne : xd ≠ xe) (hv : v < 2 ^ 256)
    (hw : w < 2 ^ 256) :
    ∃ t, exec i s = .next t ∧ Completed s t [.x xd, .x xe] ∧ (t.x xd).toNat = v ∧
      (t.x xe).toNat = w := by
  refine ⟨_, exec_of_effect h,
    completed_setERR ((keeps_setXNat s xd v).trans (keeps_setXNat _ xe w)), ?_,
    State.toNat_x_setXNat _ xe hw⟩
  rw [State.x_setERR, State.x_setXNat_ne _ hne, State.toNat_x_setXNat s xd hv]

/-! ## UADD and USUB (R151, R152) -/

/-- Settles O25: the flag is what the truncation to 256 bits takes away or adds. -/
theorem addSubtractIntegers : Obligations.AddSubtractIntegers := by
  refine ⟨fun xd xs1 xs2 s => ⟨?_, ?_⟩, fun xd xs1 xs2 s => ⟨?_, ?_⟩⟩
  · exact encodes_of_encode rfl (congrArg (BitVec.ofNat 32) (by omega))
  · obtain ⟨t, hx, ht, hv, hc⟩ := completes_setXNat_setC (i := .uadd xd xs1 xs2) (s := s) rfl
      (Nat.mod_lt _ (by decide))
    exact ⟨t, hx, ht, by rw [hv, hc, sum_mod_add_carry]⟩
  · exact encodes_of_encode rfl (congrArg (BitVec.ofNat 32) (by omega))
  · obtain ⟨t, hx, ht, hv, hc⟩ := completes_setXNat_setC (i := .usub xd xs1 xs2) (s := s) rfl
      (Nat.mod_lt _ (by decide))
    exact ⟨t, hx, ht, by rw [hv, hc, diff_mod_add_subtrahend]⟩

/-! ## UMUL (R153) -/

/-- A word with the fields of a `UMUL`, its destinations different or not: the decoder passes it on to
the check of the operands (R106). -/
theorem decode_umul_fields {w : CmdWord} {xdlo xdhi xs1 xs2 : XReg}
    (hw : encode (.umul xdlo xdhi xs1 xs2) = w) :
    decode w = checked (.umul xdlo xdhi xs1 xs2) := by
  have hf := (encodeQ_eq_iff (by decide) xdlo.isLt xdhi.isLt xs1.isLt xs2.isLt (by decide)).1 hw
  have ⟨_, hlo, hhi, hs1, hs2, _, _⟩ := hf
  simp only [encode] at hw
  rw [← xField_eq hlo, ← xField_eq hhi, ← xField_eq hs1, ← xField_eq hs2]
  simp [decode, hf, hw, formatQ_eq_ite]

/-- Settles O26: the halves are the remainder and the quotient of the product by `2^256`, and the
decoder checks that the destinations differ. -/
theorem umulRule : Obligations.UmulRule := by
  intro xdlo xdhi xs1 xs2 s
  have hword : encode (.umul xdlo xdhi xs1 xs2) = BitVec.ofNat 32 (0x22 * 2 ^ 24 + xdlo.val * 2 ^ 20 +
      xdhi.val * 2 ^ 16 + xs1.val * 2 ^ 12 + xs2.val * 2 ^ 8) :=
    congrArg (BitVec.ofNat 32) (by omega)
  refine ⟨fun hne => ⟨encodes_of_encode (bne_iff_ne.2 hne) hword, ?_⟩, fun heq i hi => ?_⟩
  · obtain ⟨t, hx, ht, hlo, hhi⟩ := completes_setXNat_setXNat (i := .umul xdlo xdhi xs1 xs2) (s := s)
      ⟨hne, rfl⟩ hne (Nat.mod_lt _ (by decide)) (mul_div_lt _ _)
    exact ⟨t, hx, ht, by rw [hlo, hhi, Nat.mod_add_div]⟩
  · obtain ⟨rfl, hwf⟩ := checked_eq_ok.1 ((decode_umul_fields hword).symm.trans hi)
    exact bne_iff_ne.1 hwf heq

/-! ## USHL1 and USHR1 (R154, R155) -/

/-- Settles O27: C is the bit that the shift takes out of the word. -/
theorem shiftRules : Obligations.ShiftRules := by
  intro xd xs s
  refine ⟨encodes_of_encode rfl (congrArg (BitVec.ofNat 32) (by omega)),
    encodes_of_encode rfl (congrArg (BitVec.ofNat 32) (by omega)), ?_, ?_⟩
  · obtain ⟨t, hx, ht, hv, hc⟩ := completes_setXNat_setC (i := .ushl1 xd xs) (s := s) rfl
      (Nat.mod_lt _ (by decide))
    exact ⟨t, hx, ht, by rw [hv, hc, double_mod_add_top]⟩
  · obtain ⟨t, hx, ht, hv, hc⟩ := completes_setXNat_setC (i := .ushr1 xd xs) (s := s) rfl
      (Nat.lt_of_le_of_lt (Nat.div_le_self _ _) (s.x xs).isLt)
    exact ⟨t, hx, ht, by rw [hv, hc, two_mul_half_add_low]⟩

/-! ## UCMP, UBIT, UNUMBITS and UTEST (R156 to R159) -/

/-- Settles O28: the flags are the tests themselves, and `num_bits` is bounded by the powers around the
number. -/
theorem compareAndTestIntegers : Obligations.CompareAndTestIntegers := by
  refine ⟨⟨fun xs1 xs2 s => ⟨?_, ?_⟩, fun xs i s => ⟨?_, ?_⟩, fun xs s => ⟨?_, ?_⟩⟩,
    fun xd xs s => ⟨?_, ?_⟩⟩
  · exact encodes_of_encode rfl (congrArg (BitVec.ofNat 32) (by omega))
  · exact ⟨_, exec_of_effect (i := .ucmp xs1 xs2) rfl,
      completed_setERR ((keeps_setZ s _).trans (keeps_setC _ _)), beq_iff_eq, borrowOut_eq_true _ _⟩
  · exact encodes_of_encode rfl (congrArg (BitVec.ofNat 32) (by omega))
  · exact ⟨_, exec_of_effect (i := .ubit xs i) rfl, completed_setERR (keeps_setT s _),
      bitOf_eq_true _ _⟩
  · exact encodes_of_encode rfl (congrArg (BitVec.ofNat 32) (by omega))
  · exact ⟨_, exec_of_effect (i := .utest xs) rfl, completed_setERR (keeps_setZ s _),
      beq_zero_eq_true _⟩
  · exact encodes_of_encode rfl (congrArg (BitVec.ofNat 32) (by omega))
  · refine ⟨_, exec_of_effect (i := .unumbits xd xs) rfl,
      completed_setERR ((keeps_setXNat s xd _).trans (keeps_setZ _ _)), beq_zero_eq_true _, ?_⟩
    rw [State.x_setERR, State.x_setZ, State.toNat_x_setXNat s xd (numBits_lt _)]
    split
    case isTrue hzero => rw [hzero, numBits_zero]
    case isFalse hpos => exact ⟨by simp [numBits, hpos], numBits_pos hpos⟩

end Sys2Proof.Machine
end

section
/-! PROOFS. The arithmetic modulo p behind the field commands: the characterisation of the Montgomery
product and its limb-by-limb loop (rule R171), the adder and the subtractor (rules R176 to R179), the
inverse of a representative (rule R182) and the square roots (rules R183, R184). -/

namespace Sys2Proof.Machine

-- Many theorems elaborated at once need more memory than the check grants.
set_option Elab.async false

/-! ## The Montgomery product (R13, R171) -/

/-- The logical value is the only r below p with `r · R ≡ a` (R13). -/
theorem eq_valOf_of_mul_radix {p a r : Nat} (hp : p % 2 = 1) (h1 : 1 < p) (hr : r < p)
    (h : r * Config.radix % p = a % p) : r = valOf p a := by
  rw [← valOf_repOf hp h1 hr, repOf, h, valOf, valOf, Nat.mod_mul_mod]

/-- The representative of a reduced number is that of the number (R13, R186). -/
theorem repOf_mod (p v : Nat) : repOf p (v % p) = repOf p v := Nat.mod_mul_mod v Config.radix p

/-! ## The limb-by-limb loop (R171) -/

/-- What the loop of `MontMulLimbs_f` on the product c has reached after i turns: the low i limbs of t
are zero, t is c modulo p, and what was added to c is at most `(2^(64 i) − 1) · p`. -/
structure LimbsCleared (p c i t : Nat) : Prop where
  low_zero : 2 ^ (64 * i) ∣ t
  congr : t % p = c % p
  bound : t + p ≤ c + 2 ^ (64 * i) * p

/-- The multiple of p that a turn adds makes the current limb zero, because `inv · p ≡ −1`. -/
theorem limb_add_multiple_dvd {p inv : Nat} (hinv : inv * p % 2 ^ 64 = 2 ^ 64 - 1) (q : Nat) :
    2 ^ 64 ∣ q + q % 2 ^ 64 * inv % 2 ^ 64 * p := by
  have hsucc : 2 ^ 64 ∣ 1 + inv * p := Nat.dvd_of_mod_eq_zero (by omega)
  have hmod : q + q % 2 ^ 64 * inv % 2 ^ 64 * p ≡ q * (1 + inv * p) [MOD 2 ^ 64] := by
    calc q + q % 2 ^ 64 * inv % 2 ^ 64 * p
        ≡ q + q * inv * p [MOD 2 ^ 64] :=
          (((Nat.mod_modEq _ _).trans ((Nat.mod_modEq q _).mul_right inv)).mul_right p).add_left q
      _ = q * (1 + inv * p) := by ring
  exact (hmod.dvd_iff dvd_rfl).2 (hsucc.mul_left q)

/-- A turn of the loop clears one more limb. -/
theorem LimbsCleared.step {p inv c i t : Nat} (hinv : inv * p % 2 ^ 64 = 2 ^ 64 - 1)
    (h : LimbsCleared p c i t) : LimbsCleared p c (i + 1) (montLimbStep p inv t i) := by
  obtain ⟨⟨q, rfl⟩, hcongr, hbound⟩ := h
  have hpos : 0 < 2 ^ (64 * i) := by positivity
  have hm : q % 2 ^ 64 * inv % 2 ^ 64 + 1 ≤ 2 ^ 64 := Nat.mod_lt _ (by norm_num)
  have hdvd := limb_add_multiple_dvd hinv q
  have hstep : montLimbStep p inv (2 ^ (64 * i) * q) i =
      2 ^ (64 * i) * (q + q % 2 ^ 64 * inv % 2 ^ 64 * p) := by
    rw [montLimbStep, Nat.mul_div_cancel_left _ hpos]
    ring
  have hpow : 2 ^ (64 * (i + 1)) = 2 ^ (64 * i) * 2 ^ 64 := by rw [← pow_add]; rfl
  rw [hstep]
  generalize q % 2 ^ 64 * inv % 2 ^ 64 = m at hm hdvd
  generalize 2 ^ (64 * i) = w at *
  refine ⟨?_, ?_, ?_⟩
  · rw [hpow]
    exact Nat.mul_dvd_mul_left w hdvd
  · rw [← hcongr, show w * (q + m * p) = w * q + w * m * p by ring, Nat.add_mul_mod_self_right]
  · calc w * (q + m * p) + p = w * q + p + w * p * m := by ring
      _ ≤ c + w * p + w * p * m := by omega
      _ = c + w * p * (m + 1) := by ring
      _ ≤ c + w * p * 2 ^ 64 := by gcongr
      _ = c + 2 ^ (64 * (i + 1)) * p := by rw [hpow]; ring

theorem limbsCleared_foldl {p inv c : Nat} (hinv : inv * p % 2 ^ 64 = 2 ^ 64 - 1) (n : Nat) :
    LimbsCleared p c n ((List.range n).foldl (montLimbStep p inv) c) := by
  induction n with
  | zero => exact ⟨by simp, rfl, by simp⟩
  | succ n ih =>
    rw [List.range_succ, List.foldl_append]
    exact ih.step hinv

/-- Settles O37: the quotient by `2^256` lies below `2 · p` and is, times the radix, the product modulo
p; the last subtraction brings it below p. -/
theorem limbLoopIsMontgomeryProduct : Obligations.LimbLoopIsMontgomeryProduct := by
  intro p inv a b hodd hthree hlt _ hinv ha hb
  obtain ⟨⟨u, hu⟩, hcongr, hbound⟩ := limbsCleared_foldl (c := a * b) hinv 4
  rw [show List.range 4 = [0, 1, 2, 3] from rfl, show 64 * 4 = 256 from rfl] at *
  have hquot : [0, 1, 2, 3].foldl (montLimbStep p inv) (a * b) / 2 ^ 256 = u := by
    rw [hu]
    exact Nat.mul_div_cancel_left u (by norm_num)
  have hprod : a * b < 2 ^ 256 * p := Nat.mul_lt_mul'' (ha.trans hlt) hb
  have hu2 : u < 2 * p := by omega
  have hval : u * Config.radix % p = a * b % p := by rw [← hcongr, hu, Nat.mul_comm]; rfl
  rw [montMulLimbs, hquot]
  split
  case isTrue hle =>
    refine eq_valOf_of_mul_radix hodd (by omega) (by omega) ?_
    rw [← hval, Nat.sub_mul, Nat.sub_mul_mod (Nat.mul_le_mul_right _ hle)]
  case isFalse hgt => exact eq_valOf_of_mul_radix hodd (by omega) (by omega) hval

/-! ## The modular adder and subtractor (R176 to R179) -/

theorem addMod_eq {p a b : Nat} (ha : a < p) (hb : b < p) : addMod p a b = (a + b) % p := by
  unfold addMod
  split
  case isTrue hle => rw [Nat.mod_eq_sub_mod hle, Nat.mod_eq_of_lt (by omega)]
  case isFalse hgt => rw [Nat.mod_eq_of_lt (by omega)]

/-- The modular difference is the r below p with `r + b ≡ a` (R177). -/
theorem subMod_spec {p a b : Nat} (ha : a < p) (hb : b < p) :
    subMod p a b < p ∧ (subMod p a b + b) % p = a := by
  unfold subMod
  split
  case isTrue hle =>
    exact ⟨by omega, by rw [Nat.sub_add_cancel hle, Nat.mod_eq_of_lt ha]⟩
  case isFalse hgt =>
    exact ⟨by omega, by rw [Nat.sub_add_cancel (by omega), Nat.add_mod_right, Nat.mod_eq_of_lt ha]⟩

/-- The modular negative is the r below p with `r + a ≡ 0` (R178). -/
theorem negMod_spec {p a : Nat} (ha : a < p) : negMod p a < p ∧ (negMod p a + a) % p = 0 := by
  unfold negMod
  split
  case isTrue hzero => exact ⟨by omega, by simp [hzero]⟩
  case isFalse hpos => exact ⟨by omega, by rw [Nat.sub_add_cancel ha.le, Nat.mod_self]⟩

/-! ## The inverse of a representative (R182) -/

/-- A representative prime to p has the representative of an inverse (R182). -/
theorem inverseRep_of_coprime {F : FieldCtx} (h1 : 1 < F.P.toNat) {a : Nat}
    (h : Nat.gcd a F.P.toNat = 1) :
    inverseRep F a = some (repOf F.P.toNat (invMod (valOf F.P.toNat a) F.P.toNat)) := by
  have hpos : a ≠ 0 := by
    rintro rfl
    rw [Nat.gcd_zero_left] at h
    omega
  have hinv : invertible a F.P.toNat ≠ false := fun hf => (invertible_eq_false_iff _ _).1 hf h
  rw [inverseRep, if_neg (not_or.2 ⟨hpos, hinv⟩)]

/-- Any other has none (R182). -/
theorem inverseRep_of_not_coprime {F : FieldCtx} {a : Nat} (h : Nat.gcd a F.P.toNat ≠ 1) :
    inverseRep F a = none := by
  rw [inverseRep, if_pos (.inr ((invertible_eq_false_iff _ _).2 h))]

/-- The product of a number and the value read back from the representative of its inverse is 1. -/
theorem mul_valOf_repOf_invMod {p v : Nat} (hp : p % 2 = 1) (h1 : 1 < p) (h : Nat.gcd v p = 1) :
    v * valOf p (repOf p (invMod v p)) % p = 1 := by
  rw [valOf_repOf hp h1 (invMod_lt v (by omega)), invMod_spec h1 h]

/-! ## Square roots: what is found is a root (R183, R184) -/

/-- `TS_f` answers a number below p only after testing that it is a root (R184). -/
theorem tonelliLoop_sound {p v c : Nat} : ∀ {turns m z b x : Nat}, x < p →
    tonelliLoop p v turns m z b x = some c → c < p ∧ c * c % p = v
  | 0, _, _, _, _, _, h => nomatch h
  | turns + 1, m, z, b, x, hx, h => by
    unfold tonelliLoop at h
    split at h
    · split at h
      case isTrue hroot => cases h; exact ⟨hx, hroot⟩
      case isFalse => cases h
    · split at h
      · cases h
      · exact tonelliLoop_sound (Nat.mod_lt _ (by omega)) h

theorem tonelliShanks_sound {F : FieldCtx} {v c : Nat} (h0 : 0 < F.P.toNat)
    (h : tonelliShanks F v = some c) : c < F.P.toNat ∧ c * c % F.P.toNat = v := by
  unfold tonelliShanks at h
  split at h
  case isTrue hzero => cases h; exact ⟨h0, by simp [hzero]⟩
  case isFalse => exact tonelliLoop_sound (Nat.mod_lt _ h0) h

/-- For `p ≡ 3 (mod 4)` the candidate is `v^((p+1)/4) mod p` (R183). -/
theorem sqrtMod_of_three {F : FieldCtx} (h : F.P.toNat % 4 = 3) (v : Nat) :
    sqrtMod F v = if (v ^ ((F.P.toNat + 1) / 4)) ^ 2 % F.P.toNat = v
      then some (v ^ ((F.P.toNat + 1) / 4) % F.P.toNat) else none := by
  simp only [sqrtMod, if_pos h, powMod_eq (show 1 < F.P.toNat by omega), ← sq, ← Nat.pow_mod]

/-- For `p ≡ 1 (mod 4)` the root is what `TS_f` finds (R183). -/
theorem sqrtMod_of_one {F : FieldCtx} (h : F.P.toNat % 4 = 1) (v : Nat) :
    sqrtMod F v = tonelliShanks F v := if_neg (by omega)

/-- A square root that is found is one (R183). -/
theorem sqrtMod_sound {F : FieldCtx} (hodd : F.P.toNat % 2 = 1) {v c : Nat}
    (h : sqrtMod F v = some c) : c < F.P.toNat ∧ c * c % F.P.toNat = v := by
  obtain h3 | h1 : F.P.toNat % 4 = 3 ∨ F.P.toNat % 4 = 1 := by omega
  · rw [sqrtMod_of_three h3] at h
    split at h
    case isTrue hroot => cases h; exact ⟨Nat.mod_lt _ (by omega), by rw [← Nat.mul_mod, ← sq, hroot]⟩
    case isFalse => cases h
  · rw [sqrtMod_of_one h1] at h
    exact tonelliShanks_sound (by omega) h

/-! ## Square roots: every square has one (R183, R184) -/

/-- Numbers below p are equal if they are equal modulo p. -/
theorem natCast_inj_of_lt {p a b : Nat} (ha : a < p) (hb : b < p) :
    (a : ZMod p) = b ↔ a = b := by
  rw [ZMod.natCast_eq_natCast_iff', Nat.mod_eq_of_lt ha, Nat.mod_eq_of_lt hb]

theorem mul_self_mod_eq_iff {p v : Nat} (hv : v < p) (x : Nat) :
    x * x % p = v ↔ (x : ZMod p) * x = v := by
  rw [← Nat.cast_mul, ZMod.natCast_eq_natCast_iff', Nat.mod_eq_of_lt hv]

/-- `z^(2^n) mod p` as a power modulo p (R184). -/
theorem cast_squareTimes (p : Nat) : ∀ n z : Nat,
    ((squareTimes p n z : Nat) : ZMod p) = (z : ZMod p) ^ 2 ^ n
  | 0, z => by simp [squareTimes]
  | n + 1, z => by
    rw [squareTimes, cast_squareTimes p n, ZMod.natCast_mod, Nat.cast_mul, ← sq, ← pow_mul,
      ← pow_succ']

/-- `v^e mod p` as a power modulo p (R181). -/
theorem cast_powMod {p : Nat} (h1 : 1 < p) (v e : Nat) :
    ((powMod p v e : Nat) : ZMod p) = (v : ZMod p) ^ e := by
  rw [powMod_eq h1, ZMod.natCast_mod, Nat.cast_pow]

section
variable {p : Nat} [Fact p.Prime]

/-- For `p ≡ 3 (mod 4)` the candidate of rule R183 is a root exactly of the squares: its square is
`v · v^((p−1)/2)`. -/
theorem candidate_root_iff_isSquare (h : p % 4 = 3) {v : Nat} (hv : v < p) :
    (v ^ ((p + 1) / 4)) ^ 2 % p = v ↔ IsSquare (v : ZMod p) := by
  rw [sq, mul_self_mod_eq_iff hv]
  refine ⟨fun hroot => ⟨_, hroot.symm⟩, fun hsq => ?_⟩
  rw [Nat.cast_pow, ← pow_add, show (p + 1) / 4 + (p + 1) / 4 = p / 2 + 1 by omega, pow_succ]
  by_cases h0 : (v : ZMod p) = 0
  · rw [h0, mul_zero]
  · rw [(ZMod.euler_criterion p h0).1 hsq, one_mul]

/-- The search of rule R184 in a 2-power root of unity c other than 1: it finds the number of squarings
that lead from c to −1, counted from k. -/
theorem exists_leastSquaring {bound k c : Nat} (hc : (c : ZMod p) ≠ 1)
    (h : (c : ZMod p) ^ 2 ^ bound = 1) :
    ∃ j < bound, leastSquaring p bound k c = some (k + j) ∧ (c : ZMod p) ^ 2 ^ j = -1 := by
  induction bound generalizing k c with
  | zero => exact absurd (by simpa using h) hc
  | succ bound ih =>
    have hsq : ((c * c % p : Nat) : ZMod p) = (c : ZMod p) * c := by
      rw [ZMod.natCast_mod, Nat.cast_mul]
    have hone : c * c % p = 1 ↔ (c : ZMod p) * c = 1 := by
      simpa using mul_self_mod_eq_iff (Fact.out : p.Prime).one_lt c
    unfold leastSquaring
    by_cases hcc : c * c % p = 1
    · rw [if_pos hcc]
      exact ⟨0, Nat.succ_pos _, rfl,
        by simpa using (mul_self_eq_one_iff.1 (hone.1 hcc)).resolve_left hc⟩
    · rw [if_neg hcc]
      have hpow : ∀ n, ((c * c % p : Nat) : ZMod p) ^ 2 ^ n = (c : ZMod p) ^ 2 ^ (n + 1) := fun n => by
        rw [hsq, ← sq, ← pow_mul, ← pow_succ']
      obtain ⟨j, hj, hfound, hneg⟩ := ih (k := k + 1) (by rwa [hsq, ne_eq, ← hone]) (by rw [hpow, h])
      exact ⟨j + 1, Nat.succ_lt_succ hj, by rw [hfound, Nat.add_assoc, Nat.add_comm 1],
        by rw [← hpow, hneg]⟩

/-- The invariant of the loop of `TS_f(v)` on a square v (R184): `x² = v · b`, b is a `2^(m−1)`-th root
of unity and z is of order exactly `2^m`. -/
structure TonelliInvariant (p v m z b x : Nat) : Prop where
  pos : 0 < m
  reduced : b < p
  root : (x : ZMod p) ^ 2 = v * b
  unity : (b : ZMod p) ^ 2 ^ (m - 1) = 1
  order : (z : ZMod p) ^ 2 ^ (m - 1) = -1

/-- A turn of the loop in which the search has found `k = 1 + j` (R184). -/
theorem TonelliInvariant.next {v m z b x j w : Nat} (h : TonelliInvariant p v m z b x)
    (hj : j < m - 1) (hb : (b : ZMod p) ^ 2 ^ j = -1)
    (hw : (w : ZMod p) = (z : ZMod p) ^ 2 ^ (m - (1 + j) - 1)) :
    TonelliInvariant p v (1 + j) (w * w % p) (b * (w * w % p) % p) (x * w % p) := by
  have horder : ((w : ZMod p) * w) ^ 2 ^ j = -1 := by
    rw [hw, ← sq, ← pow_mul, ← pow_mul, ← pow_succ', ← pow_add, ← h.order]
    congr 2
    omega
  refine ⟨by omega, Nat.mod_lt _ (Fact.out : p.Prime).pos, ?_, ?_, ?_⟩
  all_goals simp only [ZMod.natCast_mod, Nat.cast_mul, Nat.add_sub_cancel_left]
  · rw [mul_pow, h.root]
    ring
  · rw [mul_pow, hb, horder, neg_mul_neg, one_mul]
  · exact horder

/-- On a square the loop of `TS_f` ends with a root: m decreases, so the turns suffice (R184). -/
theorem tonelliLoop_ne_none {v : Nat} (hv : v < p) {turns m z b x : Nat} (hm : m < turns)
    (h : TonelliInvariant p v m z b x) : tonelliLoop p v turns m z b x ≠ none := by
  induction turns generalizing m z b x with
  | zero => exact absurd hm (Nat.not_lt_zero m)
  | succ turns ih =>
    unfold tonelliLoop
    by_cases hb : b = 1
    · have hroot : x * x % p = v := by
        rw [mul_self_mod_eq_iff hv, ← sq, h.root, hb, Nat.cast_one, mul_one]
      rw [if_pos hb, if_pos hroot]
      exact Option.some_ne_none x
    · have hb' : (b : ZMod p) ≠ 1 := by
        simpa using mt (natCast_inj_of_lt h.reduced (Fact.out : p.Prime).one_lt).1 hb
      obtain ⟨j, hj, hfound, hneg⟩ := exists_leastSquaring (k := 1) hb' h.unity
      rw [if_neg hb, hfound]
      exact ih (by omega) (h.next hj hneg (cast_squareTimes p _ z))

/-- An element of order exactly `2^s` is −1 after `s − 1` squarings. -/
theorem pow_half_orderOf {z : ZMod p} {s : Nat} (hs : 0 < s) (h : orderOf z = 2 ^ s) :
    z ^ 2 ^ (s - 1) = -1 := by
  have hne : z ^ 2 ^ (s - 1) ≠ 1 := fun h1 => by
    have hdvd : 2 ^ s ∣ 2 ^ (s - 1) := h ▸ orderOf_dvd_of_pow_eq_one h1
    have := (Nat.pow_dvd_pow_iff_le_right' (b := 0)).1 hdvd
    omega
  have hsq : z ^ 2 ^ (s - 1) * z ^ 2 ^ (s - 1) = 1 := by
    rw [← sq, ← pow_mul, ← pow_succ, Nat.sub_add_cancel hs, ← h, pow_orderOf_eq_one]
  exact (mul_self_eq_one_iff.1 hsq).resolve_left hne

end

/-- What the two-adicity of `p − 1` says: `p − 1 = q · 2^S` with q odd and S positive (R30). -/
theorem FieldCtx.Configured.odd_part {F : FieldCtx} (h : F.Configured) :
    0 < F.S.toNat ∧ (F.P.toNat - 1) / 2 ^ F.S.toNat % 2 = 1 ∧
      (F.P.toNat - 1) / 2 ^ F.S.toNat * 2 ^ F.S.toNat = F.P.toNat - 1 := by
  have hodd := h.odd
  have hthree := h.three_le
  have hdvd := Nat.div_mul_cancel h.two_pow_dvd
  have hmax := h.two_pow_max
  refine ⟨Nat.pos_of_ne_zero fun h0 => hmax ?_, ?_, hdvd⟩
  · rw [h0]
    exact Nat.dvd_of_mod_eq_zero (by omega)
  · by_contra heven
    refine hmax ?_
    rw [pow_succ', ← hdvd]
    exact Nat.mul_dvd_mul_right (Nat.dvd_of_mod_eq_zero (by omega)) _

/-- The variables with which `TS_f` enters its loop on a nonzero square meet the invariant: b is `v^q`,
and its `2^(S−1)`-th power is the `v^((p−1)/2)` of Euler's criterion (R184). -/
theorem tonelliInvariant_start {F : FieldCtx} [Fact F.P.toNat.Prime] {v w z : Nat} (hF : F.Configured)
    (hz : orderOf (z : ZMod F.P.toNat) = 2 ^ F.S.toNat) (h0 : (v : ZMod F.P.toNat) ≠ 0)
    (hsq : IsSquare (v : ZMod F.P.toNat))
    (hw : (w : ZMod F.P.toNat) =
      (v : ZMod F.P.toNat) ^ (((F.P.toNat - 1) / 2 ^ F.S.toNat - 1) / 2)) :
    TonelliInvariant F.P.toNat v F.S.toNat z (v * w % F.P.toNat * w % F.P.toNat)
      (v * w % F.P.toNat) := by
  obtain ⟨hs, hq, hqs⟩ := hF.odd_part
  have hodd := hF.odd
  generalize (F.P.toNat - 1) / 2 ^ F.S.toNat = q at hq hqs hw
  have hb : (v : ZMod F.P.toNat) * w * w = (v : ZMod F.P.toNat) ^ q := by
    rw [hw, mul_assoc, ← pow_add, ← pow_succ']
    congr 1
    omega
  have hhalf : q * 2 ^ (F.S.toNat - 1) = F.P.toNat / 2 := by
    have hpow : 2 ^ F.S.toNat = 2 ^ (F.S.toNat - 1) * 2 := by
      rw [← pow_succ, Nat.sub_add_cancel hs]
    rw [hpow, ← Nat.mul_assoc] at hqs
    omega
  refine ⟨hs, Nat.mod_lt _ (Fact.out : F.P.toNat.Prime).pos, ?_, ?_, pow_half_orderOf hs hz⟩
  all_goals simp only [ZMod.natCast_mod, Nat.cast_mul]
  · ring
  · rw [hb, ← pow_mul, hhalf]
    exact (ZMod.euler_criterion _ h0).1 hsq

/-- Settles O35: on a square the loop ends with a root by its invariant; what it answers is always
tested to be a root, so a non-square gets none. -/
theorem tonelliShanksComplete : Obligations.TonelliShanksComplete := by
  intro F v hF hprime _ hz hv
  have : Fact F.P.toNat.Prime := ⟨hprime⟩
  have hsound := fun {c} (h : tonelliShanks F v = some c) => tonelliShanks_sound hprime.pos h
  refine ⟨fun hsq => ?_, fun hsq => ?_⟩
  · have hfound : tonelliShanks F v ≠ none := by
      unfold tonelliShanks
      split
      case isTrue => exact Option.some_ne_none 0
      case isFalse hne =>
        have h0 : (v : ZMod F.P.toNat) ≠ 0 := by
          simpa using mt (natCast_inj_of_lt hv hprime.pos).1 hne
        exact tonelliLoop_ne_none hv (Nat.lt_succ_self _)
          (tonelliInvariant_start hF hz h0 hsq (cast_powMod hprime.one_lt v _))
    obtain ⟨x, hx⟩ := Option.ne_none_iff_exists'.1 hfound
    exact ⟨x, hx, hsound hx⟩
  · refine Option.eq_none_iff_forall_ne_some.2 fun x hx => hsq ⟨x, ?_⟩
    exact ((mul_self_mod_eq_iff hv x).1 (hsound hx).2).symm

end Sys2Proof.Machine
end

section
/-! PROOFS. The prime-field commands: their words, the checks of rule R170, and what each does when it
completes, from the arithmetic modulo p of the section before (rules R172 to R186). -/

namespace Sys2Proof.Machine

-- Many theorems elaborated at once need more memory than the check grants.
set_option Elab.async false

/-! ## The checks and the results of a field command (R170) -/

section
variable {i : Instr} {s : State} {f : Ctx} {xd xs xs1 xs2 : XReg}

/-- A command that begins with `FieldOK(f)` and has no field operand (R170). -/
theorem fieldChecks_nil {k : FieldCtx → Except Err State}
    (hx : exec i s = conclude s (withField s f k)) : FieldChecks i s f [] :=
  ⟨fun hv => raises_of_exec hx (withField_eq_error.2 (.inl ⟨hv, rfl⟩)), fun _ hr => by simp at hr⟩

/-- The checks of a command with one field operand (R170). -/
theorem fieldChecks_one {k : FieldCtx → Nat → Except Err State}
    (hx : exec i s = conclude s (withField s f fun F => withElement F (s.x xs) (k F))) :
    FieldChecks i s f [xs] := by
  refine ⟨(fieldChecks_nil hx).1, fun hv ⟨r, hr, hle⟩ => ?_⟩
  obtain rfl := List.mem_singleton.1 hr
  exact raises_of_exec hx (withField_eq_error.2 (.inr ⟨hv, withElement_eq_error.2 (.inl ⟨hle, rfl⟩)⟩))

/-- The checks of a command with two field operands, the first one first (R170). -/
theorem fieldChecks_two {k : FieldCtx → Nat → Nat → Except Err State}
    (hx : exec i s = conclude s (withField s f fun F =>
      withElement F (s.x xs1) fun a => withElement F (s.x xs2) (k F a))) :
    FieldChecks i s f [xs1, xs2] := by
  refine ⟨(fieldChecks_nil hx).1, fun hv ⟨r, hr, hle⟩ =>
    raises_of_exec hx (withField_eq_error.2 (.inr ⟨hv, withElement_eq_error.2 ?_⟩))⟩
  by_cases h1 : (s.F f).P.toNat ≤ (s.x xs1).toNat
  · exact .inl ⟨h1, rfl⟩
  · have hr2 : r = xs2 := by
      rcases List.mem_pair.1 hr with rfl | rfl
      · exact absurd hle h1
      · rfl
    exact .inr ⟨Nat.not_le.1 h1, withElement_eq_error.2 (.inl ⟨hr2 ▸ hle, rfl⟩)⟩

theorem usable_one (hr : Ready s f) (h : Holds s f xs) : Effect.Usable s f [xs] :=
  ⟨hr.1, List.forall_mem_singleton.2 h⟩

theorem usable_two (hr : Ready s f) (h1 : Holds s f xs1) (h2 : Holds s f xs2) :
    Effect.Usable s f [xs1, xs2] :=
  ⟨hr.1, List.forall_mem_cons.2 ⟨h1, List.forall_mem_singleton.2 h2⟩⟩

/-- The modulus of a ready context is odd and above 1 (R30). -/
theorem Ready.modulus (hr : Ready s f) : (s.F f).P.toNat % 2 = 1 ∧ 1 < (s.F f).P.toNat :=
  ⟨hr.2.odd, Nat.lt_of_lt_of_le (by decide) hr.2.three_le⟩

/-- A command whose effect is to write an element of the field to a general register: the context is as
before, so the destination holds an element of it (R170, R360). -/
theorem completes_element {v : Nat} (h : Effect i s (s.setXNat xd v)) (hv : v < (s.F f).P.toNat) :
    ∃ t, exec i s = .next t ∧ Completed s t [.x xd] ∧ t.F f = s.F f ∧ Holds t f xd ∧
      (t.x xd).toNat = v := by
  obtain ⟨t, hx, ht, hval⟩ := completes_setXNat h (hv.trans (s.F f).P.isLt)
  have hF : t.F f = s.F f := ht.2 (.field f) (by simp)
  exact ⟨t, hx, ht, hF, by rwa [Holds, hF, hval], hval⟩

end

/-! ## FFROM and FINTO (R172, R173) -/

section
variable {s : State} {f : Ctx} {xs : XReg}

theorem completes_ffrom (xd : XReg) (hr : Ready s f) (h : Holds s f xs) :
    ∃ t, exec (.ffrom f xd xs) s = .next t ∧ Completed s t [.x xd] ∧ t.F f = s.F f ∧ Holds t f xd ∧
      (t.x xd).toNat = repOf (s.F f).P.toNat (s.x xs).toNat :=
  completes_element ⟨usable_one hr h, rfl⟩ (repOf_lt (Nat.zero_lt_of_lt h) _)

theorem completes_finto (xd : XReg) (hr : Ready s f) (h : Holds s f xs) :
    ∃ t, exec (.finto f xd xs) s = .next t ∧ Completed s t [.x xd] ∧ t.F f = s.F f ∧ Holds t f xd ∧
      (t.x xd).toNat = valOf (s.F f).P.toNat (s.x xs).toNat :=
  completes_element ⟨usable_one hr h, rfl⟩ (valOf_lt (Nat.zero_lt_of_lt h) _)

/-- `FINTO` after `FFROM` gives back the number. -/
theorem finto_after_ffrom (xd xe : XReg) (hr : Ready s f) (h : Holds s f xs) :
    ∃ t u, exec (.ffrom f xd xs) s = .next t ∧ exec (.finto f xe xd) t = .next u ∧
      u.x xe = s.x xs := by
  obtain ⟨t, hx, -, hF, ht, hval⟩ := completes_ffrom xd hr h
  obtain ⟨u, hx', -, -, -, hval'⟩ := completes_finto xe (s := t) (by rwa [Ready, hF]) ht
  refine ⟨t, u, hx, hx', BitVec.eq_of_toNat_eq ?_⟩
  rw [hval', hF, hval, valOf_repOf hr.modulus.1 hr.modulus.2 h]

/-- `FFROM` after `FINTO` gives back the representative. -/
theorem ffrom_after_finto (xd xe : XReg) (hr : Ready s f) (h : Holds s f xs) :
    ∃ t u, exec (.finto f xd xs) s = .next t ∧ exec (.ffrom f xe xd) t = .next u ∧
      u.x xe = s.x xs := by
  obtain ⟨t, hx, -, hF, ht, hval⟩ := completes_finto xd hr h
  obtain ⟨u, hx', -, -, -, hval'⟩ := completes_ffrom xe (s := t) (by rwa [Ready, hF]) ht
  refine ⟨t, u, hx, hx', BitVec.eq_of_toNat_eq ?_⟩
  rw [hval', hF, hval, repOf_valOf hr.modulus.1 hr.modulus.2 h]

end

/-- Settles O29: the two commands compute `rep_f` and `val_f`, which undo each other below p. -/
theorem conversionRules : Obligations.ConversionRules := by
  refine ⟨fun f xd xs s => ⟨?_, ?_, fieldChecks_one rfl, fieldChecks_one rfl, fun hr h => ⟨?_, ?_⟩⟩,
    fun f xd xe xs s hr h => ⟨finto_after_ffrom xd xe hr h, ffrom_after_finto xd xe hr h⟩⟩
  · exact encodes_of_encode rfl (congrArg (BitVec.ofNat 32) (by omega))
  · exact encodes_of_encode rfl (congrArg (BitVec.ofNat 32) (by omega))
  · obtain ⟨t, hx, ht, -, hd, hval⟩ := completes_ffrom xd hr h
    exact ⟨t, hx, ht, hd, hval⟩
  · obtain ⟨t, hx, ht, -, hd, hval⟩ := completes_finto xd hr h
    have hradix := valOf_mul_radix hr.modulus.1 hr.modulus.2 (s.x xs).toNat
    rw [Nat.mod_eq_of_lt h, ← hval] at hradix
    exact ⟨t, hx, ht, hd, hradix⟩

/-! ## FMUL and FSQR (R175, R180) -/

/-- A command whose effect is to write a Montgomery product: the result times the radix is the product
(R171). -/
theorem completes_montMul {i : Instr} {s : State} {f : Ctx} {xd : XReg} {a b : Nat} (hr : Ready s f)
    (h : Effect i s (s.setXNat xd (montMul (s.F f).P.toNat a b))) :
    ∃ t, exec i s = .next t ∧ Completed s t [.x xd] ∧ Holds t f xd ∧
      (t.x xd).toNat * 2 ^ 256 % (s.F f).P.toNat = a * b % (s.F f).P.toNat := by
  obtain ⟨hodd, h1⟩ := hr.modulus
  obtain ⟨t, hx, ht, -, hd, hval⟩ := completes_element (f := f) h (montMul_lt (by omega) a b)
  exact ⟨t, hx, ht, hd, hval ▸ montMul_mul_radix hodd h1 a b⟩

/-- Settles O30: both commands write `MontMul_f`, `FSQR` of its operand with itself. -/
theorem multiplyRules : Obligations.MultiplyRules := by
  intro f xd xs1 xs2 s
  refine ⟨?_, ?_, fieldChecks_two rfl, fieldChecks_one rfl, fun hr h1 h2 => ?_, fun hr h1 => ?_⟩
  · exact encodes_of_encode rfl rfl
  · exact encodes_of_encode rfl (congrArg (BitVec.ofNat 32) (by omega))
  · exact completes_montMul hr ⟨usable_two hr h1 h2, rfl⟩
  · exact completes_montMul hr ⟨usable_one hr h1, rfl⟩

/-! ## FADD, FSUB, FNEG and FDBL (R176 to R179) -/

/-- Settles O31: the adder and the subtractor reduce by one conditional step. -/
theorem addSubtractRules : Obligations.AddSubtractRules := by
  intro f xd xs1 xs2 s
  refine ⟨?_, ?_, ?_, ?_, fieldChecks_two rfl, fieldChecks_two rfl, fieldChecks_one rfl,
    fieldChecks_one rfl, fun hr h1 h2 => ⟨?_, ?_⟩, fun hr h1 => ⟨?_, ?_⟩⟩
  · exact encodes_of_encode rfl rfl
  · exact encodes_of_encode rfl rfl
  · exact encodes_of_encode rfl (congrArg (BitVec.ofNat 32) (by omega))
  · exact encodes_of_encode rfl (congrArg (BitVec.ofNat 32) (by omega))
  · have hsum := addMod_eq h1 h2
    obtain ⟨t, hx, ht, -, -, hval⟩ := completes_element (i := .fadd f xd xs1 xs2) (f := f)
      ⟨usable_two hr h1 h2, rfl⟩ (hsum.trans_lt (Nat.mod_lt _ (Nat.zero_lt_of_lt h1)))
    exact ⟨t, hx, ht, hval.trans hsum⟩
  · obtain ⟨hlt, hdiff⟩ := subMod_spec h1 h2
    obtain ⟨t, hx, ht, -, hd, hval⟩ := completes_element (i := .fsub f xd xs1 xs2) (f := f)
      ⟨usable_two hr h1 h2, rfl⟩ hlt
    exact ⟨t, hx, ht, hd, by rw [hval, hdiff]⟩
  · obtain ⟨hlt, hneg⟩ := negMod_spec h1
    obtain ⟨t, hx, ht, -, hd, hval⟩ := completes_element (i := .fneg f xd xs1) (f := f)
      ⟨usable_one hr h1, rfl⟩ hlt
    exact ⟨t, hx, ht, hd, by rw [hval, hneg]⟩
  · have hsum := addMod_eq h1 h1
    obtain ⟨t, hx, ht, -, -, hval⟩ := completes_element (i := .fdbl f xd xs1) (f := f)
      ⟨usable_one hr h1, rfl⟩ (hsum.trans_lt (Nat.mod_lt _ (Nat.zero_lt_of_lt h1)))
    exact ⟨t, hx, ht, by rw [hval, hsum, Nat.two_mul]⟩

/-! ## FPOW (R181) -/

/-- Settles O32: the loop computes the power of the logical value, and the result is below p, so it is
the representative of its own logical value. -/
theorem fpowRule : Obligations.FpowRule := by
  intro f xd xs1 xs2 s
  refine ⟨encodes_of_encode rfl rfl, fieldChecks_one rfl, fun hr h => ?_⟩
  obtain ⟨hodd, h1⟩ := hr.modulus
  obtain ⟨hlt, hpow⟩ := valOf_montPow hodd h1 hr.2.r1 (s.x xs1).toNat (s.x xs2).toNat
  obtain ⟨t, hx, ht, -, -, hval⟩ := completes_element (i := .fpow f xd xs1 xs2) (f := f)
    ⟨usable_one hr h, rfl⟩ hlt
  exact ⟨t, hx, ht, by rw [hval, ← hpow, repOf_valOf hodd h1 hlt]⟩

/-! ## FINV (R182) -/

section
variable {i : Instr} {s : State} {xd : XReg}

/-- A command whose result may not exist, with a result (R182, R183). -/
theorem completes_some {v : Nat} (h : Effect i s (s.optionResult xd (some v))) (hv : v < 2 ^ 256) :
    ∃ t, exec i s = .next t ∧ Completed s t [.x xd, .T] ∧ t.ST.T = true ∧ (t.x xd).toNat = v :=
  ⟨_, exec_of_effect h, completed_setERR (keeps_optionResult s xd _), rfl,
    State.toNat_x_setXNat s xd hv⟩

/-- A command whose result may not exist, without one (R182, R183). -/
theorem completes_none (h : Effect i s (s.optionResult xd none)) :
    ∃ t, exec i s = .next t ∧ Completed s t [.T] ∧ t.ST.T = false :=
  ⟨_, exec_of_effect h, completed_setERR (keeps_setT s false), rfl⟩

end

/-- Settles O33: an inverse exists exactly for the representatives prime to p. -/
theorem finvRule : Obligations.FinvRule := by
  intro f xd xs s
  refine ⟨encodes_of_encode rfl (congrArg (BitVec.ofNat 32) (by omega)), fieldChecks_one rfl,
    fun hr h hc => ?_, fun hr h hc => ?_⟩
  · obtain ⟨hodd, h1⟩ := hr.modulus
    have hlt := repOf_lt (by omega : 0 < (s.F f).P.toNat)
      (invMod (valOf (s.F f).P.toNat (s.x xs).toNat) (s.F f).P.toNat)
    obtain ⟨t, hx, ht, hT, hval⟩ := completes_some (i := .finv f xd xs) (xd := xd)
      ⟨usable_one hr h, by rw [inverseRep_of_coprime h1 hc]⟩ (hlt.trans (s.F f).P.isLt)
    have hF : t.F f = s.F f := ht.2 (.field f) (by simp)
    refine ⟨t, hx, ht, hT, by rwa [Holds, hF, hval], ?_⟩
    rw [hval, mul_valOf_repOf_invMod hodd h1 ((gcd_valOf hodd h1 _).2 hc)]
  · exact completes_none (xd := xd) ⟨usable_one hr h, by rw [inverseRep_of_not_coprime hc]⟩

/-! ## FSQRT (R183) -/

theorem rootReady_eq_false_iff (F : FieldCtx) :
    rootReady F = false ↔ F.P.toNat % 4 = 1 ∧ F.ROOT2 = 0 := by
  simp [rootReady]

theorem exec_fsqrt (f : Ctx) (xd xs : XReg) (s : State) :
    exec (.fsqrt f xd xs) s = conclude s (withField s f fun F => withElement F (s.x xs) fun a =>
      check (rootReady F) .noConfig (.ok (s.optionResult xd
        ((sqrtMod F (valOf F.P.toNat a)).map (repOf F.P.toNat))))) := rfl

/-- `ROOT2` is tested after the operand (R183). -/
theorem fsqrt_raises {f : Ctx} {xd xs : XReg} {s : State} (hr : Ready s f) (h : Holds s f xs)
    (h1 : (s.F f).P.toNat % 4 = 1) (h0 : (s.F f).ROOT2 = 0) : Raises (.fsqrt f xd xs) s .noConfig := by
  refine raises_of_exec (exec_fsqrt f xd xs s) (withField_eq_error.2 (.inr ⟨hr.1, ?_⟩))
  have hroot := (rootReady_eq_false_iff (s.F f)).2 ⟨h1, h0⟩
  exact withElement_eq_error.2 (.inr ⟨h, check_eq_error.2 (.inl ⟨hroot, rfl⟩)⟩)

/-- What `FSQRT` does with the answer of the root procedure (R183): T tells whether there is one, a root
c is delivered as its representative, and without one the destination stays. -/
theorem completes_fsqrt {f : Ctx} (xd : XReg) {xs : XReg} {s : State} (hr : Ready s f)
    (h : Holds s f xs) (hroot : (s.F f).P.toNat % 4 = 3 ∨ (s.F f).ROOT2 ≠ 0) {r : Option Nat}
    (hres : sqrtMod (s.F f) (valOf (s.F f).P.toNat (s.x xs).toNat) = r) :
    ∃ t, exec (.fsqrt f xd xs) s = .next t ∧ Completed s t [.x xd, .T] ∧
      (t.ST.T = true ↔ r ≠ none) ∧ (t.ST.T = false → t.x xd = s.x xd) ∧
      ∀ c, r = some c → (t.x xd).toNat = repOf (s.F f).P.toNat c := by
  have hready : rootReady (s.F f) = true := by
    rw [← Bool.not_eq_false, rootReady_eq_false_iff]
    rintro ⟨h1, h0⟩
    exact hroot.elim (by omega) fun hne => hne h0
  have heff : Effect (.fsqrt f xd xs) s (s.optionResult xd (r.map (repOf (s.F f).P.toNat))) :=
    ⟨usable_one hr h, hready, by rw [hres]⟩
  cases r with
  | none =>
    obtain ⟨t, hx, ht, hT⟩ := completes_none heff
    refine ⟨t, hx, ⟨ht.1, ht.2.mono (by simp)⟩, by simp [hT], fun _ => ?_, fun c hc => nomatch hc⟩
    exact ht.2 (.x xd) (by simp)
  | some c =>
    obtain ⟨t, hx, ht, hT, hval⟩ := completes_some heff
      ((repOf_lt (Nat.zero_lt_of_lt h) c).trans (s.F f).P.isLt)
    exact ⟨t, hx, ht, by simp [hT], by simp [hT], fun d hd => by cases hd; exact hval⟩

/-- Settles O34: the root procedure only answers roots; for `p ≡ 3 (mod 4)` it tests one candidate, for
`p ≡ 1 (mod 4)` it is `TS_f`. -/
theorem fsqrtRule : Obligations.FsqrtRule := by
  intro f xd xs s
  refine ⟨encodes_of_encode rfl (congrArg (BitVec.ofNat 32) (by omega)), fieldChecks_one rfl, ?_⟩
  rintro p v rfl rfl hr h
  refine ⟨fsqrt_raises hr h, fun hroot => ?_⟩
  obtain ⟨hodd, h1⟩ := hr.modulus
  have hv : valOf (s.F f).P.toNat (s.x xs).toNat < (s.F f).P.toNat := valOf_lt (by omega) _
  obtain ⟨t, hx, ht, hT, hkept, hval⟩ := completes_fsqrt xd hr h hroot rfl
  have hF : t.F f = s.F f := ht.2 (.field f) (by simp)
  generalize valOf (s.F f).P.toNat (s.x xs).toNat = v at hv hT hval ⊢
  have hthree : (s.F f).P.toNat % 4 = 3 →
      (t.ST.T = true ↔ (v ^ (((s.F f).P.toNat + 1) / 4)) ^ 2 % (s.F f).P.toNat = v) := fun h3 => by
    rw [hT, sqrtMod_of_three h3]
    simp
  refine ⟨t, hx, ht, hkept, fun htrue => ?_, fun h3 => ⟨hthree h3, fun htrue => ?_, fun hprime => ?_⟩,
    fun hone => ?_⟩
  · obtain ⟨c, hc⟩ := Option.ne_none_iff_exists'.1 (hT.1 htrue)
    obtain ⟨hlt, hsq⟩ := sqrtMod_sound hodd hc
    refine ⟨?_, ?_⟩
    · rw [Holds, hF, hval c hc]
      exact repOf_lt (by omega) c
    · rw [hval c hc, valOf_repOf hodd h1 hlt, sq, hsq]
  · exact hval _ (by rw [sqrtMod_of_three h3, if_pos ((hthree h3).1 htrue)])
  · have : Fact (s.F f).P.toNat.Prime := ⟨hprime⟩
    rw [hthree h3, candidate_root_iff_isSquare h3 hv]
  · rw [sqrtMod_of_one hone] at hT hval
    exact ⟨hT, hval⟩

/-! ## FCONST and FLDMOD (R185, R186) -/

theorem encodes_fconst (f : Ctx) (xd : XReg) (k : FConst) :
    Encodes (0x3B * 2 ^ 24 + xd.val * 2 ^ 20 + ctxBit f * 2 ^ 8 + constNumber k) (.fconst f xd k) :=
  encodes_of_encode rfl (congrArg (BitVec.ofNat 32) (by omega))

/-- With a valid context `FCONST` delivers the constant of its selector (R185). -/
theorem completes_fconst {f : Ctx} (xd : XReg) {s : State} (hv : (s.F f).VALID = true) (k : FConst) :
    ∃ t, exec (.fconst f xd k) s = .next t ∧ t.x xd = constantValue (s.F f) k ∧
      Completed s t [.x xd] :=
  ⟨_, exec_of_effect (i := .fconst f xd k) ⟨hv, rfl⟩, State.x_setX_same s xd _,
    completed_setERR (keeps_setX s xd _)⟩

/-- The little-endian value of a range of `MEM` as the sum of rule R11. -/
theorem leNat_memRead (s : State) (a n : Nat) :
    leNat (s.memRead a n) = ∑ k ∈ Finset.range n, (s.MEM.read (a + k)).toNat * 256 ^ k := by
  rw [State.memRead, Memory.readBytes_eq_map, leNat_map_range]

theorem exec_fldmod (f : Ctx) (xd : XReg) (aa al : AReg) (s : State) :
    exec (.fldmod f xd aa al) s = conclude s (withRange (s.ea aa) (s.ea al) (withField s f fun F =>
      .ok (s.setXNat xd (repOf F.P.toNat
        (leNat (s.memRead (s.ea aa) (s.ea al)) % F.P.toNat))))) := rfl

/-- Settles O36: a selector names its constant, and the representative of the reduced bytes is that of
the bytes. -/
theorem constantAndReductionRules : Obligations.ConstantAndReductionRules := by
  refine ⟨fun f xd s => ⟨fun k => ⟨encodes_fconst f xd k, fieldChecks_nil rfl⟩, fun hv =>
    ⟨completes_fconst xd hv .zero, completes_fconst xd hv .one, completes_fconst xd hv .gen⟩⟩,
    fun f xd aa al s => ⟨?_, fun h => ?_, fun h hv => ?_, fun h hr => ?_⟩⟩
  · exact encodes_of_encode rfl rfl
  · exact raises_of_exec (exec_fldmod f xd aa al s) (withRange_eq_error.2 (.inl ⟨h, rfl⟩))
  · exact raises_of_exec (exec_fldmod f xd aa al s)
      (withRange_eq_error.2 (.inr ⟨h, withField_eq_error.2 (.inl ⟨hv, rfl⟩)⟩))
  · obtain ⟨t, hx, ht, -, hd, hval⟩ := completes_element (i := .fldmod f xd aa al) (f := f)
      ⟨h, hr.1, rfl⟩ (repOf_lt (Nat.zero_lt_of_lt hr.modulus.2) _)
    rw [repOf_mod, leNat_memRead] at hval
    exact ⟨t, hx, ht, hd, hval⟩

end Sys2Proof.Machine
end

section
/-! PROOFS. The group laws: the two cubic models as one, the sum as its equations give it, and the
curve equation for every sum, modulo any number that `SETMOD` accepts (rules R41, R200 to R206). -/

namespace Sys2Proof.Machine

-- Many theorems elaborated at once need more memory than the check grants.
set_option Elab.async false

/-! ## The two cubic models as one (R41, R202, R204)

The models 0 and 2 are the curves `lead·y² = x³ + quad·x² + lin·x + const`, and their chord rules are
one rule in these coefficients. -/

/-- The coefficient of `y²`. -/
def CurveParams.lead (c : CurveParams) : Nat := if c.model = .montgomery then c.B else 1

/-- The coefficient of `x²`. -/
def CurveParams.quad (c : CurveParams) : Nat := if c.model = .montgomery then c.A else 0

/-- The coefficient of `x`. -/
def CurveParams.lin (c : CurveParams) : Nat := if c.model = .montgomery then 1 else c.A

/-- The constant coefficient. -/
def CurveParams.const (c : CurveParams) : Nat := if c.model = .montgomery then 0 else c.B

section
variable {c : CurveParams} {x1 y1 x2 y2 : Nat} {Q : AffPoint}

theorem onCurve_cubic (hm : c.model ≠ .edwards) (x y : Nat) : onCurve c x y = true ↔
    (c.lead * y ^ 2 : ZMod c.p) = x ^ 3 + c.quad * x ^ 2 + c.lin * x + c.const := by
  obtain ⟨model, p, A, B⟩ := c
  cases model with
  | edwards => exact absurd rfl hm
  | weierstrass | montgomery =>
    simp [onCurve, CurveParams.lead, CurveParams.quad, CurveParams.lin, CurveParams.const,
      ← ZMod.natCast_eq_natCast_iff']

theorem onCurve_edwards (hm : c.model = .edwards) (x y : Nat) : onCurve c x y = true ↔
    (c.A * x ^ 2 + y ^ 2 : ZMod c.p) = 1 + c.B * x ^ 2 * y ^ 2 := by
  simp [onCurve, hm, ← ZMod.natCast_eq_natCast_iff']

theorem addPoint_cubic (hm : c.model ≠ .edwards) :
    addPoint c (.mk x1 y1) (.mk x2 y2) =
      if x1 = x2 then
        if y1 = y2 ∧ y1 ≠ 0 then
          andThen (divMod c.p (3 * (x1 : Int) ^ 2 + 2 * c.quad * x1 + c.lin) (2 * c.lead * y1))
            fun lam => .ok (thirdPoint c x1 y1 x2 lam)
        else .ok .O
      else andThen (divMod c.p ((y2 : Int) - y1) ((x2 : Int) - x1)) fun lam =>
        .ok (thirdPoint c x1 y1 x2 lam) := by
  obtain ⟨model, p, A, B⟩ := c
  cases model with
  | edwards => exact absurd rfl hm
  | weierstrass | montgomery =>
    simp only [addPoint, addChord, dblWeierstrass, dblMontgomery]
    split
    case isFalse => rfl
    case isTrue hx =>
      subst hx
      split
      case isFalse => rfl
      case isTrue hy => simp [hy.2, CurveParams.lead, CurveParams.quad, CurveParams.lin]

theorem sumDefined_cubic (hm : c.model ≠ .edwards) :
    SumDefined c (.mk x1 y1) (.mk x2 y2) ↔
      if x1 = x2 then y1 = y2 → y1 ≠ 0 → IsCoprime (2 * c.lead * y1 : Int) c.p
      else IsCoprime ((x2 : Int) - x1) c.p := by
  obtain ⟨model, p, A, B⟩ := c
  cases model with
  | edwards => exact absurd rfl hm
  | weierstrass | montgomery => simp [SumDefined, CurveParams.lead]

theorem isSum_cubic (hm : c.model ≠ .edwards) :
    IsSum c (.mk x1 y1) (.mk x2 y2) Q ↔
      if x1 = x2 ∧ (y1 ≠ y2 ∨ y1 = 0) then Q = .O
      else ∃ lam x3 y3 : Nat, Q = .mk x3 y3 ∧ x3 < c.p ∧ y3 < c.p ∧
        (if x1 = x2 then
          (lam : Int) * (2 * c.lead * y1) ≡ 3 * x1 ^ 2 + 2 * c.quad * x1 + c.lin [ZMOD c.p]
          else (lam : Int) * (x2 - x1) ≡ y2 - y1 [ZMOD c.p]) ∧
        OnLine c.p c.lead c.quad lam x1 y1 x2 x3 y3 := by
  obtain ⟨model, p, A, B⟩ := c
  cases model with
  | edwards => exact absurd rfl hm
  | weierstrass | montgomery =>
    simp [IsSum, CurveParams.lead, CurveParams.quad, CurveParams.lin]

/-- The third point lies on its line (R202, R204). -/
theorem thirdPoint_spec (hm : c.model ≠ .edwards) (hp : 0 < c.p) (x1 y1 x2 lam : Nat) :
    ∃ x3 y3 : Nat, thirdPoint c x1 y1 x2 lam = .mk x3 y3 ∧ x3 < c.p ∧ y3 < c.p ∧
      OnLine c.p c.lead c.quad lam x1 y1 x2 x3 y3 := by
  obtain ⟨model, p, A, B⟩ := c
  cases model with
  | edwards => exact absurd rfl hm
  | weierstrass | montgomery =>
    refine ⟨_, _, rfl, residue_lt hp _, residue_lt hp _, ?_, residue_modEq hp _⟩
    simpa [CurveParams.lead, CurveParams.quad] using residue_modEq hp _

/-! ## The sum and its equations (R201 to R205) -/

/-- Doubling is the addition of a point to itself (R202 to R205). -/
theorem dblPoint_eq_addPoint (c : CurveParams) (P : AffPoint) : dblPoint c P = addPoint c P P := by
  obtain ⟨model, p, A, B⟩ := c
  cases P with
  | O => cases model <;> rfl
  | mk x y =>
    cases model with
    | edwards => rfl
    | weierstrass | montgomery =>
      by_cases hy : y = 0 <;>
        simp [dblPoint, addPoint, addChord, dblWeierstrass, dblMontgomery, hy]

/-- `Div(u, v)` exists exactly for a divisor prime to the modulus (R201). -/
theorem divMod_cases {p : Nat} (hp : 1 < p) (u v : Int) :
    (IsCoprime v (p : Int) ∧ ∃ q, divMod p u v = .ok q ∧ q < p ∧ (q : Int) * v ≡ u [ZMOD p]) ∨
      (¬ IsCoprime v (p : Int) ∧ divMod p u v = .error .arithDomain) := by
  by_cases hv : IsCoprime v (p : Int)
  · obtain ⟨q, hq⟩ := divMod_of_coprime (by omega) u hv
    exact .inl ⟨hv, q, hq, divMod_spec hp hq⟩
  · exact .inr ⟨hv, divMod_of_not_coprime (by omega) u hv⟩

/-- The sum of two points as the statements speak of it: where its divisions exist, a point that
satisfies the equations, and otherwise `ArithDomain` (R201 to R205). -/
def SumRule (c : CurveParams) (P1 P2 : AffPoint) : Prop :=
  (SumDefined c P1 P2 → ∃ Q, addPoint c P1 P2 = .ok Q ∧ IsSum c P1 P2 Q) ∧
    (¬ SumDefined c P1 P2 → addPoint c P1 P2 = .error .arithDomain)

/-- The slope of a chord or tangent exists exactly where its divisor is prime to the modulus, and the
line gives the third point (R201, R202, R204). -/
theorem line_rule (hm : c.model ≠ .edwards) (hp : 1 < c.p) (x1 y1 x2 : Nat) (u v : Int) :
    (IsCoprime v (c.p : Int) → ∃ Q,
      (andThen (divMod c.p u v) fun lam => .ok (thirdPoint c x1 y1 x2 lam)) = .ok Q ∧
        ∃ lam x3 y3 : Nat, Q = .mk x3 y3 ∧ x3 < c.p ∧ y3 < c.p ∧ (lam : Int) * v ≡ u [ZMOD c.p] ∧
          OnLine c.p c.lead c.quad lam x1 y1 x2 x3 y3) ∧
      (¬ IsCoprime v (c.p : Int) →
        (andThen (divMod c.p u v) fun lam => .ok (thirdPoint c x1 y1 x2 lam)) =
          .error .arithDomain) := by
  rcases divMod_cases hp u v with ⟨hv, lam, hq, -, hlam⟩ | ⟨hv, hq⟩
  · obtain ⟨x3, y3, h3, hx3, hy3, hline⟩ := thirdPoint_spec hm (by omega) x1 y1 x2 lam
    rw [hq, andThen_ok]
    exact ⟨fun _ => ⟨_, rfl, lam, x3, y3, h3, hx3, hy3, hlam, hline⟩, fun h => absurd hv h⟩
  · rw [hq, andThen_error]
    exact ⟨fun h => absurd h hv, fun _ => rfl⟩

theorem sumRule_cubic (hm : c.model ≠ .edwards) (hp : 1 < c.p) :
    SumRule c (.mk x1 y1) (.mk x2 y2) := by
  rw [SumRule, addPoint_cubic hm, sumDefined_cubic hm]
  simp only [isSum_cubic hm]
  by_cases hx : x1 = x2
  · by_cases hy : y1 = y2 ∧ y1 ≠ 0
    · have hne : ¬ (x1 = x2 ∧ (y1 ≠ y2 ∨ y1 = 0)) := by tauto
      have hdef : (y1 = y2 → y1 ≠ 0 → IsCoprime (2 * c.lead * y1 : Int) c.p) ↔
          IsCoprime (2 * c.lead * y1 : Int) c.p := ⟨fun h => h hy.1 hy.2, fun h _ _ => h⟩
      simp only [if_pos hx, if_pos hy, if_neg hne, hdef]
      exact line_rule hm hp x1 y1 x2 _ _
    · have hO : x1 = x2 ∧ (y1 ≠ y2 ∨ y1 = 0) := by tauto
      have hdef : y1 = y2 → y1 ≠ 0 → IsCoprime (2 * c.lead * y1 : Int) c.p :=
        fun h1 h2 => absurd ⟨h1, h2⟩ hy
      simp only [if_pos hx, if_neg hy, if_pos hO]
      exact ⟨fun _ => ⟨_, rfl, rfl⟩, fun h => absurd hdef h⟩
  · have hne : ¬ (x1 = x2 ∧ (y1 ≠ y2 ∨ y1 = 0)) := fun h => hx h.1
    simp only [if_neg hx, if_neg hne]
    exact line_rule hm hp x1 y1 x2 _ _

theorem addPoint_edwards (hm : c.model = .edwards) :
    addPoint c (.mk x1 y1) (.mk x2 y2) =
      andThen (divMod c.p (x1 * y2 + y1 * x2) (1 + (c.B * x1 * x2 * y1 * y2 % c.p : Nat))) fun x3 =>
        andThen (divMod c.p ((y1 : Int) * y2 - c.A * x1 * x2)
          (1 - (c.B * x1 * x2 * y1 * y2 % c.p : Nat))) fun y3 => .ok (.mk x3 y3) := by
  simp only [addPoint, hm, addEdwards]

/-- A divisor may be reduced modulo p before it is tested (R201, R203). -/
theorem isCoprime_iff_of_modEq {p : Nat} {u v : Int} (h : u ≡ v [ZMOD p]) :
    IsCoprime u (p : Int) ↔ IsCoprime v (p : Int) := by
  rw [isCoprime_comm, ← ZMod.coe_int_isUnit_iff_isCoprime, (ZMod.intCast_eq_intCast_iff _ _ _).2 h,
    ZMod.coe_int_isUnit_iff_isCoprime, isCoprime_comm]

theorem sumDefined_edwards (hm : c.model = .edwards) :
    SumDefined c (.mk x1 y1) (.mk x2 y2) ↔
      IsCoprime (1 + (c.B * x1 * x2 * y1 * y2 % c.p : Nat) : Int) c.p ∧
        IsCoprime (1 - (c.B * x1 * x2 * y1 * y2 % c.p : Nat) : Int) c.p := by
  have hk : ((c.B * x1 * x2 * y1 * y2 % c.p : Nat) : Int) ≡ c.B * x1 * x2 * y1 * y2 [ZMOD c.p] := by
    push_cast
    exact Int.mod_modEq _ _
  simp only [SumDefined, hm]
  rw [isCoprime_iff_of_modEq (hk.add_left 1), isCoprime_iff_of_modEq (hk.sub_left 1)]

theorem isSum_edwards (hm : c.model = .edwards) : IsSum c (.mk x1 y1) (.mk x2 y2) Q ↔
    ∃ x3 y3 k : Nat, Q = .mk x3 y3 ∧ x3 < c.p ∧ y3 < c.p ∧ k = c.B * x1 * x2 * y1 * y2 % c.p ∧
      (x3 : Int) * (1 + k) ≡ x1 * y2 + y1 * x2 [ZMOD c.p] ∧
      (y3 : Int) * (1 - k) ≡ y1 * y2 - c.A * x1 * x2 [ZMOD c.p] := by
  simp only [IsSum, hm]

theorem sumRule_edwards (hm : c.model = .edwards) (hp : 1 < c.p) :
    SumRule c (.mk x1 y1) (.mk x2 y2) := by
  rw [SumRule, addPoint_edwards hm, sumDefined_edwards hm]
  simp only [isSum_edwards hm]
  generalize hk : c.B * x1 * x2 * y1 * y2 % c.p = k
  rcases divMod_cases hp (x1 * y2 + y1 * x2) (1 + (k : Int)) with
    ⟨hv, x3, hq, hx3, h3⟩ | ⟨hv, hq⟩
  · rw [hq, andThen_ok]
    rcases divMod_cases hp ((y1 : Int) * y2 - c.A * x1 * x2) (1 - (k : Int)) with
      ⟨hw, y3, hr, hy3, h3'⟩ | ⟨hw, hr⟩
    · rw [hr, andThen_ok]
      exact ⟨fun _ => ⟨_, rfl, x3, y3, k, rfl, hx3, hy3, rfl, h3, h3'⟩, fun h => absurd ⟨hv, hw⟩ h⟩
    · rw [hr, andThen_error]
      exact ⟨fun h => absurd h.2 hw, fun _ => rfl⟩
  · rw [hq, andThen_error]
    exact ⟨fun h => absurd h.1 hv, fun _ => rfl⟩

/-- Infinity is neutral on the cubic models (R202, R204). -/
theorem addPoint_O_left (hm : c.model ≠ .edwards) (P : AffPoint) : addPoint c .O P = .ok P := by
  obtain ⟨model, p, A, B⟩ := c
  cases model with
  | edwards => exact absurd rfl hm
  | weierstrass | montgomery => rfl

theorem addPoint_O_right (hm : c.model ≠ .edwards) (P : AffPoint) : addPoint c P .O = .ok P := by
  obtain ⟨model, p, A, B⟩ := c
  cases model with
  | edwards => exact absurd rfl hm
  | weierstrass | montgomery => cases P <;> rfl

/-- The addition of two points, neither of them infinity on a twisted Edwards curve (R205). -/
theorem sumRule (hp : 1 < c.p) : ∀ {P1 P2 : AffPoint}, (P1 = .O → c.model ≠ .edwards) →
    (P2 = .O → c.model ≠ .edwards) → SumRule c P1 P2
  | .O, P2, h1, _ =>
    ⟨fun _ => ⟨P2, addPoint_O_left (h1 rfl) P2, rfl⟩, fun h => absurd trivial h⟩
  | .mk x1 y1, .O, _, h2 =>
    ⟨fun _ => ⟨_, addPoint_O_right (h2 rfl) _, rfl⟩, fun h => absurd trivial h⟩
  | .mk x1 y1, .mk x2 y2, _, _ => by
    by_cases hm : c.model = .edwards
    · exact sumRule_edwards hm hp
    · exact sumRule_cubic hm hp

/-- A sum that is computed is the sum of the statements (R205). -/
theorem SumRule.of_eq_ok {P1 P2 : AffPoint} (h : SumRule c P1 P2) (hQ : addPoint c P1 P2 = .ok Q) :
    SumDefined c P1 P2 ∧ IsSum c P1 P2 Q := by
  by_cases hd : SumDefined c P1 P2
  · obtain ⟨Q', hQ', hsum⟩ := h.1 hd
    cases hQ.symm.trans hQ'
    exact ⟨hd, hsum⟩
  · cases hQ.symm.trans (h.2 hd)

end

/-! ## Sums satisfy the curve equation (R200, R202 to R204) -/

section
variable {R : Type*} [CommRing R] {x1 y1 x2 y2 x3 y3 lam : R}

/-- The third point of a chord lies on the cubic: the cubic polynomial less the square of the line is
`(x - x1)(x - x2)(x - x3)` up to a linear polynomial that is zero at x1 and x2. -/
theorem chord_on_cubic {b a l k : R} (h1 : b * y1 ^ 2 = x1 ^ 3 + a * x1 ^ 2 + l * x1 + k)
    (h2 : b * y2 ^ 2 = x2 ^ 3 + a * x2 ^ 2 + l * x2 + k) (hu : IsUnit (x2 - x1))
    (hlam : lam * (x2 - x1) = y2 - y1) (hx3 : x3 = b * lam ^ 2 - a - x1 - x2)
    (hy3 : y3 = lam * (x1 - x3) - y1) : b * y3 ^ 2 = x3 ^ 3 + a * x3 ^ 2 + l * x3 + k := by
  refine hu.mul_left_cancel ?_
  obtain rfl : y2 = y1 + lam * (x2 - x1) := by rw [hlam]; ring
  subst hy3 hx3
  linear_combination (b * lam ^ 2 - a - 2 * x1 - x2) * h2 - (b * lam ^ 2 - a - x1 - 2 * x2) * h1

/-- The third point of a tangent lies on the cubic: the cubic polynomial less the square of the line is
`(x - x1)²(x - x3)`. -/
theorem tangent_on_cubic {b a l k : R} (h1 : b * y1 ^ 2 = x1 ^ 3 + a * x1 ^ 2 + l * x1 + k)
    (hlam : lam * (2 * b * y1) = 3 * x1 ^ 2 + 2 * a * x1 + l)
    (hx3 : x3 = b * lam ^ 2 - a - x1 - x1) (hy3 : y3 = lam * (x1 - x3) - y1) :
    b * y3 ^ 2 = x3 ^ 3 + a * x3 ^ 2 + l * x3 + k := by
  subst hy3 hx3
  linear_combination h1 + (b * lam ^ 2 - a - 3 * x1) * hlam

/-- The sum of two points on a twisted Edwards curve lies on it. -/
theorem sum_on_edwards {a d k : R} (h1 : a * x1 ^ 2 + y1 ^ 2 = 1 + d * x1 ^ 2 * y1 ^ 2)
    (h2 : a * x2 ^ 2 + y2 ^ 2 = 1 + d * x2 ^ 2 * y2 ^ 2) (hk : k = d * x1 * x2 * y1 * y2)
    (hu : IsUnit (1 + k)) (hv : IsUnit (1 - k)) (hx3 : x3 * (1 + k) = x1 * y2 + y1 * x2)
    (hy3 : y3 * (1 - k) = y1 * y2 - a * x1 * x2) :
    a * x3 ^ 2 + y3 ^ 2 = 1 + d * x3 ^ 2 * y3 ^ 2 := by
  have hsum : a * (x1 * y2 + y1 * x2) ^ 2 + (y1 * y2 - a * x1 * x2) ^ 2 =
      (1 + d * x1 ^ 2 * y1 ^ 2) * (1 + d * x2 ^ 2 * y2 ^ 2) := by
    linear_combination (a * x2 ^ 2 + y2 ^ 2) * h1 + (1 + d * x1 ^ 2 * y1 ^ 2) * h2
  have hdiff1 : (y1 ^ 2 - a * x1 ^ 2) ^ 2 =
      (1 + d * x1 ^ 2 * y1 ^ 2) ^ 2 - 4 * a * x1 ^ 2 * y1 ^ 2 := by
    linear_combination (a * x1 ^ 2 + y1 ^ 2 + 1 + d * x1 ^ 2 * y1 ^ 2) * h1
  have hdiff2 : (y2 ^ 2 - a * x2 ^ 2) ^ 2 =
      (1 + d * x2 ^ 2 * y2 ^ 2) ^ 2 - 4 * a * x2 ^ 2 * y2 ^ 2 := by
    linear_combination (a * x2 ^ 2 + y2 ^ 2 + 1 + d * x2 ^ 2 * y2 ^ 2) * h2
  have hnum : a * (x1 * y2 + y1 * x2) ^ 2 * (1 - k) ^ 2 + (y1 * y2 - a * x1 * x2) ^ 2 * (1 + k) ^ 2 =
      (1 + k) ^ 2 * (1 - k) ^ 2 + d * (x1 * y2 + y1 * x2) ^ 2 * (y1 * y2 - a * x1 * x2) ^ 2 := by
    subst hk
    linear_combination (1 + (d * x1 * x2 * y1 * y2) ^ 2) * hsum - d * x2 ^ 2 * y2 ^ 2 * hdiff1 -
      d * x1 ^ 2 * y1 ^ 2 * hdiff2
  refine ((hu.pow 2).mul (hv.pow 2)).mul_left_cancel ?_
  rw [← hx3, ← hy3] at hnum
  linear_combination hnum

end

/-- The point lies on the configured curve, in logical values below p; infinity lies on every curve but
a twisted Edwards one (R41, R44). -/
def AffPoint.On (c : CurveParams) : AffPoint → Prop
  | .O => c.model ≠ .edwards
  | .mk x y => x < c.p ∧ y < c.p ∧ onCurve c x y = true

section
variable {c : CurveParams}

theorem AffPoint.On.model {P : AffPoint} (h : P.On c) : P = .O → c.model ≠ .edwards := by
  rintro rfl
  exact h

theorem isSum_on_cubic (hm : c.model ≠ .edwards) {x1 y1 x2 y2 : Nat} {Q : AffPoint}
    (h1 : onCurve c x1 y1 = true) (h2 : onCurve c x2 y2 = true)
    (hd : SumDefined c (.mk x1 y1) (.mk x2 y2)) (hs : IsSum c (.mk x1 y1) (.mk x2 y2) Q) :
    Q.On c := by
  rw [isSum_cubic hm] at hs
  split at hs
  case isTrue => exact hs ▸ hm
  case isFalse =>
    obtain ⟨lam, x3, y3, rfl, hx3, hy3, hlam, hX, hY⟩ := hs
    refine ⟨hx3, hy3, (onCurve_cubic hm x3 y3).2 ?_⟩
    rw [onCurve_cubic hm] at h1 h2
    replace hX := (ZMod.intCast_eq_intCast_iff _ _ _).2 hX
    replace hY := (ZMod.intCast_eq_intCast_iff _ _ _).2 hY
    push_cast at hX hY
    by_cases hx : x1 = x2
    · rw [if_pos hx] at hlam
      subst hx
      replace hlam := (ZMod.intCast_eq_intCast_iff _ _ _).2 hlam
      push_cast at hlam
      exact tangent_on_cubic h1 hlam hX hY
    · rw [if_neg hx] at hlam
      rw [sumDefined_cubic hm, if_neg hx] at hd
      have hunit := (ZMod.coe_int_isUnit_iff_isCoprime _ _).2 hd.symm
      replace hlam := (ZMod.intCast_eq_intCast_iff _ _ _).2 hlam
      push_cast at hlam hunit
      exact chord_on_cubic h1 h2 hunit hlam hX hY

theorem isSum_on_edwards (hm : c.model = .edwards) {x1 y1 x2 y2 : Nat} {Q : AffPoint}
    (h1 : onCurve c x1 y1 = true) (h2 : onCurve c x2 y2 = true)
    (hd : SumDefined c (.mk x1 y1) (.mk x2 y2)) (hs : IsSum c (.mk x1 y1) (.mk x2 y2) Q) :
    Q.On c := by
  obtain ⟨x3, y3, k, rfl, hx3, hy3, hk, hX, hY⟩ := (isSum_edwards hm).1 hs
  rw [sumDefined_edwards hm, ← hk] at hd
  refine ⟨hx3, hy3, (onCurve_edwards hm x3 y3).2 ?_⟩
  rw [onCurve_edwards hm] at h1 h2
  have hkz : (k : ZMod c.p) = c.B * x1 * x2 * y1 * y2 := by simp [hk]
  have hu := (ZMod.coe_int_isUnit_iff_isCoprime _ _).2 hd.1.symm
  have hv := (ZMod.coe_int_isUnit_iff_isCoprime _ _).2 hd.2.symm
  replace hX := (ZMod.intCast_eq_intCast_iff _ _ _).2 hX
  replace hY := (ZMod.intCast_eq_intCast_iff _ _ _).2 hY
  push_cast at hu hv hX hY
  exact sum_on_edwards h1 h2 hkz hu hv hX hY

/-- The sum of two points on the curve is one (R200). -/
theorem isSum_on : ∀ {P1 P2 Q : AffPoint}, P1.On c → P2.On c → SumDefined c P1 P2 →
    IsSum c P1 P2 Q → Q.On c
  | .O, _, _, _, h2, _, hs => by
    obtain rfl := hs
    exact h2
  | .mk _ _, .O, _, h1, _, _, hs => by
    obtain rfl := hs
    exact h1
  | .mk _ _, .mk _ _, _, ⟨_, _, h1⟩, ⟨_, _, h2⟩, hd, hs => by
    by_cases hm : c.model = .edwards
    · exact isSum_on_edwards hm h1 h2 hd hs
    · exact isSum_on_cubic hm h1 h2 hd hs

theorem addPoint_on (hp : 1 < c.p) {P1 P2 Q : AffPoint} (h1 : P1.On c) (h2 : P2.On c)
    (h : addPoint c P1 P2 = .ok Q) : Q.On c :=
  have ⟨hd, hs⟩ := (sumRule hp h1.model h2.model).of_eq_ok h
  isSum_on h1 h2 hd hs

/-- The identity lies on the curve (R42). -/
theorem identity_on (hp : 1 < c.p) : (identity c).On c := by
  rw [identity]
  split
  case h_1 hm => simp [AffPoint.On, hm]
  case h_2 hm => exact ⟨by omega, hp, (onCurve_edwards hm 0 1).2 (by simp)⟩
  case h_3 hm => simp [AffPoint.On, hm]

/-- The negative of a number modulo p (R178, R202 to R204). -/
theorem natCast_neg_mod {p y : Nat} (hy : y < p) : (((p - y) % p : Nat) : ZMod p) = -y := by
  simp [Nat.cast_sub hy.le]

/-- The cubic models negate y (R202, R204). -/
theorem negPoint_cubic (hm : c.model ≠ .edwards) (x y : Nat) :
    negPoint c (.mk x y) = .mk x ((c.p - y) % c.p) := by
  obtain ⟨model, p, A, B⟩ := c
  cases model with
  | edwards => exact absurd rfl hm
  | weierstrass | montgomery => rfl

theorem negPoint_on : ∀ {P : AffPoint}, P.On c → (negPoint c P).On c
  | .O, h => h
  | .mk x y, ⟨hx, hy, h⟩ => by
    have hlt : ∀ z, (c.p - z) % c.p < c.p := fun z => Nat.mod_lt _ (by omega)
    by_cases hm : c.model = .edwards
    · simp only [negPoint, hm]
      refine ⟨hlt x, hy, (onCurve_edwards hm _ _).2 ?_⟩
      rw [natCast_neg_mod hx, neg_sq]
      exact (onCurve_edwards hm x y).1 h
    · rw [negPoint_cubic hm]
      refine ⟨hx, hlt y, (onCurve_cubic hm _ _).2 ?_⟩
      rw [natCast_neg_mod hy, neg_sq]
      exact (onCurve_cubic hm x y).1 h

/-! ## The scalar multiple (R206) -/

/-- What the identity and P have and every sum keeps, a scalar multiple of P has. -/
theorem mulPoint_induction {I : AffPoint → Prop} {P : AffPoint} (hP : I P) (h0 : I (identity c))
    (hadd : ∀ P1 P2 Q, I P1 → I P2 → addPoint c P1 P2 = .ok Q → I Q) :
    ∀ {k : Nat} {Q : AffPoint}, mulPoint c k P = .ok Q → I Q := by
  intro k
  induction k using bits_induction with
  | zero => intro Q h; cases h; exact h0
  | bit k b hb ih =>
    intro Q h
    rw [mulPoint_bit c P k b hb] at h
    obtain ⟨S, hS, h⟩ := andThen_eq_ok.1 h
    obtain ⟨D, hD, h⟩ := andThen_eq_ok.1 h
    rw [dblPoint_eq_addPoint] at hD
    have hDI : I D := hadd S S D (ih hS) (ih hS) hD
    cases b with
    | false => cases h; exact hDI
    | true => exact hadd D P Q hDI hP h

theorem mulPoint_on (hp : 1 < c.p) {P Q : AffPoint} (hP : P.On c) {k : Nat}
    (h : mulPoint c k P = .ok Q) : Q.On c :=
  mulPoint_induction hP (identity_on hp) (fun _ _ _ => addPoint_on hp) h

theorem mulPoint_double (P : AffPoint) {k : Nat} (hk : 1 ≤ k) :
    mulPoint c (2 * k) P = andThen (mulPoint c k P) (dblPoint c) := by
  refine (mulPoint_bit c P k false (.inl (by omega))).trans (congrArg _ (funext fun Q => ?_))
  cases dblPoint c Q <;> rfl

theorem mulPoint_double_add_one (P : AffPoint) (k : Nat) : mulPoint c (2 * k + 1) P =
    andThen (mulPoint c k P) fun Q => andThen (dblPoint c Q) fun D => addPoint c D P :=
  mulPoint_bit c P k true (.inr rfl)

end

/-! ## With a prime modulus the short Weierstrass law is total (R201) -/

/-- A short Weierstrass curve over a field of odd prime order. -/
structure CurveParams.PrimeWeierstrass (c : CurveParams) : Prop where
  model : c.model = .weierstrass
  prime : c.p.Prime
  odd : c.p % 2 = 1

/-- The coordinates of the point, if it has any, are below p. -/
def AffPoint.Reduced (p : Nat) : AffPoint → Prop
  | .O => True
  | .mk x y => x < p ∧ y < p

section
variable {c : CurveParams} {P P1 P2 Q : AffPoint}

theorem affOf_reduced {p : Nat} (hp : 0 < p) (P : PointReg) : (affOf p P).Reduced p := by
  rw [affOf]
  split
  · trivial
  · exact ⟨valOf_lt hp _, valOf_lt hp _⟩

theorem negPoint_reduced (h : P.Reduced c.p) : (negPoint c P).Reduced c.p := by
  cases P with
  | O => trivial
  | mk x y =>
    have hlt : ∀ z, (c.p - z) % c.p < c.p := fun z => Nat.mod_lt _ (Nat.zero_lt_of_lt h.1)
    simp only [negPoint]
    cases c.model with
    | weierstrass | montgomery => exact ⟨h.1, hlt y⟩
    | edwards => exact ⟨hlt x, h.2⟩

/-- Numbers below a prime that differ have a difference prime to it. -/
theorem isCoprime_sub_of_ne {p x1 x2 : Nat} (hp : p.Prime) (h1 : x1 < p) (h2 : x2 < p)
    (hne : x1 ≠ x2) : IsCoprime ((x2 : Int) - x1) p := by
  rw [isCoprime_comm, (Nat.prime_iff_prime_int.1 hp).coprime_iff_not_dvd,
    ← Int.modEq_iff_dvd, Int.natCast_modEq_iff]
  exact fun h => hne (h.eq_of_lt_of_lt h1 h2)

theorem isCoprime_two_mul {p y : Nat} (hp : p.Prime) (hodd : p % 2 = 1) (hy : y < p) (h0 : y ≠ 0) :
    IsCoprime (2 * y : Int) p := by
  have h2 : Nat.Coprime 2 p := Nat.coprime_two_left.2 (Nat.odd_iff.2 hodd)
  have hy' : Nat.Coprime y p := (Nat.coprime_of_lt_prime h0 hy hp).symm
  exact_mod_cast Nat.isCoprime_iff_coprime.2 (h2.mul_left hy')

/-- Every division of the law exists (R201). -/
theorem sumDefined_of_prime (hc : c.PrimeWeierstrass) (h1 : P1.Reduced c.p) (h2 : P2.Reduced c.p) :
    SumDefined c P1 P2 := by
  cases P1 with
  | O => trivial
  | mk x1 y1 =>
    cases P2 with
    | O => trivial
    | mk x2 y2 =>
      simp only [SumDefined, hc.model]
      split
      case isTrue => exact fun _ h0 => isCoprime_two_mul hc.prime hc.odd h1.2 h0
      case isFalse hx => exact isCoprime_sub_of_ne hc.prime h1.1 h2.1 hx

theorem isSum_reduced (hc : c.PrimeWeierstrass) (h1 : P1.Reduced c.p) (h2 : P2.Reduced c.p)
    (hs : IsSum c P1 P2 Q) : Q.Reduced c.p := by
  cases P1 with
  | O => exact hs ▸ h2
  | mk x1 y1 =>
    cases P2 with
    | O => exact hs ▸ h1
    | mk x2 y2 =>
      simp only [IsSum, hc.model] at hs
      split at hs
      case isTrue => exact hs ▸ trivial
      case isFalse =>
        obtain ⟨lam, x3, y3, rfl, hx3, hy3, -⟩ := hs
        exact ⟨hx3, hy3⟩

theorem addPoint_total (hc : c.PrimeWeierstrass) (h1 : P1.Reduced c.p) (h2 : P2.Reduced c.p) :
    ∃ Q, addPoint c P1 P2 = .ok Q ∧ Q.Reduced c.p := by
  have hm : c.model ≠ .edwards := by rw [hc.model]; decide
  obtain ⟨Q, hQ, hs⟩ := (sumRule hc.prime.one_lt (fun _ => hm) fun _ => hm).1
    (sumDefined_of_prime hc h1 h2)
  exact ⟨Q, hQ, isSum_reduced hc h1 h2 hs⟩

theorem mulPoint_total (hc : c.PrimeWeierstrass) (hP : P.Reduced c.p) (k : Nat) :
    ∃ Q, mulPoint c k P = .ok Q ∧ Q.Reduced c.p := by
  induction k using bits_induction with
  | zero => exact ⟨_, rfl, by simp only [identity, hc.model]; trivial⟩
  | bit k b hb ih =>
    obtain ⟨S, hS, hSr⟩ := ih
    obtain ⟨D, hD, hDr⟩ := addPoint_total hc hSr hSr
    rw [mulPoint_bit c P k b hb, hS, andThen_ok, dblPoint_eq_addPoint, hD, andThen_ok]
    cases b with
    | false => exact ⟨D, rfl, hDr⟩
    | true => exact addPoint_total hc hDr hP

/-! ## The ECDSA computations then only end as their own rules say (R285 to R287) -/

theorem signWith_total (hc : c.PrimeWeierstrass) (hP : P.Reduced c.p) (n sk e k : Nat) :
    ∃ sig, signWith c P n sk e k = .ok sig := by
  obtain ⟨Rp, hR, -⟩ := mulPoint_total hc hP k
  rw [signWith, hR, andThen_ok]
  cases Rp with
  | O => exact ⟨_, rfl⟩
  | mk Rx Ry =>
    simp only
    split_ifs <;> exact ⟨_, rfl⟩

theorem signLoop_error_of_prime (hc : c.PrimeWeierstrass) (hP : P.Reduced c.p) {n sk e : Nat}
    {nonceAt : Nat → Nat} {err : Err} : ∀ {tries ctr : Nat},
      signLoop c P n sk e nonceAt tries ctr = .error err → err = .nonceExhausted
  | 0, _, h => by cases h; rfl
  | tries + 1, ctr, h => by
    obtain ⟨sig, hsig⟩ := signWith_total hc hP n sk e (nonceAt ctr)
    rw [signLoop, hsig, andThen_ok] at h
    cases sig with
    | some rsv => cases h
    | none => exact signLoop_error_of_prime hc hP h

theorem verifies_total (hc : c.PrimeWeierstrass) (hP : P.Reduced c.p) (hQ : Q.Reduced c.p)
    (n h r s : Nat) : ∃ b, verifies c P n h r s Q = .ok b := by
  cases Q with
  | O => exact ⟨_, rfl⟩
  | mk x y =>
    rw [verifies]
    split
    case isFalse => exact ⟨_, rfl⟩
    case isTrue =>
      obtain ⟨U1, hU1, hr1⟩ := mulPoint_total hc hP (h % n * invMod (s % n) n % n)
      obtain ⟨U2, hU2, hr2⟩ := mulPoint_total hc hQ (r * invMod (s % n) n % n)
      obtain ⟨X, hX, -⟩ := addPoint_total hc hr1 hr2
      simp only [hU1, hU2, hX, andThen_ok]
      cases X <;> exact ⟨_, rfl⟩

/-- The public key of `ERECOVER` is found or is infinity, once the point `(r, y)` is (R286). -/
theorem recoverAddress_error_of_prime (hc : c.PrimeWeierstrass) (hP : P.Reduced c.p) {n : Nat}
    {root : Nat → Option Nat} (hroot : ∀ v y, root v = some y → y < c.p) {h r s par : Nat} {err : Err}
    (he : recoverAddress c P n root h r s par = .error err) : err = .invalidSignature := by
  rcases check_eq_error.1 he with ⟨-, he⟩ | ⟨hr, he⟩
  · exact he
  split at he
  case h_1 => cases he; rfl
  case h_2 y0 hy0 =>
    have hy0 := hroot _ _ hy0
    have hy : (if y0 % 2 ≠ par then (c.p - y0) % c.p else y0) < c.p := by
      split
      · exact Nat.mod_lt _ (by omega)
      · exact hy0
    rcases check_eq_error.1 he with ⟨-, he⟩ | ⟨-, he⟩
    · exact he
    rcases check_eq_error.1 he with ⟨-, he⟩ | ⟨-, he⟩
    · exact he
    obtain ⟨sR, hsR, hr1⟩ := mulPoint_total (P := .mk r _) hc ⟨of_decide_eq_true hr, hy⟩ s
    obtain ⟨eG, heG, hr2⟩ := mulPoint_total hc hP (h % n)
    obtain ⟨D, hD, hr3⟩ := addPoint_total hc hr1 (negPoint_reduced hr2)
    obtain ⟨K, hK, -⟩ := mulPoint_total hc hr3 (invMod (r % n) n)
    rw [hsR, andThen_ok, heG, andThen_ok, hD, andThen_ok, hK, andThen_ok] at he
    cases K <;> cases he
    rfl

end

end Sys2Proof.Machine
end

section
/-! PROOFS. The elliptic-curve commands: their words, the checks of rule R200, and what each does when it
completes, from the group laws of the section before (rules R200 to R220). -/

namespace Sys2Proof.Machine

-- Many theorems elaborated at once need more memory than the check grants.
set_option Elab.async false

/-! ## The checks and the results of a curve command (R200) -/

section
variable {i : Instr} {s : State} {pd ps ps1 ps2 : PReg} {P : PointReg} {e : Err}

theorem raises_of_curveOK_eq_false {k : CurveParams → Except Err State}
    (hx : exec i s = conclude s (withCurve s k)) (h : s.curveOK = false) : Raises i s .noConfig :=
  raises_of_exec hx (withCurve_eq_error.2 (.inl ⟨h, rfl⟩))

theorem raises_of_pointFails {k : CurveParams → AffPoint → Except Err State}
    (hx : exec i s = conclude s (withCurve s fun c => withPoint c P (k c))) (hc : s.curveOK = true)
    (h : PointFails s.curve P e) : Raises i s e :=
  raises_of_exec hx (withCurve_eq_error.2 (.inr ⟨hc, withPoint_fails h _⟩))

/-- The checks of a command with one source point register (R200). -/
theorem pointChecks_one {k : CurveParams → AffPoint → Except Err State}
    (hx : exec i s = conclude s (withCurve s fun c => withPoint c (s.pt ps) (k c))) :
    PointChecks i s [ps] := by
  refine ⟨raises_of_curveOK_eq_false hx, fun before q after e hsplit hc _ hf => ?_⟩
  cases before with
  | nil =>
    obtain ⟨rfl, -⟩ := List.cons.inj hsplit
    exact raises_of_pointFails hx hc hf
  | cons r before => simp at hsplit

/-- The checks of a command with two source point registers, the first one first (R200). -/
theorem pointChecks_two {k : CurveParams → AffPoint → AffPoint → Except Err State}
    (hx : exec i s = conclude s (withCurve s fun c =>
      withPoint c (s.pt ps1) fun P1 => withPoint c (s.pt ps2) (k c P1))) :
    PointChecks i s [ps1, ps2] := by
  refine ⟨raises_of_curveOK_eq_false hx, fun before q after e hsplit hc hpass hf => ?_⟩
  match before with
  | [] =>
    obtain ⟨rfl, -⟩ := List.cons.inj hsplit
    exact raises_of_pointFails hx hc hf
  | [r] =>
    obtain ⟨rfl, h2⟩ := List.cons.inj hsplit
    obtain ⟨rfl, -⟩ := List.cons.inj h2
    exact raises_of_exec hx (withCurve_eq_error.2 (.inr ⟨hc, withPoint_eq_error.2
      (.inr ⟨hpass ps1 List.mem_cons_self, withPoint_fails hf _⟩)⟩))
  | _ :: _ :: _ => simp at hsplit

theorem pointsReady_one : PointsReady s [ps] ↔ s.curveOK = true ∧ PointPasses s.curve (s.pt ps) := by
  simp [PointsReady]

theorem pointsReady_two : PointsReady s [ps1, ps2] ↔
    s.curveOK = true ∧ PointPasses s.curve (s.pt ps1) ∧ PointPasses s.curve (s.pt ps2) := by
  simp [PointsReady]

/-- After the checks a command with one source fails as its computation on the point does (R200). -/
theorem raises_of_pointsReady_one {k : CurveParams → AffPoint → Except Err State}
    (hx : exec i s = conclude s (withCurve s fun c => withPoint c (s.pt ps) (k c)))
    (h : PointsReady s [ps]) (he : k s.curve (affOf s.curve.p (s.pt ps)) = .error e) :
    Raises i s e := by
  obtain ⟨hc, hp⟩ := pointsReady_one.1 h
  exact raises_of_exec hx (withCurve_eq_error.2 (.inr ⟨hc, withPoint_eq_error.2 (.inr ⟨hp, he⟩)⟩))

/-- After the checks a command with two sources fails as its computation on the points does (R200). -/
theorem raises_of_pointsReady_two {k : CurveParams → AffPoint → AffPoint → Except Err State}
    (hx : exec i s = conclude s (withCurve s fun c =>
      withPoint c (s.pt ps1) fun P1 => withPoint c (s.pt ps2) (k c P1)))
    (h : PointsReady s [ps1, ps2])
    (he : k s.curve (affOf s.curve.p (s.pt ps1)) (affOf s.curve.p (s.pt ps2)) = .error e) :
    Raises i s e := by
  obtain ⟨hc, hp1, hp2⟩ := pointsReady_two.1 h
  exact raises_of_exec hx (withCurve_eq_error.2 (.inr ⟨hc, withPoint_eq_error.2
    (.inr ⟨hp1, withPoint_eq_error.2 (.inr ⟨hp2, he⟩)⟩)⟩))

/-- A command whose effect is to write a point register (R22, R360). -/
theorem completes_setPt (h : Effect i s (s.setPt pd P)) :
    ∃ t, exec i s = .next t ∧ t.pt pd = P ∧ Completed s t [.pt pd] :=
  ⟨_, exec_of_effect h, State.pt_setPt_same s pd P, completed_setERR (keeps_setPt s pd P)⟩

/-- A command whose effect is to write T (R24, R360). -/
theorem completes_setT {b : Bool} (h : Effect i s (s.setT b)) :
    ∃ t, exec i s = .next t ∧ Completed s t [.T] ∧ t.ST.T = b :=
  ⟨_, exec_of_effect h, completed_setERR (keeps_setT s b), rfl⟩

/-! ## Points and their register values (R22, R41, R45) -/

/-- The modulus of a ready curve is odd, above 1 and fits its register (R30, R32). -/
theorem Ready.curve_modulus (hr : Ready s .base) :
    s.curve.p % 2 = 1 ∧ 1 < s.curve.p ∧ s.curve.p < 2 ^ 256 :=
  ⟨hr.modulus.1, hr.modulus.2, s.Fbase.P.isLt⟩

/-- `R1` is the representative of 1 (R30). -/
theorem valOf_R1 (hr : Ready s .base) : valOf s.curve.p s.Fbase.R1.toNat = 1 := by
  obtain ⟨hodd, h1, -⟩ := hr.curve_modulus
  have hR1 : s.Fbase.R1.toNat = repOf s.curve.p 1 := by
    rw [repOf, Nat.one_mul]
    exact hr.2.r1
  rw [hR1, valOf_repOf hodd h1 h1]

theorem R1_lt (hr : Ready s .base) : s.Fbase.R1.toNat < s.curve.p := by
  rw [show s.Fbase.R1.toNat = 2 ^ 256 % s.curve.p from hr.2.r1]
  exact Nat.mod_lt _ (Nat.zero_lt_of_lt hr.curve_modulus.2.1)

end

/-- A representative fits its register. -/
theorem toNat_ofNat_repOf {p : Nat} (h0 : 0 < p) (hp : p < 2 ^ 256) (v : Nat) :
    (BitVec.ofNat 256 (repOf p v)).toNat = repOf p v := by
  rw [BitVec.toNat_ofNat, Nat.mod_eq_of_lt ((repOf_lt h0 v).trans hp)]

/-- `Enc` gives back the coordinate that `Aff` has read (R45). -/
theorem ofNat_repOf_valOf {p : Nat} (hodd : p % 2 = 1) (h1 : 1 < p) {a : Word} (ha : a.toNat < p) :
    BitVec.ofNat 256 (repOf p (valOf p a.toNat)) = a := by
  rw [repOf_valOf hodd h1 ha, BitVec.ofNat_toNat, BitVec.setWidth_eq]

/-- The representative of the negative is the negative of the representative (R13, R217). -/
theorem repOf_neg_valOf {p a : Nat} (hodd : p % 2 = 1) (h1 : 1 < p) :
    (repOf p ((p - valOf p a) % p) + a) % p = 0 := by
  have hval : ((valOf p a : ZMod p)) * (Config.radix : Nat) = a := by
    have h := (ZMod.natCast_eq_natCast_iff' _ _ _).2 (valOf_mul_radix hodd h1 a)
    rwa [Nat.cast_mul] at h
  refine Nat.mod_eq_zero_of_dvd ((ZMod.natCast_eq_zero_iff _ _).1 ?_)
  rw [Nat.cast_add, repOf, ZMod.natCast_mod, Nat.cast_mul, natCast_neg_mod (valOf_lt (by omega) a),
    ← hval]
  ring

section
variable {c : CurveParams} {P : PointReg}

theorem PointPasses.on (hp : 0 < c.p) (h : PointPasses c P) : (affOf c.p P).On c := by
  rcases h with ⟨hi, hm⟩ | ⟨hf, -, -, hon⟩
  · rw [affOf_infinity hi]
    exact hm
  · rw [affOf_finite hf]
    exact ⟨valOf_lt hp _, valOf_lt hp _, hon⟩

/-- What `Enc` makes of a point on the curve passes `PointCheck` (R44, R45). -/
theorem pointPasses_encPoint (hodd : c.p % 2 = 1) (h1 : 1 < c.p) (hlt : c.p < 2 ^ 256)
    {Q : AffPoint} (h : Q.On c) : PointPasses c (encPoint c.p Q) := by
  cases Q with
  | O => exact .inl ⟨rfl, h⟩
  | mk x y =>
    obtain ⟨hx, hy, hon⟩ := h
    have h0 : 0 < c.p := by omega
    refine .inr ⟨rfl, ?_⟩
    simp only [encPoint, toNat_ofNat_repOf h0 hlt, valOf_repOf hodd h1 hx, valOf_repOf hodd h1 hy]
    exact ⟨repOf_lt h0 x, repOf_lt h0 y, hon⟩

/-- Points that pass are equal exactly if they are infinite both, or finite with the same coordinates
(R13, R45). -/
theorem affOf_eq_affOf (hodd : c.p % 2 = 1) (h1 : 1 < c.p) {P1 P2 : PointReg}
    (hP1 : PointPasses c P1) (hP2 : PointPasses c P2) : affOf c.p P1 = affOf c.p P2 ↔
      (P1.INF = true ∧ P2.INF = true) ∨
        (P1.INF = false ∧ P2.INF = false ∧ P1.X = P2.X ∧ P1.Y = P2.Y) := by
  have hval : ∀ {a b : Word}, a.toNat < c.p → b.toNat < c.p →
      (valOf c.p a.toNat = valOf c.p b.toNat ↔ a = b) := fun ha hb =>
    ⟨fun h => BitVec.eq_of_toNat_eq (valOf_inj hodd h1 ha hb h), fun h => by rw [h]⟩
  rcases hP1 with ⟨hi1, -⟩ | ⟨hf1, hx1, hy1, -⟩ <;> rcases hP2 with ⟨hi2, -⟩ | ⟨hf2, hx2, hy2, -⟩
  · simp [affOf_infinity, hi1, hi2]
  · simp [affOf_infinity, affOf_finite, hi1, hf2]
  · simp [affOf_infinity, affOf_finite, hf1, hi2]
  · simp [affOf_finite, hf1, hf2, hval hx1 hx2, hval hy1 hy2]

end

/-- The register value of the identity, which `PINF` writes (R42, R211). -/
def State.identityReg (s : State) : PointReg :=
  if s.CRV.MODEL = .edwards then ⟨0, s.Fbase.R1, false⟩ else ⟨0, 0, true⟩

section
variable {s : State} {pd ps ps1 ps2 : PReg}

theorem affOf_identityReg (hr : Ready s .base) :
    affOf s.curve.p s.identityReg = identity s.curve := by
  have hR1 := valOf_R1 hr
  have hm : s.curve.model = s.CRV.MODEL := rfl
  rw [State.identityReg, identity, hm]
  cases s.CRV.MODEL with
  | weierstrass | montgomery => rfl
  | edwards => simp [affOf, hR1]

theorem pointPasses_identityReg (hr : Ready s .base) : PointPasses s.curve s.identityReg := by
  by_cases hm : s.CRV.MODEL = .edwards
  · obtain ⟨-, h1, -⟩ := hr.curve_modulus
    rw [State.identityReg, if_pos hm]
    refine .inr ⟨rfl, Nat.zero_lt_of_lt h1, R1_lt hr, (onCurve_edwards hm _ _).2 ?_⟩
    simp [valOf_R1 hr]
  · rw [State.identityReg, if_neg hm]
    exact .inl ⟨rfl, hm⟩

/-- A register that passes holds the identity exactly if it has the value that `PINF` writes (R42). -/
theorem affOf_eq_identity (hr : Ready s .base) {P : PointReg} (hP : PointPasses s.curve P) :
    affOf s.curve.p P = identity s.curve ↔ if s.CRV.MODEL = .edwards
      then P.X = 0 ∧ P.Y = s.Fbase.R1 else P.INF = true := by
  obtain ⟨hodd, h1, -⟩ := hr.curve_modulus
  rw [← affOf_identityReg hr, affOf_eq_affOf hodd h1 hP (pointPasses_identityReg hr)]
  by_cases hm : s.CRV.MODEL = .edwards
  · have hfin : P.INF = false := by
      rcases hP with ⟨-, hne⟩ | ⟨hf, -⟩
      · exact absurd hm hne
      · exact hf
    simp [State.identityReg, hm, hfin]
  · simp [State.identityReg, hm]

/-! ## PSET, PINF, PGEN and PMOV (R210 to R212, R214) -/

theorem exec_pset (pd : PReg) (xsx xsy : XReg) (s : State) :
    exec (.pset pd xsx xsy) s = conclude s (withCurve s fun c =>
      withPoint c ⟨s.x xsx, s.x xsy, false⟩ fun _ =>
        .ok (s.setPt pd ⟨s.x xsx, s.x xsy, false⟩)) := rfl

theorem exec_pgen (pd : PReg) (s : State) :
    exec (.pgen pd) s = conclude s (withCurve s fun c =>
      withPoint c s.generator fun _ => .ok (s.setPt pd s.generator)) := rfl

theorem effect_pinf (h : s.curveOK = true) : Effect (.pinf pd) s (s.setPt pd s.identityReg) := by
  refine ⟨h, ?_⟩
  rw [State.identityReg]
  cases s.CRV.MODEL <;> rfl

end

/-- Settles O38: the checks of a load are those of the point that it writes. -/
theorem pointLoadRules : Obligations.PointLoadRules := by
  refine ⟨fun pd xsx xsy s => ⟨?_, raises_of_curveOK_eq_false (exec_pset pd xsx xsy s),
      fun e hc h => raises_of_pointFails (exec_pset pd xsx xsy s) hc h, fun hc h => ?_⟩,
    fun pd s => ⟨?_, raises_of_curveOK_eq_false (i := .pinf pd) rfl, fun hc => ?_⟩,
    fun pd s => ⟨?_, raises_of_curveOK_eq_false (exec_pgen pd s),
      fun e hc h => raises_of_pointFails (exec_pgen pd s) hc h, fun hc h => ?_⟩,
    fun pd ps s => ⟨?_, ?_⟩⟩
  · exact encodes_of_encode rfl (congrArg (BitVec.ofNat 32) (by omega))
  · exact completes_setPt (i := .pset pd xsx xsy) ⟨hc, h, rfl⟩
  · exact encodes_of_encode rfl (congrArg (BitVec.ofNat 32) (by omega))
  · obtain ⟨t, hx, hpt, ht⟩ := completes_setPt (effect_pinf (pd := pd) hc)
    exact ⟨t, hx, ht, hpt⟩
  · exact encodes_of_encode rfl (congrArg (BitVec.ofNat 32) (by omega))
  · exact completes_setPt (i := .pgen pd) ⟨hc, h, rfl⟩
  · exact encodes_of_encode rfl (congrArg (BitVec.ofNat 32) (by omega))
  · exact completes_setPt (i := .pmov pd ps) rfl

/-! ## PGET, PEQ and PISID (R213, R218, R219) -/

theorem check_eq_of_true {α : Type} {b : Bool} (h : b = true) (e : Err) (k : Except Err α) :
    check b e k = k := by
  rw [h, check_true]

theorem exec_pget {xdx xdy : XReg} (hne : xdx ≠ xdy) (ps : PReg) (s : State) :
    exec (.pget xdx xdy ps) s = conclude s (withCurve s fun c => withPoint c (s.pt ps) fun _ =>
      .ok (((s.setX xdx (s.pt ps).X).setX xdy (s.pt ps).Y).setT !(s.pt ps).INF)) :=
  congrArg (conclude s) (check_eq_of_true (bne_iff_ne.2 hne) _ _)

theorem exec_peq (ps1 ps2 : PReg) (s : State) :
    exec (.peq ps1 ps2) s = conclude s (withCurve s fun c => withPoint c (s.pt ps1) fun P1 =>
      withPoint c (s.pt ps2) fun P2 => .ok (s.setT (decide (P1 = P2)))) := rfl

theorem exec_pisid (ps : PReg) (s : State) :
    exec (.pisid ps) s = conclude s (withCurve s fun c => withPoint c (s.pt ps) fun P =>
      .ok (s.setT (decide (P = identity c)))) := rfl

theorem completes_pget {xdx xdy : XReg} (hne : xdx ≠ xdy) {ps : PReg} {s : State}
    (h : PointsReady s [ps]) : ∃ t, exec (.pget xdx xdy ps) s = .next t ∧
      Completed s t [.x xdx, .x xdy, .T] ∧ t.x xdx = (s.pt ps).X ∧ t.x xdy = (s.pt ps).Y ∧
        t.ST.T = !(s.pt ps).INF := by
  refine ⟨_, exec_of_effect (i := .pget xdx xdy ps) ⟨hne, h, rfl⟩, completed_setERR
    (((keeps_setX s _ _).trans (keeps_setX _ _ _)).trans (keeps_setT _ _)), ?_,
    State.x_setX_same _ xdy _, rfl⟩
  rw [State.x_setERR, State.x_setT, State.x_setX_ne _ hne, State.x_setX_same]

/-- Settles O39: the coordinates are delivered as they are stored, and points are equal when their
representatives are. -/
theorem pointQueryRules : Obligations.PointQueryRules := by
  refine ⟨fun xdx xdy ps s hne => ⟨?_, pointChecks_one (exec_pget hne ps s), fun h hwf => ?_⟩,
    fun ps1 ps2 s => ⟨?_, pointChecks_two (exec_peq ps1 ps2 s), fun h hr => ?_⟩,
    fun ps s => ⟨?_, pointChecks_one (exec_pisid ps s), fun h hr => ?_⟩⟩
  · exact encodes_of_encode (bne_iff_ne.2 hne) (congrArg (BitVec.ofNat 32) (by omega))
  · obtain ⟨t, hx, ht, hX, hY, hT⟩ := completes_pget hne h
    refine ⟨t, hx, ht, hX, hY, by rw [hT, Bool.not_eq_true'], fun hinf => ?_⟩
    obtain ⟨hX0, hY0⟩ := hwf hinf
    exact ⟨hX.trans hX0, hY.trans hY0⟩
  · exact encodes_of_encode rfl (congrArg (BitVec.ofNat 32) (by omega))
  · obtain ⟨hodd, h1, -⟩ := hr.curve_modulus
    obtain ⟨-, hp1, hp2⟩ := pointsReady_two.1 h
    obtain ⟨t, hx, ht, hT⟩ := completes_setT (i := .peq ps1 ps2) ⟨h, rfl⟩
    exact ⟨t, hx, ht, by rw [hT, decide_eq_true_iff, affOf_eq_affOf hodd h1 hp1 hp2]⟩
  · exact encodes_of_encode rfl (congrArg (BitVec.ofNat 32) (by omega))
  · obtain ⟨-, hp⟩ := pointsReady_one.1 h
    obtain ⟨t, hx, ht, hT⟩ := completes_setT (i := .pisid ps) ⟨h, rfl⟩
    exact ⟨t, hx, ht, by rw [hT, decide_eq_true_iff, affOf_eq_identity hr hp]⟩

/-! ## PADD and PDBL (R215, R216) -/

theorem exec_padd (pd ps1 ps2 : PReg) (s : State) :
    exec (.padd pd ps1 ps2) s = conclude s (withCurve s fun c => withPoint c (s.pt ps1) fun P1 =>
      withPoint c (s.pt ps2) fun P2 =>
        andThen (addPoint c P1 P2) fun Q => .ok (s.setPt pd (encPoint c.p Q))) := rfl

theorem exec_pdbl (pd ps : PReg) (s : State) :
    exec (.pdbl pd ps) s = conclude s (withCurve s fun c => withPoint c (s.pt ps) fun P =>
      andThen (dblPoint c P) fun Q => .ok (s.setPt pd (encPoint c.p Q))) := rfl

/-- What a command that stores a sum does, from the rule of the addition (R205, R215, R216). -/
theorem completes_sum {i : Instr} {s : State} {pd : PReg} {P1 P2 : AffPoint}
    (hrule : SumRule s.curve P1 P2)
    (heff : ∀ Q, addPoint s.curve P1 P2 = .ok Q → Effect i s (s.setPt pd (encPoint s.curve.p Q)))
    (hd : SumDefined s.curve P1 P2) : ∃ t Q, exec i s = .next t ∧ Completed s t [.pt pd] ∧
      IsSum s.curve P1 P2 Q ∧ t.pt pd = encPoint s.curve.p Q := by
  obtain ⟨Q, hQ, hsum⟩ := hrule.1 hd
  obtain ⟨t, hx, hpt, ht⟩ := completes_setPt (heff Q hQ)
  exact ⟨t, Q, hx, ht, hsum, hpt⟩

/-- Settles O40: the addition follows its rule, and doubling is the addition of the point to itself. -/
theorem pointAdditionRules : Obligations.PointAdditionRules := by
  refine ⟨fun pd ps1 ps2 s => ⟨?_, pointChecks_two (exec_padd pd ps1 ps2 s), ?_⟩,
    fun pd ps s => ⟨?_, pointChecks_one (exec_pdbl pd ps s), ?_⟩⟩
  · exact encodes_of_encode rfl rfl
  · rintro P1 P2 rfl rfl h hr
    obtain ⟨-, h1, -⟩ := hr.curve_modulus
    obtain ⟨-, hp1, hp2⟩ := pointsReady_two.1 h
    have hrule := sumRule h1 (hp1.on (by omega)).model (hp2.on (by omega)).model
    refine ⟨completes_sum hrule fun Q hQ => ⟨h, Q, hQ, rfl⟩, fun hd => ?_⟩
    exact raises_of_pointsReady_two (exec_padd pd ps1 ps2 s) h
      (andThen_eq_error.2 (.inl (hrule.2 hd)))
  · exact encodes_of_encode rfl (congrArg (BitVec.ofNat 32) (by omega))
  · rintro P rfl h hr
    obtain ⟨-, h1, -⟩ := hr.curve_modulus
    obtain ⟨-, hp⟩ := pointsReady_one.1 h
    have hrule := sumRule h1 (hp.on (by omega)).model (hp.on (by omega)).model
    refine ⟨completes_sum hrule fun Q hQ => ⟨h, Q, (dblPoint_eq_addPoint _ _).trans hQ, rfl⟩,
      fun hd => ?_⟩
    exact raises_of_pointsReady_one (exec_pdbl pd ps s) h
      (andThen_eq_error.2 (.inl ((dblPoint_eq_addPoint _ _).trans (hrule.2 hd))))

/-! ## PNEG (R217) -/

theorem exec_pneg (pd ps : PReg) (s : State) :
    exec (.pneg pd ps) s = conclude s (withCurve s fun c => withPoint c (s.pt ps) fun P =>
      .ok (s.setPt pd (encPoint c.p (negPoint c P)))) := rfl

section
variable {c : CurveParams} {P : PointReg}

theorem encPoint_negPoint_infinity (h : P.INF = true) :
    encPoint c.p (negPoint c (affOf c.p P)) = ⟨0, 0, true⟩ := by
  rw [affOf_infinity h]
  rfl

theorem encPoint_negPoint_edwards (h : P.INF = false) (hm : c.model = .edwards) :
    encPoint c.p (negPoint c (affOf c.p P)) =
      ⟨BitVec.ofNat 256 (repOf c.p ((c.p - valOf c.p P.X.toNat) % c.p)),
        BitVec.ofNat 256 (repOf c.p (valOf c.p P.Y.toNat)), false⟩ := by
  simp only [affOf_finite h, negPoint, hm, encPoint]

theorem encPoint_negPoint_cubic (h : P.INF = false) (hm : c.model ≠ .edwards) :
    encPoint c.p (negPoint c (affOf c.p P)) =
      ⟨BitVec.ofNat 256 (repOf c.p (valOf c.p P.X.toNat)),
        BitVec.ofNat 256 (repOf c.p ((c.p - valOf c.p P.Y.toNat) % c.p)), false⟩ := by
  rw [affOf_finite h, negPoint_cubic hm, encPoint]

/-- The stored negative of a coordinate: below p, and with the coordinate 0 modulo p (R217). -/
theorem negated_coordinate (hodd : c.p % 2 = 1) (h1 : 1 < c.p) (hlt : c.p < 2 ^ 256) (a : Nat) :
    (BitVec.ofNat 256 (repOf c.p ((c.p - valOf c.p a) % c.p))).toNat < c.p ∧
      ((BitVec.ofNat 256 (repOf c.p ((c.p - valOf c.p a) % c.p))).toNat + a) % c.p = 0 := by
  rw [toNat_ofNat_repOf (by omega) hlt]
  exact ⟨repOf_lt (by omega) _, repOf_neg_valOf hodd h1⟩

end

/-- Settles O41: one coordinate is negated, the other is stored as it was read. -/
theorem pnegRule : Obligations.PnegRule := by
  intro pd ps s
  refine ⟨encodes_of_encode rfl (congrArg (BitVec.ofNat 32) (by omega)),
    pointChecks_one (exec_pneg pd ps s), fun h hr => ?_⟩
  obtain ⟨hodd, h1, hlt⟩ := hr.curve_modulus
  obtain ⟨t, hx, hpt, ht⟩ := completes_setPt (i := .pneg pd ps) (pd := pd) ⟨h, rfl⟩
  refine ⟨t, hx, ht, ?_⟩
  rw [hpt]
  obtain ⟨-, ⟨hinf, -⟩ | ⟨hfin, hX, hY, -⟩⟩ := pointsReady_one.1 h
  · simp [encPoint_negPoint_infinity, hinf]
  by_cases hm : s.CRV.MODEL = .edwards
  · rw [encPoint_negPoint_edwards hfin hm, ofNat_repOf_valOf hodd h1 hY]
    simpa [hfin, hm] using negated_coordinate hodd h1 hlt (s.pt ps).X.toNat
  · rw [encPoint_negPoint_cubic hfin hm, ofNat_repOf_valOf hodd h1 hX]
    simpa [hfin, hm] using negated_coordinate hodd h1 hlt (s.pt ps).Y.toNat

/-! ## PMUL (R206, R220) -/

theorem exec_pmul (pd ps : PReg) (xs : XReg) (s : State) :
    exec (.pmul pd ps xs) s = conclude s (withCurve s fun c => withPoint c (s.pt ps) fun P =>
      andThen (mulPoint c (s.x xs).toNat P) fun Q => .ok (s.setPt pd (encPoint c.p Q))) := rfl

/-- Settles O42: the recurrence of the scalar multiple, and `PMUL` as a command that ends as it does. -/
theorem scalarMultipleRules : Obligations.ScalarMultipleRules := by
  refine ⟨fun c P => ⟨mulPoint_zero c P, fun k hk => mulPoint_double P hk,
    fun k => mulPoint_double_add_one P k⟩, fun pd ps xs s => ⟨?_, pointChecks_one (exec_pmul pd ps xs s),
    fun h => ⟨fun Q hQ => ?_, fun e he => ?_⟩⟩⟩
  · exact encodes_of_encode rfl rfl
  · exact completes_setPt (i := .pmul pd ps xs) ⟨h, Q, hQ, rfl⟩
  · exact raises_of_pointsReady_one (exec_pmul pd ps xs s) h (andThen_eq_error.2 (.inl he))

/-! ## No `ArithDomain` on a short Weierstrass curve with a prime modulus (R201) -/

section
variable {s : State}

theorem primeWeierstrass_of_ready (hr : Ready s .base) (hp : s.Fbase.P.toNat.Prime)
    (hm : s.CRV.MODEL = .weierstrass) : s.curve.PrimeWeierstrass :=
  ⟨hm, hp, hr.curve_modulus.1⟩

theorem errCode_eq_arithDomain {e : Err} : errCode e = 0x14 ↔ e = .arithDomain := by
  cases e <;> simp [errCode]

/-- A command leaves the code of `ArithDomain` only by failing with it. -/
theorem eq_arithDomain_of_code {t : State} {r : Except Err State} (h : conclude s r = .next t)
    (ht : t.ST.ERR = 0x14) : r = .error .arithDomain := by
  rcases conclude_eq_next.1 h with ⟨u, -, rfl⟩ | ⟨e, rfl, rfl⟩
  · exact absurd (show okCode = 0x14 from ht) (by decide)
  · rw [errCode_eq_arithDomain.1 ht]

/-- Only a command for which rule R365 lists `ArithDomain` leaves its code. -/
theorem arithDomain_mem_errorCodes {i : Instr} {t : State} (h : exec i s = .next t)
    (ht : t.ST.ERR = 0x14) : 0x14 ∈ errorCodes i := by
  rcases exec_cases h with ⟨u, -, rfl⟩ | ⟨e, ⟨hcode, -⟩, rfl⟩
  · exact absurd (show okCode = 0x14 from ht) (by decide)
  · obtain rfl := errCode_eq_arithDomain.1 ht
    rcases hcode with ⟨hmem, -⟩ | ⟨-, he⟩
    · exact hmem
    · cases he

/-! The checks of the operands do not raise `ArithDomain`: the rest of the command does. -/

theorem withCurve_eq_arithDomain {α : Type} {k : CurveParams → Except Err α}
    (h : withCurve s k = .error .arithDomain) : k s.curve = .error .arithDomain := by
  rcases withCurve_eq_error.1 h with ⟨-, h⟩ | ⟨-, h⟩
  · cases h
  · exact h

theorem withPoint_eq_arithDomain {α : Type} {c : CurveParams} {P : PointReg}
    {k : AffPoint → Except Err α} (h : withPoint c P k = .error .arithDomain) :
    k (affOf c.p P) = .error .arithDomain := by
  rcases withPoint_eq_error.1 h with h | ⟨-, h⟩
  · rcases h.kind with h | h <;> cases h
  · exact h

theorem withEcdsa_eq_arithDomain {α : Type} {k : CurveParams → AffPoint → Nat → Except Err α}
    (h : withEcdsa s k = .error .arithDomain) :
    k s.curve s.G s.Fscalar.P.toNat = .error .arithDomain := by
  rcases withEcdsa_eq_error h with h | h | ⟨-, h⟩
  · cases h
  · rcases h.kind with h | h <;> cases h
  · exact h

theorem sigCheck_eq_arithDomain {α : Type} {n : Nat} {r v : Word} {k : Except Err α}
    (h : sigCheck n r v k = .error .arithDomain) : k = .error .arithDomain := by
  rcases sigCheck_eq_error h with h | h | h
  · cases h
  · cases h
  · exact h

/-- A computation of a command that has a result does not fail the command with it. -/
theorem andThen_ok_ne_error {α β : Type} {r : Except Err α} {f : α → β} {e : Err}
    (hr : ∃ v, r = .ok v) : (andThen r fun v => .ok (f v)) ≠ .error e := by
  obtain ⟨v, rfl⟩ := hr
  exact nofun

variable (hc : s.curve.PrimeWeierstrass)
include hc

theorem aff_reduced (P : PointReg) : (affOf s.curve.p P).Reduced s.curve.p :=
  affOf_reduced hc.prime.pos P

theorem padd_not_arithDomain {pd ps1 ps2 : PReg} {t : State}
    (h : exec (.padd pd ps1 ps2) s = .next t) : t.ST.ERR ≠ 0x14 := by
  intro ht
  have h := withCurve_eq_arithDomain (eq_arithDomain_of_code h ht)
  have h := withPoint_eq_arithDomain (withPoint_eq_arithDomain h)
  obtain ⟨Q, hQ, -⟩ := addPoint_total hc (aff_reduced hc (s.pt ps1)) (aff_reduced hc (s.pt ps2))
  exact andThen_ok_ne_error ⟨Q, hQ⟩ h

theorem pdbl_not_arithDomain {pd ps : PReg} {t : State} (h : exec (.pdbl pd ps) s = .next t) :
    t.ST.ERR ≠ 0x14 := by
  intro ht
  have h := withPoint_eq_arithDomain (withCurve_eq_arithDomain (eq_arithDomain_of_code h ht))
  obtain ⟨Q, hQ, -⟩ := addPoint_total hc (aff_reduced hc (s.pt ps)) (aff_reduced hc (s.pt ps))
  exact andThen_ok_ne_error ⟨Q, (dblPoint_eq_addPoint _ _).trans hQ⟩ h

theorem pmul_not_arithDomain {pd ps : PReg} {xs : XReg} {t : State}
    (h : exec (.pmul pd ps xs) s = .next t) : t.ST.ERR ≠ 0x14 := by
  intro ht
  have h := withPoint_eq_arithDomain (withCurve_eq_arithDomain (eq_arithDomain_of_code h ht))
  obtain ⟨Q, hQ, -⟩ := mulPoint_total hc (aff_reduced hc (s.pt ps)) (s.x xs).toNat
  exact andThen_ok_ne_error ⟨Q, hQ⟩ h

theorem esign_not_arithDomain {xdr xds xdv xsk xh : XReg} {t : State}
    (h : exec (.esign xdr xds xdv xsk xh) s = .next t) : t.ST.ERR ≠ 0x14 := by
  intro ht
  rcases check_eq_error.1 (eq_arithDomain_of_code h ht) with ⟨-, h⟩ | ⟨-, h⟩
  · cases h
  rcases check_eq_error.1 (withEcdsa_eq_arithDomain h) with ⟨-, h⟩ | ⟨-, h⟩
  · cases h
  rcases andThen_eq_error.1 h with h | ⟨rsv, -, h⟩
  · cases signLoop_error_of_prime hc (aff_reduced hc s.generator) h
  · cases h

theorem everify_not_arithDomain {xh xr xs : XReg} {pq : PReg} {t : State}
    (h : exec (.everify xh xr xs pq) s = .next t) : t.ST.ERR ≠ 0x14 := by
  intro ht
  have h := withPoint_eq_arithDomain (withEcdsa_eq_arithDomain (eq_arithDomain_of_code h ht))
  exact andThen_ok_ne_error (verifies_total hc (aff_reduced hc s.generator)
    (aff_reduced hc (s.pt pq)) _ _ _ _) (sigCheck_eq_arithDomain h)

theorem erecover_not_arithDomain {xd xh xv xr xs : XReg} {t : State}
    (h : exec (.erecover xd xh xv xr xs) s = .next t) : t.ST.ERR ≠ 0x14 := by
  intro ht
  rcases check_eq_error.1 (withEcdsa_eq_arithDomain (eq_arithDomain_of_code h ht)) with
    ⟨-, h⟩ | ⟨-, h⟩
  · cases h
  have recover : ∀ par, (andThen (recoverAddress s.curve s.G s.Fscalar.P.toNat (sqrtMod s.Fbase)
      (s.x xh).toNat (s.x xr).toNat (s.x xs).toNat par) fun addr =>
        Except.ok (ε := Err) (s.setXNat xd addr)) ≠ .error .arithDomain := by
    intro par h
    rcases andThen_eq_error.1 h with h | ⟨addr, -, h⟩
    · cases recoverAddress_error_of_prime hc (aff_reduced hc s.generator)
        (fun v y hy => (sqrtMod_sound hc.odd hy).1) h
    · cases h
  rcases withParity_eq_error (sigCheck_eq_arithDomain h) with h | h | h
  · cases h
  · exact recover 0 h
  · exact recover 1 h

end

/-- Settles O43: rule R365 lists `ArithDomain` for six commands, and the law on which they rest is
total. -/
theorem noArithDomainOnPrimeWeierstrass : Obligations.NoArithDomainOnPrimeWeierstrass := by
  intro i s t hr hp hm h
  have hc := primeWeierstrass_of_ready hr hp hm
  cases i with
  | padd => exact padd_not_arithDomain hc h
  | pdbl => exact pdbl_not_arithDomain hc h
  | pmul => exact pmul_not_arithDomain hc h
  | esign => exact esign_not_arithDomain hc h
  | everify => exact everify_not_arithDomain hc h
  | erecover => exact erecover_not_arithDomain hc h
  | _ =>
    intro ht
    have hmem := arithDomain_mem_errorCodes h ht
    simp [errorCodes] at hmem

/-! ## Every point that is computed is on the curve (R200) -/

/-- What a command other than `PMOV` writes to a point register passes `PointCheck` (R200). -/
theorem Effect.point_passes {i : Instr} {s u : State} (hr : Ready s .base) (h : Effect i s u)
    (hw : writesPoint i = true) (hmov : ∀ pd ps, i ≠ .pmov pd ps) :
    ∃ pd P, u = s.setPt pd P ∧ PointPasses s.curve P := by
  obtain ⟨hodd, h1, hlt⟩ := hr.curve_modulus
  have henc : ∀ {Q : AffPoint}, Q.On s.curve → PointPasses s.curve (encPoint s.curve.p Q) :=
    pointPasses_encPoint hodd h1 hlt
  have hon : ∀ {r : PReg}, PointPasses s.curve (s.pt r) → (affOf s.curve.p (s.pt r)).On s.curve :=
    PointPasses.on (by omega)
  cases i with
  | pset pd =>
    obtain ⟨-, hP, rfl⟩ := h
    exact ⟨pd, _, rfl, hP⟩
  | pinf pd =>
    obtain rfl : u = s.setPt pd s.identityReg := by
      obtain ⟨hc, rfl⟩ := h
      exact (effect_pinf hc).2.symm
    exact ⟨pd, _, rfl, pointPasses_identityReg hr⟩
  | pgen pd =>
    obtain ⟨-, hP, rfl⟩ := h
    exact ⟨pd, _, rfl, hP⟩
  | pmov pd ps => exact absurd rfl (hmov pd ps)
  | padd pd ps1 ps2 =>
    obtain ⟨h, Q, hQ, rfl⟩ := h
    obtain ⟨-, hp1, hp2⟩ := pointsReady_two.1 h
    exact ⟨pd, _, rfl, henc (addPoint_on h1 (hon hp1) (hon hp2) hQ)⟩
  | pdbl pd ps =>
    obtain ⟨h, Q, hQ, rfl⟩ := h
    obtain ⟨-, hp⟩ := pointsReady_one.1 h
    rw [dblPoint_eq_addPoint] at hQ
    exact ⟨pd, _, rfl, henc (addPoint_on h1 (hon hp) (hon hp) hQ)⟩
  | pneg pd ps =>
    obtain ⟨h, rfl⟩ := h
    obtain ⟨-, hp⟩ := pointsReady_one.1 h
    exact ⟨pd, _, rfl, henc (negPoint_on (hon hp))⟩
  | pmul pd ps xs =>
    obtain ⟨h, Q, hQ, rfl⟩ := h
    obtain ⟨-, hp⟩ := pointsReady_one.1 h
    exact ⟨pd, _, rfl, henc (mulPoint_on h1 (hon hp) hQ)⟩
  | _ => cases hw

/-- Settles O44: a point register only changes by the effect of a command that writes one, and such a
command leaves the curve alone. -/
theorem storedPointsAreOnTheCurve : Obligations.StoredPointsAreOnTheCurve := by
  intro i s t q hr hmov hx hne
  rcases exec_cases hx with ⟨u, hu, rfl⟩ | ⟨e, -, rfl⟩
  case inr => exact absurd (State.pt_raise s q e) hne
  cases hw : writesPoint i with
  | false => exact absurd (hu.frame (.pt q) hw) hne
  | true =>
    obtain ⟨pd, P, rfl, hP⟩ := hu.point_passes hr hw hmov
    rw [State.pt_setERR, State.pt_setPt] at hne ⊢
    split at hne
    case isTrue hq => rw [if_pos hq]; exact hP
    case isFalse => exact absurd rfl hne

end Sys2Proof.Machine
end

section
/-! PROOFS. Keccak-256: the commands of the hasher, absorbing and finishing, and the permutation with
the layout of its lanes (rules R240 to R246). -/

namespace Sys2Proof.Machine

-- Many theorems elaborated at once need more memory than the check grants.
set_option Elab.async false

/-! ## KINIT, KUPDATE and KFINAL (R244 to R246) -/

/-- The checks of a command that needs the hasher in use: the range comes first (R245, R246, R372). -/
theorem withRange_check_of_inactive {α : Type} {s : State} {a n : Nat} (h : a + n ≤ 65536)
    (hK : s.K.ACTIVE = false) (k : Except Err α) :
    withRange a n (check s.K.ACTIVE .spongeSequence k) = .error .spongeSequence :=
  withRange_eq_error.2 (.inr ⟨h, check_eq_error.2 (.inl ⟨hK, rfl⟩)⟩)

/-- A command whose effect is to write the hasher (R50, R360). -/
theorem completes_setK {i : Instr} {s : State} {k : Hasher} (h : Effect i s (s.setK k)) :
    ∃ t, exec i s = .next t ∧ Completed s t [.hasher] ∧ t.K = k :=
  ⟨_, exec_of_effect h, completed_setERR (keeps_setK s k), rfl⟩

theorem completes_kfinal {aa : AReg} {s : State} (hm : Memory.wf s.MEM) (h : s.ea aa + 32 ≤ 65536)
    (hK : s.K.ACTIVE = true) :
    ∃ t, exec (.kfinal aa) s = .next t ∧ Completed s t (.hasher :: bytesFrom (s.ea aa) 32) ∧
      t.K = Hasher.clear ∧
      ∀ k, k < 32 → some (t.MEM.read (s.ea aa + k)) = (finish s.K)[k]? := by
  have hkeeps := keeps_memWrite s (s.ea aa) (finish s.K)
  rw [length_finish] at hkeeps
  refine ⟨_, exec_of_effect (i := .kfinal aa) ⟨h, hK, rfl⟩,
    completed_setERR ((hkeeps.trans (keeps_setK _ _)).mono fun q hq => by simpa [or_comm] using hq),
    rfl, fun k hk => ?_⟩
  have hlen : k < (finish s.K).length := by rwa [length_finish]
  rw [State.MEM_setERR, State.MEM_setK, State.MEM_memWrite, List.getElem?_eq_getElem hlen,
    Memory.read_writeBytes hm _ (by rwa [length_finish]) hlen]

/-- Settles O45: the range is checked before the sequence, and each command writes the hasher by its own
rule, `KFINAL` also the digest. -/
theorem keccakCommandRules : Obligations.KeccakCommandRules := by
  refine ⟨fun s => ⟨encodes_of_encode rfl rfl, ?_⟩,
    fun aa al s => ⟨?_, fun h => raises_of_exec rfl (withRange_eq_error.2 (.inl ⟨h, rfl⟩)),
      fun h hK => raises_of_exec rfl (withRange_check_of_inactive h hK _), fun h hK => ?_⟩,
    fun aa s => ⟨?_, fun h => raises_of_exec rfl (withRange_eq_error.2 (.inl ⟨h, rfl⟩)),
      fun h hK => raises_of_exec rfl (withRange_check_of_inactive h hK _), completes_kfinal⟩⟩
  · obtain ⟨t, hx, ht, hk⟩ := completes_setK (i := .kinit) (s := s) rfl
    exact ⟨t, hx, ht, hk ▸ ⟨rfl, rfl, rfl⟩⟩
  · exact encodes_of_encode rfl (congrArg (BitVec.ofNat 32) (by omega))
  · obtain ⟨t, hx, ht, hk⟩ := completes_setK (i := .kupdate aa al) ⟨h, hK, rfl⟩
    refine ⟨t, hx, ht, by rw [hk, ACTIVE_absorb, hK], ?_⟩
    rw [hk, State.memRead, Memory.readBytes_eq_map, absorb]
  · exact encodes_of_encode rfl (congrArg (BitVec.ofNat 32) (by omega))

/-! ## Absorbing and finishing (R240, R243) -/

/-- `KUPDATE` when it completes, as an equation of the state (R245). -/
theorem kupdate_eq {aa al : AReg} {s t : State} (h : s.ea aa + s.ea al ≤ 65536)
    (hK : s.K.ACTIVE = true) (hx : exec (.kupdate aa al) s = .next t) :
    t = (s.setK (absorb s.K (s.memRead (s.ea aa) (s.ea al)))).setERR okCode := by
  rw [exec_of_effect (i := .kupdate aa al) ⟨h, hK, rfl⟩] at hx
  exact (Host.Outcome.next.inj hx).symm

/-- Two `KUPDATE`s of adjacent ranges are one of both together (R243, R245). -/
theorem kupdate_kupdate {a1 l1 a2 l2 l : AReg} {s t u v : State} (ha : s.ea a2 = s.ea a1 + s.ea l1)
    (hl : s.ea l = s.ea l1 + s.ea l2) (h : s.ea a1 + s.ea l ≤ 65536) (hK : s.K.ACTIVE = true)
    (ht : exec (.kupdate a1 l1) s = .next t) (hu : exec (.kupdate a2 l2) t = .next u)
    (hv : exec (.kupdate a1 l) s = .next v) : u = v := by
  have ht' := kupdate_eq (by omega) hK ht
  have hea : ∀ i, t.ea i = s.ea i := fun i => by rw [ht']; rfl
  have htK : t.K.ACTIVE = true := by rw [ht', State.K_setERR, State.K_setK, ACTIVE_absorb, hK]
  have hread : s.memRead (s.ea a1) (s.ea l) =
      s.memRead (s.ea a1) (s.ea l1) ++ s.memRead (s.ea a2) (s.ea l2) := by
    rw [hl, ha]
    exact Memory.readBytes_append _ _ _ _
  rw [kupdate_eq (by rw [hea, hea]; omega) htK hu, kupdate_eq h hK hv, hread, absorb_append, ht']
  rfl

/-- A byte that does not complete the block (R243). -/
theorem absorbByte_of_lt {h : Hasher} (hp : h.POS.val + 1 < 136) (b : Byte) : absorbByte h b =
    { h with S := h.S.set h.POS.val (h.S[h.POS.val] ^^^ b), POS := ⟨h.POS.val + 1, hp⟩ } := by
  unfold absorbByte
  exact dif_pos hp

/-- The byte that completes the block (R243). -/
theorem absorbByte_of_last {h : Hasher} (hp : ¬ h.POS.val + 1 < 136) (b : Byte) : absorbByte h b =
    { h with S := keccakF (h.S.set h.POS.val (h.S[h.POS.val] ^^^ b)), POS := 0 } := by
  unfold absorbByte
  exact dif_neg hp

/-- A byte combined with one of the state's bytes, as the other bytes combined with 0 (R243). -/
theorem getElem_set_xor (S : Vector Byte 200) {i : Nat} (hi : i < 200) (b : Byte) {k : Nat}
    (hk : k < 200) : (S.set i (S[i] ^^^ b))[k] = S[k] ^^^ (if k = i then b else 0) := by
  rw [Vector.getElem_set]
  by_cases h : i = k
  · subst h
    rw [if_pos rfl, if_pos rfl]
  · rw [if_neg h, if_neg (Ne.symm h)]
    exact (BitVec.xor_zero).symm

/-- The block after a byte is combined, as R243 says it. -/
theorem getElem_set_xor_ite (S : Vector Byte 200) {i : Nat} (hi : i < 200) (b : Byte) (k : Fin 200) :
    (S.set i (S[i] ^^^ b))[k] = if k.val = i then S[k] ^^^ b else S[k] := by
  refine (getElem_set_xor S hi b k.isLt).trans ?_
  split
  · rfl
  · exact BitVec.xor_zero

/-- What the absorption of one byte does at each position of the block (R243). -/
theorem absorbByte_rule (h : Hasher) (b : Byte) :
    (h.POS.val < 135 → (absorbByte h b).POS.val = h.POS.val + 1 ∧
      ∀ k : Fin 200, (absorbByte h b).S[k] = if k.val = h.POS.val then h.S[k] ^^^ b else h.S[k]) ∧
    (h.POS.val = 135 → (absorbByte h b).POS.val = 0 ∧
      ∃ S : Vector Byte 200, (absorbByte h b).S = keccakF S ∧
        ∀ k : Fin 200, S[k] = if k.val = 135 then h.S[k] ^^^ b else h.S[k]) := by
  refine ⟨fun hp => ?_, fun hp => ?_⟩
  · rw [absorbByte_of_lt (by omega)]
    exact ⟨rfl, fun k => getElem_set_xor_ite h.S _ b k⟩
  · rw [absorbByte_of_last (by omega)]
    refine ⟨rfl, _, rfl, fun k => ?_⟩
    rw [getElem_set_xor_ite, hp]

/-- The domain byte and the last byte of the padding are combined at their places, which may be the same
(R243). -/
theorem finish_eq {h : Hasher} {S : Vector Byte 200}
    (hS : ∀ k : Fin 200, S[k] = h.S[k] ^^^ (if k.val = h.POS.val then 0x01 else 0) ^^^
      (if k.val = 135 then 0x80 else 0)) : finish h = (keccakF S).toList.take 32 := by
  have hpad : S = (h.S.set h.POS.val (h.S[h.POS.val] ^^^ 0x01)).set 135
      ((h.S.set h.POS.val (h.S[h.POS.val] ^^^ 0x01))[135] ^^^ 0x80) := by
    refine Vector.ext fun k hk => (hS ⟨k, hk⟩).trans ?_
    rw [getElem_set_xor, getElem_set_xor]
    rfl
  rw [hpad, finish]

/-- The hasher, marked as in use or not. -/
def Hasher.withActive (h : Hasher) (a : Bool) : Hasher := { h with ACTIVE := a }

theorem absorbByte_withActive (h : Hasher) (a : Bool) (b : Byte) :
    absorbByte (h.withActive a) b = (absorbByte h b).withActive a := by
  by_cases hp : h.POS.val + 1 < 136
  · rw [absorbByte_of_lt hp, absorbByte_of_lt (h := h.withActive a) hp]
    rfl
  · rw [absorbByte_of_last hp, absorbByte_of_last (h := h.withActive a) hp]
    rfl

/-- Absorbing does not depend on whether the hasher is in use (R56, R243). -/
theorem absorb_withActive (h : Hasher) (a : Bool) (bs : List Byte) :
    absorb (h.withActive a) bs = (absorb h bs).withActive a := by
  induction bs generalizing h with
  | nil => rfl
  | cons b bs ih =>
    show absorb (absorbByte (h.withActive a) b) bs = _
    rw [absorbByte_withActive, ih]
    rfl

/-- `Keccak256` by any hasher with the zero state (R240). -/
theorem keccak256_eq {h : Hasher} (hS : h.S = Vector.replicate 200 0) (hP : h.POS = 0)
    (bs : List Byte) : keccak256 bs = finish (absorb h bs) := by
  have hh : emptyHasher true = h.withActive true := by
    rw [emptyHasher, Hasher.withActive, hS, hP]
  rw [keccak256, hh, absorb_withActive]
  rfl

/-- Settles O46: absorbing is a fold over the bytes, so that adjacent ranges are absorbed together. -/
theorem absorbingRules : Obligations.AbsorbingRules := by
  refine ⟨fun _ _ _ _ _ _ _ _ _ => kupdate_kupdate, fun h b => ?_, fun _ _ => finish_eq,
    fun _ bs hS hP => keccak256_eq hS hP bs⟩
  obtain ⟨hlt, hlast⟩ := absorbByte_rule h b
  exact ⟨hlt, hlast, ACTIVE_absorbByte h b⟩

/-! ## The lanes (R241) -/

/-- n bytes from position a on, one by one. -/
theorem take_drop_eq_map {l : List Byte} {a n : Nat} (h : a + n ≤ l.length) :
    (l.drop a).take n = (List.range n).map fun k => l.getD (a + k) 0 := by
  refine List.ext_getElem (by simp; omega) fun k hk _ => ?_
  have hk' : a + k < l.length := by
    rw [List.length_take, List.length_drop] at hk
    omega
  rw [List.getElem_take, List.getElem_drop, List.getElem_map, List.getElem_range,
    List.getD_eq_getElem _ _ hk']

/-- Lane i of the state bytes, as a number (R241). -/
theorem toNat_lanesOf (S : Vector Byte 200) {i : Nat} (hi : i < 25) :
    ((lanesOf S).getD i 0).toNat =
      ∑ k ∈ Finset.range 8, (S.toList.getD (8 * i + k) 0).toNat * 256 ^ k := by
  have hbytes := take_drop_eq_map (l := S.toList) (a := 8 * i) (n := 8)
    (by rw [Vector.length_toList]; omega)
  have hlt := leNat_lt ((S.toList.drop (8 * i)).take 8)
  rw [lanesOf, List.getD_eq_getElem _ _ (by simpa using hi), List.getElem_map, List.getElem_range,
    BitVec.toNat_ofNat, Nat.mod_eq_of_lt, hbytes, leNat_map_range]
  exact hlt.trans_le (Nat.pow_le_pow_right (by omega) (List.length_take_le _ _))

/-- A value is the sum of its bytes at their weights (R11). -/
theorem sum_digits {v n : Nat} (hv : v < 256 ^ n) :
    ∑ k ∈ Finset.range n, (BitVec.ofNat 8 (v / 256 ^ k)).toNat * 256 ^ k = v := by
  rw [← leNat_map_range fun k => BitVec.ofNat 8 (v / 256 ^ k)]
  have h : (List.range n).map (fun k => BitVec.ofNat 8 (v / 256 ^ k)) = toLE v n := by
    refine List.ext_getElem (by simp) fun k _ hk => BitVec.eq_of_toNat_eq ?_
    rw [getElem_toLE, List.getElem_map, List.getElem_range, BitVec.toNat_ofNat]
  rw [h, leNat_toLE n v hv]

/-- Byte j of the lanes lies in lane j / 8 (R241). -/
theorem getElem_bytesOf (A : Lanes) {j : Nat} (hj : j < 200) :
    (bytesOf A)[j] = BitVec.ofNat 8 ((A.getD (j / 8) 0).toNat / 2 ^ (8 * (j % 8))) :=
  Vector.getElem_ofFn hj

/-- Byte k of lane i (R241). -/
theorem getD_bytesOf (A : Lanes) {i k : Nat} (hi : i < 25) (hk : k < 8) :
    (bytesOf A).toList.getD (8 * i + k) 0 = BitVec.ofNat 8 ((A.getD i 0).toNat / 256 ^ k) := by
  have hpow : 2 ^ (8 * k) = 256 ^ k := by norm_num [Nat.pow_mul]
  have hlt : 8 * i + k < (bytesOf A).toList.length := by rw [Vector.length_toList]; omega
  have hdiv : (8 * i + k) / 8 = i := by omega
  have hmod : (8 * i + k) % 8 = k := by omega
  rw [List.getD_eq_getElem _ _ hlt, Vector.getElem_toList, getElem_bytesOf,
    hdiv, hmod, hpow]

/-- The lanes of the bytes of 25 lanes are these lanes (R241). -/
theorem lanesOf_bytesOf {A : Lanes} (hA : A.length = 25) : lanesOf (bytesOf A) = A := by
  refine List.ext_getElem (by simp [lanesOf, hA]) fun i hi hi' => BitVec.eq_of_toNat_eq ?_
  have h25 : i < 25 := hA ▸ hi'
  have hlt : (A.getD i 0).toNat < 256 ^ 8 := (A.getD i 0).isLt.trans_eq (by norm_num)
  have hlane := toNat_lanesOf (bytesOf A) h25
  rw [Finset.sum_congr rfl fun k hk => by rw [getD_bytesOf A h25 (Finset.mem_range.1 hk)],
    sum_digits hlt, List.getD_eq_getElem _ _ hi, List.getD_eq_getElem _ _ hi'] at hlane
  exact hlane

/-! ## The steps of a round (R242) -/

/-- The coordinates of a lane count modulo 5 (R241). -/
theorem lane_congr (A : Lanes) {x x' y y' : Nat} (hx : x % 5 = x' % 5) (hy : y % 5 = y' % 5) :
    lane A x y = lane A x' y' := by
  rw [lane, lane, hx, hy]

theorem lane_makeLanes (f : Nat → Nat → BitVec 64) (x y : Nat) :
    lane (makeLanes f) x y = f (x % 5) (y % 5) := by
  have hi : x % 5 + 5 * (y % 5) < 25 := by omega
  rw [lane, makeLanes, List.getD_eq_getElem _ _ (by simpa using hi), List.getElem_map,
    List.getElem_range, show (x % 5 + 5 * (y % 5)) % 5 = x % 5 by omega,
    show (x % 5 + 5 * (y % 5)) / 5 = y % 5 by omega]

/-- The column of the model is that of the rule (R242). -/
theorem keccakColumn_mod (A : Lanes) (x : Nat) : keccakColumn A (x % 5) = columnXor A x := by
  have h : ∀ y, lane A (x % 5) y = lane A x y := fun y => lane_congr A (Nat.mod_mod x 5) rfl
  simp only [keccakColumn, columnXor, h]
  exact (congrArg (· ^^^ lane A x 1 ^^^ lane A x 2 ^^^ lane A x 3 ^^^ lane A x 4)
    (BitVec.zero_xor (x := lane A x 0))).symm

/-- An entry of a table over the five columns. -/
theorem getD_map_range_five (f : Nat → BitVec 64) (x : Nat) :
    ((List.range 5).map f).getD (x % 5) 0 = f (x % 5) := by
  rw [List.getD_eq_getElem _ _ (by simpa using Nat.mod_lt x (by omega)), List.getElem_map,
    List.getElem_range]

/-- Step θ (R242). -/
theorem lane_keccakTheta (A : Lanes) (x y : Nat) : lane (keccakTheta A) x y = lane A x y ^^^
    (columnXor A (x + 4) ^^^ (columnXor A (x + 1)).rotateLeft 1) := by
  have h4 : (x % 5 + 4) % 5 = (x + 4) % 5 := by omega
  have h1 : (x % 5 + 1) % 5 = (x + 1) % 5 := by omega
  have hl : lane A (x % 5) (y % 5) = lane A x y := lane_congr A (Nat.mod_mod x 5) (Nat.mod_mod y 5)
  rw [keccakTheta, lane_makeLanes, getD_map_range_five, getD_map_range_five, getD_map_range_five,
    h4, h1, keccakColumn_mod, keccakColumn_mod, hl]

/-- The offsets of the model are those of the table of the rule (R242). -/
theorem rotationOffset_eq : ∀ x < 5, ∀ y < 5, rotationOffset x y = (rotTable x).getD y 0 := by decide

/-- Steps ρ and π (R242). -/
theorem lane_keccakRhoPi (A : Lanes) {x y : Nat} (hx : x < 5) (hy : y < 5) :
    lane (keccakRhoPi A) y (2 * x + 3 * y) = (lane A x y).rotateLeft ((rotTable x).getD y 0) := by
  have hsource : (y % 5 + 3 * ((2 * x + 3 * y) % 5)) % 5 = x := by omega
  have hy5 : y % 5 = y := Nat.mod_eq_of_lt hy
  rw [keccakRhoPi, lane_makeLanes, hsource, hy5, rotationOffset_eq x hx y hy]
  congr 1
  exact lane_congr A (by omega) rfl

/-- Step χ (R242). -/
theorem lane_keccakChi (A : Lanes) (x y : Nat) : lane (keccakChi A) x y =
    lane A x y ^^^ (~~~lane A (x + 1) y &&& lane A (x + 2) y) := by
  have hl : ∀ d, lane A (x % 5 + d) (y % 5) = lane A (x + d) y := fun d =>
    lane_congr A (by omega) (Nat.mod_mod y 5)
  rw [keccakChi, lane_makeLanes, hl 1, hl 2]
  exact congrArg (· ^^^ _) (hl 0)

/-- Step ι (R242). -/
theorem lane_keccakIota {A : Lanes} (hA : A.length = 25) {x y : Nat} (hx : x < 5) (hy : y < 5)
    (rc : BitVec 64) : lane (keccakIota rc A) x y =
      if x = 0 ∧ y = 0 then lane A 0 0 ^^^ rc else lane A x y := by
  split
  case isTrue h =>
    obtain ⟨rfl, rfl⟩ := h
    rw [keccakIota, lane, List.getD_eq_getElem _ _ (by rw [List.length_set]; omega)]
    exact List.getElem_set_self _
  case isFalse h =>
    have hi : 0 ≠ x % 5 + 5 * (y % 5) := by omega
    show (A.set 0 _).getD (x % 5 + 5 * (y % 5)) 0 = A.getD (x % 5 + 5 * (y % 5)) 0
    rw [List.getD_eq_getElem?_getD, List.getElem?_set_ne hi, ← List.getD_eq_getElem?_getD]

/-! ## The permutation (R242) -/

/-- The constants of the model are those of the table of the rule (R242). -/
theorem roundConstants_eq : roundConstants = (List.range 24).map rcTable := by decide

/-- The rounds as the steps of the rule, one after the other (R242). -/
theorem foldl_keccakRound {trace : Nat → Lanes} {n : Nat}
    (h : ∀ ir, ir < n → trace (ir + 1) = keccakRound (trace ir) (rcTable ir)) :
    ((List.range n).map rcTable).foldl keccakRound (trace 0) = trace n := by
  induction n with
  | zero => rfl
  | succ n ih =>
    rw [List.range_succ, List.map_append, List.foldl_append, ih fun ir hir => h ir (by omega),
      h n (by omega)]
    rfl

/-- Settles O47: every lane of a step is given by its coordinates, and the constants and offsets are
those of the tables of the rule. -/
theorem keccakRoundSteps : Obligations.KeccakRoundSteps := by
  refine ⟨fun S x y hx hy => ?_, fun A => lanesOf_bytesOf, fun A x y hA hx hy => ?_,
    fun S trace h0 hstep => ?_⟩
  · rw [lane, Nat.mod_eq_of_lt hx, Nat.mod_eq_of_lt hy, toNat_lanesOf S (by omega)]
  · exact ⟨lane_keccakTheta A x y, lane_keccakRhoPi A hx hy, lane_keccakChi A x y,
      lane_keccakIota hA hx hy⟩
  · rw [keccakF, roundConstants_eq, ← h0, foldl_keccakRound hstep]

end Sys2Proof.Machine
end

section
/-! PROOFS. The Merkle verifier commands: the pair hash, single proofs and multi-proofs (rules R258 to
R264). -/

namespace Sys2Proof.Machine

-- Many theorems elaborated at once need more memory than the check grants.
set_option Elab.async false

/-- An access fault comes from this range or from what follows its check (R74). -/
theorem withRange_eq_accessFault {α : Type} {a n : Nat} {k : Except Err α} :
    withRange a n k = .error .accessFault ↔ 65536 < a + n ∨ k = .error .accessFault := by
  rw [withRange_eq_error]
  by_cases h : a + n ≤ 65536
  · simp [h, Nat.not_lt.2 h]
  · simp [h, Nat.not_le.1 h]

/-- The access fault of three ranges that are checked one after the other (R74, R260, R262). -/
theorem withRange_three_accessFault {α : Type} {a b c n m l : Nat} {k : Except Err α}
    (h : 65536 < a + n ∨ 65536 < b + m ∨ 65536 < c + l) :
    withRange a n (withRange b m (withRange c l k)) = .error .accessFault :=
  withRange_eq_accessFault.2 (h.imp_right fun h => withRange_eq_accessFault.2 (h.imp_right fun h =>
    withRange_eq_accessFault.2 (.inl h)))

/-! ## The pair hash, and HPAIR (R258, R260) -/

theorem hashPair_of_le {u v : Node} (h : beNat u ≤ beNat v) : hashPair u v = keccak256 (u ++ v) :=
  if_pos h

theorem hashPair_of_lt {u v : Node} (h : beNat v < beNat u) : hashPair u v = keccak256 (v ++ u) :=
  if_neg (Nat.not_le.2 h)

/-- Nodes with one big-endian value are one node, so the order of the two never matters (R258). -/
theorem hashPair_comm {u v : Node} (hl : u.length = v.length) : hashPair u v = hashPair v u := by
  rcases Nat.lt_trichotomy (beNat u) (beNat v) with h | h | h
  · rw [hashPair_of_le h.le, hashPair_of_lt h]
  · rw [beNat_inj u v hl h]
  · rw [hashPair_of_lt h, hashPair_of_le h.le]

/-- Settles O48: the hash is made from the nodes of the state before the write. -/
theorem pairHashRules : Obligations.PairHashRules := by
  refine ⟨fun u v hu hv => ⟨hashPair_of_le, hashPair_of_lt, hashPair_comm (hu.trans hv.symm)⟩,
    fun ad aa ab s => ⟨?_, fun h => ?_, fun hm ha hb hd => ?_⟩⟩
  · exact encodes_of_encode rfl (congrArg (BitVec.ofNat 32) (by omega))
  · exact raises_of_exec rfl (withRange_three_accessFault h)
  · obtain ⟨t, hx, ht, hbytes⟩ := completes_memWrite (i := .hpair ad aa ab) ⟨ha, hb, hd, rfl⟩ hm
      (length_hashPair _ _) hd
    refine ⟨t, hx, ht, fun k hk => ?_⟩
    have hlen : k < (hashPair (s.memRead (s.ea aa) 32) (s.memRead (s.ea ab) 32)).length := by
      rwa [length_hashPair]
    rw [hbytes k hlen, List.getElem?_eq_getElem hlen]

/-! ## MVERIFY (R262) -/

/-- The root of a single proof, sibling by sibling from `MEM` (R78, R262). -/
theorem proofRoot_nodes (s : State) (leaf : Node) (ea m : Nat) : proofRoot leaf (s.nodes ea m) =
    (List.range m).foldl (fun h i => hashPair h (s.memRead (ea + 32 * i) 32)) leaf :=
  List.foldl_map

/-- Settles O49: T is the comparison of the two roots. -/
theorem mverifyRule : Obligations.MverifyRule := by
  refine fun s => ⟨encodes_of_encode rfl rfl, fun h => ?_, fun hproof hroot hleaf => ?_⟩
  · exact raises_of_exec rfl (withRange_three_accessFault h)
  · obtain ⟨t, hx, ht, hT⟩ := completes_setT (i := .mverify) ⟨hproof, hroot, hleaf, rfl⟩
    rw [Bool.eq_iff_iff, beq_iff_eq, proofRoot_nodes] at hT
    refine ⟨t, hx, ht, hT, fun h0 => ?_⟩
    rw [hT, h0]
    rfl

/-! ## MVERIFYM (R264) -/

/-- The answer of the verifier: the length test, the test for a leaf, and the root of the only leaf or
the last hash (R263). -/
theorem multiVerify_eq_true_iff {proof leaves : List Node} {flags : List Bool} {root : Node} :
    multiVerify proof flags root leaves = true ↔
      flags.length + 1 = leaves.length + proof.length ∧ leaves ≠ [] ∧
        if flags = [] then leaves.head? = some root
        else multiLoop flags leaves [] proof none = some root := by
  unfold multiVerify
  by_cases hlen : flags.length + 1 = leaves.length + proof.length
  case neg => simp [hlen]
  cases leaves with
  | nil => simp
  | cons leaf leaves =>
    by_cases hf : flags = []
    · simp [hf]
    · simp [hlen, hf]

theorem proofFlags_eq_map (s : State) (ea f : Nat) :
    s.proofFlags ea f = (List.range f).map fun i => decide (s.MEM.read (ea + i) ≠ 0) := by
  rw [State.proofFlags, State.memRead, Memory.readBytes_eq_map, List.map_map]
  refine List.map_congr_left fun i _ => ?_
  rw [Function.comp_apply, Bool.eq_iff_iff, bne_iff_ne, decide_eq_true_iff]

/-- Settles O50: T is the answer of the verifier, which the lengths of the arrays can decide alone. -/
theorem mverifymRule : Obligations.MverifymRule := by
  refine fun s => ⟨encodes_of_encode rfl rfl, fun h => ?_, fun hproof hflags hroot hleaves => ?_⟩
  · exact raises_of_exec rfl (withRange_eq_accessFault.2 (h.imp_right withRange_three_accessFault))
  · obtain ⟨t, hx, ht, hT⟩ := completes_setT (i := .mverifym) ⟨hproof, hflags, hroot, hleaves, rfl⟩
    rw [proofFlags_eq_map] at hT
    refine ⟨t, hx, ht, by rw [hT]; rfl, fun hlen => ?_, fun h0 => ?_⟩
    · rw [hT, ← Bool.not_eq_true, multiVerify_eq_true_iff]
      rintro ⟨h, -⟩
      exact hlen (by simpa using h)
    · rw [hT, ← Bool.not_eq_true, multiVerify_eq_true_iff]
      rintro ⟨-, h, -⟩
      exact h (List.length_eq_zero_iff.1 (by simpa using h0))

/-! ## The queues and the positions (R263) -/

theorem drop_of_getElem?_some {α : Type} {l : List α} {n : Nat} {v : α} (h : l[n]? = some v) :
    l.drop n = v :: l.drop (n + 1) := by
  obtain ⟨hlt, rfl⟩ := List.getElem?_eq_some_iff.1 h
  exact List.drop_eq_getElem_cons hlt

theorem drop_of_getElem?_none {α : Type} {l : List α} {n : Nat} (h : l[n]? = none) : l.drop n = [] :=
  List.drop_eq_nil_of_le (List.getElem?_eq_none_iff.1 h)

/-- `PopLH()` on what is left of the queues finds what it finds at the positions (R263). -/
theorem popLH_drop (leaves hashes : List Node) (lp hp : Nat) :
    popLH (leaves.drop lp) (hashes.drop hp) = (popAt leaves hashes lp hp).map fun r =>
      (r.1, leaves.drop r.2.1, hashes.drop r.2.2) := by
  unfold popAt
  cases hl : leaves[lp]? with
  | some v => rw [drop_of_getElem?_some hl]; rfl
  | none =>
    cases hh : hashes[hp]? with
    | some v => rw [drop_of_getElem?_none hl, drop_of_getElem?_some hh, popLH, Option.map_some,
        drop_of_getElem?_none hl]
    | none => rw [drop_of_getElem?_none hl, drop_of_getElem?_none hh]; rfl

/-- A pop does not move the position in the hashes past their end (R263). -/
theorem popAt_le_length {leaves hashes : List Node} {lp hp : Nat} {r : Node × Nat × Nat}
    (h : popAt leaves hashes lp hp = some r) (hle : hp ≤ hashes.length) :
    r.2.2 ≤ hashes.length := by
  unfold popAt at h
  cases hl : leaves[lp]? with
  | some v =>
    rw [hl] at h
    obtain rfl := Option.some.inj h
    exact hle
  | none =>
    rw [hl] at h
    cases hh : hashes[hp]? with
    | some v =>
      rw [hh] at h
      obtain rfl := Option.some.inj h
      exact (List.getElem?_eq_some_iff.1 hh).1
    | none =>
      rw [hh] at h
      cases h

/-- The loop over the queues is the loop over the positions: the queues are what the positions leave,
and the last hash is the one whose number is that of the flags (R263). -/
theorem multiLoop_drop (proof leaves : List Node) (fls : List Bool) (hashes : List Node)
    (lp hp pp : Nat) (hle : hp ≤ hashes.length) :
    multiLoop fls (leaves.drop lp) (hashes.drop hp) (proof.drop pp) hashes.getLast? =
      (multiAt proof leaves fls hashes lp hp pp).bind fun hs =>
        hs[hashes.length + fls.length - 1]? := by
  induction fls generalizing hashes lp hp pp with
  | nil => exact List.getLast?_eq_getElem?
  | cons fl fls ih =>
    have push : ∀ (h : Node) {lp hp pp : Nat}, hp ≤ hashes.length →
        multiLoop fls (leaves.drop lp) (hashes.drop hp ++ [h]) (proof.drop pp) (some h) =
          (multiAt proof leaves fls (hashes ++ [h]) lp hp pp).bind fun hs =>
            hs[hashes.length + (fl :: fls).length - 1]? := by
      intro h lp hp pp hle
      have hih := ih (hashes ++ [h]) lp hp pp (by rw [List.length_append]; omega)
      rw [List.drop_append_of_le_length hle, List.getLast?_concat] at hih
      rw [hih, List.length_append, List.length_singleton, List.length_cons, Nat.add_assoc,
        Nat.add_comm 1]
    rw [multiLoop, multiAt, popLH_drop]
    cases hpop : popAt leaves hashes lp hp with
    | none => rfl
    | some r =>
      obtain ⟨a, lp, hp⟩ := r
      have hle := popAt_le_length hpop hle
      cases fl with
      | true =>
        simp only [Option.map_some, if_true, popLH_drop]
        cases hpop' : popAt leaves hashes lp hp with
        | none => rfl
        | some r =>
          obtain ⟨b, lp, hp⟩ := r
          exact push (hashPair a b) (popAt_le_length hpop' hle)
      | false =>
        cases hproof : proof[pp]? with
        | none => rw [drop_of_getElem?_none hproof]; rfl
        | some b =>
          rw [drop_of_getElem?_some hproof]
          exact push (hashPair a b) hle

/-- Settles O51: at the start the queues are the whole lists, and nothing is hashed. -/
theorem multiVerifyFollowsTheRule : Obligations.MultiVerifyFollowsTheRule := by
  intro proof leaves flags root
  have hloop : multiLoop flags leaves [] proof none =
      (multiAt proof leaves flags [] 0 0 0).bind fun hs => hs[0 + flags.length - 1]? :=
    multiLoop_drop proof leaves flags [] 0 0 0 (Nat.le_refl 0)
  rw [multiVerify_eq_true_iff, hloop, Option.bind_eq_some_iff, Nat.zero_add]

end Sys2Proof.Machine
end

section
/-! PROOFS. The ECDSA commands: the contract of the nonce function, the operand checks, the nonce loop of
`ESIGN`, the decision of `EVERIFY` and the key that `ERECOVER` recovers (rules R280 to R287). -/

namespace Sys2Proof.Machine

-- Many theorems elaborated at once need more memory than the check grants.
set_option Elab.async false

/-! ## The nonce function (R282) -/

theorem intoNonceRange_range {n : Nat} (hn : 2 ≤ n) (k : Nat) :
    1 ≤ intoNonceRange n k ∧ intoNonceRange n k ≤ n - 1 := by
  have hlt : k % (n - 1) < n - 1 := Nat.mod_lt _ (by omega)
  unfold intoNonceRange
  omega

/-- However the open parameter is filled, the contract holds: for another function by its reduction, for
the default one by its search or, where the search finds nothing, by the reduction (R282, R342). -/
theorem nonceBy_range (inst : Option (Nat → Nat → Nat → Nat → Nat)) {n : Nat} (hn : 2 ≤ n)
    (sk h ctr : Nat) : 1 ≤ nonceBy inst n sk h ctr ∧ nonceBy inst n sk h ctr ≤ n - 1 := by
  unfold nonceBy
  cases inst with
  | some g => exact intoNonceRange_range hn _
  | none =>
    cases hk : rfc6979 n sk h ctr with
    | some k => exact rfc6979_range hk
    | none => exact intoNonceRange_range hn _

/-- Settles O52: the nonce function of the engine is one of those that the range lemma covers. -/
theorem nonceContract : Obligations.NonceContract := fun inst _ sk h ctr hn _ _ _ =>
  ⟨nonceBy_range inst hn sk h ctr, nonceBy_range Config.nonceInstance hn sk h ctr⟩

/-! ## The common checks (R280) -/

/-- A check in a chain of checks that raise the same error. -/
theorem check_eq_error_self {α : Type} {b : Bool} {e : Err} {k : Except Err α} :
    check b e k = .error e ↔ b = false ∨ k = .error e := by
  cases b <;> simp

/-- The group order of a ready context is odd and above 1 (R30, R32). -/
theorem Ready.order {s : State} (hn : Ready s .scalar) :
    s.Fscalar.P.toNat % 2 = 1 ∧ 1 < s.Fscalar.P.toNat := hn.modulus

section
variable {i : Instr} {s : State} {e : Err} {k : CurveParams → AffPoint → Nat → Except Err State}

theorem withEcdsa_noConfig (h : s.Fbase.VALID = false ∨ s.Fscalar.VALID = false ∨
    s.CRV.MODEL ≠ .weierstrass ∨ s.curveOK = false) : withEcdsa s k = .error .noConfig := by
  refine check_eq_error_self.2 ?_
  rcases h with h | h | h | h
  · exact .inl (by rw [h, Bool.false_and])
  · exact .inl (by rw [h, Bool.and_false])
  · exact .inr (check_eq_error_self.2 (.inl (beq_eq_false_iff_ne.2 h)))
  · exact .inr (check_eq_error_self.2 (.inr (check_eq_error_self.2 (.inl h))))

theorem withEcdsa_pointFails (hb : s.Fbase.VALID = true) (hs : s.Fscalar.VALID = true)
    (hm : s.CRV.MODEL = .weierstrass) (hc : s.curveOK = true)
    (hf : PointFails s.curve s.generator e) : withEcdsa s k = .error e := by
  refine check_eq_error.2 (.inr ⟨by rw [hb, hs]; rfl, check_eq_error.2 (.inr ⟨beq_iff_eq.2 hm, ?_⟩)⟩)
  exact withCurve_eq_error.2 (.inr ⟨hc, withPoint_fails hf _⟩)

/-- The common checks come before all others of an ECDSA command (R280). -/
theorem ecdsaChecks_of_exec (hx : exec i s = conclude s (withEcdsa s k)) : EcdsaChecks i s :=
  ⟨fun h => raises_of_exec hx (withEcdsa_noConfig h), fun _ hb hs hm hc hf =>
    raises_of_exec hx (withEcdsa_pointFails hb hs hm hc hf)⟩

/-- After the common checks an ECDSA command fails as the rest of it does (R280). -/
theorem raises_of_ecdsaReady (hx : exec i s = conclude s (withEcdsa s k)) (h : EcdsaReady s)
    (he : k s.curve s.G s.Fscalar.P.toNat = .error e) : Raises i s e :=
  raises_of_exec hx ((withEcdsa_ready h k).trans he)

end

/-! ## The checks of a signature and of a parity (R281, R283) -/

section
variable {α : Type} {n : Nat} {r s v : Word} {e : Err}

/-- The range test that `SigCheck` makes of r and of s (R281). -/
theorem sigRange_eq_true {w : Word} (hw : ¬ (w.toNat = 0 ∨ n ≤ w.toNat)) :
    (!(w.toNat == 0 || decide (n ≤ w.toNat))) = true := by
  rw [Bool.not_eq_true', ← Bool.not_eq_true, Bool.or_eq_true, beq_iff_eq, decide_eq_true_iff]
  exact hw

theorem sigRange_eq_false {w : Word} (hw : w.toNat = 0 ∨ n ≤ w.toNat) :
    (!(w.toNat == 0 || decide (n ≤ w.toNat))) = false := by
  rw [Bool.not_eq_false', Bool.or_eq_true, beq_iff_eq, decide_eq_true_iff]
  exact hw

theorem sigCheck_fails (h : SigFails n r s e) (k : Except Err α) : sigCheck n r s k = .error e := by
  unfold SigFails at h
  split at h
  case isTrue hr => exact check_eq_error.2 (.inl ⟨sigRange_eq_false hr, h⟩)
  refine check_eq_error.2 (.inr ⟨sigRange_eq_true ‹_›, ?_⟩)
  split at h
  case isTrue hs => exact check_eq_error.2 (.inl ⟨sigRange_eq_false hs, h⟩)
  obtain ⟨hhalf, he⟩ := h
  exact check_eq_error.2 (.inr ⟨sigRange_eq_true ‹_›,
    check_eq_error.2 (.inl ⟨decide_eq_false (Nat.not_le.2 hhalf), he⟩)⟩)

theorem sigCheck_passes (h : SigPasses n r s) (k : Except Err α) : sigCheck n r s k = k := by
  obtain ⟨hr1, hr, hs1, hs, hhalf⟩ := h
  rw [sigCheck, sigRange_eq_true (by omega), sigRange_eq_true (by omega), halfOrder,
    decide_eq_true hhalf, check_true, check_true, check_true]

theorem withParity_fails (h : v.toNat ∉ [0, 1, 27, 28]) (k : Nat → Except Err α) :
    withParity v k = .error .invalidSignature := by
  simp only [List.mem_cons, List.not_mem_nil, or_false, not_or] at h
  rw [withParity, if_neg (by omega), if_neg (by omega)]

theorem withParity_of_parity {par : Nat} (h : (v.toNat = 0 ∨ v.toNat = 27) ∧ par = 0 ∨
    (v.toNat = 1 ∨ v.toNat = 28) ∧ par = 1) (k : Nat → Except Err α) : withParity v k = k par := by
  rcases h with ⟨hv, rfl⟩ | ⟨hv, rfl⟩
  · rw [withParity, if_pos hv]
  · rw [withParity, if_neg (by omega), if_pos hv]

end

/-! ## Inverses modulo the group order -/

section
variable {a n w : Nat}

theorem gcd_eq_one_of_inverse (hn : 1 < n) (h : a * w % n = 1) : Nat.gcd a n = 1 :=
  Nat.coprime_of_mul_modEq_one w (h.trans (Nat.mod_eq_of_lt hn).symm)

theorem invMod_eq_mod (hn : 1 < n) (h : a * w % n = 1) : invMod a n = w % n :=
  invMod_unique hn (Nat.mod_lt _ (by omega)) (by rwa [Nat.mul_mod_mod])

/-- The solution of a congruence with a coefficient prime to n is the product with its inverse. -/
theorem invMod_mul_mod_eq {b x : Nat} (hn : 1 < n) (ha : Nat.gcd a n = 1) (hx : x < n)
    (h : a * x % n = b % n) : invMod a n * b % n = x := by
  have hinv : invMod a n * a ≡ 1 [MOD n] := by
    rw [Nat.mul_comm, Nat.ModEq, invMod_spec hn ha, Nat.mod_eq_of_lt hn]
  have hx' : invMod a n * b ≡ x [MOD n] :=
    calc invMod a n * b ≡ invMod a n * (a * x) [MOD n] := (Nat.ModEq.mul_left _ h).symm
      _ = invMod a n * a * x := (Nat.mul_assoc _ _ _).symm
      _ ≡ 1 * x [MOD n] := hinv.mul_right x
      _ = x := Nat.one_mul x
  rwa [Nat.ModEq, Nat.mod_eq_of_lt hx] at hx'

end

/-! ## ESIGN (R285) -/

section
variable {c : CurveParams} {G : AffPoint} {n sk e k : Nat}

theorem signWith_of_nonceRejected (h : NonceRejected c G n sk e k) :
    signWith c G n sk e k = .ok none := by
  rcases h with hO | ⟨Rx, Ry, hR, h⟩
  · rw [signWith, hO, andThen_ok]
  rw [signWith, hR, andThen_ok]
  dsimp only
  by_cases hr : Rx % n = 0
  · rw [if_pos hr]
  by_cases hk : Nat.gcd k n = 1
  · have hs : invMod (k % n) n * (e + Rx % n * sk) % n = 0 := by
      rw [Nat.mul_mod, (h.resolve_left hr).resolve_left (not_not.2 hk), Nat.mul_zero, Nat.zero_mod]
    rw [if_neg hr, if_pos ((invertible_iff k n).2 hk), if_pos hs]
  · rw [if_neg hr, if_neg (mt (invertible_iff k n).1 hk)]

theorem signWith_of_nonceGives {r sg v : Nat} (hn : 1 < n) (h : NonceGives c G n sk e k r sg v) :
    signWith c G n sk e k = .ok (some (r, sg, v)) := by
  obtain ⟨Rx, Ry, s0, hR, rfl, hr, hk, hlt, hs0, hsol, hout⟩ := h
  have hs : invMod (k % n) n * (e + Rx % n * sk) % n = s0 := by
    rw [invMod_mod, invMod_mul_mod_eq hn hk hlt hsol]
  simp only [signWith, hR, andThen_ok, if_neg hr, if_pos ((invertible_iff k n).2 hk), hs, if_neg hs0,
    halfOrder]
  split at hout <;> obtain ⟨rfl, rfl⟩ := hout
  case isTrue hhalf => rw [if_pos hhalf]
  case isFalse hhalf => rw [if_neg hhalf]

/-- What `ESIGN` delivers lies in the ranges of rule R285, for an odd order: of s and `n − s` one is at
most `HALF`. -/
theorem nonceGives_bounds {r sg v : Nat} (hodd : n % 2 = 1) (h : NonceGives c G n sk e k r sg v) :
    1 ≤ r ∧ r < n ∧ 1 ≤ sg ∧ sg ≤ (n - 1) / 2 ∧ v ≤ 1 := by
  obtain ⟨Rx, Ry, s0, -, rfl, hr, -, hlt, hs0, -, hout⟩ := h
  have hrn : Rx % n < n := Nat.mod_lt _ (by omega)
  split at hout <;> omega

variable {nonceAt : Nat → Nat}

/-- The loop goes past the nonces that are rejected. -/
theorem signLoop_of_rejected {m : Nat} (tries : Nat)
    (h : ∀ j, j < m → NonceRejected c G n sk e (nonceAt j)) :
    signLoop c G n sk e nonceAt (m + tries) 0 = signLoop c G n sk e nonceAt tries m := by
  induction m generalizing tries with
  | zero => rw [Nat.zero_add]
  | succ m ih =>
    rw [Nat.add_right_comm, Nat.add_assoc, ih (tries + 1) fun j hj => h j (Nat.lt_succ_of_lt hj),
      signLoop, signWith_of_nonceRejected (h m (Nat.lt_succ_self m)), andThen_ok]

end

section
variable {c : CurveParams} {G : AffPoint} {n sk h ctr : Nat}

/-- With 256 rejected nonces the loop has no candidate left (R285). -/
theorem signature_exhausted
    (hrej : ∀ j, j ≤ 255 → NonceRejected c G n sk (h % n) (nonce n sk h j)) :
    signature c G n sk h = .error .nonceExhausted :=
  signLoop_of_rejected (m := Config.signMaxRetry + 1) 0 fun j hj => hrej j (Nat.le_of_lt_succ hj)

/-- The first nonce that is not rejected decides, among the 256 candidates (R285). -/
theorem signature_of_first (hctr : ctr ≤ 255)
    (hrej : ∀ j, j < ctr → NonceRejected c G n sk (h % n) (nonce n sk h j)) :
    ∃ tries, signature c G n sk h =
      signLoop c G n sk (h % n) (nonce n sk h) (tries + 1) ctr := by
  obtain ⟨tries, htries⟩ : ∃ tries, Config.signMaxRetry + 1 = ctr + (tries + 1) :=
    ⟨255 - ctr, by unfold Config.signMaxRetry; omega⟩
  exact ⟨tries, by rw [signature, htries, signLoop_of_rejected (tries + 1) hrej]⟩

theorem signature_of_nonceGives {r sg v : Nat} (hn : 1 < n) (hctr : ctr ≤ 255)
    (hrej : ∀ j, j < ctr → NonceRejected c G n sk (h % n) (nonce n sk h j))
    (hg : NonceGives c G n sk (h % n) (nonce n sk h ctr) r sg v) :
    signature c G n sk h = .ok (r, sg, v) := by
  obtain ⟨tries, hfirst⟩ := signature_of_first hctr hrej
  rw [hfirst, signLoop, signWith_of_nonceGives hn hg, andThen_ok]

theorem signature_of_mulPoint_error {e : Err} (hctr : ctr ≤ 255)
    (hrej : ∀ j, j < ctr → NonceRejected c G n sk (h % n) (nonce n sk h j))
    (he : mulPoint c (nonce n sk h ctr) G = .error e) : signature c G n sk h = .error e := by
  obtain ⟨tries, hfirst⟩ := signature_of_first hctr hrej
  rw [hfirst, signLoop, signWith, he, andThen_error, andThen_error]

end

/-- The command after its constraint on the destinations (R106, R285). -/
theorem exec_esign {xdr xds xdv : XReg} (hrs : xdr ≠ xds) (hrv : xdr ≠ xdv) (hsv : xds ≠ xdv)
    (xsk xh : XReg) (s : State) :
    exec (.esign xdr xds xdv xsk xh) s = conclude s (withEcdsa s fun c G n =>
      check (1 ≤ (s.x xsk).toNat && (s.x xsk).toNat ≤ n - 1) .invalidScalar
        (andThen (signature c G n (s.x xsk).toNat (s.x xh).toNat) fun rsv =>
          .ok (((s.setXNat xdr rsv.1).setXNat xds rsv.2.1).setXNat xdv rsv.2.2))) :=
  congrArg (conclude s) (check_eq_of_true (by simp [hrs, hrv, hsv]) _ _)

/-- A command whose effect is to write three integers, each to a general register of its own. -/
theorem completes_setXNat_three {i : Instr} {s : State} {xd xe xf : XReg} {u v w : Nat}
    (h : Effect i s (((s.setXNat xd u).setXNat xe v).setXNat xf w)) (hde : xd ≠ xe) (hdf : xd ≠ xf)
    (hef : xe ≠ xf) (hu : u < 2 ^ 256) (hv : v < 2 ^ 256) (hw : w < 2 ^ 256) :
    ∃ t, exec i s = .next t ∧ Completed s t [.x xd, .x xe, .x xf] ∧ (t.x xd).toNat = u ∧
      (t.x xe).toNat = v ∧ (t.x xf).toNat = w := by
  refine ⟨_, exec_of_effect h, completed_setERR (((keeps_setXNat s xd u).trans
    (keeps_setXNat _ xe v)).trans (keeps_setXNat _ xf w)), ?_, ?_, State.toNat_x_setXNat _ xf hw⟩
  · rw [State.x_setERR, State.x_setXNat_ne _ hdf, State.x_setXNat_ne _ hde,
      State.toNat_x_setXNat s xd hu]
  · rw [State.x_setERR, State.x_setXNat_ne _ hef, State.toNat_x_setXNat _ xe hv]

/-- Settles O54: after the checks the command ends as its loop does, and the loop as the first nonce that
is not rejected says. -/
theorem esignRule : Obligations.EsignRule := by
  intro xdr xds xdv xsk xh s hrs hrv hsv
  have hx := exec_esign hrs hrv hsv xsk xh s
  refine ⟨?_, ecdsaChecks_of_exec hx, ?_⟩
  · exact encodes_of_encode (by simp [Instr.wf, hrs, hrv, hsv]) rfl
  rintro n sk h rfl rfl rfl hready hn
  obtain ⟨hodd, h1⟩ := hn.order
  refine ⟨fun hsk => raises_of_ecdsaReady hx hready (check_eq_error.2 (.inl ⟨?_, rfl⟩)),
    fun hpos hlt => ?_⟩
  · rw [Bool.and_eq_false_iff, decide_eq_false_iff_not, decide_eq_false_iff_not]
    omega
  have hfails : ∀ {e}, signature s.curve s.G s.Fscalar.P.toNat (s.x xsk).toNat (s.x xh).toNat =
      .error e → Raises (.esign xdr xds xdv xsk xh) s e := fun he =>
    raises_of_ecdsaReady hx hready (check_eq_error.2 (.inr
      ⟨by rw [Bool.and_eq_true, decide_eq_true_iff, decide_eq_true_iff]; omega,
        andThen_eq_error.2 (.inl he)⟩))
  refine ⟨fun ctr r sg v hctr hrej hg => ?_,
    fun ctr e hctr hrej he => hfails (signature_of_mulPoint_error hctr hrej he),
    fun hrej => hfails (signature_exhausted hrej)⟩
  obtain ⟨hr1, hrn, hs1, hsn, hv1⟩ := nonceGives_bounds hodd hg
  have hP : s.Fscalar.P.toNat < 2 ^ 256 := s.Fscalar.P.isLt
  obtain ⟨t, hxt, ht, hr, hs, hv⟩ := completes_setXNat_three (i := .esign xdr xds xdv xsk xh)
    ⟨⟨hrs, hrv, hsv⟩, hready, ⟨hpos, by omega⟩, (r, sg, v),
      signature_of_nonceGives h1 hctr hrej hg, rfl⟩
    hrs hrv hsv (show r < 2 ^ 256 by omega) (show sg < 2 ^ 256 by omega) (show v < 2 ^ 256 by omega)
  exact ⟨t, hxt, ht, hr, hs, hv, hr1, hrn, hs1, hsn, hv1⟩

/-! ## EVERIFY (R287) -/

section
variable {c : CurveParams} {G Q : AffPoint} {n h r s w : Nat}

/-- The key at infinity and an s without inverse are not accepted (R287). -/
theorem verifies_eq_false (hQ : Q = .O ∨ Nat.gcd s n ≠ 1) : verifies c G n h r s Q = .ok false := by
  cases Q with
  | O => rfl
  | mk x y =>
    have hs : invertible s n ≠ true := fun hinv =>
      hQ.elim nofun fun hne => hne ((invertible_iff s n).1 hinv)
    rw [verifies, if_neg hs]

/-- Otherwise the decision is that of the sum's x, whichever inverse w of s is taken (R287). -/
theorem verifies_eq_sum (hn : 1 < n) (hQ : Q ≠ .O) (hw : s * w % n = 1) :
    verifies c G n h r s Q = andThen (sumOfMultiples c (h % n * w % n) G (r * w % n) Q) fun X =>
      match X with
      | .O => .ok false
      | .mk x _ => .ok (decide (x % n = r)) := by
  cases Q with
  | O => exact absurd rfl hQ
  | mk x y =>
    have hs : invertible s n = true := (invertible_iff s n).2 (gcd_eq_one_of_inverse hn hw)
    rw [verifies, if_pos hs, invMod_mod, invMod_eq_mod hn hw]
    dsimp only
    rw [Nat.mul_mod_mod, Nat.mul_mod_mod, sumOfMultiples]
    cases mulPoint c (h % n * w % n) G with
    | error e => rfl
    | ok U1 => cases mulPoint c (r * w % n) (.mk x y) <;> rfl

end

theorem exec_everify (xh xr xs : XReg) (pq : PReg) (s : State) :
    exec (.everify xh xr xs pq) s = conclude s (withEcdsa s fun c G n =>
      withPoint c (s.pt pq) fun Q => sigCheck n (s.x xr) (s.x xs)
        (andThen (verifies c G n (s.x xh).toNat (s.x xr).toNat (s.x xs).toNat Q) fun t =>
          .ok (s.setT t))) := rfl

/-- Settles O55: after the checks T is the decision `verifies`. -/
theorem everifyRule : Obligations.EverifyRule := by
  intro xh xr xs pq s
  have hx := exec_everify xh xr xs pq s
  refine ⟨encodes_of_encode rfl (congrArg (BitVec.ofNat 32) (by omega)), ecdsaChecks_of_exec hx,
    fun e hready hf => raises_of_ecdsaReady hx hready (withPoint_fails hf _), ?_⟩
  rintro n Q rfl rfl hready hn hQ
  obtain ⟨-, h1⟩ := hn.order
  refine ⟨fun e hf => raises_of_ecdsaReady hx hready
    ((withPoint_passes hQ _).trans (sigCheck_fails hf _)), fun hsig => ?_⟩
  have hdecides : ∀ {b}, verifies s.curve s.G s.Fscalar.P.toNat (s.x xh).toNat (s.x xr).toNat
      (s.x xs).toNat (affOf s.curve.p (s.pt pq)) = .ok b →
      ∃ t, exec (.everify xh xr xs pq) s = .next t ∧ Completed s t [.T] ∧ t.ST.T = b := fun hb =>
    completes_setT (i := .everify xh xr xs pq) ⟨hready, hQ, hsig, _, hb, rfl⟩
  refine ⟨fun hfalse => hdecides (verifies_eq_false hfalse), ?_⟩
  rintro w X hfin hw rfl
  have hsum := verifies_eq_sum (c := s.curve) (G := s.G) (h := (s.x xh).toNat) (r := (s.x xr).toNat)
    h1 hfin hw
  refine ⟨fun Y hY => ?_, fun e he => ?_⟩
  · rw [hY, andThen_ok] at hsum
    cases Y <;>
    · obtain ⟨t, hxt, ht, hT⟩ := hdecides hsum
      exact ⟨t, hxt, ht, by simp [hT]⟩
  · rw [he, andThen_error] at hsum
    exact raises_of_ecdsaReady hx hready ((withPoint_passes hQ _).trans
      ((sigCheck_passes hsig _).trans (andThen_eq_error.2 (.inl hsum))))

/-! ## ERECOVER (R286) -/

section
variable {c : CurveParams} {G : AffPoint} {n h r s par y0 y : Nat} {root : Nat → Option Nat}

theorem recoverAddress_of_not_lt (hr : c.p ≤ r) :
    recoverAddress c G n root h r s par = .error .invalidSignature :=
  check_eq_error.2 (.inl ⟨decide_eq_false (Nat.not_lt.2 hr), rfl⟩)

theorem recoverAddress_of_no_root (hr : r < c.p)
    (hroot : root ((r ^ 3 + c.A * r + c.B) % c.p) = none) :
    recoverAddress c G n root h r s par = .error .invalidSignature := by
  rw [recoverAddress, decide_eq_true hr, check_true, hroot]

/-- With a root, the two tests and the key are left, for the y of the parity asked for (R286). -/
theorem recoverAddress_of_root (hr : r < c.p)
    (hroot : root ((r ^ 3 + c.A * r + c.B) % c.p) = some y0)
    (hy : y = if y0 % 2 = par then y0 else (c.p - y0) % c.p) :
    recoverAddress c G n root h r s par =
      check (y % 2 = par) .invalidSignature (check (invertible r n) .invalidSignature
        (andThen (recoveredKey c G (invMod r n) s (h % n) (.mk r y)) fun Q =>
          match Q with
          | .O => .error .invalidSignature
          | .mk qx qy => .ok (addressOf qx qy))) := by
  have hy' : (if y0 % 2 ≠ par then (c.p - y0) % c.p else y0) = y := by rw [hy, ite_not]
  rw [recoverAddress, decide_eq_true hr, check_true, hroot]
  dsimp only
  rw [hy', recoveredKey, invMod_mod]
  cases mulPoint c s (.mk r y) with
  | error e => rfl
  | ok sR =>
    cases mulPoint c (h % n) G with
    | error e => rfl
    | ok eG =>
      simp only [andThen_ok]
      cases addPoint c sR (negPoint c eG) <;> rfl

/-- A y of the other parity, and an r without inverse, give no key (R286). -/
theorem recoverAddress_of_failed_test (hr : r < c.p)
    (hroot : root ((r ^ 3 + c.A * r + c.B) % c.p) = some y0)
    (hy : y = if y0 % 2 = par then y0 else (c.p - y0) % c.p)
    (hfail : y % 2 ≠ par ∨ Nat.gcd r n ≠ 1) :
    recoverAddress c G n root h r s par = .error .invalidSignature := by
  rw [recoverAddress_of_root hr hroot hy, check_eq_error_self, check_eq_error_self]
  rcases hfail with hpar | hgcd
  · exact .inl (decide_eq_false hpar)
  · exact .inr (.inl ((invertible_eq_false_iff r n).2 hgcd))

/-- After the tests the key decides, computed with whichever inverse of r (R286). -/
theorem recoverAddress_of_tests {rinv : Nat} (hn : 1 < n) (hr : r < c.p)
    (hroot : root ((r ^ 3 + c.A * r + c.B) % c.p) = some y0)
    (hy : y = if y0 % 2 = par then y0 else (c.p - y0) % c.p) (hpar : y % 2 = par)
    (hlt : rinv < n) (hinv : r * rinv % n = 1) :
    recoverAddress c G n root h r s par =
      andThen (recoveredKey c G rinv s (h % n) (.mk r y)) fun Q =>
        match Q with
        | .O => .error .invalidSignature
        | .mk qx qy => .ok (addressOf qx qy) := by
  rw [recoverAddress_of_root hr hroot hy, decide_eq_true hpar, check_true,
    (invertible_iff r n).2 (gcd_eq_one_of_inverse hn hinv), check_true, invMod_unique hn hlt hinv]

end

/-- An address has 20 bytes (R284). -/
theorem addressOf_lt (x y : Nat) : addressOf x y < 2 ^ 256 := by
  have h := beNat_lt ((keccak256 (toBE x 32 ++ toBE y 32)).drop 12)
  rw [List.length_drop, length_keccak256] at h
  exact h.trans (by norm_num)

theorem exec_erecover (xd xh xv xr xs : XReg) (s : State) :
    exec (.erecover xd xh xv xr xs) s = conclude s (withEcdsa s fun c G n =>
      check (rootReady s.Fbase) .noConfig (sigCheck n (s.x xr) (s.x xs)
        (withParity (s.x xv) fun par => andThen (recoverAddress c G n (sqrtMod s.Fbase)
          (s.x xh).toNat (s.x xr).toNat (s.x xs).toNat par) fun addr =>
            .ok (s.setXNat xd addr)))) := rfl

theorem rootReady_of_three_or_root2 {F : FieldCtx} (h : F.P.toNat % 4 = 3 ∨ F.ROOT2 ≠ 0) :
    rootReady F = true := by
  rw [← Bool.not_eq_false, rootReady_eq_false_iff]
  rintro ⟨h1, h0⟩
  exact h.elim (by omega) fun hne => hne h0

section
variable {xd xh xv xr xs : XReg} {s : State} {e : Err} (hready : EcdsaReady s)
  (hroot : rootReady s.Fbase = true)
include hready hroot

theorem erecover_raises_of_sigFails (hf : SigFails s.Fscalar.P.toNat (s.x xr) (s.x xs) e) :
    Raises (.erecover xd xh xv xr xs) s e :=
  raises_of_ecdsaReady (exec_erecover xd xh xv xr xs s) hready
    ((check_eq_of_true hroot _ _).trans (sigCheck_fails hf _))

variable (hsig : SigPasses s.Fscalar.P.toNat (s.x xr) (s.x xs))
include hsig

/-- After `SigCheck` the command fails as `Parity` and the recovery do (R283, R286). -/
theorem erecover_raises_of_sigPasses (he : (withParity (s.x xv) fun par =>
    andThen (recoverAddress s.curve s.G s.Fscalar.P.toNat (sqrtMod s.Fbase) (s.x xh).toNat
      (s.x xr).toNat (s.x xs).toNat par) fun addr => .ok (s.setXNat xd addr)) = .error e) :
    Raises (.erecover xd xh xv xr xs) s e :=
  raises_of_ecdsaReady (exec_erecover xd xh xv xr xs s) hready
    ((check_eq_of_true hroot _ _).trans ((sigCheck_passes hsig _).trans he))

variable {par : Nat} (hpar : ((s.x xv).toNat = 0 ∨ (s.x xv).toNat = 27) ∧ par = 0 ∨
  ((s.x xv).toNat = 1 ∨ (s.x xv).toNat = 28) ∧ par = 1)
include hpar

theorem erecover_raises_of_recoverAddress (he : recoverAddress s.curve s.G s.Fscalar.P.toNat
    (sqrtMod s.Fbase) (s.x xh).toNat (s.x xr).toNat (s.x xs).toNat par = .error e) :
    Raises (.erecover xd xh xv xr xs) s e :=
  erecover_raises_of_sigPasses hready hroot hsig
    ((withParity_of_parity hpar _).trans (andThen_eq_error.2 (.inl he)))

theorem completes_erecover {qx qy : Nat} (ha : recoverAddress s.curve s.G s.Fscalar.P.toNat
    (sqrtMod s.Fbase) (s.x xh).toNat (s.x xr).toNat (s.x xs).toNat par = .ok (addressOf qx qy)) :
    ∃ t, exec (.erecover xd xh xv xr xs) s = .next t ∧ Completed s t [.x xd] ∧
      (t.x xd).toNat = addressOf qx qy :=
  completes_setXNat (i := .erecover xd xh xv xr xs) ⟨hready, hroot, hsig, par, hpar, _, ha, rfl⟩
    (addressOf_lt qx qy)

end

/-- Settles O56: after the checks the command ends as `recoverAddress` does, and that as the root, the
two tests and the recovered key say. -/
theorem erecoverRule : Obligations.ErecoverRule := by
  intro xd xh xv xr xs s
  have hx := exec_erecover xd xh xv xr xs s
  refine ⟨encodes_of_encode rfl rfl, ecdsaChecks_of_exec hx, ?_⟩
  rintro i n p r rfl rfl rfl rfl hready - hn
  obtain ⟨-, h1⟩ := hn.order
  refine ⟨fun hp h0 => raises_of_ecdsaReady hx hready (check_eq_error.2
    (.inl ⟨(rootReady_eq_false_iff _).2 ⟨hp, h0⟩, rfl⟩)), fun hroot => ?_⟩
  replace hroot := rootReady_of_three_or_root2 hroot
  refine ⟨fun e hf => erecover_raises_of_sigFails hready hroot hf, fun hsig =>
    ⟨fun hv => erecover_raises_of_sigPasses hready hroot hsig (withParity_fails hv _),
      fun par hpar => ?_⟩⟩
  have hfails : ∀ {e}, recoverAddress s.curve s.G s.Fscalar.P.toNat (sqrtMod s.Fbase) (s.x xh).toNat
      (s.x xr).toNat (s.x xs).toNat par = .error e → Raises (.erecover xd xh xv xr xs) s e :=
    erecover_raises_of_recoverAddress hready hroot hsig hpar
  refine ⟨fun hr => hfails (recoverAddress_of_not_lt hr), fun hr =>
    ⟨fun hnone => hfails (recoverAddress_of_no_root hr hnone), fun y0 y hy0 hy =>
      ⟨fun htest => hfails (recoverAddress_of_failed_test hr hy0 hy htest), ?_⟩⟩⟩
  rintro rinv K hypar hlt hinv rfl
  have haddr := recoverAddress_of_tests (c := s.curve) (G := s.G) (h := (s.x xh).toNat)
    (s := (s.x xs).toNat) h1 hr hy0 hy hypar hlt hinv
  refine ⟨fun hO => hfails ?_, fun e he => hfails ?_, fun qx qy hK => ?_⟩
  · rw [haddr, hO, andThen_ok]
  · rw [haddr, he, andThen_error]
  · rw [hK, andThen_ok] at haddr
    exact completes_erecover hready hroot hsig hpar haddr

end Sys2Proof.Machine
end

section
/-! PROOFS. Poseidon2: the rounds of the permutation and their order, and the commands of the sponge
(rules R302 to R304, R310 to R313). -/

namespace Sys2Proof.Machine

-- Many theorems elaborated at once need more memory than the check grants.
set_option Elab.async false

open Sys2Proof.Config (P2Rom)

/-! ## The rounds (R302, R303) -/

/-- Element i of a list given element by element. -/
theorem getD_map_range (f : Nat → Nat) {i n : Nat} (hi : i < n) :
    ((List.range n).map f).getD i 0 = f i := by
  rw [List.getD_eq_getElem _ _ (by simpa using hi), List.getElem_map, List.getElem_range]

/-- The sum of a list, as a sum over its positions. -/
theorem sum_eq_sum_getD (l : List Nat) : l.sum = ∑ k ∈ Finset.range l.length, l.getD k 0 := by
  induction l with
  | nil => rfl
  | cons a l ih =>
    rw [List.sum_cons, List.length_cons, Finset.sum_range_succ', ih, Nat.add_comm]
    simp

/-- The sum of a list whose first element is replaced. -/
theorem sum_set_zero {s : List Nat} (hs : s ≠ []) (v : Nat) :
    (s.set 0 v).sum = v + ∑ j ∈ Finset.Ico 1 s.length, s.getD j 0 := by
  cases s with
  | nil => exact absurd rfl hs
  | cons a l =>
    rw [List.set_cons_zero, List.sum_cons, sum_eq_sum_getD l, Finset.sum_Ico_eq_sum_range,
      List.length_cons, Nat.add_sub_cancel]
    simp [Nat.add_comm 1]

/-- The elements of a list whose first element is replaced. -/
theorem getD_set_zero {s : List Nat} (hs : s ≠ []) (v i : Nat) :
    (s.set 0 v).getD i 0 = if i = 0 then v else s.getD i 0 := by
  cases s with
  | nil => exact absurd rfl hs
  | cons a l => cases i <;> simp

section
variable (rom : P2Rom) (p : Nat)

/-- `ExtLayer(s)[i]` (R302). -/
theorem getD_extLayer (s : List Nat) {i : Nat} (hi : i < rom.T) :
    (extLayer rom p s).getD i 0 = (∑ j ∈ Finset.range rom.T, rom.matExt i j * s.getD j 0) % p :=
  getD_map_range _ hi

/-- `IntLayer(s)[i]` (R302). -/
theorem getD_intLayer (s : List Nat) {i : Nat} (hi : i < rom.T) :
    (intLayer rom p s).getD i 0 = (s.sum + rom.diagM1 i * s.getD i 0) % p :=
  getD_map_range _ hi

/-- An element after a full round: the S-box and the constant need not be reduced before the linear
layer (R303). -/
theorem getD_fullRound (s : List Nat) (r : Nat) {i : Nat} (hi : i < rom.T) :
    (fullRound rom p s r).getD i 0 =
      (∑ j ∈ Finset.range rom.T, rom.matExt i j * (s.getD j 0 ^ rom.D + rom.rc r j)) % p := by
  rw [fullRound, getD_extLayer rom p _ hi]
  refine Nat.ModEq.sum fun j hj => ?_
  rw [getD_map_range _ (Finset.mem_range.1 hj)]
  exact (Nat.mod_modEq _ p).mul_left _

/-- An element after a partial round, which replaces element 0 by v before the linear layer (R303). -/
theorem getD_partialRound {s : List Nat} (hs : s.length = rom.T) (r : Nat) {i : Nat}
    (hi : i < rom.T) {v : Nat} (hv : v = s.getD 0 0 ^ rom.D + rom.rc r 0) :
    (partialRound rom p s r).getD i 0 =
      (v + (∑ j ∈ Finset.Ico 1 rom.T, s.getD j 0) +
        rom.diagM1 i * (if i = 0 then v else s.getD i 0)) % p := by
  have hne : s ≠ [] := List.ne_nil_of_length_pos (by omega)
  have hmod : v % p ≡ v [MOD p] := Nat.mod_modEq v p
  rw [partialRound, ← hv, getD_intLayer rom p _ hi, sum_set_zero hne, getD_set_zero hne, hs]
  refine (hmod.add_right _).add (Nat.ModEq.mul_left _ ?_)
  split
  · exact hmod
  · rfl

/-- Rounds k to k + n − 1 of one kind lead from state k of the trace to state k + n. -/
theorem foldl_rounds {round : List Nat → Nat → List Nat} {trace : Nat → List Nat} {k n : Nat}
    (h : ∀ r, k ≤ r → r < k + n → trace (r + 1) = round (trace r) r) :
    ((List.range n).map (k + ·)).foldl round (trace k) = trace (k + n) := by
  induction n with
  | zero => rfl
  | succ n ih =>
    rw [List.range_succ, List.map_append, List.foldl_append,
      ih fun r hk hr => h r hk (by omega), ← Nat.add_assoc, h (k + n) (by omega) (by omega)]
    rfl

/-- The permutation runs through its three phases with one round counter (R303). -/
theorem permute_eq_trace {trace : Nat → List Nat}
    (h : ∀ r, r < rom.RF + rom.RP → trace (r + 1) =
      if rom.RF / 2 ≤ r ∧ r < rom.RF / 2 + rom.RP then partialRound rom p (trace r) r
      else fullRound rom p (trace r) r) :
    permute rom p (trace 0) = trace (rom.RF + rom.RP) := by
  have hRF := rom.RF_spec.1
  have hfirst : (List.range (rom.RF / 2)).foldl (fullRound rom p) (trace 0) = trace (rom.RF / 2) := by
    have hfold := foldl_rounds (k := 0) (n := rom.RF / 2) (round := fullRound rom p)
      (trace := trace) fun r _ hr => by rw [h r (by omega), if_neg (by omega)]
    simpa using hfold
  have hpartial := foldl_rounds (k := rom.RF / 2) (n := rom.RP) (round := partialRound rom p)
    (trace := trace) fun r hk hr => by rw [h r (by omega), if_pos ⟨hk, hr⟩]
  have hlast := foldl_rounds (k := rom.RF / 2 + rom.RP) (n := rom.RF / 2)
    (round := fullRound rom p) (trace := trace)
    fun r hk hr => by rw [h r (by omega), if_neg (by omega)]
  have hend : rom.RF / 2 + rom.RP + rom.RF / 2 = rom.RF + rom.RP := by omega
  rw [permute, hfirst, hpartial, hlast, hend]

end

/-- Settles O60: each round element by element, and the phases one after the other. -/
theorem permutationRounds : Obligations.PermutationRounds := by
  intro rom p s hs
  refine ⟨fun r i hi => getD_fullRound rom p s r hi,
    fun r i hi => getD_partialRound rom p hs r hi rfl, ?_⟩
  rintro trace rfl h
  exact permute_eq_trace rom p h

/-! ## The permuted state and the check of the sponge commands (R301, R311) -/

/-- The permuted state holds the permutation of the logical values (R311). -/
theorem holdsState_permuteState {s : State} (h : s.p2OK = true) (st : Vector Word 16) :
    HoldsState s.Fbase.P.toNat (permuteState Config.p2rom s.Fbase.P.toNat st)
      (permute Config.p2rom s.Fbase.P.toNat (logicalState s.Fbase.P.toNat st)) := by
  obtain ⟨-, h3, hP⟩ := Config.p2rom.P_spec
  rw [((p2OK_iff s).1 h).2]
  intro i hi
  rw [slot_permuteState _ (by omega) (by omega), if_pos hi]
  rfl

/-- Every command of the sponge checks `P2OK()` first (R301). -/
theorem raises_of_p2OK_eq_false {i : Instr} {s : State} {k : Except Err State}
    (hx : exec i s = conclude s (withSponge s k)) (h : s.p2OK = false) : Raises i s .noConfig :=
  raises_of_exec hx (withSponge_eq_error.2 (.inl ⟨h, rfl⟩))

/-- A command whose effect is to write the sponge (R51, R360). -/
theorem completes_setPS {i : Instr} {s : State} {p : Sponge} (h : Effect i s (s.setPS p)) :
    ∃ t, exec i s = .next t ∧ Completed s t [.sponge] ∧ t.PS = p :=
  ⟨_, exec_of_effect h, completed_setERR (keeps_setPS s p), rfl⟩

/-! ## P2INIT and P2PERM (R310, R313) -/

theorem exec_p2init (s : State) : exec .p2init s = execP2init s := rfl

theorem exec_p2perm (s : State) : exec .p2perm s = execP2perm s := rfl

/-- Settles O57: after the check each of the two writes the sponge as its rule says. -/
theorem spongeInitAndPermute : Obligations.SpongeInitAndPermute := by
  intro s
  refine ⟨encodes_of_encode rfl rfl, encodes_of_encode rfl rfl,
    fun h => ⟨raises_of_p2OK_eq_false (exec_p2init s) h, raises_of_p2OK_eq_false (exec_p2perm s) h⟩,
    fun h => ⟨?_, ?_⟩⟩
  · obtain ⟨t, hx, ht, hPS⟩ := completes_setPS (i := .p2init) (s := s) ⟨h, rfl⟩
    refine ⟨t, hx, ht, ?_⟩
    rw [hPS]
    exact ⟨rfl, rfl, rfl, fun i hi => by rw [slot_initSlots, if_pos hi]⟩
  · obtain ⟨t, hx, ht, hPS⟩ := completes_setPS (i := .p2perm) (s := s) ⟨h, rfl⟩
    refine ⟨t, hx, ht, ?_⟩
    rw [hPS]
    exact ⟨rfl, rfl, rfl, holdsState_permuteState h _⟩

/-! ## P2ABSORB (R311) -/

/-- The checks of `P2ABSORB` in their order. -/
theorem exec_p2absorb (xs : XReg) (s : State) : exec (.p2absorb xs) s = execP2absorb xs s := rfl

/-- The element that fills the rate (R304, R311). -/
theorem spongeAbsorb_of_full {rom : P2Rom} {ps : Sponge} (h : ps.IDX + 2 = rom.T) (p : Nat)
    (v : Word) : spongeAbsorb rom p ps v =
      { ps with STATE := permuteState rom p (setSlot ps.STATE (1 + ps.IDX) v), IDX := 0 } :=
  if_pos (by omega)

/-- An element that leaves a rate position free (R311). -/
theorem spongeAbsorb_of_not_full {rom : P2Rom} {ps : Sponge} (h : ps.IDX + 2 ≠ rom.T) (p : Nat)
    (v : Word) : spongeAbsorb rom p ps v =
      { ps with STATE := setSlot ps.STATE (1 + ps.IDX) v, IDX := ps.IDX + 1 } :=
  if_neg (by omega)

/-- Settles O58: the three checks, then one of the two cases of `spongeAbsorb`. -/
theorem absorbRule : Obligations.AbsorbRule := by
  intro xs s
  have hx := exec_p2absorb xs s
  refine ⟨encodes_of_encode rfl (congrArg (BitVec.ofNat 32) (by omega)),
    raises_of_p2OK_eq_false hx, fun h hlt => ?_, fun h hlt hsq => ?_, fun h hlt hsq hwf => ?_⟩
  · exact raises_of_exec hx (withSponge_eq_error.2 (.inr ⟨h,
      withElement_eq_error.2 (.inl ⟨Nat.not_lt.1 hlt, rfl⟩)⟩))
  · exact raises_of_exec hx (withSponge_eq_error.2 (.inr ⟨h,
      withElement_eq_error.2 (.inr ⟨hlt, check_eq_error.2 (.inl ⟨by rw [hsq]; rfl, rfl⟩)⟩)⟩))
  · have hT := Config.p2rom.T_spec.2
    have hidx := hwf.idx_le
    obtain ⟨t, hx, ht, hPS⟩ := completes_setPS (i := .p2absorb xs) ⟨h, hlt, hsq, rfl⟩
    refine ⟨t, setSlot s.PS.STATE (1 + s.PS.IDX) (s.x xs), hx, ht,
      fun i => slot_setSlot _ (by omega) i _, ?_⟩
    rw [hPS]
    split
    case isTrue hfull =>
      rw [spongeAbsorb_of_full hfull]
      exact ⟨hsq, rfl, rfl, holdsState_permuteState h _⟩
    case isFalse hfull =>
      rw [spongeAbsorb_of_not_full hfull]
      exact ⟨hsq, rfl, rfl, rfl⟩

/-! ## P2SQUEEZE (R312) -/

theorem exec_p2squeeze (xd : XReg) (s : State) : exec (.p2squeeze xd) s = execP2squeeze xd s := rfl

/-- Whether `P2SQUEEZE` permutes before it reads: at the first squeeze if elements are buffered, at a
later one when all rate positions have been read (R312). -/
def squeezePermutes (rom : P2Rom) (ps : Sponge) : Bool :=
  if ps.SQUEEZED = true then decide (ps.SQIDX + 1 = rom.T) else decide (ps.IDX ≠ 0)

/-- The sponge that is read after a permutation (R312). -/
theorem spongeReady_of_permutes {ps : Sponge} (hps : ps.wf) (p : Nat)
    (h : squeezePermutes Config.p2rom ps = true) : spongeReady Config.p2rom p ps =
      { STATE := permuteState Config.p2rom p ps.STATE, IDX := 0, SQUEEZED := true, SQIDX := 0 } := by
  unfold squeezePermutes at h
  unfold spongeReady
  split at h
  case isTrue hsq =>
    have hlast := of_decide_eq_true h
    rw [if_pos hsq, if_pos (by omega), hsq, (hps.squeezed_pos hsq).2]
  case isFalse hsq => rw [if_neg hsq, if_pos (of_decide_eq_true h)]

/-- The sponge that is read without a permutation (R312). -/
theorem spongeReady_of_not_permutes {ps : Sponge} (hps : ps.wf) (p : Nat)
    (h : squeezePermutes Config.p2rom ps = false) : spongeReady Config.p2rom p ps =
      { STATE := ps.STATE, IDX := 0, SQUEEZED := true, SQIDX := ps.SQIDX } := by
  unfold squeezePermutes at h
  unfold spongeReady
  split at h
  case isTrue hsq =>
    have hlast := of_decide_eq_false h
    have hle := hps.sqidx_le
    rw [if_pos hsq, if_neg (by omega), ← hsq, ← (hps.squeezed_pos hsq).2]
  case isFalse hsq =>
    have hidx := of_decide_eq_false h
    rw [if_neg hsq, if_neg hidx, hps.absorbing (Bool.eq_false_iff.2 hsq), ← not_not.1 hidx]

/-- The element delivered lies in the squeezed sponge before the next position (R312). -/
theorem squeezedElement_eq (rom : P2Rom) (p : Nat) (ps : Sponge) : squeezedElement rom p ps =
    slot (spongeSqueeze rom p ps).STATE (spongeSqueeze rom p ps).SQIDX :=
  congrArg (slot _) (Nat.add_comm 1 _)

theorem completes_p2squeeze {s : State} (h : s.p2OK = true) (xd : XReg) :
    ∃ t, exec (.p2squeeze xd) s = .next t ∧ Completed s t [.x xd, .sponge] ∧
      t.PS = spongeSqueeze Config.p2rom s.Fbase.P.toNat s.PS ∧
      t.x xd = slot t.PS.STATE t.PS.SQIDX :=
  ⟨_, exec_of_effect (i := .p2squeeze xd) ⟨h, rfl⟩,
    completed_setERR ((keeps_setX s xd _).trans (keeps_setPS _ _)), rfl,
    (State.x_setX_same s xd _).trans (squeezedElement_eq _ _ _)⟩

/-- Settles O59: the squeezed sponge with and without a permutation before the read. -/
theorem squeezeRule : Obligations.SqueezeRule := by
  intro xd s
  refine ⟨encodes_of_encode rfl (congrArg (BitVec.ofNat 32) (by omega)),
    raises_of_p2OK_eq_false (exec_p2squeeze xd s), ?_⟩
  rintro h hwf full hfull
  replace hfull : squeezePermutes Config.p2rom s.PS = full := hfull.symm
  obtain ⟨t, hx, ht, hPS, hread⟩ := completes_p2squeeze h xd
  cases full with
  | true =>
    rw [spongeSqueeze, spongeReady_of_permutes hwf _ hfull] at hPS
    refine ⟨t, hx, ht, ?_, ?_, ?_, hread, fun hf => Bool.noConfusion hf, fun _ => ?_⟩ <;> rw [hPS]
    · exact (if_pos (.inl rfl)).symm
    · exact holdsState_permuteState h _
  | false =>
    rw [spongeSqueeze, spongeReady_of_not_permutes hwf _ hfull] at hPS
    refine ⟨t, hx, ht, ?_, ?_, ?_, hread, fun _ => ?_, fun hf => Bool.noConfusion hf⟩ <;> rw [hPS]
    split
    case isTrue hsq =>
      have hfirst : s.PS.SQUEEZED = false := hsq.resolve_left Bool.false_ne_true
      exact congrArg (· + 1) (hwf.absorbing hfirst)
    case isFalse => rfl

end Sys2Proof.Machine
end

section
/-! PROOFS. How a command ends: completed, with an operation error or with a fault (rules R360 to R365), and
the search of the default nonce function (rule R342). -/

namespace Sys2Proof.Machine

-- Many theorems elaborated at once need more memory than the check grants.
set_option Elab.async false

/-! ## The outcome codes (R363) -/

/-- The codes of the two faults are those from 0x80 on (R362, R363). -/
theorem errIsFault_iff (e : Err) : errIsFault e = true ↔ errCode e = 0x80 ∨ errCode e = 0x81 := by
  cases e <;> simp [errIsFault, errCode]

theorem eq_invalidSignatureS_of_errCode {e : Err} (h : errCode e = 0x06) :
    ∃ v, e = .invalidSignatureS v := by
  cases e with
  | invalidSignatureS v => exact ⟨v, rfl⟩
  | _ => exact absurd h (by simp [errCode])

section
variable {s : State} {e : Err}

theorem State.ERRVAL_raise_of_ne (h : errCode e ≠ 0x06) : (s.raise e).ERRVAL = s.ERRVAL := by
  cases e with
  | invalidSignatureS v => exact absurd rfl h
  | _ => rfl

theorem State.FAULT_raise_of_not_fault (h : errIsFault e = false) :
    (s.raise e).ST.FAULT = s.ST.FAULT := by
  simp [h]

theorem State.FAULT_raise_of_fault (h : errIsFault e = true) : (s.raise e).ST.FAULT = true := by
  simp [h]

/-- A frame without a part that turns out to be unchanged. -/
theorem Keeps.of_same {t : State} {l l' : List Part} (h : Keeps s t l)
    (hl : ∀ q ∈ l, q ∈ l' ∨ q.same s t) : Keeps s t l' := fun q hq => by
  by_cases hm : q ∈ l
  · exact (hl q hm).resolve_left hq
  · exact h q hm

/-- An operation error changes `ST.ERR` and `ERRVAL` (R361). -/
theorem keeps_raise_of_not_fault (h : errIsFault e = false) :
    Keeps s (s.raise e) [.err, .errval] :=
  (keeps_raise s e).of_same (by simpa [Part.same] using State.FAULT_raise_of_not_fault h)

/-- A fault changes `ST.ERR` and `ST.FAULT` (R362). -/
theorem keeps_raise_of_fault (h : errIsFault e = true) : Keeps s (s.raise e) [.err, .fault] := by
  have hv : (s.raise e).ERRVAL = s.ERRVAL :=
    State.ERRVAL_raise_of_ne fun h6 => by
      obtain ⟨v, rfl⟩ := eq_invalidSignatureS_of_errCode h6
      cases h
  exact (keeps_raise s e).of_same (by simpa [Part.same] using hv)

end

/-! ## How a command ends (R360 to R362) -/

section
variable {i : Instr} {s t : State}

/-- The outcome code 0 is that of a command that has completed with its effect (R360). -/
theorem exec_completed (h : exec i s = .next t) (h0 : t.ST.ERR = okCode) :
    ∃ u, Effect i s u ∧ t = u.setERR okCode := by
  rcases exec_cases h with hu | ⟨e, -, rfl⟩
  · exact hu
  · exact absurd h0 (errCode_ne_ok e)

/-- Any other outcome code is that of the error or fault that was raised (R361, R362). -/
theorem exec_failed (h : exec i s = .next t) (h0 : t.ST.ERR ≠ okCode) :
    ∃ e, FailsWith i s e ∧ t = s.raise e := by
  rcases exec_cases h with ⟨u, -, rfl⟩ | he
  · exact absurd rfl h0
  · exact he

end

/-- Settles O8: the effect of a command leaves both alone, by its frame. -/
theorem successEffect : Obligations.SuccessEffect := by
  intro i s t h h0
  obtain ⟨u, hu, rfl⟩ := exec_completed h h0
  exact ⟨hu.frame .fault rfl, hu.frame .errval rfl⟩

/-- Settles O9: the state is that of `raise`, whose frame and whose `ERRVAL` depend on the code. -/
theorem operationErrorEffect : Obligations.OperationErrorEffect := by
  intro i s t h h0 h80 h81
  obtain ⟨e, ⟨-, hsig⟩, rfl⟩ := exec_failed h h0
  have hnf : errIsFault e = false :=
    Bool.eq_false_iff.2 fun hf => ((errIsFault_iff e).1 hf).elim h80 h81
  refine ⟨keeps_raise_of_not_fault hnf, State.ERRVAL_raise_of_ne, fun h6 => ?_⟩
  obtain ⟨v, rfl⟩ := eq_invalidSignatureS_of_errCode h6
  exact hsig v rfl

/-! ## The sticky fault (R362) -/

/-- After a fault `Issue(w)` is ignored (R362). -/
theorem issue_of_fault {s : State} (h : s.ST.FAULT = true) (w : CmdWord) : issue w s = .next s :=
  if_pos h

/-- After a fault the host's moves keep it, but for `Reset()` (R362). -/
theorem makeMove_keeps_fault {m : HostMove} {s t : State} (h : makeMove m s = .next t)
    (hf : s.ST.FAULT = true) (hm : m ≠ .reset) : t.ST.FAULT = true := by
  cases m with
  | issue w =>
    cases (issue_of_fault hf w).symm.trans h
    exact hf
  | readStatus | hostRead | hostWrite =>
    cases h
    exact hf
  | reset => exact absurd rfl hm

/-- Settles O10: the frame of a fault, and the host's moves after one. -/
theorem faultEffect : Obligations.FaultEffect := by
  refine ⟨fun i s t h hcode => ?_, fun s w ms hp hf => ?_, fun s t h hf hnext => ?_⟩
  · have h0 : t.ST.ERR ≠ okCode := by rcases hcode with hc | hc <;> rw [hc] <;> decide
    obtain ⟨e, -, rfl⟩ := exec_failed h h0
    have hfault : errIsFault e = true := (errIsFault_iff e).2 hcode
    exact ⟨State.FAULT_raise_of_fault hfault, keeps_raise_of_fault hfault⟩
  · have hstep : step s = .next (s.atMove ms) :=
      (step_cons hp).trans (issue_of_fault (s := s.atMove ms) hf w)
    exact ⟨_, hstep, rfl, rfl, keeps_port s ms .nothing⟩
  · cases hp : s.pending with
    | nil =>
      cases (step_nil hp).symm.trans h
      exact hf
    | cons m ms =>
      refine makeMove_keeps_fault ((step_cons hp).symm.trans h) hf fun hm => hnext ?_
      rw [State.nextMove, hp, hm, List.head?_cons]

/-! ## The table of outcome codes (R365) -/

/-- `CFGW` completes only on a register that the engine has and that is marked RW (R55, R106). -/
theorem writeCtl_ok_wf {c : CtlReg} {v : Word} {s u : State} (h : s.writeCtl c v = .ok u) :
    (c.present && c.writable) = true := by
  cases c with
  | gen | root2 | model | ca | cb | gx | gy | cofactor | cofactorInv => rfl
  | psState k =>
    obtain ⟨hp, -⟩ := check_eq_ok.1 h
    rw [hp]
    rfl
  | p | r1 | r2 | inv | s | valid | errval | kActive | kPos | p2T | p2D | p2RF | p2RP | p2P | psIdx
  | psSqueezed | psSqidx => cases h

/-- A command that completes is well-formed (R106, R107). -/
theorem Effect.wf {i : Instr} {s u : State} (h : Effect i s u) : i.wf = true := by
  cases i with
  | cfgw => exact writeCtl_ok_wf h
  | cfgr =>
    obtain ⟨hp, -⟩ := h
    exact hp
  | umul | pget =>
    obtain ⟨hne, -⟩ := h
    exact bne_iff_ne.2 hne
  | esign =>
    obtain ⟨⟨hrs, hrv, hsv⟩, -⟩ := h
    simp [Instr.wf, hrs, hrv, hsv]
  | _ => rfl

/-- An ill-formed command raises `IllegalCommand` (R107, log entry 8). -/
theorem raises_of_not_wf {i : Instr} (s : State) (hw : i.wf = false) :
    Raises i s .illegalCommand := by
  obtain ⟨t, ht⟩ := exec_next i s
  rcases exec_cases ht with ⟨u, hu, -⟩ | ⟨e, ⟨⟨-, hw'⟩ | ⟨-, rfl⟩, -⟩, rfl⟩
  · exact absurd (hw.symm.trans hu.wf) Bool.false_ne_true
  · exact absurd (hw.symm.trans hw') Bool.false_ne_true
  · exact ht

/-- Settles O11: a failure has a code of the table, or the command is ill-formed. -/
theorem errorTable : Obligations.ErrorTable := by
  refine fun i s => ⟨fun hw => ?_, raises_of_not_wf s⟩
  obtain ⟨t, ht⟩ := exec_next i s
  refine ⟨t, ht, ?_⟩
  rcases exec_cases ht with ⟨u, -, rfl⟩ | ⟨e, ⟨⟨hcode, -⟩ | ⟨hw', -⟩, -⟩, rfl⟩
  · exact .inl rfl
  · exact .inr hcode
  · exact absurd (hw'.symm.trans hw) Bool.false_ne_true

/-! ## The search for a candidate, turn by turn (R342) -/

/-- The search of the default nonce function, begun at turn i with `bound` turns to go, for the element
that is emitted after `ctr` others. -/
def searchFrom (n sk h bound i ctr : Nat) : Option Nat :=
  nonceSearch n (numBits n) bound (candidateState n sk h i).1 (candidateState n sk h i).2 ctr

section
variable {n sk h : Nat}

theorem rfc6979_eq_searchFrom (ctr : Nat) :
    rfc6979 n sk h ctr = searchFrom n sk h (nonceBound ctr) 0 ctr := rfl

/-- The turn of the search, by what turn i of the sequence does. -/
theorem searchFrom_succ (bound i ctr : Nat) : searchFrom n sk h (bound + 1) i ctr =
    if 1 ≤ candidateAt n sk h i ∧ candidateAt n sk h i ≤ n - 1 ∧ ctr = 0 then
      some (candidateAt n sk h i)
    else searchFrom n sk h bound (i + 1)
      (if 1 ≤ candidateAt n sk h i ∧ candidateAt n sk h i ≤ n - 1 then ctr - 1 else ctr) := rfl

section
variable {i : Nat}

theorem searchFrom_emits_zero (he : Emits n sk h i) (bound : Nat) :
    searchFrom n sk h (bound + 1) i 0 = some (candidateAt n sk h i) := by
  obtain ⟨h1, h2⟩ := he
  rw [searchFrom_succ, if_pos ⟨h1, h2, rfl⟩]

theorem searchFrom_emits_succ (he : Emits n sk h i) (bound ctr : Nat) :
    searchFrom n sk h (bound + 1) i (ctr + 1) = searchFrom n sk h bound (i + 1) ctr := by
  rw [searchFrom_succ, if_neg fun hc => Nat.succ_ne_zero ctr hc.2.2]
  exact congrArg (searchFrom n sk h bound (i + 1)) (if_pos he)

theorem searchFrom_not_emits (he : ¬ Emits n sk h i) (bound ctr : Nat) :
    searchFrom n sk h (bound + 1) i ctr = searchFrom n sk h bound (i + 1) ctr := by
  rw [searchFrom_succ, if_neg fun hc => he ⟨hc.1, hc.2.1⟩]
  exact congrArg (searchFrom n sk h bound (i + 1)) (if_neg he)

theorem emittedBefore_succ_of_emits (he : Emits n sk h i) :
    emittedBefore n sk h (i + 1) = emittedBefore n sk h i + 1 :=
  congrArg (emittedBefore n sk h i + ·) (if_pos he)

theorem emittedBefore_succ_of_not_emits (he : ¬ Emits n sk h i) :
    emittedBefore n sk h (i + 1) = emittedBefore n sk h i :=
  congrArg (emittedBefore n sk h i + ·) (if_neg he)

end

theorem emittedBefore_mono : Monotone (emittedBefore n sk h) :=
  monotone_nat_of_le_succ fun _ => Nat.le_add_right _ _

/-- Within its bound the search finds the candidate that is emitted after `ctr` others. -/
theorem searchFrom_eq_some {j : Nat} (hj : Emits n sk h j) (bound : Nat) :
    ∀ i ctr, i ≤ j → j < i + bound → emittedBefore n sk h j = emittedBefore n sk h i + ctr →
      searchFrom n sk h bound i ctr = some (candidateAt n sk h j) := by
  induction bound with
  | zero => intro i ctr hij hlt; omega
  | succ bound ih =>
    intro i ctr hij hlt hcount
    rcases Nat.eq_or_lt_of_le hij with rfl | hij
    · obtain rfl : ctr = 0 := by omega
      exact searchFrom_emits_zero hj bound
    have hmono : emittedBefore n sk h (i + 1) ≤ emittedBefore n sk h j := emittedBefore_mono hij
    by_cases he : Emits n sk h i
    · have hsucc := emittedBefore_succ_of_emits he
      cases ctr with
      | zero => exact absurd hmono (by omega)
      | succ ctr =>
        rw [searchFrom_emits_succ he]
        exact ih (i + 1) ctr hij (by omega) (by omega)
    · rw [searchFrom_not_emits he]
      exact ih (i + 1) ctr hij (by omega) (by rw [hcount, emittedBefore_succ_of_not_emits he])

/-- Where no turn emits after `ctr` others, the search finds nothing. -/
theorem searchFrom_eq_none (bound : Nat) :
    ∀ i ctr, (∀ j, i ≤ j → Emits n sk h j →
      emittedBefore n sk h j ≠ emittedBefore n sk h i + ctr) →
      searchFrom n sk h bound i ctr = none := by
  induction bound with
  | zero => intro i ctr _; rfl
  | succ bound ih =>
    intro i ctr hno
    by_cases he : Emits n sk h i
    · have hsucc := emittedBefore_succ_of_emits he
      cases ctr with
      | zero => exact absurd rfl (hno i le_rfl he)
      | succ ctr =>
        rw [searchFrom_emits_succ he]
        refine ih (i + 1) ctr fun j hj hej => ?_
        have := hno j (by omega) hej
        omega
    · rw [searchFrom_not_emits he]
      refine ih (i + 1) ctr fun j hj hej => ?_
      rw [emittedBefore_succ_of_not_emits he]
      exact hno j (by omega) hej

end

/-! ## The sequence of candidates repeats (R342, log entry 5) -/

/-- One turn of `Candidates`: `Kk` and V afterwards, from those before. -/
def candidateTurn (n : Nat) (st : List Byte × List Byte) : List Byte × List Byte :=
  let V := (nonceGather st.1 (numBits n) (numBits n) [] st.2).2
  (hmac st.1 (V ++ [0x00]), hmac (hmac st.1 (V ++ [0x00])) V)

/-- `Kk` and V as one number: both have 32 bytes. -/
def stateNumber (st : List Byte × List Byte) : Nat := beNat st.1 * 2 ^ 256 + beNat st.2

theorem beNat_lt_of_length {bs : List Byte} (h : bs.length = 32) : beNat bs < 2 ^ 256 := by
  have hlt := beNat_lt bs
  rw [h] at hlt
  exact hlt.trans_eq (by norm_num)

section
variable {st st' : List Byte × List Byte}

theorem stateNumber_lt (hk : st.1.length = 32) (hV : st.2.length = 32) :
    stateNumber st < nonceStates := by
  have hk := beNat_lt_of_length hk
  have hV := beNat_lt_of_length hV
  unfold stateNumber nonceStates
  omega

theorem stateNumber_inj (hk : st.1.length = 32) (hV : st.2.length = 32) (hk' : st'.1.length = 32)
    (hV' : st'.2.length = 32) (h : stateNumber st = stateNumber st') : st = st' := by
  have hlt := beNat_lt_of_length hV
  have hlt' := beNat_lt_of_length hV'
  unfold stateNumber at h
  exact Prod.ext (beNat_inj _ _ (hk.trans hk'.symm) (by omega))
    (beNat_inj _ _ (hV.trans hV'.symm) (by omega))

end

/-- In an orbit whose values k and l turns after a agree, no value after a is missing among the first l. -/
theorem orbit_eq_early {α : Type} {f : α → α} {g : Nat → α} (hg : ∀ i, g (i + 1) = f (g i))
    {a k l : Nat} (hkl : k < l) (heq : g (a + k) = g (a + l)) (j : Nat) :
    ∃ m, m < l ∧ g (a + m) = g (a + j) := by
  have hshift : ∀ d, g (a + k + d) = g (a + l + d) := by
    intro d
    induction d with
    | zero => exact heq
    | succ d ih => rw [← Nat.add_assoc, ← Nat.add_assoc, hg, hg, ih]
  induction j using Nat.strong_induction_on with
  | _ j ih =>
    rcases Nat.lt_or_ge j l with hj | hj
    · exact ⟨j, hj, rfl⟩
    · obtain ⟨m, hm, hgm⟩ := ih (k + (j - l)) (by omega)
      refine ⟨m, hm, hgm.trans ?_⟩
      have hd := hshift (j - l)
      rwa [Nat.add_assoc, Nat.add_assoc a l, Nat.add_sub_cancel' hj] at hd

section
variable {n sk h : Nat}

theorem candidateState_succ (i : Nat) :
    candidateState n sk h (i + 1) = candidateTurn n (candidateState n sk h i) := rfl

theorem length_candidateState (i : Nat) :
    (candidateState n sk h i).1.length = 32 ∧ (candidateState n sk h i).2.length = 32 := by
  cases i <;> exact ⟨length_hmac _ _, length_hmac _ _⟩

/-- Whether a turn emits is decided by `Kk` and V before it. -/
theorem Emits.of_candidateState_eq {i j : Nat} (hi : Emits n sk h i)
    (heq : candidateState n sk h j = candidateState n sk h i) : Emits n sk h j := by
  have hk : candidateAt n sk h j = candidateAt n sk h i := by
    unfold candidateAt
    rw [heq]
  rwa [Emits, hk]

/-- Of `nonceStates + 1` turns in a row two begin with the same `Kk` and V: the pigeonhole principle. -/
theorem candidateState_repeats (a : Nat) : ∃ k l, k < l ∧ l ≤ nonceStates ∧
    candidateState n sk h (a + k) = candidateState n sk h (a + l) := by
  have hlen := length_candidateState (n := n) (sk := sk) (h := h)
  have hcard : (Finset.range nonceStates).card < (Finset.range (nonceStates + 1)).card := by
    rw [Finset.card_range, Finset.card_range]
    exact Nat.lt_succ_self _
  have hmaps : ∀ m ∈ Finset.range (nonceStates + 1),
      stateNumber (candidateState n sk h (a + m)) ∈ Finset.range nonceStates :=
    fun m _ => Finset.mem_range.2 (stateNumber_lt (hlen _).1 (hlen _).2)
  obtain ⟨k, hk, l, hl, hne, hnum⟩ := Finset.exists_ne_map_eq_of_card_lt_of_maps_to hcard hmaps
  have heq := stateNumber_inj (hlen _).1 (hlen _).2 (hlen _).1 (hlen _).2 hnum
  rw [Finset.mem_range] at hk hl
  rcases Nat.lt_or_gt_of_ne hne with hlt | hlt
  · exact ⟨k, l, hlt, Nat.le_of_lt_succ hl, heq⟩
  · exact ⟨l, k, hlt, Nat.le_of_lt_succ hk, heq.symm⟩

variable {i : Nat}

/-- If a turn emits, so does one of any `nonceStates` turns in a row that begin no later. -/
theorem exists_emits_in_window (hi : Emits n sk h i) {a : Nat} (ha : a ≤ i) :
    ∃ m, m < nonceStates ∧ Emits n sk h (a + m) := by
  obtain ⟨k, l, hkl, hl, heq⟩ := candidateState_repeats (n := n) (sk := sk) (h := h) a
  obtain ⟨m, hm, hst⟩ := orbit_eq_early candidateState_succ hkl heq (i - a)
  rw [Nat.add_sub_cancel' ha] at hst
  exact ⟨m, hm.trans_le hl, hi.of_candidateState_eq hst⟩

theorem emittedBefore_window (hi : Emits n sk h i) {a : Nat} (ha : a ≤ i) :
    emittedBefore n sk h a + 1 ≤ emittedBefore n sk h (a + nonceStates) := by
  obtain ⟨m, hm, he⟩ := exists_emits_in_window hi ha
  calc emittedBefore n sk h a + 1
      ≤ emittedBefore n sk h (a + m) + 1 :=
        Nat.succ_le_succ (emittedBefore_mono (Nat.le_add_right a m))
    _ = emittedBefore n sk h (a + m + 1) := (emittedBefore_succ_of_emits he).symm
    _ ≤ emittedBefore n sk h (a + nonceStates) :=
        emittedBefore_mono (Nat.add_le_add_left hm a)

/-- Before a turn that emits, every `nonceStates` turns have brought an element. -/
theorem le_emittedBefore_mul (hi : Emits n sk h i) (m : Nat) (hm : nonceStates * m ≤ i) :
    m ≤ emittedBefore n sk h (nonceStates * m) := by
  induction m with
  | zero => exact Nat.zero_le _
  | succ m ih =>
    rw [Nat.mul_succ] at hm ⊢
    have hle : nonceStates * m ≤ i := (Nat.le_add_right _ _).trans hm
    exact (Nat.succ_le_succ (ih hle)).trans (emittedBefore_window hi hle)

/-- The element with index `ctr` comes within the bound of the search, if it comes at all (log
entry 5). -/
theorem lt_nonceBound (hi : Emits n sk h i) : i < nonceBound (emittedBefore n sk h i) := by
  by_contra hge
  have hmul : nonceStates * (emittedBefore n sk h i + 1) ≤ i := by
    rw [Nat.mul_succ, Nat.add_comm]
    exact Nat.not_lt.1 hge
  exact absurd ((le_emittedBefore_mul hi _ hmul).trans (emittedBefore_mono hmul))
    (Nat.not_succ_le_self _)

theorem rfc6979_eq_some (hi : Emits n sk h i) :
    rfc6979 n sk h (emittedBefore n sk h i) = some (candidateAt n sk h i) := by
  have hlt := lt_nonceBound hi
  rw [rfc6979_eq_searchFrom]
  exact searchFrom_eq_some hi _ 0 _ (Nat.zero_le i) (by rwa [Nat.zero_add]) (Nat.zero_add _).symm

/-- The default nonce function gives what its search finds (R282, R342). -/
theorem nonceBy_none_of_some {ctr k : Nat} (hk : rfc6979 n sk h ctr = some k) :
    nonceBy none n sk h ctr = k := by
  rw [nonceBy, hk]

end

/-- Settles O53: the element comes within the bound because `Kk` and V repeat, and the search counts the
elements before it. -/
theorem defaultNonceRule : Obligations.DefaultNonceRule := by
  intro n sk h ctr
  refine ⟨?_, fun hno => ?_⟩
  · rintro i hi rfl
    exact ⟨rfc6979_eq_some hi, nonceBy_none_of_some (rfc6979_eq_some hi)⟩
  · rw [rfc6979_eq_searchFrom]
    refine searchFrom_eq_none _ 0 ctr fun j _ hj => ?_
    rw [emittedBefore, Nat.zero_add]
    exact hno j hj

end Sys2Proof.Machine
end
